-- ==== Sys2Proof/Word.lean ====
section
/-! DEFINITION. The word types of the Jenhal (R3, R46) and the keyed list that every sparse table of the model is. -/

namespace Sys2Proof

/-- A 32-bit register or instruction word. -/
abbrev Word := BitVec 32
/-- A byte of memory. -/
abbrev Byte := BitVec 8
/-- A 64-bit register. -/
abbrev DWord := BitVec 64
/-- A 40-bit accumulator pattern (FA40, INT40 or B1; R176, R178). -/
abbrev Acc := BitVec 40
/-- Data held by key, keys ascending (memory by address, tasks by accession number, and so on). -/
abbrev KMap (α : Type) := List (Nat × α)

end Sys2Proof
end

