-- ==== Sys2Proof/Syntax.lean ====
section
/-!
DEFINITION. The instructions and events of the Jenhal: one constructor of `Instr` for each row of
spec/opcode_table.json. The first 153 rows are instruction words, whose operands are grouped by operand form (R55);
the other 62 are operations and events of the device and of its surroundings, which have no bits and carry their
input as data (95_what_each_step_holds.md).
-/

namespace Sys2Proof

/-- VR with an SB bit: `c` chain bit, `g` guard, `d`, `a`, `b` register fields, `sb` says B names S0 to S63 (R58). -/
structure Bin where
  c : Bool
  g : BitVec 3
  d : BitVec 6
  a : BitVec 6
  b : BitVec 6
  sb : Bool
  deriving DecidableEq, Repr

/-- `Bin` with one type bit in X[0] (IMIN, IMAX, BFX). -/
structure BinU where
  c : Bool
  g : BitVec 3
  d : BitVec 6
  a : BitVec 6
  b : BitVec 6
  sb : Bool
  u : Bool
  deriving DecidableEq, Repr

/-- `Bin` with a rounding field (R183, R196). -/
structure BinR where
  c : Bool
  g : BitVec 3
  d : BitVec 6
  a : BitVec 6
  b : BitVec 6
  sb : Bool
  r : BitVec 3
  deriving DecidableEq, Repr

/-- A unary VR word. -/
structure Un where
  c : Bool
  g : BitVec 3
  d : BitVec 6
  a : BitVec 6
  deriving DecidableEq, Repr

/-- A unary VR word with a rounding field. -/
structure UnR where
  c : Bool
  g : BitVec 3
  d : BitVec 6
  a : BitVec 6
  r : BitVec 3
  deriving DecidableEq, Repr

/-- FCVT: `p` is the conversion-pair code (R202). -/
structure Cvt where
  c : Bool
  g : BitVec 3
  d : BitVec 6
  a : BitVec 6
  p : BitVec 6
  r : BitVec 3
  deriving DecidableEq, Repr

/-- VI with a 10-bit immediate. -/
structure Imm where
  c : Bool
  g : BitVec 3
  d : BitVec 6
  a : BitVec 6
  i : BitVec 10
  deriving DecidableEq, Repr

/-- The immediate shifts: amount 0 to 31. -/
structure ShImm where
  c : Bool
  g : BitVec 3
  d : BitVec 6
  a : BitVec 6
  n : BitVec 5
  deriving DecidableEq, Repr

/-- MOVI. -/
structure MovImm where
  c : Bool
  g : BitVec 3
  d : BitVec 6
  i : BitVec 10
  deriving DecidableEq, Repr

/-- ICMP and FCMP: `t` and `f` are the predicate pair, `x` the condition (R76, R201). -/
structure Cmp where
  c : Bool
  g : BitVec 3
  f : BitVec 3
  t : BitVec 3
  a : BitVec 6
  b : BitVec 6
  x : BitVec 3
  deriving DecidableEq, Repr

/-- SEL: `p` is the selecting predicate (R77). -/
structure SelOp where
  c : Bool
  g : BitVec 3
  d : BitVec 6
  a : BitVec 6
  b : BitVec 6
  sb : Bool
  p : BitVec 3
  deriving DecidableEq, Repr

/-- PAND, POR, PXOR: predicate codes (R78). -/
structure Pbin where
  c : Bool
  g : BitVec 3
  d : BitVec 6
  a : BitVec 6
  b : BitVec 6
  deriving DecidableEq, Repr

/-- A cross-lane word with a two-bit form; `b` names the lane-control word's S register (R210). -/
structure Lane where
  c : Bool
  g : BitVec 3
  d : BitVec 6
  a : BitVec 6
  b : BitVec 6
  f : BitVec 2
  deriving DecidableEq, Repr

/-- LANEQ. -/
structure LaneQ where
  c : Bool
  g : BitVec 3
  d : BitVec 6
  b : BitVec 6
  f : BitVec 2
  deriving DecidableEq, Repr

/-- RNG. -/
structure RngOp where
  c : Bool
  g : BitVec 3
  d : BitVec 6
  f : BitVec 2
  deriving DecidableEq, Repr

/-- LRED and LSCAN: `o` is the fold (R218). -/
structure LaneR where
  c : Bool
  g : BitVec 3
  d : BitVec 6
  a : BitVec 6
  b : BitVec 6
  o : BitVec 3
  deriving DecidableEq, Repr

/-- SR: three scalar codes (R57). -/
structure Sr where
  c : Bool
  d : BitVec 8
  a : BitVec 8
  b : BitVec 8
  deriving DecidableEq, Repr

/-- SI: scalar destination and 17-bit immediate. -/
structure Si where
  c : Bool
  d : BitVec 8
  i : BitVec 17
  deriving DecidableEq, Repr

/-- LD, ST, LDP, STP: `off` the offset register, `k` the record slot, `ord` the order, `u` raw word, `p` X[1:0]. -/
structure MemP where
  c : Bool
  g : BitVec 3
  d : BitVec 6
  off : BitVec 6
  k : BitVec 5
  ord : BitVec 2
  u : Bool
  p : BitVec 2
  deriving DecidableEq, Repr

/-- LDS and STS: X[1:0] is 0 (R141). -/
structure MemU where
  c : Bool
  g : BitVec 3
  d : BitVec 6
  off : BitVec 6
  k : BitVec 5
  ord : BitVec 2
  u : Bool
  deriving DecidableEq, Repr

/-- ATOM, RED (X the operation) and CAS (X the success predicate). -/
structure MemX where
  c : Bool
  g : BitVec 3
  d : BitVec 6
  off : BitVec 6
  k : BitVec 5
  ord : BitVec 2
  x : BitVec 3
  deriving DecidableEq, Repr

/-- A MEM word with no modifier: CAS2, MCAS, ENQ, CHASE, CPY, GATH, SCAT. -/
structure Mem0 where
  c : Bool
  g : BitVec 3
  d : BitVec 6
  off : BitVec 6
  k : BitVec 5
  ord : BitVec 2
  deriving DecidableEq, Repr

/-- LDSUM: `y` is .ASYNC. -/
structure MemY where
  c : Bool
  g : BitVec 3
  d : BitVec 6
  off : BitVec 6
  k : BitVec 5
  ord : BitVec 2
  y : Bool
  deriving DecidableEq, Repr

/-- WAITC: `n` the counter, `k` the count (R163). -/
structure WaitC where
  c : Bool
  g : BitVec 3
  k : BitVec 6
  n : BitVec 2
  deriving DecidableEq, Repr

/-- FENCE at scope `s` (R164). -/
structure FenceOp where
  c : Bool
  g : BitVec 3
  s : BitVec 3
  deriving DecidableEq, Repr

/-- FLUSH and INVL. -/
structure LineOp where
  c : Bool
  g : BitVec 3
  off : BitVec 6
  k : BitVec 5
  deriving DecidableEq, Repr

/-- PF: `n` is .NEAR. -/
structure PfOp where
  c : Bool
  g : BitVec 3
  n : Bool
  off : BitVec 6
  k : BitVec 5
  deriving DecidableEq, Repr

/-- WAITLN: `acq` is ORD = 1. -/
structure WaitLn where
  c : Bool
  g : BitVec 3
  d : BitVec 6
  off : BitVec 6
  k : BitVec 5
  acq : Bool
  deriving DecidableEq, Repr

/-- MX words with a row-index register: `v` convergence register, `t` tile, `o` operator entry, `f` format word. -/
structure Mx where
  c : Bool
  v : BitVec 4
  t : BitVec 4
  o : BitVec 4
  i : BitVec 6
  f : BitVec 6
  deriving DecidableEq, Repr

/-- MX words without a row-index register. -/
structure Mx0 where
  c : Bool
  v : BitVec 4
  t : BitVec 4
  o : BitVec 4
  f : BitVec 6
  deriving DecidableEq, Repr

/-- MBIND. -/
structure MbindOp where
  c : Bool
  v : BitVec 4
  a : BitVec 6
  b : BitVec 6
  deriving DecidableEq, Repr

/-- MFILL: kind `k`, value pair `m`. -/
structure MfillOp where
  c : Bool
  t : BitVec 4
  o : BitVec 4
  k : BitVec 2
  m : BitVec 4
  deriving DecidableEq, Repr

/-- OPTAB. -/
structure OptabOp where
  c : Bool
  o : BitVec 4
  a : BitVec 6
  deriving DecidableEq, Repr

/-- CBLD. -/
structure CbldOp where
  c : Bool
  k : BitVec 5
  a : BitVec 6
  b : BitVec 6
  deriving DecidableEq, Repr

/-- SCLD. -/
structure ScldOp where
  c : Bool
  k : BitVec 5
  a : BitVec 6
  deriving DecidableEq, Repr

/-- MQRY: `l` is .CLR. -/
structure MqryOp where
  c : Bool
  d : BitVec 6
  t : BitVec 4
  l : Bool
  deriving DecidableEq, Repr

/-- Words with three 6-bit fields and no chain or guard (SPAWN, BOUND, INCSET, the Curator words, CMTX). -/
structure Dab where
  d : BitVec 6
  a : BitVec 6
  b : BitVec 6
  deriving DecidableEq, Repr

/-- Words with D and B (BAR, BARW, INCGET). -/
structure Db where
  d : BitVec 6
  b : BitVec 6
  deriving DecidableEq, Repr

/-- Words with D and A (WAITEV, XACQ, XREL). -/
structure Da where
  d : BitVec 6
  a : BitVec 6
  deriving DecidableEq, Repr

/-- SYSRD and SYSWR: `k` the register kind (1 scalar), `h` the half (1 high); `c` is false in every SYSWR (R51). -/
structure SysOp where
  c : Bool
  g : BitVec 3
  d : BitVec 6
  a : BitVec 6
  k : Bool
  h : Bool
  deriving DecidableEq, Repr

/-- REP: count minus 1, step selects, three step codes (R55). -/
structure RepOp where
  n : BitVec 6
  s : BitVec 3
  d : BitVec 2
  a : BitVec 2
  b : BitVec 2
  deriving DecidableEq, Repr

/-- The decode faults of R54, in the order in which one word is checked. -/
inductive DecodeFault where
  | illegalInstruction
  | illegalPrefix
  | illegalChain
  | guardMisuse
  | illegalOperand
  deriving DecidableEq, Repr

/-- How a remote record lays its elements out (R35, R372): element `i` of a one-dimensional or two-dimensional array, from BASE, by
virtual address at the source. `win` is the first virtual address of the source's window, `lo` and `hi` the ends of the window in the
target's export: an element outside it has an offset that is not below SIZE (R373). -/
structure Shape where
  base : Nat
  win : Nat
  lo : Nat
  hi : Nat
  str0 : Int
  str1 : Int
  rowlen : Nat
  extent : Nat
  deriving DecidableEq, Repr

/-- What a remote request asks the target to perform (R135, R148, R156 to R159). Formats are FMT codes of R34. A CHASE says from which
node, how many links at most from there, how many have been followed, and whether every page read so far carries the ROE mark (R375). -/
inductive RemoteOp where
  | load (bytes : Nat)
  | ldsum (fmt : Nat)
  | store (data : List Byte)
  | red (op fmt : Nat) (v : Word)
  | atom (op fmt : Nat) (v : Word)
  | cas (compare new : Word)
  | cas2 (c0 c1 n0 n1 : Word)
  | mcas (offs : List Nat) (compare new : List Word)
  | enq (sh : Shape) (h n : Nat)
  | chase (sh : Shape) (i k c : Nat) (roe : Bool)
  deriving DecidableEq, Repr

/-- A request as it stands on the fabric: source peer, tag, export index, offset in the export (R372 to R374). -/
structure RemoteReq where
  src : Nat
  tag : Nat
  exp : Nat
  off : Nat
  op : RemoteOp
  deriving DecidableEq, Repr

/-- A response or an acknowledgement (R148, R133). `bounds` and `misaligned` report the checks that ENQ and CHASE make
at the target on the words they read (R158, R159). -/
inductive RemoteRes where
  | data (ws : List Word)
  | poisoned (reason : Nat)
  | unknown
  | bounds (index : Nat)
  | misaligned (index : Nat)
  | outside (index : Nat)
  deriving DecidableEq, Repr

/-- Where an uncorrectable soft error strikes (R394): the state of one task's own attempt; a memory line; a Curator
name; the dirty L1 bytes of a task; a matrix pass of a cluster (R241); the datapath of a home while it serves a peer's request,
which is not performed (`posted` says that it is acknowledged, not answered). Or an error that is corrected. -/
inductive SoftSite where
  | own (accn : Nat)
  | line (line : Nat)
  | lock (key : Nat)
  | dirty (accn : Nat)
  | pass (cluster : Nat)
  | answer (r : RemoteReq) (posted : Bool)
  | corrected
  deriving DecidableEq, Repr

/-- Which control register a register write names (R366, R413). -/
inductive CtlReg where
  | exptb
  | encl
  | vcmode
  | saveb
  | saves
  | pcap
  | launchq
  deriving DecidableEq, Repr

/-- The instructions and events, in the order of the table. -/
inductive Instr where
  -- control and system; the field of NOP is never set (R64)
  | nop (c : Bool)
  | exit (g : BitVec 3)
  | ret (g : BitVec 3) (a : BitVec 6)
  | brk (c : Bool) (g : BitVec 3) (b : BitVec 6)
  | sysrd (o : SysOp)
  | syswr (o : SysOp)
  | brx (g : BitVec 3) (a : BitVec 6)
  | bra (g : BitVec 3) (d : BitVec 22)
  | call (g : BitVec 3) (d : BitVec 22)
  | rep (o : RepOp)
  -- vector integer, logic, shifts, compare
  | iadd (o : Bin)
  | isub (o : Bin)
  | imul (o : Bin)
  | imulhS32 (o : Bin)
  | imulhN32 (o : Bin)
  | imad (o : Bin)
  | lea (o : Bin)
  | imin (o : BinU)
  | imax (o : BinU)
  | iabs (o : Un)
  | ineg (o : Un)
  | mov (o : Un)
  | iaddImm (o : Imm)
  | andImm (o : Imm)
  | orImm (o : Imm)
  | xorImm (o : Imm)
  | shlImm (o : ShImm)
  | shrImm (o : ShImm)
  | sarImm (o : ShImm)
  | rotlImm (o : ShImm)
  | movi (o : MovImm)
  | and (o : Bin)
  | or (o : Bin)
  | xor (o : Bin)
  | andn (o : Bin)
  | not (o : Un)
  | popc (o : Un)
  | clz (o : Un)
  | brev (o : Un)
  | shl (o : Bin)
  | shr (o : Bin)
  | sar (o : Bin)
  | rotl (o : Bin)
  | bfx (o : BinU)
  | bfi (o : Bin)
  | icmp (o : Cmp)
  | sel (o : SelOp)
  | pand (o : Pbin)
  | por (o : Pbin)
  | pxor (o : Pbin)
  | pnot (o : Un)
  | pmov (o : Un)
  -- scalar
  | sadd (o : Sr)
  | ssub (o : Sr)
  | smul (o : Sr)
  | scmp (o : Sr)
  | smin (o : Sr)
  | smax (o : Sr)
  | sand (o : Sr)
  | sor (o : Sr)
  | sxor (o : Sr)
  | sshl (o : Sr)
  | sshr (o : Sr)
  | ssar (o : Sr)
  | smovi (o : Si)
  | smovh (o : Si)
  -- floating point
  | fadd (o : BinR)
  | fsub (o : BinR)
  | fmul (o : BinR)
  | ffma (o : BinR)
  | fdiv (o : BinR)
  | fmin (o : Bin)
  | fmax (o : Bin)
  | fsqrt (o : UnR)
  | frcp (o : UnR)
  | frsq (o : UnR)
  | frnd (o : UnR)
  | fcmp (o : Cmp)
  | fcvt (o : Cvt)
  | badd2 (o : Bin)
  | bmul2 (o : Bin)
  | bfma2 (o : Bin)
  | fex2 (o : Un)
  | flg2 (o : Un)
  | fsin (o : Un)
  | fcos (o : Un)
  -- cross-lane
  | perm (o : Lane)
  | bcast (o : Lane)
  | laneq (o : LaneQ)
  | vote (o : Lane)
  | rng (o : RngOp)
  | lred (o : LaneR)
  | lscan (o : LaneR)
  -- memory, atomics, engines
  | ld (o : MemP)
  | st (o : MemP)
  | lds (o : MemU)
  | sts (o : MemU)
  | ldp (o : MemP)
  | stp (o : MemP)
  | atom (o : MemX)
  | cas (o : MemX)
  | cas2 (o : Mem0)
  | mcas (o : Mem0)
  | red (o : MemX)
  | ldsum (o : MemY)
  | enq (o : Mem0)
  | chase (o : Mem0)
  | cpy (o : Mem0)
  | gath (o : Mem0)
  | scat (o : Mem0)
  | waitc (o : WaitC)
  | fence (o : FenceOp)
  | flush (o : LineOp)
  | invl (o : LineOp)
  | pf (o : PfOp)
  | waitln (o : WaitLn)
  -- matrix
  | mma (o : Mx)
  | mxp (o : Mx0)
  | mrp (o : Mx)
  | mrr (o : Mx0)
  | madd (o : Mx0)
  | mld (o : Mx)
  | mst (o : Mx)
  | mbind (o : MbindOp)
  | mfill (o : MfillOp)
  | optab (o : OptabOp)
  | cbld (o : CbldOp)
  | scld (o : ScldOp)
  | mqry (o : MqryOp)
  -- tasks
  | spawn (o : Dab)
  | reform
  | yield
  | bar (o : Db)
  | bara (b : BitVec 6)
  | barw (o : Db)
  | waitev (o : Da)
  | bound (o : Dab)
  | incset (o : Dab)
  | incget (o : Db)
  | xacq (o : Da)
  | xrel (o : Da)
  | commit
  -- Curator
  | lkreq (o : Dab)
  | lktry (o : Dab)
  | lkupg (o : Dab)
  | lkrel (o : Dab)
  | lkrela (d : BitVec 6)
  | lkqry (o : Dab)
  | cmtx (o : Dab)
  -- traps
  | trap (b : BitVec 6)
  | eret
  | abort (retry : Bool) (b : BitVec 6)
  | tsave (d : BitVec 6) (load : Bool)
  -- supervisor commands (a control-register store carries them out)
  | ctxActivate (ctx desc : Nat)
  | ctxRetire (ctx : Nat)
  | translationInvalidate (ctx page size : Nat)
  | shootDown (ctx page : Nat)
  | serviceFull
  | stopAllOn (ctx : Nat)
  | stopAllOff (ctx : Nat)
  | debugResume (ctx accn : Nat)
  | registerWrite (r : CtlReg) (v : DWord)
  -- the host
  | hostStore (addr : Nat) (data : List Byte)
  | hostLoad (addr n : Nat)
  | hostLineInvalidate (line : Nat) (data : KMap Byte)
  | attestationRequest
  -- the fabric
  | remoteRequestArrival (r : RemoteReq)
  | remotePostedStore (r : RemoteReq)
  | remoteResponse (tag : Nat) (res : RemoteRes) (roe : Bool)
  | postedAck (tag : Nat) (res : RemoteRes)
  | shootdownReceive (src page : Nat)
  | shootdownAnswer (src : Nat)
  | federationValue (fgrp i : Nat) (max : Bool) (v : DWord)
  | keySwitchMarker (port : Nat)
  | keySlotLoad (port slot key : Nat)
  | flitAuthFailure (port : Nat)
  | nonceCountExhausted (port : Nat)
  | remoteRetry (tag : Nat)
  | remoteTimeout (tag : Nat)
  | postedStoreTimeout (tag : Nat)
  | replayResultExpire (src tag : Nat)
  -- scheduling
  | watchdog (accn tid : Nat)
  | drawerAging (core accn pc : Nat)
  | recordReservation (cluster accn : Nat)
  | queueScan (cluster : Nat)
  | epochEnd
  | residentDominationTest
  | matrixHoldExpire (accn : Nat)
  | recordEligible (accn : Nat)
  | taskPlacement (cluster : Nat)
  | stealRequest (thief ctx : Nat)
  | squadEvict (core squad : Nat)
  | squadRestore (core squad : Nat)
  | cancellation (accn : Nat)
  | wound (accn : Nat)
  | taskCommit (accn : Nat)
  | deterministicTurn (launch : Nat)
  -- homes, caches, waiters
  | homeWritePerform
  | l1Eviction (core line : Nat)
  | incumbentPropagate (ctx i core : Nat)
  | lockGrant (key : Nat)
  | resourceGrant (accn : Nat)
  -- engines
  | engineRetire (op : Nat)
  | matrixPass (cluster : Nat)
  | matrixRetire (cluster req : Nat)
  | barrierComplete (accn tid coh : Nat)
  | waitlnWake (accn tid : Nat)
  | waitevWake (accn tid : Nat)
  -- physics and bring-up
  | softError (site : SoftSite)
  | powerOn (failed : Bool) (image : KMap Byte) (desc : Nat) (record : List Byte)
  | thermalThrottle
  | thermalShutdown
  | illegalInstruction (f : DecodeFault) (taddr : Nat)
  | removalByTheSupervisor (accn : Nat)
  | trainingComplete (fail : Nat)
  deriving DecidableEq, Repr

end Sys2Proof
end

