-- ==== Sys2Proof/WellFormed.lean ====
section
/-!
DEFINITION. Which instruction terms are instructions of the Jenhal: the reserved codes (R62), the guards that a word
may not carry (R62) and the operand codes (R57 and each chapter's decode checks). Decoding accepts a word only if its
term passes all three; every event is well formed.
-/

namespace Sys2Proof

/-- Special registers owned by a thread, which have no scalar destination (R85). -/
def sysThreadOwned (n : Nat) : Bool :=
  n == 0x00 || n == 0x06 || n == 0x08 || n == 0x09 || n == 0x0C || n == 0x0E || n == 0x0F || n == 0x10 || n == 0x11

/-- Special registers that SYSWR may write (R27). -/
def sysWritable (n : Nat) : Bool :=
  n == 0x08 || n == 0x09 || n == 0x0B || n == 0x0C || n == 0x0E || n == 0x0F || n == 0x10 || n == 0x11

/-- Special registers wider than 32 bits (R27). -/
def sysWide (n : Nat) : Bool :=
  n == 0x03 || n == 0x04 || n == 0x06 || n == 0x07 || n == 0x0B || n == 0x0E || n == 0x10

/-- An 8-bit scalar source code (R57). -/
def scalarSrcOk (a : BitVec 8) : Bool := a.toNat ≤ 159 || 192 ≤ a.toNat
/-- An 8-bit scalar destination code (R57). -/
def scalarDstOk (d : BitVec 8) : Bool := d.toNat ≤ 159
/-- A record slot (R57). -/
def slotOk (k : BitVec 5) : Bool := k.toNat ≤ 19
/-- A predicate code in a six-bit field (R57). -/
def predOk (p : BitVec 6) : Bool := p.toNat ≤ 7
/-- A rounding field (R196). -/
def roundOk (r : BitVec 3) : Bool := r.toNat ≤ 4
/-- A predicate pair (R76): the two names differ unless both are P0. -/
def pairOk (t f : BitVec 3) : Bool := t ≠ f || t == 0
/-- The register is a multiple of `n`. -/
def alignedTo (n : Nat) (r : BitVec 6) : Bool := r.toNat % n == 0

/-- Conversion pairs that read a register pair (R202, R203). -/
def cvtPairSrc (p : Nat) : Bool := p == 4 || p == 5 || (12 ≤ p && p ≤ 18) || p == 25 || p == 26 || p == 27
/-- Conversion pairs that write a register pair (R202, R203). -/
def cvtPairDst (p : Nat) : Bool := p == 2 || p == 3 || p == 18 || p == 23 || p == 24 || p == 25 || p == 28

/-- No reserved code in a field that the form keeps (R62; each chapter's reserved values). -/
def Instr.formOk : Instr → Bool
  | .nop c => !c
  | .icmp o => o.x.toNat ≤ 5
  | .fcmp o => o.x.toNat ≤ 4
  | .fadd o | .fsub o | .fmul o | .ffma o | .fdiv o => roundOk o.r
  | .fsqrt o | .frcp o | .frsq o | .frnd o => roundOk o.r
  | .fcvt o => o.p.toNat ≤ 28 && roundOk o.r
  | .bcast o => o.f ≠ 3
  | .rng o => o.f ≠ 3
  | .atom o => o.x.toNat ≤ 6
  | .red o => o.x.toNat ≤ 5
  | .mfill o => o.k ≠ 3 && (o.k == 2 || o.m == 0)
  | _ => true

/-- No guard where the word takes none (R62, R85, R87). -/
def Instr.guardOk : Instr → Bool
  | .sysrd o => !o.k || o.g == 0
  | .syswr o => o.d.toNat ≠ 0x0B || o.g == 0
  | _ => true

/-- Every operand field holds a code that the instruction's chapter allows (illegal operand otherwise). -/
def Instr.operandOk : Instr → Bool
  | .ret _ a | .brx _ a => alignedTo 2 a
  | .sysrd o => o.a.toNat ≤ 0x12 && !(o.k && sysThreadOwned o.a.toNat)
  | .syswr o => !o.c && sysWritable o.d.toNat && (o.d.toNat ≠ 0x0B || o.k) && (!o.h || sysWide o.d.toNat)
  | .icmp o | .fcmp o => pairOk o.t o.f
  | .pand o | .por o | .pxor o => predOk o.d && predOk o.a && predOk o.b
  | .pnot o | .pmov o => predOk o.d && predOk o.a
  | .sadd o | .ssub o | .smul o | .scmp o | .smin o | .smax o | .sand o | .sor o | .sxor o | .sshl o | .sshr o
  | .ssar o => scalarDstOk o.d && scalarSrcOk o.a && scalarSrcOk o.b
  | .smovi o | .smovh o => scalarDstOk o.d
  | .fcvt o => (!cvtPairSrc o.p.toNat || alignedTo 2 o.a) && (!cvtPairDst o.p.toNat || alignedTo 2 o.d)
  | .bcast o => o.f ≠ 2 || o.b.toNat ≠ 63
  | .vote o => predOk o.a
  | .rng o => o.f ≠ 2 || alignedTo 2 o.d
  | .ld o | .st o | .ldp o | .stp o => slotOk o.k
  | .lds o | .sts o => slotOk o.k
  | .atom o | .red o => slotOk o.k
  | .cas o => slotOk o.k && alignedTo 2 o.d
  | .cas2 o => slotOk o.k && alignedTo 4 o.d
  | .mcas o => slotOk o.k && alignedTo 8 o.d && alignedTo 4 o.off
  | .ldsum o => slotOk o.k
  | .enq o => slotOk o.k
  | .chase o | .cpy o | .gath o | .scat o => slotOk o.k && alignedTo 2 o.d
  | .fence o => o.s.toNat ≠ 7
  | .flush o | .invl o => slotOk o.k
  | .pf o => slotOk o.k
  | .waitln o => slotOk o.k
  | .mbind o => alignedTo 4 o.a && !(o.a.toNat ≤ o.b.toNat && o.b.toNat ≤ o.a.toNat + 2)
  | .cbld o => slotOk o.k
  | .spawn o => alignedTo 2 o.a
  | .bar o | .barw o => predOk o.d
  | .waitev o => alignedTo 2 o.a
  | .bound o => alignedTo 2 o.a
  | .incset o => alignedTo 2 o.d && alignedTo 2 o.a
  | .incget o => alignedTo 2 o.d
  | .cmtx o => alignedTo 2 o.a
  | .tsave d _ => alignedTo 8 d
  | _ => true

/-- A well-formed instruction or event. -/
def Instr.wf (i : Instr) : Bool := i.formOk && i.guardOk && i.operandOk

end Sys2Proof
end

