-- ==== Sys2Proof/Decode.lean ====
section
/-!
DEFINITION. From words to instructions and back (R46, R55 to R64). `decode` is total: it answers an instruction or the
decode fault of R54 that the word takes by itself. `encode` builds a word from the same format tables.
-/

namespace Sys2Proof

/-! ## Fields of a word (R55) -/

/-- Bits `lo` to `lo + n - 1` of a word, as a number. -/
def bitsOf (w : Word) (lo n : Nat) : Nat := w.toNat / 2 ^ lo % 2 ^ n

/-- CH. -/
def fC (w : Word) : Bool := bitsOf w 31 1 == 1
/-- MAJ. -/
def fMaj (w : Word) : Nat := bitsOf w 25 6
/-- G. -/
def fG (w : Word) : BitVec 3 := BitVec.ofNat 3 (bitsOf w 22 3)
/-- D of VR, VI and MEM. -/
def fD (w : Word) : BitVec 6 := BitVec.ofNat 6 (bitsOf w 16 6)
/-- A, or OFF of MEM. -/
def fA (w : Word) : BitVec 6 := BitVec.ofNat 6 (bitsOf w 10 6)
/-- B. -/
def fB (w : Word) : BitVec 6 := BitVec.ofNat 6 (bitsOf w 4 6)
/-- X of VR. -/
def fX (w : Word) : Nat := bitsOf w 0 4
/-- IMM of VI. -/
def fI (w : Word) : BitVec 10 := BitVec.ofNat 10 (bitsOf w 0 10)
/-- BREC. -/
def fK (w : Word) : BitVec 5 := BitVec.ofNat 5 (bitsOf w 5 5)
/-- ORD. -/
def fOrd (w : Word) : BitVec 2 := BitVec.ofNat 2 (bitsOf w 3 2)
/-- X of MEM. -/
def fXm (w : Word) : Nat := bitsOf w 0 3

/-! ## Packing (R55) -/

/-- A VR word. -/
def packVR (c : Bool) (maj : Nat) (g : BitVec 3) (d a b : BitVec 6) (x : Nat) : Word :=
  BitVec.ofNat 32 (c.toNat * 2 ^ 31 + maj * 2 ^ 25 + g.toNat * 2 ^ 22 + d.toNat * 2 ^ 16 + a.toNat * 2 ^ 10
    + b.toNat * 2 ^ 4 + x)

/-- A VI word. -/
def packVI (c : Bool) (maj : Nat) (g : BitVec 3) (d a : BitVec 6) (i : Nat) : Word :=
  BitVec.ofNat 32 (c.toNat * 2 ^ 31 + maj * 2 ^ 25 + g.toNat * 2 ^ 22 + d.toNat * 2 ^ 16 + a.toNat * 2 ^ 10 + i)

/-- An SR word. -/
def packSR (c : Bool) (maj : Nat) (d a b : BitVec 8) (x : Nat) : Word :=
  BitVec.ofNat 32 (c.toNat * 2 ^ 31 + maj * 2 ^ 25 + d.toNat * 2 ^ 17 + a.toNat * 2 ^ 9 + b.toNat * 2 + x)

/-- An SI word. -/
def packSI (c : Bool) (maj : Nat) (d : BitVec 8) (i : BitVec 17) : Word :=
  BitVec.ofNat 32 (c.toNat * 2 ^ 31 + maj * 2 ^ 25 + d.toNat * 2 ^ 17 + i.toNat)

/-- A MEM word. -/
def packMEM (c : Bool) (maj : Nat) (g : BitVec 3) (d off : BitVec 6) (k : BitVec 5) (ord : BitVec 2) (x : Nat) : Word :=
  BitVec.ofNat 32 (c.toNat * 2 ^ 31 + maj * 2 ^ 25 + g.toNat * 2 ^ 22 + d.toNat * 2 ^ 16 + off.toNat * 2 ^ 10
    + k.toNat * 2 ^ 5 + ord.toNat * 2 ^ 3 + x)

/-- A BR word. -/
def packBR (maj : Nat) (g : BitVec 3) (d : BitVec 22) : Word :=
  BitVec.ofNat 32 (maj * 2 ^ 25 + g.toNat * 2 ^ 22 + d.toNat)

/-- An MX word. -/
def packMX (c : Bool) (maj : Nat) (v t o : BitVec 4) (i f : BitVec 6) (x : Nat) : Word :=
  BitVec.ofNat 32 (c.toNat * 2 ^ 31 + maj * 2 ^ 25 + v.toNat * 2 ^ 21 + t.toNat * 2 ^ 17 + o.toNat * 2 ^ 13
    + i.toNat * 2 ^ 7 + f.toNat * 2 + x)

/-- A REP word. -/
def packREP (o : RepOp) : Word :=
  BitVec.ofNat 32 (0x03 * 2 ^ 25 + o.n.toNat * 2 ^ 19 + o.s.toNat * 2 ^ 16 + o.d.toNat * 2 ^ 14 + o.a.toNat * 2 ^ 12
    + o.b.toNat * 2 ^ 10)

/-! ## Operand forms read from a word -/

/-- X[3], the SB bit (R58). -/
def fSb (w : Word) : Bool := fX w / 8 == 1
/-- `Bin` of a word. -/
def binOf (w : Word) : Bin := ⟨fC w, fG w, fD w, fA w, fB w, fSb w⟩
/-- `BinU` of a word. -/
def binUOf (w : Word) : BinU := ⟨fC w, fG w, fD w, fA w, fB w, fSb w, fX w % 2 == 1⟩
/-- `BinR` of a word. -/
def binROf (w : Word) : BinR := ⟨fC w, fG w, fD w, fA w, fB w, fSb w, BitVec.ofNat 3 (fX w)⟩
/-- `Un` of a word. -/
def unOf (w : Word) : Un := ⟨fC w, fG w, fD w, fA w⟩
/-- `UnR` of a word. -/
def unROf (w : Word) : UnR := ⟨fC w, fG w, fD w, fA w, BitVec.ofNat 3 (fX w)⟩
/-- `Imm` of a word. -/
def immOf (w : Word) : Imm := ⟨fC w, fG w, fD w, fA w, fI w⟩
/-- `ShImm` of a word. -/
def shImmOf (w : Word) : ShImm := ⟨fC w, fG w, fD w, fA w, BitVec.ofNat 5 (bitsOf w 0 5)⟩
/-- `Cmp` of a word: D[5:3] is Pf, D[2:0] is Pt (R76). -/
def cmpOf (w : Word) : Cmp :=
  ⟨fC w, fG w, BitVec.ofNat 3 (bitsOf w 19 3), BitVec.ofNat 3 (bitsOf w 16 3), fA w, fB w, BitVec.ofNat 3 (fX w)⟩
/-- `Pbin` of a word. -/
def pbinOf (w : Word) : Pbin := ⟨fC w, fG w, fD w, fA w, fB w⟩
/-- `Lane` of a word. -/
def laneOf (w : Word) : Lane := ⟨fC w, fG w, fD w, fA w, fB w, BitVec.ofNat 2 (fX w)⟩
/-- `LaneR` of a word. -/
def laneROf (w : Word) : LaneR := ⟨fC w, fG w, fD w, fA w, fB w, BitVec.ofNat 3 (fX w)⟩
/-- `Sr` of a word. -/
def srOf (w : Word) : Sr :=
  ⟨fC w, BitVec.ofNat 8 (bitsOf w 17 8), BitVec.ofNat 8 (bitsOf w 9 8), BitVec.ofNat 8 (bitsOf w 1 8)⟩
/-- `Si` of a word. -/
def siOf (w : Word) : Si := ⟨fC w, BitVec.ofNat 8 (bitsOf w 17 8), BitVec.ofNat 17 (bitsOf w 0 17)⟩
/-- X[2] of MEM, the .U bit. -/
def fU (w : Word) : Bool := fXm w / 4 == 1
/-- `MemP` of a word. -/
def memPOf (w : Word) : MemP := ⟨fC w, fG w, fD w, fA w, fK w, fOrd w, fU w, BitVec.ofNat 2 (fXm w)⟩
/-- `MemU` of a word. -/
def memUOf (w : Word) : MemU := ⟨fC w, fG w, fD w, fA w, fK w, fOrd w, fU w⟩
/-- `MemX` of a word. -/
def memXOf (w : Word) : MemX := ⟨fC w, fG w, fD w, fA w, fK w, fOrd w, BitVec.ofNat 3 (fXm w)⟩
/-- `Mem0` of a word. -/
def mem0Of (w : Word) : Mem0 := ⟨fC w, fG w, fD w, fA w, fK w, fOrd w⟩
/-- `LineOp` of a word. -/
def lineOf (w : Word) : LineOp := ⟨fC w, fG w, fA w, fK w⟩
/-- CV of an MX word. -/
def mV (w : Word) : BitVec 4 := BitVec.ofNat 4 (bitsOf w 21 4)
/-- TL of an MX word. -/
def mT (w : Word) : BitVec 4 := BitVec.ofNat 4 (bitsOf w 17 4)
/-- OPX of an MX word. -/
def mO (w : Word) : BitVec 4 := BitVec.ofNat 4 (bitsOf w 13 4)
/-- IDX of an MX word. -/
def mI (w : Word) : BitVec 6 := BitVec.ofNat 6 (bitsOf w 7 6)
/-- FW of an MX word. -/
def mF (w : Word) : BitVec 6 := BitVec.ofNat 6 (bitsOf w 1 6)
/-- `Mx` of a word. -/
def mxOf (w : Word) : Mx := ⟨fC w, mV w, mT w, mO w, mI w, mF w⟩
/-- `Mx0` of a word. -/
def mx0Of (w : Word) : Mx0 := ⟨fC w, mV w, mT w, mO w, mF w⟩
/-- `SysOp` of a word. -/
def sysOf (w : Word) (c : Bool) : SysOp :=
  ⟨c, fG w, fD w, fA w, bitsOf w 5 1 == 1, bitsOf w 4 1 == 1⟩
/-- `Dab` of a word. -/
def dabOf (w : Word) : Dab := ⟨fD w, fA w, fB w⟩
/-- The low four bits of a six-bit field. -/
def low4 (x : BitVec 6) : BitVec 4 := BitVec.ofNat 4 x.toNat
/-- The low five bits of a six-bit field. -/
def low5 (x : BitVec 6) : BitVec 5 := BitVec.ofNat 5 x.toNat
/-- The six-bit field that holds four bits, the others reserved 0. -/
def wide4 (x : BitVec 4) : BitVec 6 := BitVec.ofNat 6 x.toNat
/-- The six-bit field that holds five bits, the other reserved 0. -/
def wide5 (x : BitVec 5) : BitVec 6 := BitVec.ofNat 6 x.toNat
/-- The six-bit field that holds one bit. -/
def wide1 (x : Bool) : BitVec 6 := BitVec.ofNat 6 x.toNat

/-- `some i` where the reserved fields are 0. -/
def when (ok : Bool) (i : Instr) : Option Instr := if ok then some i else none

/-- Major 0x00 (R64, R82 to R87). -/
def decodeControl (w : Word) : Option Instr :=
  match fX w with
  | 0 => when (fD w == 0 && fA w == 0 && fB w == 0 && !fC w) (.nop false)
  | 1 => when (fD w == 0 && fA w == 0 && fB w == 0) (.exit (fG w))
  | 2 => when (fD w == 0 && fB w == 0) (.ret (fG w) (fA w))
  | 3 => when (fD w == 0 && fA w == 0) (.brk (fC w) (fG w) (fB w))
  | 4 => when (bitsOf w 6 4 == 0) (.sysrd (sysOf w (fC w)))
  | 5 => when (bitsOf w 6 4 == 0) (.syswr (sysOf w false))
  | 6 => when (fD w == 0 && fB w == 0) (.brx (fG w) (fA w))
  | _ => none

/-- B and X[3] of a unary word (R58). -/
def unaryOk (w : Word) : Bool := fB w == 0 && fX w / 8 == 0

/-- Majors 0x04 to 0x0D (R71 to R75). -/
def decodeVector (w : Word) : Nat → Option Instr
  | 0x04 =>
    match fX w % 8 with
    | 0 => some (.iadd (binOf w))
    | 1 => some (.isub (binOf w))
    | 2 => some (.imul (binOf w))
    | 3 => some (.imulhS32 (binOf w))
    | 4 => some (.imulhN32 (binOf w))
    | 5 => some (.imad (binOf w))
    | 6 => some (.lea (binOf w))
    | _ => none
  | 0x05 =>
    match fX w % 8 with
    | 0 => some (.imin (binUOf w))
    | 1 => some (.imin (binUOf w))
    | 2 => some (.imax (binUOf w))
    | 3 => some (.imax (binUOf w))
    | 4 => when (unaryOk w) (.iabs (unOf w))
    | 5 => when (unaryOk w) (.ineg (unOf w))
    | 6 => when (unaryOk w) (.mov (unOf w))
    | _ => none
  | 0x06 => some (.iaddImm (immOf w))
  | 0x07 => some (.andImm (immOf w))
  | 0x08 => some (.orImm (immOf w))
  | 0x09 => some (.xorImm (immOf w))
  | 0x0A =>
    match bitsOf w 5 5 with
    | 0 => some (.shlImm (shImmOf w))
    | 8 => some (.shrImm (shImmOf w))
    | 16 => some (.sarImm (shImmOf w))
    | 24 => some (.rotlImm (shImmOf w))
    | _ => none
  | 0x0B => when (fA w == 0) (.movi ⟨fC w, fG w, fD w, fI w⟩)
  | 0x0C =>
    match fX w % 8 with
    | 0 => some (.and (binOf w))
    | 1 => some (.or (binOf w))
    | 2 => some (.xor (binOf w))
    | 3 => some (.andn (binOf w))
    | 4 => when (unaryOk w) (.not (unOf w))
    | 5 => when (unaryOk w) (.popc (unOf w))
    | 6 => when (unaryOk w) (.clz (unOf w))
    | _ => when (unaryOk w) (.brev (unOf w))
  | 0x0D =>
    match fX w % 8 with
    | 0 => some (.shl (binOf w))
    | 1 => some (.shr (binOf w))
    | 2 => some (.sar (binOf w))
    | 3 => some (.rotl (binOf w))
    | 4 => some (.bfx (binUOf w))
    | 5 => some (.bfx (binUOf w))
    | 6 => some (.bfi (binOf w))
    | _ => none
  | _ => none

/-- Majors 0x0E to 0x18 (R76 to R80). -/
def decodeScalar (w : Word) : Nat → Option Instr
  | 0x0E => when (fX w / 8 == 0) (.icmp (cmpOf w))
  | 0x0F => some (.sel ⟨fC w, fG w, fD w, fA w, fB w, fSb w, BitVec.ofNat 3 (fX w)⟩)
  | 0x10 =>
    match fX w with
    | 0 => some (.pand (pbinOf w))
    | 1 => some (.por (pbinOf w))
    | 2 => some (.pxor (pbinOf w))
    | 3 => when (fB w == 0) (.pnot (unOf w))
    | 4 => when (fB w == 0) (.pmov (unOf w))
    | _ => none
  | 0x11 => if bitsOf w 0 1 == 0 then some (.sadd (srOf w)) else some (.ssub (srOf w))
  | 0x12 => if bitsOf w 0 1 == 0 then some (.smul (srOf w)) else some (.scmp (srOf w))
  | 0x13 => if bitsOf w 0 1 == 0 then some (.smin (srOf w)) else some (.smax (srOf w))
  | 0x14 => if bitsOf w 0 1 == 0 then some (.sand (srOf w)) else some (.sor (srOf w))
  | 0x15 => if bitsOf w 0 1 == 0 then some (.sxor (srOf w)) else some (.sshl (srOf w))
  | 0x16 => if bitsOf w 0 1 == 0 then some (.sshr (srOf w)) else some (.ssar (srOf w))
  | 0x17 => some (.smovi (siOf w))
  | 0x18 => some (.smovh (siOf w))
  | _ => none

/-- Majors 0x19 to 0x26 (R197 to R219). -/
def decodeFloat (w : Word) : Nat → Option Instr
  | 0x19 => some (.fadd (binROf w))
  | 0x1A => some (.fsub (binROf w))
  | 0x1B => some (.fmul (binROf w))
  | 0x1C => some (.ffma (binROf w))
  | 0x1D => some (.fdiv (binROf w))
  | 0x1E =>
    match fX w % 8 with
    | 0 => some (.fmin (binOf w))
    | 1 => some (.fmax (binOf w))
    | _ => none
  | 0x1F =>
    match (fB w).toNat with
    | 0 => when (fX w / 8 == 0) (.fsqrt (unROf w))
    | 1 => when (fX w / 8 == 0) (.frcp (unROf w))
    | 2 => when (fX w / 8 == 0) (.frsq (unROf w))
    | 3 => when (fX w / 8 == 0) (.frnd (unROf w))
    | _ => none
  | 0x20 => when (fX w / 8 == 0) (.fcmp (cmpOf w))
  | 0x21 => when (fX w / 8 == 0) (.fcvt ⟨fC w, fG w, fD w, fA w, fB w, BitVec.ofNat 3 (fX w)⟩)
  | 0x22 =>
    match fX w % 8 with
    | 0 => some (.badd2 (binOf w))
    | 1 => some (.bmul2 (binOf w))
    | 2 => some (.bfma2 (binOf w))
    | _ => none
  | 0x23 =>
    match (fB w).toNat with
    | 0 => when (fX w == 0) (.fex2 (unOf w))
    | 1 => when (fX w == 0) (.flg2 (unOf w))
    | 2 => when (fX w == 0) (.fsin (unOf w))
    | 3 => when (fX w == 0) (.fcos (unOf w))
    | _ => none
  | 0x24 => when (fX w / 4 == 0) (.perm (laneOf w))
  | 0x25 =>
    match fX w / 4 with
    | 0 => some (.bcast (laneOf w))
    | 1 => when (fA w == 0) (.laneq ⟨fC w, fG w, fD w, fB w, BitVec.ofNat 2 (fX w)⟩)
    | 2 => some (.vote (laneOf w))
    | _ => when (fA w == 0 && fB w == 0) (.rng ⟨fC w, fG w, fD w, BitVec.ofNat 2 (fX w)⟩)
  | 0x26 => if fX w / 8 == 0 then some (.lred (laneROf w)) else some (.lscan (laneROf w))
  | _ => none

/-- Majors 0x27 to 0x34 (R141, R152 to R166). WAITLN's ORD 2 and 3 are an illegal operand, found in `decode`. -/
def decodeMemory (w : Word) : Nat → Option Instr
  | 0x27 => some (.ld (memPOf w))
  | 0x28 => some (.st (memPOf w))
  | 0x29 => when (fXm w % 4 == 0) (.lds (memUOf w))
  | 0x2A => when (fXm w % 4 == 0) (.sts (memUOf w))
  | 0x2B => some (.ldp (memPOf w))
  | 0x2C => some (.stp (memPOf w))
  | 0x2D => some (.atom (memXOf w))
  | 0x2E => some (.cas (memXOf w))
  | 0x2F =>
    match fXm w with
    | 0 => some (.cas2 (mem0Of w))
    | 1 => some (.mcas (mem0Of w))
    | _ => none
  | 0x30 => some (.red (memXOf w))
  | 0x31 => when (fXm w / 2 == 0) (.ldsum ⟨fC w, fG w, fD w, fA w, fK w, fOrd w, fXm w == 1⟩)
  | 0x32 =>
    match fXm w with
    | 0 => some (.enq (mem0Of w))
    | 1 => some (.chase (mem0Of w))
    | _ => none
  | 0x33 =>
    match fXm w with
    | 0 => some (.cpy (mem0Of w))
    | 1 => some (.gath (mem0Of w))
    | 2 => some (.scat (mem0Of w))
    | 3 => when (bitsOf w 7 9 == 0 && fOrd w == 0) (.waitc ⟨fC w, fG w, fD w, BitVec.ofNat 2 (bitsOf w 5 2)⟩)
    | _ => none
  | 0x34 =>
    match fXm w with
    | 0 => when (bitsOf w 19 3 == 0 && fA w == 0 && fK w == 0 && fOrd w == 0)
        (.fence ⟨fC w, fG w, BitVec.ofNat 3 (bitsOf w 16 3)⟩)
    | 1 => when (fD w == 0 && fOrd w == 0) (.flush (lineOf w))
    | 2 => when (fD w == 0 && fOrd w == 0) (.invl (lineOf w))
    | 3 => when (bitsOf w 17 5 == 0 && fOrd w == 0) (.pf ⟨fC w, fG w, bitsOf w 16 1 == 1, fA w, fK w⟩)
    | 4 => some (.waitln ⟨fC w, fG w, fD w, fA w, fK w, bitsOf w 3 1 == 1⟩)
    | _ => none
  | _ => none

/-- Majors 0x35 to 0x39 (R254 to R265). -/
def decodeMatrix (w : Word) : Nat → Option Instr
  | 0x35 => when (bitsOf w 0 1 == 0) (.mma (mxOf w))
  | 0x36 => if bitsOf w 0 1 == 0 then when (mI w == 0) (.mxp (mx0Of w)) else some (.mrp (mxOf w))
  | 0x37 => when (mI w == 0) (if bitsOf w 0 1 == 0 then .mrr (mx0Of w) else .madd (mx0Of w))
  | 0x38 => if bitsOf w 0 1 == 0 then some (.mld (mxOf w)) else some (.mst (mxOf w))
  | 0x39 =>
    match fX w with
    | 0 => when (bitsOf w 20 2 == 0) (.mbind ⟨fC w, low4 (fD w), fA w, fB w⟩)
    | 1 => when (bitsOf w 20 2 == 0 && bitsOf w 14 2 == 0)
        (.mfill ⟨fC w, low4 (fD w), low4 (fA w), BitVec.ofNat 2 (bitsOf w 8 2), low4 (fB w)⟩)
    | 2 => when (bitsOf w 20 2 == 0 && fB w == 0) (.optab ⟨fC w, low4 (fD w), fA w⟩)
    | 3 => when (bitsOf w 21 1 == 0) (.cbld ⟨fC w, low5 (fD w), fA w, fB w⟩)
    | 4 => when (bitsOf w 21 1 == 0 && fB w == 0) (.scld ⟨fC w, low5 (fD w), fA w⟩)
    | 5 => when (bitsOf w 14 2 == 0 && bitsOf w 5 5 == 0) (.mqry ⟨fC w, fD w, low4 (fA w), bitsOf w 4 1 == 1⟩)
    | _ => none
  | _ => none

/-- Majors 0x3A to 0x3C (R313 to R332, R353, R385 to R388). -/
def decodeTask (w : Word) : Nat → Option Instr
  | 0x3A =>
    match fX w with
    | 0 => some (.spawn (dabOf w))
    | 1 => when (fD w == 0 && fA w == 0 && fB w == 0) .reform
    | 2 => when (fD w == 0 && fA w == 0 && fB w == 0) .yield
    | 3 => when (fA w == 0) (.bar ⟨fD w, fB w⟩)
    | 4 => when (fD w == 0 && fA w == 0) (.bara (fB w))
    | 5 => when (fA w == 0) (.barw ⟨fD w, fB w⟩)
    | 6 => when (fB w == 0) (.waitev ⟨fD w, fA w⟩)
    | 7 => some (.bound (dabOf w))
    | 8 => some (.incset (dabOf w))
    | 9 => when (fA w == 0) (.incget ⟨fD w, fB w⟩)
    | 10 => when (fB w == 0) (.xacq ⟨fD w, fA w⟩)
    | 11 => when (fB w == 0) (.xrel ⟨fD w, fA w⟩)
    | 12 => when (fD w == 0 && fA w == 0 && fB w == 0) .commit
    | _ => none
  | 0x3B =>
    match fX w with
    | 0 => some (.lkreq (dabOf w))
    | 1 => some (.lktry (dabOf w))
    | 2 => some (.lkupg (dabOf w))
    | 3 => some (.lkrel (dabOf w))
    | 4 => when (fA w == 0 && fB w == 0) (.lkrela (fD w))
    | 5 => some (.lkqry (dabOf w))
    | 6 => some (.cmtx (dabOf w))
    | _ => none
  | 0x3C =>
    match fX w with
    | 0 => when (fD w == 0 && fA w == 0) (.trap (fB w))
    | 1 => when (fD w == 0 && fA w == 0 && fB w == 0) .eret
    | 2 => when (bitsOf w 17 5 == 0 && fA w == 0) (.abort (bitsOf w 16 1 == 1) (fB w))
    | 3 => when (fA w == 0 && bitsOf w 5 5 == 0) (.tsave (fD w) (bitsOf w 4 1 == 1))
    | _ => none
  | _ => none

/-- The instruction a word's major, form and reserved fields give; the chain bit and the guard are judged in
`decode`. -/
def decodeForm (w : Word) : Option Instr :=
  match fMaj w with
  | 0x00 => decodeControl w
  | 0x01 => some (.bra (fG w) (BitVec.ofNat 22 (bitsOf w 0 22)))
  | 0x02 => some (.call (fG w) (BitVec.ofNat 22 (bitsOf w 0 22)))
  | 0x03 => when (bitsOf w 0 10 == 0)
      (.rep ⟨BitVec.ofNat 6 (bitsOf w 19 6), BitVec.ofNat 3 (bitsOf w 16 3), BitVec.ofNat 2 (bitsOf w 14 2),
        BitVec.ofNat 2 (bitsOf w 12 2), BitVec.ofNat 2 (bitsOf w 10 2)⟩)
  | 0x04 => decodeVector w 0x04
  | 0x05 => decodeVector w 0x05
  | 0x06 => decodeVector w 0x06
  | 0x07 => decodeVector w 0x07
  | 0x08 => decodeVector w 0x08
  | 0x09 => decodeVector w 0x09
  | 0x0A => decodeVector w 0x0A
  | 0x0B => decodeVector w 0x0B
  | 0x0C => decodeVector w 0x0C
  | 0x0D => decodeVector w 0x0D
  | 0x0E => decodeScalar w 0x0E
  | 0x0F => decodeScalar w 0x0F
  | 0x10 => decodeScalar w 0x10
  | 0x11 => decodeScalar w 0x11
  | 0x12 => decodeScalar w 0x12
  | 0x13 => decodeScalar w 0x13
  | 0x14 => decodeScalar w 0x14
  | 0x15 => decodeScalar w 0x15
  | 0x16 => decodeScalar w 0x16
  | 0x17 => decodeScalar w 0x17
  | 0x18 => decodeScalar w 0x18
  | 0x19 => decodeFloat w 0x19
  | 0x1A => decodeFloat w 0x1A
  | 0x1B => decodeFloat w 0x1B
  | 0x1C => decodeFloat w 0x1C
  | 0x1D => decodeFloat w 0x1D
  | 0x1E => decodeFloat w 0x1E
  | 0x1F => decodeFloat w 0x1F
  | 0x20 => decodeFloat w 0x20
  | 0x21 => decodeFloat w 0x21
  | 0x22 => decodeFloat w 0x22
  | 0x23 => decodeFloat w 0x23
  | 0x24 => decodeFloat w 0x24
  | 0x25 => decodeFloat w 0x25
  | 0x26 => decodeFloat w 0x26
  | 0x27 => decodeMemory w 0x27
  | 0x28 => decodeMemory w 0x28
  | 0x29 => decodeMemory w 0x29
  | 0x2A => decodeMemory w 0x2A
  | 0x2B => decodeMemory w 0x2B
  | 0x2C => decodeMemory w 0x2C
  | 0x2D => decodeMemory w 0x2D
  | 0x2E => decodeMemory w 0x2E
  | 0x2F => decodeMemory w 0x2F
  | 0x30 => decodeMemory w 0x30
  | 0x31 => decodeMemory w 0x31
  | 0x32 => decodeMemory w 0x32
  | 0x33 => decodeMemory w 0x33
  | 0x34 => decodeMemory w 0x34
  | 0x35 => decodeMatrix w 0x35
  | 0x36 => decodeMatrix w 0x36
  | 0x37 => decodeMatrix w 0x37
  | 0x38 => decodeMatrix w 0x38
  | 0x39 => decodeMatrix w 0x39
  | 0x3A => decodeTask w 0x3A
  | 0x3B => decodeTask w 0x3B
  | 0x3C => decodeTask w 0x3C
  | _ => none

/-- Words that are never chained to another (R51, cases 4 to 6): control transfers, SYSWR, REP, majors 0x3A to
0x3C. -/
def noChain (w : Word) : Bool :=
  match fMaj w with
  | 0x00 => fX w == 1 || fX w == 2 || fX w == 5 || fX w == 6
  | m => m == 0x01 || m == 0x02 || m == 0x03 || (0x3A ≤ m && m ≤ 0x3C)

/-- Words whose Guard column reads "no" (R62). -/
def noGuard (w : Word) : Bool :=
  match fMaj w with
  | 0x00 => fX w == 0
  | m => 0x39 ≤ m && m ≤ 0x3C

/-- WAITLN with ORD 2 or 3 (R166). -/
def ordMisused (w : Word) : Bool := fMaj w == 0x34 && fXm w == 4 && bitsOf w 4 1 == 1

/-- Decode one word by itself, in the check order of R54. The checks that need the word's neighbours (the prefix rules
of R59 and the chain rules of R51) are those of Machine/Packet.lean. -/
def decode (w : Word) : Except DecodeFault Instr :=
  match decodeForm w with
  | none => .error .illegalInstruction
  | some i =>
    if !i.formOk then .error .illegalInstruction
    else if noChain w && fC w then .error .illegalChain
    else if (noGuard w && fG w ≠ 0) || !i.guardOk then .error .guardMisuse
    else if ordMisused w || !i.operandOk then .error .illegalOperand
    else .ok i

/-! ## The encoder -/

/-- X of an SB form (R58). -/
def xSb (sb : Bool) (k : Nat) : Nat := sb.toNat * 8 + k
/-- An SB word. -/
def Bin.pack (maj k : Nat) (o : Bin) : Word := packVR o.c maj o.g o.d o.a o.b (xSb o.sb k)
/-- An SB word with a type bit. -/
def BinU.pack (maj k : Nat) (o : BinU) : Word := packVR o.c maj o.g o.d o.a o.b (xSb o.sb (k + o.u.toNat))
/-- An SB word with a rounding field. -/
def BinR.pack (maj : Nat) (o : BinR) : Word := packVR o.c maj o.g o.d o.a o.b (xSb o.sb o.r.toNat)
/-- A unary word. -/
def Un.pack (maj : Nat) (b : BitVec 6) (x : Nat) (o : Un) : Word := packVR o.c maj o.g o.d o.a b x
/-- A unary word with a rounding field. -/
def UnR.pack (maj : Nat) (b : BitVec 6) (o : UnR) : Word := packVR o.c maj o.g o.d o.a b o.r.toNat
/-- A VI word. -/
def Imm.pack (maj : Nat) (o : Imm) : Word := packVI o.c maj o.g o.d o.a o.i.toNat
/-- An immediate shift: IMM[9:8] is `k`. -/
def ShImm.pack (k : Nat) (o : ShImm) : Word := packVI o.c 0x0A o.g o.d o.a (k * 256 + o.n.toNat)
/-- A compare. -/
def Cmp.pack (maj : Nat) (o : Cmp) : Word :=
  packVR o.c maj o.g (BitVec.ofNat 6 (o.f.toNat * 8 + o.t.toNat)) o.a o.b o.x.toNat
/-- A predicate word. -/
def Pbin.pack (k : Nat) (o : Pbin) : Word := packVR o.c 0x10 o.g o.d o.a o.b k
/-- A cross-lane word. -/
def Lane.pack (maj k : Nat) (o : Lane) : Word := packVR o.c maj o.g o.d o.a o.b (k * 4 + o.f.toNat)
/-- A fold. -/
def LaneR.pack (k : Nat) (o : LaneR) : Word := packVR o.c 0x26 o.g o.d o.a o.b (k * 8 + o.o.toNat)
/-- A scalar word. -/
def Sr.pack (maj x : Nat) (o : Sr) : Word := packSR o.c maj o.d o.a o.b x
/-- A memory word with policy bits. -/
def MemP.pack (maj : Nat) (o : MemP) : Word :=
  packMEM o.c maj o.g o.d o.off o.k o.ord (o.u.toNat * 4 + o.p.toNat)
/-- A scratchpad word. -/
def MemU.pack (maj : Nat) (o : MemU) : Word := packMEM o.c maj o.g o.d o.off o.k o.ord (o.u.toNat * 4)
/-- A memory word with an operation. -/
def MemX.pack (maj : Nat) (o : MemX) : Word := packMEM o.c maj o.g o.d o.off o.k o.ord o.x.toNat
/-- A memory word with a fixed X. -/
def Mem0.pack (maj x : Nat) (o : Mem0) : Word := packMEM o.c maj o.g o.d o.off o.k o.ord x
/-- A matrix word. -/
def Mx.pack (maj x : Nat) (o : Mx) : Word := packMX o.c maj o.v o.t o.o o.i o.f x
/-- A matrix word with no row index. -/
def Mx0.pack (maj x : Nat) (o : Mx0) : Word := packMX o.c maj o.v o.t o.o 0 o.f x
/-- A word of majors 0x3A and 0x3B. -/
def Dab.pack (maj x : Nat) (o : Dab) : Word := packVR false maj 0 o.d o.a o.b x
/-- The B field of SYSRD and SYSWR. -/
def SysOp.bField (o : SysOp) : BitVec 6 := BitVec.ofNat 6 (o.k.toNat * 2 + o.h.toNat)

/-- The word of an instruction; none for an event. -/
def encode : Instr → Option Word
  | .nop c => some (packVR c 0x00 0 0 0 0 0)
  | .exit g => some (packVR false 0x00 g 0 0 0 1)
  | .ret g a => some (packVR false 0x00 g 0 a 0 2)
  | .brk c g b => some (packVR c 0x00 g 0 0 b 3)
  | .sysrd o => some (packVR o.c 0x00 o.g o.d o.a o.bField 4)
  | .syswr o => some (packVR false 0x00 o.g o.d o.a o.bField 5)
  | .brx g a => some (packVR false 0x00 g 0 a 0 6)
  | .bra g d => some (packBR 0x01 g d)
  | .call g d => some (packBR 0x02 g d)
  | .rep o => some (packREP o)
  | .iadd o => some (o.pack 0x04 0)
  | .isub o => some (o.pack 0x04 1)
  | .imul o => some (o.pack 0x04 2)
  | .imulhS32 o => some (o.pack 0x04 3)
  | .imulhN32 o => some (o.pack 0x04 4)
  | .imad o => some (o.pack 0x04 5)
  | .lea o => some (o.pack 0x04 6)
  | .imin o => some (o.pack 0x05 0)
  | .imax o => some (o.pack 0x05 2)
  | .iabs o => some (o.pack 0x05 0 4)
  | .ineg o => some (o.pack 0x05 0 5)
  | .mov o => some (o.pack 0x05 0 6)
  | .iaddImm o => some (o.pack 0x06)
  | .andImm o => some (o.pack 0x07)
  | .orImm o => some (o.pack 0x08)
  | .xorImm o => some (o.pack 0x09)
  | .shlImm o => some (o.pack 0)
  | .shrImm o => some (o.pack 1)
  | .sarImm o => some (o.pack 2)
  | .rotlImm o => some (o.pack 3)
  | .movi o => some (packVI o.c 0x0B o.g o.d 0 o.i.toNat)
  | .and o => some (o.pack 0x0C 0)
  | .or o => some (o.pack 0x0C 1)
  | .xor o => some (o.pack 0x0C 2)
  | .andn o => some (o.pack 0x0C 3)
  | .not o => some (o.pack 0x0C 0 4)
  | .popc o => some (o.pack 0x0C 0 5)
  | .clz o => some (o.pack 0x0C 0 6)
  | .brev o => some (o.pack 0x0C 0 7)
  | .shl o => some (o.pack 0x0D 0)
  | .shr o => some (o.pack 0x0D 1)
  | .sar o => some (o.pack 0x0D 2)
  | .rotl o => some (o.pack 0x0D 3)
  | .bfx o => some (o.pack 0x0D 4)
  | .bfi o => some (o.pack 0x0D 6)
  | .icmp o => some (o.pack 0x0E)
  | .sel o => some (packVR o.c 0x0F o.g o.d o.a o.b (xSb o.sb o.p.toNat))
  | .pand o => some (o.pack 0)
  | .por o => some (o.pack 1)
  | .pxor o => some (o.pack 2)
  | .pnot o => some (o.pack 0x10 0 3)
  | .pmov o => some (o.pack 0x10 0 4)
  | .sadd o => some (o.pack 0x11 0)
  | .ssub o => some (o.pack 0x11 1)
  | .smul o => some (o.pack 0x12 0)
  | .scmp o => some (o.pack 0x12 1)
  | .smin o => some (o.pack 0x13 0)
  | .smax o => some (o.pack 0x13 1)
  | .sand o => some (o.pack 0x14 0)
  | .sor o => some (o.pack 0x14 1)
  | .sxor o => some (o.pack 0x15 0)
  | .sshl o => some (o.pack 0x15 1)
  | .sshr o => some (o.pack 0x16 0)
  | .ssar o => some (o.pack 0x16 1)
  | .smovi o => some (packSI o.c 0x17 o.d o.i)
  | .smovh o => some (packSI o.c 0x18 o.d o.i)
  | .fadd o => some (o.pack 0x19)
  | .fsub o => some (o.pack 0x1A)
  | .fmul o => some (o.pack 0x1B)
  | .ffma o => some (o.pack 0x1C)
  | .fdiv o => some (o.pack 0x1D)
  | .fmin o => some (o.pack 0x1E 0)
  | .fmax o => some (o.pack 0x1E 1)
  | .fsqrt o => some (o.pack 0x1F 0)
  | .frcp o => some (o.pack 0x1F 1)
  | .frsq o => some (o.pack 0x1F 2)
  | .frnd o => some (o.pack 0x1F 3)
  | .fcmp o => some (o.pack 0x20)
  | .fcvt o => some (packVR o.c 0x21 o.g o.d o.a o.p o.r.toNat)
  | .badd2 o => some (o.pack 0x22 0)
  | .bmul2 o => some (o.pack 0x22 1)
  | .bfma2 o => some (o.pack 0x22 2)
  | .fex2 o => some (o.pack 0x23 0 0)
  | .flg2 o => some (o.pack 0x23 1 0)
  | .fsin o => some (o.pack 0x23 2 0)
  | .fcos o => some (o.pack 0x23 3 0)
  | .perm o => some (o.pack 0x24 0)
  | .bcast o => some (o.pack 0x25 0)
  | .laneq o => some (packVR o.c 0x25 o.g o.d 0 o.b (4 + o.f.toNat))
  | .vote o => some (o.pack 0x25 2)
  | .rng o => some (packVR o.c 0x25 o.g o.d 0 0 (12 + o.f.toNat))
  | .lred o => some (o.pack 0)
  | .lscan o => some (o.pack 1)
  | .ld o => some (o.pack 0x27)
  | .st o => some (o.pack 0x28)
  | .lds o => some (o.pack 0x29)
  | .sts o => some (o.pack 0x2A)
  | .ldp o => some (o.pack 0x2B)
  | .stp o => some (o.pack 0x2C)
  | .atom o => some (o.pack 0x2D)
  | .cas o => some (o.pack 0x2E)
  | .cas2 o => some (o.pack 0x2F 0)
  | .mcas o => some (o.pack 0x2F 1)
  | .red o => some (o.pack 0x30)
  | .ldsum o => some (packMEM o.c 0x31 o.g o.d o.off o.k o.ord o.y.toNat)
  | .enq o => some (o.pack 0x32 0)
  | .chase o => some (o.pack 0x32 1)
  | .cpy o => some (o.pack 0x33 0)
  | .gath o => some (o.pack 0x33 1)
  | .scat o => some (o.pack 0x33 2)
  | .waitc o => some (packMEM o.c 0x33 o.g o.k 0 (BitVec.ofNat 5 o.n.toNat) 0 3)
  | .fence o => some (packMEM o.c 0x34 o.g (BitVec.ofNat 6 o.s.toNat) 0 0 0 0)
  | .flush o => some (packMEM o.c 0x34 o.g 0 o.off o.k 0 1)
  | .invl o => some (packMEM o.c 0x34 o.g 0 o.off o.k 0 2)
  | .pf o => some (packMEM o.c 0x34 o.g (wide1 o.n) o.off o.k 0 3)
  | .waitln o => some (packMEM o.c 0x34 o.g o.d o.off o.k (BitVec.ofNat 2 o.acq.toNat) 4)
  | .mma o => some (o.pack 0x35 0)
  | .mxp o => some (o.pack 0x36 0)
  | .mrp o => some (o.pack 0x36 1)
  | .mrr o => some (o.pack 0x37 0)
  | .madd o => some (o.pack 0x37 1)
  | .mld o => some (o.pack 0x38 0)
  | .mst o => some (o.pack 0x38 1)
  | .mbind o => some (packVR o.c 0x39 0 (wide4 o.v) o.a o.b 0)
  | .mfill o => some (packVR o.c 0x39 0 (wide4 o.t) (wide4 o.o) (BitVec.ofNat 6 (o.k.toNat * 16 + o.m.toNat)) 1)
  | .optab o => some (packVR o.c 0x39 0 (wide4 o.o) o.a 0 2)
  | .cbld o => some (packVR o.c 0x39 0 (wide5 o.k) o.a o.b 3)
  | .scld o => some (packVR o.c 0x39 0 (wide5 o.k) o.a 0 4)
  | .mqry o => some (packVR o.c 0x39 0 o.d (wide4 o.t) (wide1 o.l) 5)
  | .spawn o => some (o.pack 0x3A 0)
  | .reform => some (packVR false 0x3A 0 0 0 0 1)
  | .yield => some (packVR false 0x3A 0 0 0 0 2)
  | .bar o => some (packVR false 0x3A 0 o.d 0 o.b 3)
  | .bara b => some (packVR false 0x3A 0 0 0 b 4)
  | .barw o => some (packVR false 0x3A 0 o.d 0 o.b 5)
  | .waitev o => some (packVR false 0x3A 0 o.d o.a 0 6)
  | .bound o => some (o.pack 0x3A 7)
  | .incset o => some (o.pack 0x3A 8)
  | .incget o => some (packVR false 0x3A 0 o.d 0 o.b 9)
  | .xacq o => some (packVR false 0x3A 0 o.d o.a 0 10)
  | .xrel o => some (packVR false 0x3A 0 o.d o.a 0 11)
  | .commit => some (packVR false 0x3A 0 0 0 0 12)
  | .lkreq o => some (o.pack 0x3B 0)
  | .lktry o => some (o.pack 0x3B 1)
  | .lkupg o => some (o.pack 0x3B 2)
  | .lkrel o => some (o.pack 0x3B 3)
  | .lkrela d => some (packVR false 0x3B 0 d 0 0 4)
  | .lkqry o => some (o.pack 0x3B 5)
  | .cmtx o => some (o.pack 0x3B 6)
  | .trap b => some (packVR false 0x3C 0 0 0 b 0)
  | .eret => some (packVR false 0x3C 0 0 0 0 1)
  | .abort r b => some (packVR false 0x3C 0 (wide1 r) 0 b 2)
  | .tsave d l => some (packVR false 0x3C 0 d 0 (wide1 l) 3)
  | _ => none

/-! ## Bytes -/

/-- The word at the head of a byte list, little-endian (R3), and the rest. -/
def wordOfBytes : List Byte → Option (Word × List Byte)
  | b0 :: b1 :: b2 :: b3 :: rest =>
    some (BitVec.ofNat 32 (b0.toNat + b1.toNat * 2 ^ 8 + b2.toNat * 2 ^ 16 + b3.toNat * 2 ^ 24), rest)
  | _ => none

/-- The four bytes of a word, lowest address first (R3). -/
def bytesOfWord (w : Word) : List Byte :=
  [BitVec.ofNat 8 w.toNat, BitVec.ofNat 8 (w.toNat / 2 ^ 8), BitVec.ofNat 8 (w.toNat / 2 ^ 16),
    BitVec.ofNat 8 (w.toNat / 2 ^ 24)]

/-- Decode the instruction at the head of a byte list; none when fewer than four bytes stand there. -/
def decodeBytes (bs : List Byte) : Option (Except DecodeFault Instr × List Byte) :=
  (wordOfBytes bs).map fun p => (decode p.1, p.2)

/-- The instruction the decoder reads from a table row's bits: one 32-bit word, stored little-endian. A row without bits is
an event, which no word encodes. -/
def decodeTableWord (nbits w : Nat) : Option Instr :=
  if nbits = 0 then none
  else
    match decodeBytes (bytesOfWord (BitVec.ofNat 32 (w % 2 ^ nbits))) with
    | some (.ok i, _) => some i
    | _ => none

end Sys2Proof
end

