-- ==== Sys2Proof/Config.lean ====
section
/-!
DEFINITION. What the model does not know: the free values (log entry 4). Each is an opaque constant, applied to the
counter `State.free` and to whatever the value may depend on, so no proof can rest on what it is. The figures that the
spec fixes for FJH-1 (R16) are ordinary definitions.
-/

namespace Sys2Proof.Config

/-- Ticks that pass after a step, beyond the one it takes (R15, R49). -/
opaque stepTicks : Nat → Nat
/-- Which enabled event or issue moves next (R300, R304). -/
opaque nextTurn : Nat → Nat
/-- How many choices at most pass before one is made in turn, so that nothing that stays enabled waits for ever (R311). -/
opaque fairSpan : Nat
/-- Whether a squad of the active set is ready for an issue slot at this moment, as far as its pipeline goes (R295): draw, core,
squad. -/
opaque slotReady : Nat → Nat → Nat → Bool
/-- Whether a further thread of the squad that stands at the issuing word joins the issue (R69, R300): draw, thread. -/
opaque joins : Nat → Nat → Bool
/-- Length of a lease the home grants (R115); at most 2,048 ticks are used. -/
opaque leaseLength : Nat → Nat → Nat
/-- Ticks spent removing near copies (R116). -/
opaque nearInvalidation : Nat → Nat → Nat
/-- Ticks spent recalling host copies (R116). -/
opaque backInvalidation : Nat → Nat → Nat
/-- Whether an access walks the tables again although a translation of its page is cached (R370). -/
opaque walksAgain : Nat → Nat → Bool
/-- Whether an element of an engine command that stops was performed before it stopped (R132, R162): draw, element. -/
opaque performed : Nat → Nat → Bool
/-- The key that orders the lanes of one word as they reach a home (R155) or make offers (R324): draw, thread. -/
opaque laneOrder : Nat → Nat → Nat
/-- Whether a scale value is the old or the new one while its bytes change (R191). -/
opaque scaleStale : Nat → Nat → Bool
/-- The INT40 value as which a scaled sum, an FA40 pattern, enters an INT40 cell (R193, R254): the spec states no conversion there. -/
opaque scaledInt : Nat → Nat
/-- The key that orders the partials of one element as they are folded outside deterministic mode (R106): draw, task,
thread. -/
opaque partialOrder : Nat → Nat → Nat → Nat
/-- Bytes of device memory that the module can give to private areas (R93, R294). -/
opaque privateReserve : Nat
/-- The base of the report area, in pages of 4 KiB (R413). -/
opaque reportPage : Nat → Nat
/-- The measurements and the signature of an attestation answer (R415). -/
opaque attestation : Nat → List Byte
/-- Peers of the domain besides the module (R376). -/
opaque peers : Nat
/-- Channels for which the far end of a link asks for integrity-only mode in the same enclosure (R380): draw, port. -/
opaque farModes : Nat → Nat → Nat
/-- A matrix request reads an operand element at its formation, not in its pass (R238): request, element. -/
opaque readEarly : Nat → Nat → Bool
/-- The port that what leaves the module takes, among those that are up (R378): draw. -/
opaque route : Nat → Nat
/-- The one port that the .ORD stores of the module to a peer take, among those that are up (R150, R410): peer. -/
opaque fixedRoute : Nat → Nat
/-- The number of flits, less one, of what leaves the module (R378): draw. -/
opaque flits : Nat → Nat
/-- The sum that an LDSUM gives over a group of replicas of which the module itself holds one (R157, R377): draw, own element. -/
opaque replicaSum : Nat → BitVec 32 → BitVec 32
/-- The reason with which another replica of the group refuses its part of such an LDSUM, modulo 5; 0 for none (R148, R377): draw. -/
opaque replicaRefusal : Nat → Nat
/-- Whether a flit that fails authentication is the one that failed last (R379). -/
opaque sameFlit : Nat → Bool

/-! ## Figures of FJH-1 (R10 to R13, R16) -/

/-- Clusters of the module. -/
def clusters : Nat := 144
/-- Cores of the module. -/
def cores : Nat := 576
/-- Usable device memory in full service, 248 GiB (R110). -/
def deviceBytes : Nat := 248 * 2 ^ 30
/-- Usable device memory in reduced service, 64 GiB (R110). -/
def reducedBytes : Nat := 64 * 2 ^ 30
/-- First key of host memory in the one table of bytes: host physical address `h` has the key `2^56 + h`. -/
def hostBase : Nat := 2 ^ 56
/-- Bytes of a line (R100). -/
def lineBytes : Nat := 128

end Sys2Proof.Config
end

