-- ==== Sys2Proof/Machine/Maps.lean ====
section
/-!
DEFINITION. Keyed lists: every sparse table of the machine is a list of pairs with ascending keys. `put` inserts or
replaces, `del` removes, `get?` reads. Memory is such a table in which no entry equals what an unlisted address reads as.
-/

namespace Sys2Proof.KMap

variable {α : Type}

/-- The data at a key. -/
def get? (k : Nat) : KMap α → Option α
  | [] => none
  | (j, a) :: rest => if j = k then some a else get? k rest

/-- Insert or replace, keeping the keys ascending. -/
def put (k : Nat) (a : α) : KMap α → KMap α
  | [] => [(k, a)]
  | (j, b) :: rest =>
    if j = k then (k, a) :: rest
    else if k < j then (k, a) :: (j, b) :: rest
    else (j, b) :: put k a rest

/-- Remove a key. -/
def del (k : Nat) : KMap α → KMap α
  | [] => []
  | (j, b) :: rest => if j = k then del k rest else (j, b) :: del k rest

/-- The data at a key, or a default. -/
def getD (k : Nat) (d : α) (m : KMap α) : α := (get? k m).getD d

/-- Change the data at a key if there is any. -/
def upd (k : Nat) (f : α → α) : KMap α → KMap α
  | [] => []
  | (j, b) :: rest => if j = k then (j, f b) :: rest else (j, b) :: upd k f rest

/-- Change every entry. -/
def mapAll (f : α → α) (m : KMap α) : KMap α := m.map fun p => (p.1, f p.2)

/-- Keep the entries that satisfy a test. -/
def keep (f : Nat → α → Bool) (m : KMap α) : KMap α := m.filter fun p => f p.1 p.2

/-- The keys. -/
def keys (m : KMap α) : List Nat := m.map Prod.fst
/-- The entries without their keys. -/
def vals (m : KMap α) : List α := m.map Prod.snd

/-- Keys strictly ascending. -/
def ascending : KMap α → Bool
  | [] => true
  | (j, _) :: rest => rest.all (fun p => j < p.1) && ascending rest

end Sys2Proof.KMap
end

