-- ==== Sys2Proof/Machine/State.lean ====
section
/-!
DEFINITION. The state of the Jenhal, all of it, as plain data: threads, tasks, cores, clusters, contexts, launches, the
memory side, the Curator, the fabric and the management block (R10 to R17, R20). Fields that are the model's own and
not the spec's are named so (log entry 3). `State.reset` is the module after reset (R15, R317, R414).
-/

namespace Sys2Proof.Machine

/-! ## Threads -/

/-- Wait reasons (R303). A thread that has signed waits `signing`; one that cannot sign yet waits `toSign`, with the same code. A
thread that stalls at a word which the table of R303 does not name has no wait reason: it is running and has `stallTo`. -/
inductive Wait where
  | barrier | event | lock | resource | line | engine | meeting | signing | toSign | remote | turn | codebook
  deriving DecidableEq, Repr

/-- What a thread is doing: it issues when its squad does; it is held at its word; it stands in a drawer since a tick
(R299); it has exited (R83). -/
inductive Cond where
  | running
  | held (w : Wait)
  | filed (tick : Nat)
  | exited
  deriving DecidableEq, Repr

/-- A repeat in progress (R60): CNT, the steps of D, A and B (0 for none), and the index of the repeat that stands
next. -/
structure Rep where
  cnt : Nat
  sd : Nat
  sa : Nat
  sb : Nat
  idx : Nat
  deriving DecidableEq, Repr

/-- The unreported posted-store fault of a thread (R136). -/
structure PostedFault where
  cause : Nat
  reason : Nat
  count : Nat
  addr : Nat
  order : Nat
  deriving DecidableEq, Repr

/-- The unreported engine fault of one class (R162): `info` is TINFO[15:0], `order` the place of the command among the
thread's commands of the class. -/
structure EngFault where
  cause : Nat
  info : Nat
  addr : Nat
  order : Nat
  deriving DecidableEq, Repr

/-- One barrier count (R320, R396), with the tick of the latest arrival, whether that barrier has completed, and whether
the thread is its last arriver (R302, R321). -/
structure BarCount where
  coh : Nat
  whole : Bool
  count : Nat
  unwaited : Bool
  tick : Nat
  done : Bool
  last : Bool
  deriving DecidableEq, Repr

/-- What a thread brought to a cross-lane word (R212): the word, the lane-control word and the scalar after it as its own
issue read them, and whether its guard held; `met` lists the threads that have reached a stop point of their own for this arrival, and
`past` those of them whose stop point that was is over, so that a later one of theirs counts for a later arrival. -/
structure Arrival where
  op : Instr
  lane : Word
  after : Word
  guard : Bool
  met : List Nat
  past : List Nat
  deriving DecidableEq, Repr

/-- The image of a thread in the save reserve (R396): its address, and, as they were written there, what the hardware may
change while the thread is away or stopped. -/
structure Image where
  addr : Nat
  pc : DWord
  tepc : DWord
  taddr : DWord
  tinfo : Word
  tcause : BitVec 16
  oc : Vector (BitVec 6) 4
  v : Vector Word 64
  lwct : Vector Nat 7
  posted : Option PostedFault
  eflt : Vector (Option EngFault) 4
  deriving DecidableEq, Repr

/-- The packet that a thread is in, as it was fetched (R47): its address and its three words. -/
structure Packet where
  addr : Nat
  ws : List Word
  deriving DecidableEq, Repr

/-- What the words of a chain read as it stood before the chain, although a word of it, or another squad, may change it (R52):
FPFLAGS, RNGCTR, the operations issued of each class, whether the task is irrevocable, DTIME, and the task's S registers, RNGKEY,
bound and bound selector. -/
structure Before where
  fpflags : Word
  rngctr : Word
  issued : Vector Nat 4
  irrevocable : Bool
  dtime : Nat
  s : Vector Word 160
  rngkey : DWord
  bnd : DWord
  bsel : BitVec 6
  deriving DecidableEq, Repr

/-- A thread (R17, R20, R27). `away` says its squad is evicted (R395), `halted` that it is stopped (R398, R399). `base` is what stood
before the chain that the thread is in the middle of (R52). `waited` counts the ticks of the wait for the reason `waitFor` (R304).
`reached` counts its arrivals at the task words, by address (R313). `missed` lists, once for each time, the threads that have passed a
cross-lane word without waiting there (R210) while this thread was on its way to a stop point: the next one it comes to meets that
word. `pkt` is the
packet that it fetched last. `kept` holds the S registers as the word at which it waits read them, once, at its first issue (R145,
R313). `chased`: the node that a CHASE under way has reached, and the links it has followed (R159). -/
structure Thread where
  v : Vector Word 64
  p : BitVec 8
  oc : Vector (BitVec 6) 4
  pc : DWord
  cond : Cond
  away : Bool
  halted : Bool
  squad : Nat
  rep : Option Rep
  repFrom : Nat
  fpmode : Word
  fpflags : Word
  rngctr : Word
  tepc : DWord
  tcause : BitVec 16
  taddr : DWord
  tinfo : Word
  h : Bool
  cmem : DWord
  dtimeHi : Option Word
  arrival : Option Arrival
  stallTo : Option Nat
  waited : Nat
  waitFor : Option Wait
  lwct : Vector Nat 7
  posted : Option PostedFault
  eflt : Vector (Option EngFault) 4
  issued : Vector Nat 4
  bars : List BarCount
  reached : KMap Nat
  answer : Option RemoteRes
  outcome : Option Nat
  image : Option Image
  base : Option Before
  missed : List Nat
  pkt : Option Packet
  kept : Option (Vector Word 160)
  chased : Option (Nat × Nat)
  deriving DecidableEq, Repr

/-! ## Tasks -/

/-- The Jenhal's own copy of a task record (R37, R317). -/
structure TaskRec where
  entry : Nat
  accn : Nat
  paccn : Nat
  bound : DWord
  flags : Word
  bselw : Word
  ntid : Nat
  rlcnt : Nat
  rreq : Word
  args : DWord
  depev : Nat
  donev : Nat
  cata : Nat
  tidx : Nat
  deriving DecidableEq, Repr

/-- The states of R289 that a task in the table has; a task that has ended is no longer there. `waitTurn` is a task of
a deterministic launch that has ended but whose event waits for its turn (R278). -/
inductive Phase where
  | queued
  | running
  | ending
  | waitTurn
  deriving DecidableEq, Repr

/-- Why a task stops at its next instruction boundary (R309, R381, R387, R391). -/
inductive StopKind where
  | program (cause : Nat)
  | aborted (code : Nat)
  | retry (code : Nat)
  | cancel
  | wound
  | relaunch (cause hold : Nat)
  | machineCheck
  | removal
  deriving DecidableEq, Repr

/-- A stop as it was taken: thread (none when it belongs to no thread), wait reason code, trap values, NEST. -/
structure Stop where
  kind : StopKind
  tid : Option Nat
  wait : Nat
  tinfo : Word
  tepc : Nat
  taddr : Nat
  nest : Bool
  deriving DecidableEq, Repr

/-- A byte of an effect buffer with the translation generation it was buffered under and its virtual page (R101,
R369). -/
structure EbByte where
  byte : Byte
  gen : Nat
  page : Nat
  deriving DecidableEq, Repr

/-- A partial of an update-only reduction (R105, R106): element address, operation and format (codes of R152, R34),
value, and the thread that holds it. -/
structure Partial where
  key : Nat
  op : Nat
  fmt : Nat
  value : Word
  accn : Nat
  tid : Nat
  gen : Nat
  page : Nat
  deriving DecidableEq, Repr

/-- A reaching of a task word that has been carried out (R313): address, ordinal, its status, whether the status has been written to
its S register, and the fault that it ended in, if it did: cause, TADDR, TINFO. -/
structure Reaching where
  addr : Nat
  nth : Nat
  status : Nat
  written : Bool
  fault : Option (Nat × Nat × Word)
  deriving DecidableEq, Repr

/-- A resource request that waits (R30): class (0 to 3 of R327, 4 a convergence register), count or register, and the
reaching that asks: word address and ordinal. -/
structure ResReq where
  cls : Nat
  count : Nat
  addr : Nat
  nth : Nat
  deriving DecidableEq, Repr

/-- A task (R17, R289). `spots`: for each page of its scratchpad window the core and the page of that core's scratchpad (R98, R99). V32 to V63 count only for the chunks held. `stopping`: a STOP report under stop-all stops its
threads at their next boundary (R399). -/
structure Task where
  rcd : TaskRec
  ctx : Nat
  launch : Nat
  phase : Phase
  cluster : Nat
  queued : Nat
  passed : Option Nat
  holdTo : Nat
  eligible : Bool
  core : Nat
  irrevocable : Bool
  commitT : Option Nat
  bnd : DWord
  bsel : BitVec 6
  s : Vector Word 160
  rngkey : DWord
  dtimeHi : Option Word
  chunks : Nat
  tiles : KMap Nat
  pages : Nat
  spots : List (Nat × Nat)
  ebPages : Nat
  spad : KMap Byte
  ebuf : KMap EbByte
  parts : List Partial
  cat : List (BitVec 128)
  charge : Nat
  reach : List Reaching
  wants : List ResReq
  offers : List (Nat × DWord)
  stop : Option Stop
  stopping : Bool
  matFault : Option Nat
  ended : Option (Nat × Nat)
  threads : KMap Thread
  deriving DecidableEq, Repr

/-! ## Cores and clusters -/

/-- A dirty byte of L1 with the threads that have written it since it was clean, by task and TID, the last of them first, and the
oldest translation generation among their stores (R100, R118, R119, R369). -/
structure DirtyByte where
  byte : Byte
  writers : List (Nat × Nat)
  gen : Nat
  deriving DecidableEq, Repr

/-- A line of L1: dirty bytes by offset, and the end of the lease under which its clean bytes may be read (R115). The
clean bytes are the home's (the home keeps them unchanged for the whole lease), so they need no copy. -/
structure L1Line where
  dirty : KMap DirtyByte
  lease : Option Nat
  deriving DecidableEq, Repr

/-- An entry of the range scoreboard (R112): scratchpad range, whether loads stall too, and the operation. -/
structure RangeEntry where
  accn : Nat
  lo : Nat
  hi : Nat
  loads : Bool
  op : Nat
  deriving DecidableEq, Repr

/-- A squad (R299): its task, the tick it was formed, and whether it stands in the active set. -/
structure Squad where
  accn : Nat
  formed : Nat
  active : Bool
  deriving DecidableEq, Repr

/-- A core (R13). `invited`: the contexts that have won room on it from another by pre-emption (R18, R305). -/
structure Core where
  split : Nat
  l1 : KMap L1Line
  parts : List Partial
  board : List RangeEntry
  incs : KMap DWord
  squads : KMap Squad
  nextSquad : Nat
  deficit : KMap Int
  used : KMap Nat
  invited : List Nat
  deriving DecidableEq, Repr

/-- A physical accumulator tile (R20, R26): cells by `128 × row + column`, 0 where unlisted, and the sticky saturation
bit (R178). -/
structure Tile where
  cells : KMap Acc
  sat : Bool
  owner : Option Nat
  deriving DecidableEq, Repr

/-- A signature (R233, R251): thread, row-index element, format word, and the word that was signed; `left` says that its thread no
longer stands at the word (R304, R399). -/
structure Sig where
  tid : Nat
  idx : Word
  fw : Word
  maj : Nat
  x : Nat
  tl : Nat
  opx : Nat
  left : Bool
  deriving DecidableEq, Repr

/-- A bound convergence register (R233, R248, R249): the descriptor, the copies of its records and scale records, and
the pending signatures by rank. -/
structure Binding where
  accn : Nat
  w0 : Word
  w1 : Word
  w2 : Word
  recA : Vector Word 8
  recB : Vector Word 8
  scA : Option (Vector Word 8)
  scB : Option (Vector Word 8)
  sigs : KMap Sig
  deriving DecidableEq, Repr

/-- A formed request (R233, R239, R252): what was signed, with its own copies of entry and records; the rows by rank;
the signers, and those of them that are held until it retires (`held`, EXC trap); `pass` the next pass; `filled` the cells that are no longer empty under INIT; `exc` the TINFO of a matrix
exception that stopped it (R243, R259); `early` the operand elements that it has read already, `stopped` that a shadow mismatch has
stopped it (R241), `wct` the last WCT of its writes, which its signers note when it retires (R121); `admitted` says it stands in the table, not outside it (R239); `hold` is the tick
at which a recalled line or an MST write is performed. -/
structure Request where
  id : Nat
  accn : Nat
  cv : Nat
  maj : Nat
  x : Nat
  tl : Nat
  stile : Option Nat
  entry : Word
  fw : Word
  rows : KMap Word
  signers : List Nat
  held : List Nat
  recA : Vector Word 8
  recB : Vector Word 8
  scA : Option (Vector Word 8)
  scB : Option (Vector Word 8)
  kstart : Nat
  klen : Nat
  formed : Nat
  pass : Nat
  filled : KMap Unit
  exc : Option Word
  early : KMap Nat
  stopped : Bool
  wct : Nat
  admitted : Bool
  hold : Nat
  deriving DecidableEq, Repr

/-- A codebook in a cluster's store (R180, R262). -/
structure Codebook where
  vals : List (BitVec 16)
  loaded : Nat
  deriving DecidableEq, Repr

/-- Room on a core: squads, scratchpad pages, effect-buffer pages. -/
structure Room where
  squads : Nat
  spad : Nat
  ebuf : Nat
  deriving DecidableEq, Repr

/-- A reserved record (R296), and for each core on which it could fit what was free there when it became reserved and has not been
given away since: what becomes free later is held for it. -/
structure Reserve where
  accn : Nat
  spare : KMap Room
  deriving DecidableEq, Repr

/-- A cluster (R12). `reserved`: the reserved record of each context (R296). -/
structure Cluster where
  tiles : KMap Tile
  cvs : KMap Binding
  table : List Request
  passes : Nat
  books : KMap Codebook
  scales : KMap (List Byte)
  reserved : KMap Reserve
  scanned : Nat
  deriving DecidableEq, Repr

/-! ## Contexts and launches -/

/-- A cached translation (R369): leaf entry and the level it was found at. -/
structure Xlate where
  pte : DWord
  level : Nat
  deriving DecidableEq, Repr

/-- An incumbent's home (R306): its value, its start value, and the values performed with their ticks. -/
structure Incumbent where
  value : DWord
  start : DWord
  log : List (Nat × DWord)
  deriving DecidableEq, Repr

/-- An active context (R363, R364). `revoked`: pages (bits 55:16) whose ROE mark a shoot-down has revoked, until an INVCMD finds ROE
clear (R376). -/
structure Ctx where
  ptroot : Nat
  peert : Nat
  tvec : DWord
  row : Nat
  col : Nat
  rows : Nat
  cols : Nat
  wiring : Nat
  weight : Nat
  aging : Nat
  watchdog : Nat
  inccfg : Word
  incdir : Word
  incs : KMap Incumbent
  optab : Vector Word 16
  cmtx : DWord
  gen : Nat
  tlb : KMap Xlate
  cancelled : KMap Nat
  stopAll : Bool
  revoked : List Nat
  deriving DecidableEq, Repr

/-- A launch (R268, R271 to R275, R301). -/
structure Launch where
  ctx : Nat
  det : Bool
  single : Bool
  coop : Bool
  roots : Nat
  turn : Nat
  snap : Option (KMap DWord)
  inc : KMap DWord
  irrevocable : Bool
  deriving DecidableEq, Repr

/-! ## The memory side -/

/-- The home's record of a line (R108, R115, R116): latest lease end granted, last WCT of a write that is no pending commit, near
copies (slice, launch). -/
structure Home where
  lease : Nat
  wct : Nat
  near : List (Nat × Nat)
  deriving DecidableEq, Repr

/-- A write accepted at its home and not yet performed: its bytes take effect at `wct` (R116). `core` and `owners` say who
wrote (core 576 is the host, 577 a home or the conservator; no owner is an agent that is no task). `bound`: the last lease end
that the home may grant while it is pending, for a commit the H that the home has reported; `commit` says that it is one (R116,
R128). `ctxs`: the contexts of the owners (R369). -/
structure HomeWrite where
  wct : Nat
  line : Nat
  bytes : KMap Byte
  core : Nat
  owners : List Nat
  bound : Nat
  commit : Bool
  ctxs : List Nat
  deriving DecidableEq, Repr

/-! ## Curator -/

/-- A wait of a task on a lock name (R346, R355): mode asked for, whether it is an upgrade, and the threads held. -/
structure LockWait where
  mode : Nat
  upgrade : Bool
  tids : List Nat
  deriving DecidableEq, Repr

/-- One entry of the Curator (R341): a task's hold on a name (mode 0 when it holds nothing), whether its release is
pending, and its wait. The name is the key of R341. -/
structure LockEntry where
  name : Nat
  accn : Nat
  mode : Nat
  pend : Bool
  wait : Option LockWait
  deriving DecidableEq, Repr

/-! ## Engines and fabric -/

/-- Where one element of an engine command lies: outside bounds as zero-fill reads or drops it; in the scratchpad; at keys of
memory; in a remote window (virtual address, peer, export, offset). -/
inductive Spot where
  | zero
  | drop
  | spad (o : Nat)
  | keys (va : Nat) (ks : List Nat)
  | far (va peer exp off : Nat)
  deriving DecidableEq, Repr

/-- An element of an engine command that can be moved: its number, where its source lies, and the destination element with its
place. -/
structure Moving where
  i : Nat
  src : Spot
  o : Nat
  dst : Spot
  deriving DecidableEq, Repr

/-- An operation of the copy or the gather-and-scatter engine that has not retired (R131, R160): its records, starts and
count; `plan`, once every index and every remote element has been read, the elements that have still to be performed: those before
the first that faults; `got` the remote elements read so far, by `2 i` for element i of the
source and `2 i + 1` for index i, and the acknowledgements of remote writes, by `2 n + 2 + i`; `written` says its writes have been
issued, the last of them performed at `until'`; `fault` what stopped it; `gen` the generation of translations of its plan (R369);
`wct` the last WCT of its writes, which its thread notes when it retires (R121). -/
structure EngOp where
  id : Nat
  accn : Nat
  tid : Nat
  cls : Nat
  kind : Nat
  dst : Vector Word 8
  src : Vector Word 8
  lst : Vector Word 8
  start : Nat
  from' : Nat
  n : Nat
  order : Nat
  plan : Option (List Moving)
  got : KMap RemoteRes
  written : Bool
  until' : Nat
  fault : Option (Nat × Nat × Nat)
  gen : Nat
  wct : Nat
  deriving DecidableEq, Repr

/-- An outstanding remote operation (R133, R148 to R151). `async`: the register an .ASYNC response writes, how many
registers, and its FMT with 16 added for .U. `eng`: the engine operation it belongs to, and the key of its element. `back`:
the response of an .ASYNC operation that has not retired (R131, R135). `part`: where its bytes lie in those of the request, which
may cover a line for 32 threads (R126). `acq`: its thread goes on only once it is acknowledged (R122). `gen`: the generation of
translations under which it was formed (R369). -/
structure OutReq where
  req : RemoteReq
  peer : Nat
  accn : Nat
  tid : Nat
  va : Nat
  bytes : Nat
  posted : Bool
  isOrd : Bool
  async : Option (Nat × Nat × Nat)
  eng : Option (Nat × Nat)
  order : Nat
  sent : Nat
  resends : Nat
  back : Option RemoteRes
  part : Nat
  acq : Bool
  gen : Nat
  deriving DecidableEq, Repr

/-- The result of a remote operation performed here, none once it has been dropped (R151), and when it was performed. `owed` says
that its first answer, which waits for its WCT, has still to be sent (R116, R133). -/
structure Replay where
  res : Option RemoteRes
  tick : Nat
  owed : Bool
  deriving DecidableEq, Repr

/-- A Sniut port (R378, R379): up, slot in use for sending and slot in use for receiving, flits sent under each slot, keys loaded,
authentication failures of the flit now on the link, and channel modes applied at the last switch-over (R380). -/
structure Port where
  up : Bool
  slot : Nat
  rslot : Nat
  count0 : Nat
  count1 : Nat
  key0 : Option Nat
  key1 : Option Nat
  failures : Nat
  modes : Nat
  deriving DecidableEq, Repr

/-- What has left the module. -/
inductive Sent where
  | request (peer : Nat) (r : RemoteReq)
  | response (peer tag : Nat) (r : RemoteRes) (roe : Bool)
  | ack (peer tag : Nat) (r : RemoteRes)
  | hostData (addr : Nat) (bytes : List Byte)
  | federation (fgrp i : Nat) (max : Bool) (v : DWord)
  | shootDown (page : Nat)
  | shootAnswer (peer : Nat)
  | attestation (bytes : List Byte)
  deriving DecidableEq, Repr

/-- The module's registers: TCB (R366), management page (R413, R414), peer index (R27), host link, and the management controller's
counts of federation values of the other direction (R307) and of corrected soft errors (R394). -/
structure Regs where
  ctxsts : Nat
  invsts : DWord
  exptb : DWord
  shdsts : DWord
  encl : DWord
  vcmode : DWord
  latch : KMap Word
  level : Nat
  train : Bool
  stest : Bool
  clk : Nat
  fail : Nat
  dies : Nat
  rqbase : Nat
  saveb : DWord
  saves : DWord
  pcap : DWord
  launchq : DWord
  hostUp : Bool
  peerid : Nat
  mismatches : Nat
  corrected : Nat
  deriving DecidableEq, Repr

/-! ## What moves next (the model's own) -/

/-- Where a thread stands: its word, its repeat, and its packet where it has been fetched. -/
structure Stand where
  pc : DWord
  rep : Option Rep
  pkt : Option Packet
  deriving DecidableEq, Repr

/-- Threads that may issue together: core, squad, and where they stand. -/
structure Path where
  core : Nat
  squad : Nat
  at' : Stand
  deriving DecidableEq, Repr

/-- What may move next: something due on the agenda, an event, or the threads of a task on one path. -/
inductive Turn where
  | due (e : Instr)
  | event (e : Instr)
  | issue (accn : Nat) (p : Path)
  deriving DecidableEq, Repr

/-- The word being executed (the model's own): the task and threads of one squad that issue it, its address, and whether
a word of its chain follows. -/
structure Issue where
  accn : Nat
  lanes : List Nat
  pc : DWord
  more : Bool
  deriving DecidableEq, Repr

/-- Bytes of device and host memory by key; an unlisted byte reads 0x00 (log entry 1). -/
abbrev Memory := KMap Byte

/-- The state of the module. The fields `turn`, `free`, `still`, `asked`, `issue`, `agenda`, `sent`, `hole`, `nextId` and `epoch` are
the model's own (log entry 3): `still` counts the steps since time last passed, and `asked` lists what could move at the last choice
and has not, the longest first (log entry 92). -/
structure State where
  dtime : Nat
  mem : Memory
  homes : KMap Home
  writes : List HomeWrite
  poison : List Nat
  hostLines : List Nat
  tasks : KMap Task
  cores : KMap Core
  clusters : KMap Cluster
  ctxs : KMap Ctx
  launches : KMap Launch
  locks : List LockEntry
  engs : List EngOp
  outs : KMap OutReq
  replay : KMap Replay
  ports : KMap Port
  regs : Regs
  accn : Nat
  nextId : Nat
  epoch : Nat
  turn : Nat
  free : Nat
  still : Nat
  asked : List Turn
  issue : Issue
  agenda : List Instr
  sent : List Sent
  hole : Option Nat
  deriving DecidableEq, Repr

/-- Why the machine stops. -/
inductive Fault where
  /-- Raised by `step` after an access whose physical address does not exist (a page entry that names no usable memory
  and no device page, R110, R366). Safe: the spec gives the access no effect. -/
  | noSuchAddress (pa : Nat)
  deriving DecidableEq, Repr

/-- Why the model has no meaning. -/
inductive Refusal where
  /-- Raised by an arm of `exec` that has no meaning yet. Safe. -/
  | notModelled (mnemonic : String)
  deriving DecidableEq, Repr

/-! ## Defaults and reset -/

/-- A core with nothing on it (log entry 2). -/
def Core.empty : Core := ⟨0, [], [], [], [], [], 0, [], [], []⟩
/-- A tile of zeros that no task holds. -/
def Tile.empty : Tile := ⟨[], false, none⟩
/-- A cluster with nothing on it (log entry 2). -/
def Cluster.empty : Cluster := ⟨[], [], [], 0, [], [], [], 0⟩
/-- A line that no lease, write or near copy has touched. -/
def Home.empty : Home := ⟨0, 0, []⟩
/-- A port after reset (log entry 2). -/
def Port.empty : Port := ⟨true, 0, 0, 0, 0, none, none, 0, 0⟩
/-- No word is being executed. -/
def Issue.none : Issue := ⟨0, [], 0, false⟩

/-- The registers after reset: LEVEL 0 (R414); the others as log entry 2 says. -/
def Regs.reset : Regs :=
  ⟨0, 0, 0, 0, 0, 0, [], 0, false, false, 25, 0, 0, 0, 0, 0, 2300, 0, true, 0, 0, 0⟩

/-- The module right after reset: DTIME 0 (R15), the accession counter 1 (R317), LEVEL 0 (R414), no context active, no
task, memory with nothing listed. -/
def State.reset : State :=
  { dtime := 0, mem := [], homes := [], writes := [], poison := [], hostLines := [], tasks := [], cores := [],
    clusters := [], ctxs := [], launches := [], locks := [], engs := [], outs := [], replay := [], ports := [],
    regs := Regs.reset, accn := 1, nextId := 0, epoch := 0, turn := 0, free := 0, still := 0, asked := [],
    issue := Issue.none, agenda := [], sent := [], hole := none }

end Sys2Proof.Machine
end

