-- ==== Sys2Proof/Machine/Ops.lean ====
section
/-!
DEFINITION. The named operations every meaning is built from: reading and writing registers and tables, running a word
in its threads (R68, R69), advancing past a word (R50, R60), and taking a trap and returning from one (R382, R386).
-/

namespace Sys2Proof.Machine

/-- What a meaning answers. -/
abbrev Out := Host.Outcome State Fault Refusal

/-! ## Cause codes (R381) -/

def causeIllegalInstruction : Nat := 0x0001
def causeIllegalChain : Nat := 0x0002
def causeIllegalPrefix : Nat := 0x0003
def causeIllegalOperand : Nat := 0x0004
def causeGuardMisuse : Nat := 0x0005
def causePrivateLimit : Nat := 0x0006
def causeBounds : Nat := 0x0007
def causeMisaligned : Nat := 0x0008
def causeTranslation : Nat := 0x0009
def causePermission : Nat := 0x000A
def causePoisoned : Nat := 0x000B
def causeUnknown : Nat := 0x000C
def causeDivergence : Nat := 0x000D
def causeFormat : Nat := 0x000E
def causeMatrix : Nat := 0x000F
def causeCurator : Nat := 0x0010
def causeBrk : Nat := 0x0011
def causeTrap : Nat := 0x0012
def causeWatchdog : Nat := 0x0013
def causeSoftError : Nat := 0x0014
def causeMachineCheck : Nat := 0x0015
def causeWound : Nat := 0x0016
def causeRelaunchLimit : Nat := 0x0017
def causeRemoval : Nat := 0x0018

/-- The cause of a decode fault. -/
def DecodeFault.cause : DecodeFault → Nat
  | .illegalInstruction => causeIllegalInstruction
  | .illegalPrefix => causeIllegalPrefix
  | .illegalChain => causeIllegalChain
  | .guardMisuse => causeGuardMisuse
  | .illegalOperand => causeIllegalOperand

/-- The code of a wait reason (R303). -/
def Wait.code : Wait → Nat
  | .barrier => 1
  | .event => 2
  | .lock => 3
  | .resource => 4
  | .line => 5
  | .engine => 6
  | .meeting => 7
  | .signing => 8
  | .toSign => 8
  | .remote => 9
  | .turn => 10
  | .codebook => 11

/-- The wait reason a thread records (R303). -/
def Cond.code : Cond → Nat
  | .held w => w.code
  | _ => 0

/-! ## Words and bits -/

/-- Bits `lo` to `lo + n - 1` of a word. -/
def wbits (w : Word) (lo n : Nat) : Nat := w.toNat / 2 ^ lo % 2 ^ n
/-- Bits `lo` to `lo + n - 1` of a 64-bit word. -/
def dbits (d : DWord) (lo n : Nat) : Nat := d.toNat / 2 ^ lo % 2 ^ n
/-- A word from a number. -/
def word (n : Nat) : Word := BitVec.ofNat 32 n
/-- A 64-bit word from a number. -/
def dword (n : Nat) : DWord := BitVec.ofNat 64 n
/-- The low half. -/
def loWord (d : DWord) : Word := word d.toNat
/-- The high half. -/
def hiWord (d : DWord) : Word := word (d.toNat / 2 ^ 32)
/-- A 64-bit word from its halves. -/
def pair (lo hi : Word) : DWord := dword (hi.toNat * 2 ^ 32 + lo.toNat)
/-- The little-endian number of a byte list (R3). -/
def leNat : List Byte → Nat
  | [] => 0
  | b :: bs => b.toNat + 256 * leNat bs
/-- The `n` little-endian bytes of a number (R3). -/
def leBytes : Nat → Nat → List Byte
  | 0, _ => []
  | n + 1, x => BitVec.ofNat 8 x :: leBytes n (x / 256)
/-- One bit as a number. -/
def bit (b : Bool) : Nat := b.toNat

/-- Insert by ascending key, before what has the same key. -/
def insertBy {α : Type} (f : α → Nat) (x : α) : List α → List α
  | [] => [x]
  | y :: ys => if f x ≤ f y then x :: y :: ys else y :: insertBy f x ys

/-- Sort by ascending key, keeping the order of equal keys. -/
def sortBy {α : Type} (f : α → Nat) (xs : List α) : List α := xs.foldr (insertBy f) []

/-! ## Threads -/

/-- V(n) of a thread. -/
def Thread.reg (th : Thread) (n : Nat) : Word := th.v.getD n 0
/-- Write V(n). -/
def Thread.setReg (th : Thread) (n : Nat) (x : Word) : Thread := { th with v := th.v.setIfInBounds n x }
/-- The pair V(n), V(n + 1), low word first. -/
def Thread.reg2 (th : Thread) (n : Nat) : DWord := pair (th.reg n) (th.reg (n + 1))
/-- Write the pair V(n), V(n + 1). -/
def Thread.setReg2 (th : Thread) (n : Nat) (d : DWord) : Thread := (th.setReg n (loWord d)).setReg (n + 1) (hiWord d)
/-- Write consecutive registers from V(n). -/
def Thread.setRegs (th : Thread) : Nat → List Word → Thread
  | _, [] => th
  | n, x :: xs => (th.setReg n x).setRegs (n + 1) xs
/-- The address in V(n), V(n + 1)[24:0] (R82, R314). -/
def Thread.addr2 (th : Thread) (n : Nat) : Nat := (th.reg n).toNat + (th.reg (n + 1)).toNat % 2 ^ 25 * 2 ^ 32

/-- P(i); P0 reads true (R21). -/
def Thread.pred (th : Thread) (i : Nat) : Bool := i == 0 || th.p.getLsbD i
/-- Write P(i); a write to P0 is discarded (R21). -/
def Thread.setPred (th : Thread) (i : Nat) (b : Bool) : Thread :=
  if i = 0 then th
  else { th with p := if b then th.p ||| BitVec.ofNat 8 (2 ^ i) else th.p &&& ~~~ (BitVec.ofNat 8 (2 ^ i)) }

/-- OC(n). -/
def Thread.counter (th : Thread) (n : Nat) : Nat := (th.oc.getD n 0).toNat
/-- Write OC(n). -/
def Thread.setCounter (th : Thread) (n k : Nat) : Thread := { th with oc := th.oc.setIfInBounds n (BitVec.ofNat 6 k) }
/-- One operation more of class `n` issued and not retired (R24). -/
def Thread.count (th : Thread) (n : Nat) : Thread :=
  { th.setCounter n (th.counter n + 1) with issued := th.issued.setIfInBounds n (th.issued.getD n 0 + 1) }
/-- One operation of class `n` retired (R24). -/
def Thread.uncount (th : Thread) (n : Nat) : Thread := th.setCounter n (th.counter n - 1)

/-- Raise the latest WCT of every scope (R119). -/
def Thread.noteWct (th : Thread) (w : Nat) : Thread := { th with lwct := th.lwct.map (max w) }

/-! ## Where a thread stands (R47) -/

/-- The address of the packet that holds a word. -/
def packetOf (pc : Nat) : Nat := pc / 12 * 12
/-- The slot of a word. -/
def slotOf (pc : Nat) : Nat := pc % 12 / 4

/-- Where a thread stands. -/
def Thread.stand (th : Thread) : Stand := ⟨th.pc, th.rep, th.pkt.filter fun p => p.addr = packetOf th.pc.toNat⟩

/-- The word at which a thread stands, where its packet has been fetched. -/
def Thread.atWord (th : Thread) : Option Instr :=
  th.stand.pkt.bind fun p => (p.ws[slotOf th.pc.toNat]?).bind fun w => (decode w).toOption

/-- A word that binds the next word of its packet to it (R51); a REP word binds its own way (R60). -/
def chains (w : Word) : Bool := fC w && fMaj w ≠ 0x03

/-- A thread stands in the middle of a chain. -/
def Thread.inChain (th : Thread) : Bool :=
  match th.stand.pkt with
  | some p => slotOf th.pc.toNat ≠ 0 && ((p.ws[slotOf th.pc.toNat - 1]?).map chains).getD false
  | none => false

/-! ## Moving on -/

/-- Leave the word behind: what belonged to its execution or wait is dropped. -/
def Thread.clear (th : Thread) : Thread :=
  { th with
    waited := 0, waitFor := none, answer := none, outcome := none, arrival := none, repFrom := 0, kept := none, chased := none }

/-- A thread has moved on: past the last word of its chain, what the chain reads as it stood before it is forgotten (R52). -/
def Thread.unmark (th : Thread) : Thread := { th with base := if th.inChain then th.base else none }

/-- The word has completed: the next repeat of a prefixed word stands next, or the word after it (R50, R60). -/
def Thread.next (th : Thread) : Thread :=
  match th.rep with
  | none => Thread.unmark { th.clear with pc := th.pc + 4 }
  | some r =>
    if r.idx < r.cnt then { th.clear with rep := some { r with idx := r.idx + 1 } }
    else Thread.unmark { th.clear with rep := none, pc := th.pc + 4 }

/-- Go to an address (R81, R82). -/
def Thread.jump (th : Thread) (pc : Nat) : Thread := { th.clear with rep := none, base := none, pkt := none, pc := dword pc }

/-- Stay at the word with a wait reason (R303); a new wait counts its ticks from 0 (R304), and a thread that has looked again and
waits on for the same reason counts on. -/
def Thread.hold (th : Thread) (w : Wait) : Thread :=
  { th with cond := .held w, waited := if th.waitFor = some w then th.waited else 0, waitFor := some w }
/-- A held thread issues its word again. -/
def Thread.wake (th : Thread) : Thread :=
  match th.cond with
  | .held _ => { th with cond := .running }
  | _ => th
/-- The thread has not exited. -/
def Thread.live (th : Thread) : Bool := th.cond ≠ .exited

/-- TEPC of a fault at the word: its address, or the REP word's under a repeat (R54, R61). -/
def Thread.faultPc (th : Thread) : Nat :=
  match th.rep with
  | none => th.pc.toNat
  | some _ => (th.pc - 4).toNat
/-- TINFO with the repeat index in bits 31:26 (R61). -/
def Thread.withIndex (th : Thread) (tinfo : Word) : Word :=
  match th.rep with
  | none => tinfo
  | some r => tinfo ||| word (r.idx * 2 ^ 26)

/-- The thread stands between two words of a chain, of which the first have been carried out, on its core. -/
def Thread.within (th : Thread) : Bool := th.base.isSome && th.inChain && !th.away && !th.halted && th.live

/-- It goes on with the chain by itself, so that nothing of R53 comes between. One held for other agents may be pre-empted, cancelled or
wounded there (R163, R166, R246, R272, log entry 108). -/
def Thread.midChain (th : Thread) : Bool := th.within && (th.cond == .running || th.cond == .held .remote)

/-- Stop-all does not come between (R53, R88) but where the thread is held at a cross-lane word (R221). -/
def Thread.keepsOn (th : Thread) : Bool := th.within && th.cond ≠ .held .meeting

/-- Some thread of a task does. -/
def Task.midChain (tk : Task) : Bool := tk.threads.any fun p => p.2.midChain

/-- Each thread of a task, changed. -/
def Task.mapThreads (tk : Task) (f : Nat → Thread → Thread) : Task := { tk with threads := tk.threads.map fun p => (p.1, f p.1 p.2) }

/-! ## Tables of the state -/

/-- A task. -/
def State.task? (s : State) (a : Nat) : Option Task := KMap.get? a s.tasks
/-- A thread. -/
def State.thread? (s : State) (a t : Nat) : Option Thread := (s.task? a).bind fun tk => KMap.get? t tk.threads
/-- Change a task. -/
def State.updTask (s : State) (a : Nat) (f : Task → Task) : State := { s with tasks := KMap.upd a f s.tasks }
/-- Write a thread of an existing task. -/
def State.putThread (s : State) (a t : Nat) (th : Thread) : State :=
  s.updTask a fun tk => { tk with threads := KMap.put t th tk.threads }
/-- Change a thread. -/
def State.updThread (s : State) (a t : Nat) (f : Thread → Thread) : State :=
  s.updTask a fun tk => { tk with threads := KMap.upd t f tk.threads }
/-- A core. -/
def State.core (s : State) (c : Nat) : Core := KMap.getD c Core.empty s.cores
/-- Change a core. -/
def State.updCore (s : State) (c : Nat) (f : Core → Core) : State := { s with cores := KMap.put c (f (s.core c)) s.cores }
/-- A cluster. -/
def State.cluster (s : State) (k : Nat) : Cluster := KMap.getD k Cluster.empty s.clusters
/-- Change a cluster. -/
def State.updCluster (s : State) (k : Nat) (f : Cluster → Cluster) : State :=
  { s with clusters := KMap.put k (f (s.cluster k)) s.clusters }
/-- An active context. -/
def State.ctx? (s : State) (c : Nat) : Option Ctx := KMap.get? c s.ctxs
/-- Change a context. -/
def State.updCtx (s : State) (c : Nat) (f : Ctx → Ctx) : State := { s with ctxs := KMap.upd c f s.ctxs }
/-- A launch. -/
def State.launch? (s : State) (l : Nat) : Option Launch := KMap.get? l s.launches
/-- Change a launch. -/
def State.updLaunch (s : State) (l : Nat) (f : Launch → Launch) : State := { s with launches := KMap.upd l f s.launches }
/-- Put an event on the agenda, behind those that are due. -/
def State.due (s : State) (e : Instr) : State := { s with agenda := s.agenda ++ [e] }
/-- Put something on a link. -/
def State.emit (s : State) (x : Sent) : State := { s with sent := s.sent ++ [x] }
/-- A free value has been drawn: the next one is another (log entry 4). -/
def State.drew (s : State) : State := { s with free := s.free + 1 }

/-- Every thread of a task, changed. -/
def State.updThreads (s : State) (a : Nat) (f : Thread → Thread) : State :=
  s.updTask a fun tk => { tk with threads := KMap.mapAll f tk.threads }

/-- The TVEC of the context of a task (R364); 0 where there is none. -/
def State.tvec (s : State) (tk : Task) : DWord := ((s.ctx? tk.ctx).map Ctx.tvec).getD 0
/-- The task belongs to a deterministic launch (R268). -/
def State.isDet (s : State) (tk : Task) : Bool := ((s.launch? tk.launch).map Launch.det).getD false
/-- The task belongs to a cooperative launch (R301). -/
def State.isCoop (s : State) (tk : Task) : Bool := ((s.launch? tk.launch).map Launch.coop).getD false
/-- The task is immune to wounds, cancellation and relaunch: irrevocable itself, or a member of a cooperative launch
that has become irrevocable as a group (R301). -/
def State.immune (s : State) (tk : Task) : Bool :=
  tk.irrevocable || ((s.launch? tk.launch).map fun l => l.coop && l.irrevocable).getD false
/-- A stop of the task, or of another task of its cooperative launch, is to be carried out (R301). -/
def State.stopDue (s : State) (tk : Task) : Bool :=
  tk.stop.isSome || (s.isCoop tk && s.tasks.any fun p => p.2.launch == tk.launch && p.2.stop.isSome)
/-- Mode BUF (R37). -/
def Task.isBuf (tk : Task) : Bool := wbits tk.rcd.flags 0 2 == 0
/-- A BUF task that is still revocable: its stores are buffered (R101). -/
def Task.buffers (tk : Task) : Bool := tk.isBuf && !tk.irrevocable
/-- The task occupies two cores (R12). -/
def Task.twoCore (tk : Task) : Bool := 1536 < tk.rcd.ntid
/-- The core that a thread runs on (R12, R299): threads 0 to 1,535 on the lower core. -/
def Task.coreOf (tk : Task) (t : Nat) : Nat := tk.core + t / 1536
/-- The task holds the chunk of V(n) (R23). -/
def Task.holdsReg (tk : Task) (n : Nat) : Bool := n < 32 + 8 * tk.chunks

/-- The S registers that a thread's word reads: as it read them at its first issue (R145, R313), as they stood before its chain
(R52), else as they stand. -/
def Thread.scalars (th : Thread) (live : Vector Word 160) : Vector Word 160 := th.kept.getD ((th.base.map Before.s).getD live)

/-- The task as a thread's word sees it (R52). -/
def Task.seen (tk : Task) (th : Thread) : Task :=
  { tk with
    s := th.scalars tk.s, rngkey := (th.base.map Before.rngkey).getD tk.rngkey, bnd := (th.base.map Before.bnd).getD tk.bnd,
    bsel := (th.base.map Before.bsel).getD tk.bsel }

/-- The thread waits at its word, which has read its S registers. -/
def Task.keep (tk : Task) (th : Thread) : Thread := { th with kept := some (th.scalars tk.s) }

/-- A thread waits at its word, which keeps the S registers as it has read them (R145, R313). -/
def State.waitThread (s : State) (a t : Nat) (f : Thread → Thread) : State :=
  s.updTask a fun tk => { tk with threads := KMap.upd t (fun th => f (tk.keep th)) tk.threads }
/-- The thread may not go on before DTIME exceeds a tick. -/
def State.stall (s : State) (a t u : Nat) : State := s.waitThread a t fun th => { th with stallTo := some u }
/-- The thread stalls at its word for the hardware, with no wait reason (R303), and looks again when a tick has passed. -/
def State.interlock (s : State) (a t : Nat) : State := s.stall a t s.dtime
/-- The thread is held at its word. -/
def State.holdThread (s : State) (a t : Nat) (w : Wait) : State := s.waitThread a t fun th => th.hold w

/-- Two threads of a task stand in one squad. -/
def Task.mates (tk : Task) (p q : Nat × Thread) : Bool := p.2.squad == q.2.squad && tk.coreOf p.1 == tk.coreOf q.1

/-- A thread of lower TID waits at the word, so that what the word does in ascending TID has not come to the thread (R270, R317). -/
def Task.lowerWaits (tk : Task) (t : Nat) (th : Thread) : Bool :=
  tk.threads.any fun p => p.1 < t && p.2.kept.isSome && p.2.pc == th.pc && p.2.rep == th.rep && tk.mates p (t, th)

/-! ## Stops and traps -/

/-- The first stop of an attempt is the one that counts (R387, R400), but a cancellation goes before a wound that has not
been taken (R290). -/
def Task.halt (tk : Task) (st : Stop) : Task :=
  match tk.stop with
  | none => { tk with stop := some st }
  | some old => if old.kind = .wound ∧ st.kind = .cancel then { tk with stop := some st } else tk

/-- Two threads fault in one issue: the fault of the lower TID counts (R171). -/
def Stop.yields (lanes : List Nat) (old st : Stop) : Bool :=
  match old.kind, st.kind, old.tid, st.tid with
  | .program _, .program _, some u, some v => lanes.contains u && lanes.contains v && v < u
  | _, _, _, _ => false

/-- A stop for a fault of a thread of the word that issues. -/
def Task.haltLane (tk : Task) (lanes : List Nat) (st : Stop) : Task :=
  if (tk.stop.map fun old => old.yields lanes st).getD false then { tk with stop := some st } else tk.halt st

/-- Stop a task at its next instruction boundary for a cause that belongs to no thread. -/
def State.haltTask (s : State) (a : Nat) (k : StopKind) (tinfo : Word := 0) (taddr : Nat := 0) : State :=
  s.updTask a fun tk => tk.halt ⟨k, none, 0, tinfo, 0, taddr, false⟩

/-- The thread enters its handler (R382): trap registers written, H set, pc at TVEC. -/
def Thread.enterTrap (th : Thread) (tvec : DWord) (cause tepc taddr : Nat) (tinfo : Word) : Thread :=
  { th.clear with
    tepc := dword tepc, tcause := BitVec.ofNat 16 cause, taddr := dword taddr, tinfo := tinfo, h := true, pc := tvec,
    rep := none, cond := .running, stallTo := none, base := none, pkt := none }

/-- The thread does no more at its word, nor in its chain (R171). -/
def Thread.stopAt (th : Thread) : Thread := { th with kept := none, base := none }

/-- A cause of treatment P arises in a thread (R382, R383): a trap when the context has a vector and the thread is
outside a handler, otherwise the end of the task, and the thread stops at the word (R171). -/
def State.raiseAt (s : State) (a t cause tepc taddr : Nat) (tinfo : Word) : State :=
  match s.task? a, s.thread? a t with
  | some tk, some th =>
    if s.tvec tk ≠ 0 ∧ th.h = false then
      s.putThread a t (th.enterTrap (s.tvec tk) cause tepc taddr tinfo)
    else
      (s.updTask a fun tk => tk.haltLane s.issue.lanes ⟨.program cause, some t, th.cond.code, tinfo, tepc, taddr, th.h⟩).updThread
        a t Thread.stopAt
  | _, _ => s

/-- A fault of the word at which the thread stands (R54, R61). -/
def State.raise (s : State) (a t cause taddr : Nat) (tinfo : Word) : State :=
  match s.thread? a t with
  | some th => s.raiseAt a t cause th.faultPc taddr (th.withIndex tinfo)
  | none => s

/-- Return from a handler (R386). -/
def Thread.leaveTrap (th : Thread) : Thread :=
  { th.clear with
    h := false, pc := th.tepc, rep := none, base := none, pkt := none, repFrom := wbits th.tinfo 26 6 }

/-! ## Running a word -/

/-- The thread takes part in the word being executed (R68). -/
def Issue.carries (i : Issue) (th : Thread) : Bool := th.cond == .running && !th.away && !th.halted && th.pc == i.pc

/-- An .ASYNC response still to come will write the register (R149). -/
def State.awaits (s : State) (a t n : Nat) : Bool :=
  (KMap.vals s.outs).any fun o => o.accn == a && o.tid == t && o.back.isNone &&
    match o.async with
    | some (d, wide, _) => d == n || (wide == 2 && d + 1 == n)
    | none => false

/-- One lane of a word: nothing where the thread does not stand at the word; past the word where its guard fails; an
illegal-operand fault where it names a register whose chunk the task does not hold (R23); stalled while an .ASYNC response
has still to write a register it names (R49, R149); otherwise the word's effect, on the task as the thread sees it. -/
def State.lane (g : Nat) (regs : List Nat) (act : State → Nat → Task → Thread → State) (s : State) (t : Nat) : State :=
  match s.task? s.issue.accn with
  | none => s
  | some tk =>
    match KMap.get? t tk.threads with
    | none => s
    | some th =>
      if !s.issue.carries th then s
      else if !th.pred g then s.putThread s.issue.accn t th.next
      else if regs.any fun n => !tk.holdsReg n then s.raise s.issue.accn t causeIllegalOperand 0 0
      else if regs.any (s.awaits s.issue.accn t) then s.interlock s.issue.accn t
      else act s t (tk.seen th) th

/-- A word that acts separately in each thread (R68). -/
def State.perLane (s : State) (g : Nat) (regs : List Nat) (act : State → Nat → Task → Thread → State) : State :=
  s.issue.lanes.foldl (State.lane g regs act) s

/-- The lanes of a word that act in an order that the spec leaves open (R155, R324); a deterministic launch takes ascending
TID (R270). -/
def State.freeLanes (s : State) : List Nat :=
  let det := ((s.task? s.issue.accn).map s.isDet).getD false
  if det || s.issue.lanes.length ≤ 1 then s.issue.lanes else sortBy (Config.laneOrder s.free) s.issue.lanes

/-- A word that changes only the thread it acts in. -/
def regWord (g : BitVec 3) (regs : List Nat) (f : Task → Thread → Thread) (s : State) : Out :=
  .next (s.perLane g.toNat regs fun s t tk th => s.putThread s.issue.accn t (f tk th).next)

/-- Whether some thread of the issue stands at the word. -/
def State.carried (s : State) : List Nat :=
  s.issue.lanes.filter fun t => ((s.thread? s.issue.accn t).map s.issue.carries).getD false

/-- The threads that stand at the word and whose guard holds. -/
def State.present (s : State) (g : BitVec 3) : List Nat :=
  s.carried.filter fun t => ((s.thread? s.issue.accn t).map fun th => th.pred g.toNat).getD false

/-- Every thread that stands at the word moves past it. -/
def State.pass (s : State) (ts : List Nat) : State :=
  s.updTask s.issue.accn fun tk =>
    { tk with threads := ts.foldl (fun m t => KMap.upd t Thread.next m) tk.threads }

/-- A scalar word (R69): carried out once for the issue, if a thread stands at it. `f` takes the task as the word reads it (R52), and
changes the task as it stands. -/
def scalarWord (f : Task → Task → Task) (s : State) : Out :=
  match s.carried with
  | [] => .next s
  | t :: ts =>
    .next ((s.updTask s.issue.accn fun tk => f (((KMap.get? t tk.threads).map tk.seen).getD tk) tk).pass (t :: ts))

/-- S(n). -/
def Task.sreg (tk : Task) (n : Nat) : Word := tk.s.getD n 0
/-- Write S(n). -/
def Task.setS (tk : Task) (n : Nat) (x : Word) : Task := { tk with s := tk.s.setIfInBounds n x }
/-- The pair S(n), S(n + 1). -/
def Task.sreg2 (tk : Task) (n : Nat) : DWord := pair (tk.sreg n) (tk.sreg (n + 1))

/-- Wake every held thread of a task that waits for one of the reasons. -/
def State.wakeTask (s : State) (a : Nat) (ws : List Wait) : State :=
  s.updThreads a fun th =>
    match th.cond with
    | .held w => if ws.contains w then { th with cond := .running } else th
    | _ => th

end Sys2Proof.Machine
end

