-- ==== Sys2Proof/Machine/Operands.lean ====
section
/-!
DEFINITION. Operand forms: scalar codes (R57), the SB form (R58), immediates (R55), and the buffer record with its
fields, checks and addresses (R33 to R36).
-/

namespace Sys2Proof.Machine

/-- A scalar source code: S0 to S159, or 192 to 255 for the constants 0 to 63 (R57). -/
def Task.src (tk : Task) (c : BitVec 8) : Word := if 192 ≤ c.toNat then word (c.toNat - 192) else tk.sreg c.toNat

/-- The B operand of an SB major (R58). -/
def bValue (tk : Task) (th : Thread) (sb : Bool) (b : BitVec 6) : Word :=
  if sb then tk.sreg b.toNat else th.reg b.toNat
/-- The V register that B names, if it names one. -/
def bReg (sb : Bool) (b : BitVec 6) : List Nat := if sb then [] else [b.toNat]
/-- A 10-bit immediate, sign-extended (R55). -/
def imm10 (i : BitVec 10) : Word := i.signExtend 32

/-- An SB word whose result goes to V(D): `f` takes a, b and d (R71). -/
def binWord (o : Bin) (f : Word → Word → Word → Word) (s : State) : Out :=
  regWord o.g ([o.d.toNat, o.a.toNat] ++ bReg o.sb o.b)
    (fun tk th => th.setReg o.d.toNat (f (th.reg o.a.toNat) (bValue tk th o.sb o.b) (th.reg o.d.toNat))) s

/-- An SB word with a type bit. -/
def binUWord (o : BinU) (f : Word → Word → Word) (s : State) : Out :=
  regWord o.g ([o.d.toNat, o.a.toNat] ++ bReg o.sb o.b)
    (fun tk th => th.setReg o.d.toNat (f (th.reg o.a.toNat) (bValue tk th o.sb o.b))) s

/-- A unary word. -/
def unWord (o : Un) (f : Word → Word) (s : State) : Out :=
  regWord o.g [o.d.toNat, o.a.toNat] (fun _ th => th.setReg o.d.toNat (f (th.reg o.a.toNat))) s

/-- A word with an immediate. -/
def immWord (o : Imm) (f : Word → Word → Word) (s : State) : Out :=
  regWord o.g [o.d.toNat, o.a.toNat] (fun _ th => th.setReg o.d.toNat (f (th.reg o.a.toNat) (imm10 o.i))) s

/-- An immediate shift. -/
def shImmWord (o : ShImm) (f : Word → Nat → Word) (s : State) : Out :=
  regWord o.g [o.d.toNat, o.a.toNat] (fun _ th => th.setReg o.d.toNat (f (th.reg o.a.toNat) o.n.toNat)) s

/-- A scalar word of three codes (R79). -/
def srWord (o : Sr) (f : Word → Word → Word) (s : State) : Out :=
  scalarWord (fun own tk => tk.setS o.d.toNat (f (own.src o.a) (own.src o.b))) s

/-! ## The buffer record (R33) -/

/-- A buffer record, its fields as numbers. -/
structure Rec where
  base : Nat
  extent : Nat
  str0 : Int
  str1 : Int
  rowlen : Nat
  tens : Nat
  fmt : Nat
  bmode : Nat
  space : Nat
  pol : Nat
  scope : Nat
  trl : Nat
  tcl : Nat
  scslot : Nat
  scv : Bool
  clean : Bool
  deriving DecidableEq, Repr

/-- The eight words of record slot `k` (R33, R145). -/
def Task.recWords (tk : Task) (k : Nat) : Vector Word 8 := Vector.ofFn fun i => tk.sreg (8 * k + i.val)

/-- The record in eight words; `clean` says its reserved fields are 0. -/
def Rec.ofWords (w : Vector Word 8) : Rec :=
  { base := w[0].toNat + wbits w[1] 0 25 * 2 ^ 32
    extent := w[2].toNat
    str0 := w[3].toInt
    str1 := w[4].toInt
    rowlen := wbits w[5] 0 24
    tens := wbits w[5] 24 8
    fmt := wbits w[6] 0 4
    bmode := wbits w[6] 4 2
    space := wbits w[6] 6 2
    pol := wbits w[6] 8 2
    scope := wbits w[6] 10 3
    trl := wbits w[6] 16 4
    tcl := wbits w[6] 20 4
    scslot := wbits w[6] 24 5
    scv := wbits w[6] 29 1 == 1
    clean := wbits w[1] 25 7 == 0 && wbits w[6] 13 3 == 0 && wbits w[6] 30 2 == 0 && w[7] == 0 }

/-- Record slot `k` of a task. -/
def Task.record (tk : Task) (k : Nat) : Rec := Rec.ofWords (tk.recWords k)

/-- The record passes R36. -/
def Rec.ok (r : Rec) : Bool :=
  r.clean && r.fmt ≤ 11 && r.bmode ≤ 2 && r.scope ≤ 6 && r.trl ≤ 12 && r.tcl ≤ 12 && r.scslot ≤ 19

/-! ### Formats (R34, R140) -/

def fmtF32 : Nat := 0
def fmtBF16 : Nat := 1
def fmtFA40 : Nat := 2
def fmtC4 : Nat := 3
def fmtS8 : Nat := 4
def fmtS16 : Nat := 5
def fmtS32 : Nat := 6
def fmtN8 : Nat := 7
def fmtN16 : Nat := 8
def fmtN32 : Nat := 9
def fmtB1 : Nat := 10
def fmtINT40 : Nat := 11

/-- Bits of an element in memory. -/
def fmtBits (f : Nat) : Nat :=
  if f = fmtC4 then 4 else if f = fmtB1 then 1
  else if f = fmtS8 ∨ f = fmtN8 then 8
  else if f = fmtBF16 ∨ f = fmtS16 ∨ f = fmtN16 then 16
  else if f = fmtFA40 ∨ f = fmtINT40 then 64
  else 32

/-- Bytes an access to an element touches (1 for C4 and B1). -/
def fmtBytes (f : Nat) : Nat := (fmtBits f + 7) / 8
/-- C4 and B1, whose elements are parts of a byte. -/
def fmtPacked (f : Nat) : Bool := f == fmtC4 || f == fmtB1
/-- FA40 and INT40, whose elements fill a register pair. -/
def fmtPair (f : Nat) : Bool := f == fmtFA40 || f == fmtINT40

/-- The byte address of element `o`, before it is reduced (R35). -/
def Rec.exact (r : Rec) (o : Nat) : Int :=
  let row : Int := if r.rowlen = 0 then 0 else (o / r.rowlen : Nat) * r.str1
  let col : Nat := if r.rowlen = 0 then o else o % r.rowlen
  let within : Int := if fmtPacked r.fmt then ((col * fmtBits r.fmt / 8 : Nat) : Int) else col * r.str0
  r.base + within + row

/-- The byte address of element `o` (R35). -/
def Rec.address (r : Rec) (o : Nat) : Nat := (r.exact o % (2 ^ 57 : Int)).toNat

/-- The place of a packed element in its byte (R34). -/
def Rec.subBit (r : Rec) (o : Nat) : Nat :=
  let col := if r.rowlen = 0 then o else o % r.rowlen
  col * fmtBits r.fmt % 8

/-- What bounds make of an offset (R142). -/
inductive Bounded where
  | at (o : Nat)
  | dropped
  | fault
  deriving DecidableEq, Repr

/-- Apply BMODE to an offset (R142). -/
def Rec.bounded (r : Rec) (o : Nat) : Bounded :=
  if o < r.extent then .at o
  else if r.bmode = 0 ∨ (r.bmode = 1 ∧ r.extent = 0) then .fault
  else if r.bmode = 1 then .at (r.extent - 1)
  else .dropped

/-- The value a load writes, from the bytes of the element (R140): one word, or two for the 8-byte formats, which are the bytes as they
stand also where FA40 or INT40 is not in the memory form of R177 (DEDUCED, log entry 110). -/
def fmtLoad (f sub : Nat) (bs : List Byte) : List Word :=
  let n := leNat bs
  if f = fmtS8 then [(BitVec.ofNat 8 n).signExtend 32]
  else if f = fmtS16 then [(BitVec.ofNat 16 n).signExtend 32]
  else if fmtPacked f then [word (n / 2 ^ sub % 2 ^ fmtBits f)]
  else if fmtPair f then [word n, word (n / 2 ^ 32)]
  else [word n]

/-- The bytes a store writes (R140). -/
def fmtStore (f : Nat) (lo hi : Word) : List Byte :=
  let v := lo.toNat + wbits hi 0 8 * 2 ^ 32
  if f = fmtFA40 then leBytes 8 v
  else if f = fmtINT40 then leBytes 8 (if wbits hi 7 1 = 1 then v + (2 ^ 64 - 2 ^ 40) else v)
  else leBytes (fmtBytes f) lo.toNat

end Sys2Proof.Machine
end

