-- ==== Sys2Proof/Machine/Flags.lean ====
section
/-!
DEFINITION. Predicates and flags: conditions of compares (R76, R201), predicate pairs (R21, R76), and the sticky
floating-point flags of FPFLAGS (R27).
-/

namespace Sys2Proof.Machine

/-- A condition of ICMP: EQ, NE, LT.S32, LE.S32, LT.N32, LE.N32 (R76). -/
def icmpHolds (x : Nat) (a b : Word) : Bool :=
  match x with
  | 0 => a == b
  | 1 => a != b
  | 2 => a.toInt < b.toInt
  | 3 => a.toInt ≤ b.toInt
  | 4 => a.toNat < b.toNat
  | _ => a.toNat ≤ b.toNat

/-- Write a predicate pair: the result and its complement (R76); a half that is P0 is not written (R21). -/
def Thread.setPair (th : Thread) (t f : BitVec 3) (c : Bool) : Thread := (th.setPred t.toNat c).setPred f.toNat (!c)

/-- The exceptions an operation raises, as FPFLAGS orders them (R27). -/
structure FFlags where
  invalid : Bool
  divZero : Bool
  overflow : Bool
  underflow : Bool
  inexact : Bool
  deriving DecidableEq, Repr

/-- No exception. -/
def FFlags.none : FFlags := ⟨false, false, false, false, false⟩
/-- Invalid only. -/
def FFlags.inv : FFlags := ⟨true, false, false, false, false⟩
/-- Both operations' exceptions. -/
def FFlags.or (a b : FFlags) : FFlags :=
  ⟨a.invalid || b.invalid, a.divZero || b.divZero, a.overflow || b.overflow, a.underflow || b.underflow,
    a.inexact || b.inexact⟩
/-- The bits of FPFLAGS (R27). -/
def FFlags.bits (f : FFlags) : Word :=
  word (bit f.invalid + 2 * bit f.divZero + 4 * bit f.overflow + 8 * bit f.underflow + 16 * bit f.inexact)
/-- Add exceptions to the sticky flags. -/
def Thread.flag (th : Thread) (f : FFlags) : Thread := { th with fpflags := th.fpflags ||| f.bits }

end Sys2Proof.Machine
end

