-- ==== Sys2Proof/Machine/Float.lean ====
section
/-!
DEFINITION. Floating point: formats, exact values, one rounding function (R173 to R189, R195), and the operations of
R198 to R201 on patterns. Every operation computes its exact value (a sign, a natural number and a power of two) and
rounds it once. A quotient or root carries one sticky bit below twice its precision, which rounds as the exact value.
-/

namespace Sys2Proof.Machine

/-- A binary format: exponent bits, fraction bits, and whether a NaN may signal (R174 to R176). -/
structure FFmt where
  eb : Nat
  fb : Nat
  sig : Bool
  deriving DecidableEq, Repr

/-- F32 (R174). -/
def f32 : FFmt := ⟨8, 23, true⟩
/-- BF16 (R175). -/
def bf16 : FFmt := ⟨8, 7, true⟩
/-- FA40 (R176). -/
def fa40 : FFmt := ⟨9, 30, false⟩

/-- The exponent bias. -/
def FFmt.bias (f : FFmt) : Nat := 2 ^ (f.eb - 1) - 1
/-- The exponent field of infinities and NaNs. -/
def FFmt.top (f : FFmt) : Nat := 2 ^ f.eb - 1
/-- The canonical NaN (R182). -/
def FFmt.nan (f : FFmt) : Nat := f.top * 2 ^ f.fb + 2 ^ (f.fb - 1)
/-- The place of the sign bit as a weight. -/
def FFmt.signW (f : FFmt) : Nat := 2 ^ (f.eb + f.fb)
/-- A pattern with a sign. -/
def FFmt.withSign (f : FFmt) (neg : Bool) (n : Nat) : Nat := n + bit neg * f.signW
/-- Infinity. -/
def FFmt.inf (f : FFmt) (neg : Bool) : Nat := f.withSign neg (f.top * 2 ^ f.fb)
/-- Zero. -/
def FFmt.zero (f : FFmt) (neg : Bool) : Nat := f.withSign neg 0
/-- The largest finite value. -/
def FFmt.big (f : FFmt) (neg : Bool) : Nat := f.withSign neg (f.top * 2 ^ f.fb - 1)
/-- The least exponent of a normal number. -/
def FFmt.emin (f : FFmt) : Int := 1 - (f.bias : Int)

/-- The value of a pattern: a NaN that signals or not, an infinity, or `(−1)^neg × m × 2^e`. -/
inductive FVal where
  | nan (sig : Bool)
  | inf (neg : Bool)
  | fin (neg : Bool) (m : Nat) (e : Int)
  deriving DecidableEq, Repr

/-- The value of a pattern (R174 to R176). -/
def FFmt.value (f : FFmt) (n : Nat) : FVal :=
  let neg := n / f.signW % 2 == 1
  let e := n / 2 ^ f.fb % 2 ^ f.eb
  let m := n % 2 ^ f.fb
  if e = f.top then (if m = 0 then .inf neg else .nan (f.sig && m / 2 ^ (f.fb - 1) == 0))
  else if e = 0 then .fin neg m (f.emin - f.fb)
  else .fin neg (m + 2 ^ f.fb) ((e : Int) - f.bias - f.fb)

/-- Rounding mode and flush, as FPMODE and the suffix give them (R183, R185). Modes: 0 RN, 1 RZ, 2 RD, 3 RU. -/
structure FMode where
  rm : Nat
  flush : Bool
  deriving DecidableEq, Repr

/-- RN without flush: the homes and the matrix engine (R153, R183, R185). -/
def FMode.rn : FMode := ⟨0, false⟩

/-- `m × 2^e` in units of `2^u`, rounded to a natural number, and whether it changed (R183). -/
def roundUnits (rm : Nat) (neg : Bool) (m : Nat) (e u : Int) : Nat × Bool :=
  if u ≤ e then (m * 2 ^ (e - u).toNat, false)
  else
    let d := 2 ^ (u - e).toNat
    let q := m / d
    let r := m % d
    let up :=
      match rm with
      | 0 => d < 2 * r || (2 * r == d && q % 2 == 1)
      | 1 => false
      | 2 => neg && r != 0
      | _ => !neg && r != 0
    (if up then q + 1 else q, r != 0)

/-- The value delivered on overflow (R184). -/
def FFmt.overflow (f : FFmt) (rm : Nat) (neg : Bool) : Nat :=
  match rm with
  | 0 => f.inf neg
  | 1 => f.big neg
  | 2 => if neg then f.inf true else f.big false
  | _ => if neg then f.big true else f.inf false

/-- Round `(−1)^neg × m × 2^e` to a format (R183 to R186). -/
def FFmt.round (f : FFmt) (md : FMode) (neg : Bool) (m : Nat) (e : Int) : Nat × FFlags :=
  if m = 0 then (f.zero neg, FFlags.none)
  else
    let top : Int := e + Nat.log2 m
    let free := roundUnits md.rm neg m e (top - f.fb)
    let tiny : Bool := (top - f.fb) + Nat.log2 free.1 < f.emin
    if tiny && md.flush then (f.zero neg, ⟨false, false, false, true, true⟩)
    else
      let u : Int := if top < f.emin then f.emin - f.fb else top - f.fb
      let r := roundUnits md.rm neg m e u
      let n : Nat := if top < f.emin then r.1 else (top + f.bias).toNat * 2 ^ f.fb + r.1 - 2 ^ f.fb
      if top ≥ f.emin ∧ f.top * 2 ^ f.fb ≤ n then
        (f.overflow md.rm neg, ⟨false, false, true, false, true⟩)
      else (f.withSign neg n, ⟨false, false, false, tiny && r.2, r.2⟩)

/-- Read an operand: a subnormal is a zero of its sign under flush (R185). -/
def FFmt.read (f : FFmt) (md : FMode) (n : Nat) : FVal :=
  match f.value n with
  | .fin neg m e => if md.flush && m < 2 ^ f.fb then .fin neg 0 e else .fin neg m e
  | x => x

/-- The result when an operand is a NaN: the canonical NaN, invalid if one signals (R182, R186). -/
def FFmt.nanOf (f : FFmt) (sig : Bool) : Nat × FFlags := (f.nan, if sig then FFlags.inv else FFlags.none)
/-- The canonical NaN with invalid. -/
def FFmt.bad (f : FFmt) : Nat × FFlags := (f.nan, FFlags.inv)
/-- A value is a signalling NaN. -/
def FVal.sig : FVal → Bool
  | .nan b => b
  | _ => false
/-- A value is a NaN. -/
def FVal.isNan : FVal → Bool
  | .nan _ => true
  | _ => false
/-- The negated value. -/
def FVal.negate : FVal → FVal
  | .nan b => .nan b
  | .inf n => .inf (!n)
  | .fin n m e => .fin (!n) m e

/-- The exact sum of two finite values as a signed number over a power of two. -/
def exactSum (n1 : Bool) (m1 : Nat) (e1 : Int) (n2 : Bool) (m2 : Nat) (e2 : Int) : Int × Int :=
  let e := min e1 e2
  let x : Int := (m1 * 2 ^ (e1 - e).toNat : Nat)
  let y : Int := (m2 * 2 ^ (e2 - e).toNat : Nat)
  ((if n1 then -x else x) + (if n2 then -y else y), e)

/-- Sum of values, rounded once; the sign of an exact zero is that of R195 and R198. -/
def FFmt.sum (f : FFmt) (md : FMode) (a b : FVal) : Nat × FFlags :=
  match a, b with
  | .nan s, .nan t => f.nanOf (s || t)
  | .nan s, _ => f.nanOf s
  | _, .nan t => f.nanOf t
  | .inf n, .inf k => if n = k then (f.inf n, FFlags.none) else f.bad
  | .inf n, .fin .. => (f.inf n, FFlags.none)
  | .fin .., .inf k => (f.inf k, FFlags.none)
  | .fin n1 m1 e1, .fin n2 m2 e2 =>
    let r := exactSum n1 m1 e1 n2 m2 e2
    if r.1 = 0 then
      (f.zero (if m1 = 0 ∧ m2 = 0 ∧ n1 = n2 then n1 else md.rm == 2), FFlags.none)
    else f.round md (r.1 < 0) r.1.natAbs r.2

/-- Product of values, exact. -/
def mulVal (a b : FVal) : FVal :=
  match a, b with
  | .nan s, .nan t => .nan (s || t)
  | .nan s, _ => .nan s
  | _, .nan t => .nan t
  | .inf n, .inf k => .inf (n != k)
  | .inf n, .fin k m _ => if m = 0 then .nan true else .inf (n != k)
  | .fin n m _, .inf k => if m = 0 then .nan true else .inf (n != k)
  | .fin n1 m1 e1, .fin n2 m2 e2 => .fin (n1 != n2) (m1 * m2) (e1 + e2)

/-- Round a value to a format. -/
def FFmt.roundVal (f : FFmt) (md : FMode) : FVal → Nat × FFlags
  | .nan s => f.nanOf s
  | .inf n => (f.inf n, FFlags.none)
  | .fin n m e => f.round md n m e

/-- a + b (R198). -/
def FFmt.add (f : FFmt) (md : FMode) (a b : Nat) : Nat × FFlags := f.sum md (f.read md a) (f.read md b)
/-- a − b (R198). -/
def FFmt.sub (f : FFmt) (md : FMode) (a b : Nat) : Nat × FFlags := f.sum md (f.read md a) (f.read md b).negate
/-- a × b (R198). -/
def FFmt.mul (f : FFmt) (md : FMode) (a b : Nat) : Nat × FFlags := f.roundVal md (mulVal (f.read md a) (f.read md b))
/-- a × b + d, rounded once (R198); 0 × ∞ is invalid even when d is a quiet NaN (R186). -/
def FFmt.fma (f : FFmt) (md : FMode) (a b d : Nat) : Nat × FFlags :=
  f.sum md (mulVal (f.read md a) (f.read md b)) (f.read md d)

/-- a / b (R198, R199). -/
def FFmt.div (f : FFmt) (md : FMode) (a b : Nat) : Nat × FFlags :=
  match f.read md a, f.read md b with
  | .nan s, .nan t => f.nanOf (s || t)
  | .nan s, _ => f.nanOf s
  | _, .nan t => f.nanOf t
  | .inf _, .inf _ => f.bad
  | .inf n, .fin k _ _ => (f.inf (n != k), FFlags.none)
  | .fin n _ _, .inf k => (f.zero (n != k), FFlags.none)
  | .fin n1 m1 e1, .fin n2 m2 e2 =>
    if m2 = 0 then (if m1 = 0 then f.bad else (f.inf (n1 != n2), ⟨false, true, false, false, false⟩))
    else if m1 = 0 then (f.zero (n1 != n2), FFlags.none)
    else
      let k := 2 * f.fb + 8 + Nat.log2 m2
      let q := m1 * 2 ^ k / m2
      let st := if m1 * 2 ^ k % m2 = 0 then 0 else 1
      f.round md (n1 != n2) (2 * q + st) (e1 - e2 - k - 1)

/-- The integer square root by bits, from bit `i` down. -/
def isqrtFrom (n : Nat) : Nat → Nat → Nat
  | 0, r => r
  | i + 1, r => isqrtFrom n i (if (r + 2 ^ i) * (r + 2 ^ i) ≤ n then r + 2 ^ i else r)
/-- The integer square root. -/
def isqrt (n : Nat) : Nat := isqrtFrom n (Nat.log2 n / 2 + 1) 0

/-- √a (R198, R199). -/
def FFmt.sqrt (f : FFmt) (md : FMode) (a : Nat) : Nat × FFlags :=
  match f.read md a with
  | .nan s => f.nanOf s
  | .inf n => if n then f.bad else (f.inf false, FFlags.none)
  | .fin n m e =>
    if m = 0 then (f.zero n, FFlags.none)
    else if n then f.bad
    else
      let odd : Bool := e % 2 ≠ 0
      let k := 2 * f.fb + 8
      let x := (if odd then 2 * m else m) * 2 ^ (2 * k)
      let e' : Int := (if odd then e - 1 else e) / 2 - k
      let q := isqrt x
      f.round md false (2 * q + (if q * q = x then 0 else 1)) (e' - 1)

/-- 1 / a (R198, R199). -/
def FFmt.rcp (f : FFmt) (md : FMode) (a : Nat) : Nat × FFlags := f.div md (f.bias * 2 ^ f.fb) a

/-- 1 / √a (R198, R199). -/
def FFmt.rsq (f : FFmt) (md : FMode) (a : Nat) : Nat × FFlags :=
  match f.read md a with
  | .nan s => f.nanOf s
  | .inf n => if n then f.bad else (f.zero false, FFlags.none)
  | .fin n m e =>
    if m = 0 then (f.inf n, ⟨false, true, false, false, false⟩)
    else if n then f.bad
    else
      let odd : Bool := e % 2 ≠ 0
      let m' := if odd then 2 * m else m
      let e' : Int := (if odd then e - 1 else e) / 2
      let k := 3 * f.fb + 8
      let q := isqrt (2 ^ (2 * k) / m')
      f.round md false (2 * q + (if q * q * m' = 2 ^ (2 * k) then 0 else 1)) (-e' - k - 1)

/-- Round to an integral value in the mode (R198); never inexact. -/
def FFmt.rnd (f : FFmt) (md : FMode) (a : Nat) : Nat × FFlags :=
  match f.read md a with
  | .nan s => f.nanOf s
  | .inf n => (f.inf n, FFlags.none)
  | .fin n m e =>
    let r := (roundUnits md.rm n m e (max e 0)).1
    ((f.round md n r (max e 0)).1, FFlags.none)

/-! ## Order -/

/-- A number that orders the values that are not NaNs, −0 below +0 (R200). -/
def FFmt.key (f : FFmt) (n : Nat) : Int :=
  let mag := n % f.signW
  if n / f.signW % 2 = 1 then -1 - (mag : Int) else mag
/-- A number that orders the values that are not NaNs, −0 equal to +0 (R201). -/
def FFmt.ord (f : FFmt) (n : Nat) : Int :=
  let mag := n % f.signW
  if n / f.signW % 2 = 1 then -(mag : Int) else mag
/-- A pattern is a NaN. -/
def FFmt.isNan (f : FFmt) (n : Nat) : Bool := (f.value n).isNan
/-- A pattern is a signalling NaN. -/
def FFmt.isSig (f : FFmt) (n : Nat) : Bool := (f.value n).sig
/-- A subnormal pattern read under flush (R185). -/
def FFmt.flushed (f : FFmt) (md : FMode) (n : Nat) : Nat :=
  match f.read md n with
  | .fin neg 0 _ => f.zero neg
  | _ => n

/-- The lesser or the greater operand (R200); a NaN gives way to a number. -/
def FFmt.minmax (f : FFmt) (md : FMode) (isMax : Bool) (a b : Nat) : Nat × FFlags :=
  let a := f.flushed md a
  let b := f.flushed md b
  let fl := if f.isSig a || f.isSig b then FFlags.inv else FFlags.none
  if f.isNan a && f.isNan b then (f.nan, fl)
  else if f.isNan a then (b, fl)
  else if f.isNan b then (a, fl)
  else ((if (if isMax then f.key b ≤ f.key a else f.key a ≤ f.key b) then a else b), fl)

/-- A comparison of FCMP and whether it raises invalid (R201). -/
def fcmpHolds (x : Nat) (md : FMode) (a b : Nat) : Bool × FFlags :=
  let a := f32.flushed md a
  let b := f32.flushed md b
  let nan := f32.isNan a || f32.isNan b
  let sig := f32.isSig a || f32.isSig b
  let inv (c : Bool) := if c then FFlags.inv else FFlags.none
  match x with
  | 0 => (!nan && f32.ord a == f32.ord b, inv sig)
  | 1 => (nan || f32.ord a != f32.ord b, inv sig)
  | 2 => (!nan && f32.ord a < f32.ord b, inv nan)
  | 3 => (!nan && f32.ord a ≤ f32.ord b, inv nan)
  | _ => (nan, inv sig)

/-! ## Conversions (R188, R189) -/

/-- From one float format to another; flush touches F32 and BF16 only (R188). -/
def cvtFloat (src dst : FFmt) (md : FMode) (n : Nat) : Nat × FFlags :=
  let rd : FMode := ⟨md.rm, md.flush && src.sig⟩
  let wr : FMode := ⟨md.rm, md.flush && dst.sig⟩
  dst.roundVal wr (src.read rd n)

/-- From a float format to an integer range, saturating (R189). -/
def cvtToInt (src : FFmt) (md : FMode) (lo hi : Int) (n : Nat) : Int × FFlags :=
  match src.read ⟨md.rm, md.flush && src.sig⟩ n with
  | .nan _ => (0, FFlags.inv)
  | .inf neg => (if neg then lo else hi, FFlags.inv)
  | .fin neg m e =>
    let r := roundUnits md.rm neg m e 0
    let x : Int := if neg then -(r.1 : Int) else r.1
    if x < lo then (lo, FFlags.inv)
    else if hi < x then (hi, FFlags.inv)
    else (x, ⟨false, false, false, false, r.2⟩)

/-- From an integer to a float format (R188). -/
def cvtFromInt (dst : FFmt) (md : FMode) (x : Int) : Nat × FFlags :=
  dst.round ⟨md.rm, md.flush && dst.sig⟩ (x < 0) x.natAbs 0

/-! ## Reductions at the homes (R152, R153) -/

/-- The element after `old op v` in format F32, S32 or N32 (R152, R153); `op` as R62 codes it. -/
def atomOp (op fmt : Nat) (old v : Word) : Word :=
  match op with
  | 0 => if fmt = fmtF32 then word (f32.add FMode.rn old.toNat v.toNat).1 else old + v
  | 1 =>
    if fmt = fmtF32 then word (f32.minmax FMode.rn false old.toNat v.toNat).1
    else if fmt = fmtS32 then (if v.toInt < old.toInt then v else old)
    else if v.toNat < old.toNat then v else old
  | 2 =>
    if fmt = fmtF32 then word (f32.minmax FMode.rn true old.toNat v.toNat).1
    else if fmt = fmtS32 then (if old.toInt < v.toInt then v else old)
    else if old.toNat < v.toNat then v else old
  | 3 => old &&& v
  | 4 => old ||| v
  | 5 => old ^^^ v
  | _ => v

/-- The identity of an operation (R105): a partial starts at it. The greatest F32 value is +∞ and the least −∞. -/
def atomIdentity (op fmt : Nat) : Word :=
  match op with
  | 1 => if fmt = fmtF32 then word (f32.inf false) else if fmt = fmtS32 then 0x7FFFFFFF else 0xFFFFFFFF
  | 2 => if fmt = fmtF32 then word (f32.inf true) else if fmt = fmtS32 then 0x80000000 else 0
  | 3 => 0xFFFFFFFF
  | _ => 0

end Sys2Proof.Machine
end

