-- ==== Sys2Proof/Machine/Special.lean ====
section
/-!
DEFINITION. The special functions FEX2, FLG2, FSIN and FCOS: each is the computation on integers of R205 to R208. The
tables are the nearest integers to the real values that R205 names.
-/

namespace Sys2Proof.Machine

/-- ET[j], 2^(j/64) × 2^30 (R205). -/
def tabET : List Int :=
  [
    1073741824, 1085434106, 1097253708, 1109202018, 1121280436, 1133490379, 1145833280, 1158310587,
    1170923762, 1183674286, 1196563654, 1209593378, 1222764986, 1236080024, 1249540052, 1263146652,
    1276901417, 1290805962, 1304861917, 1319070932, 1333434672, 1347954824, 1362633090, 1377471191,
    1392470869, 1407633882, 1422962010, 1438457051, 1454120821, 1469955159, 1485961921, 1502142985,
    1518500250, 1535035634, 1551751076, 1568648537, 1585730000, 1602997467, 1620452965, 1638098541,
    1655936265, 1673968228, 1692196547, 1710623359, 1729250827, 1748081133, 1767116489, 1786359126,
    1805811301, 1825475297, 1845353420, 1865448001, 1885761398, 1906295993, 1927054196, 1948038440,
    1969251188, 1990694927, 2012372174, 2034285470, 2056437387, 2078830522, 2101467502, 2124350982]

/-- LR[j], 2^36 / (64 + j) (R205). -/
def tabLR : List Int :=
  [
    1073741824, 1057222719, 1041204193, 1025663832, 1010580540, 995934445, 981706811, 967879954,
    954437177, 941362695, 928641578, 916259690, 904203641, 892460737, 881018933, 869866794,
    858993459, 848388602, 838042399, 827945503, 818089009, 808464432, 799063683, 789879043,
    780903145, 772128952, 763549742, 755159085, 746950834, 738919105, 731058263, 723362913,
    715827883, 708448214, 701219150, 694136129, 687194767, 680390859, 673720360, 667179386,
    660764199, 654471207, 648296950, 642238100, 636291451, 630453915, 624722516, 619094385,
    613566757, 608136962, 602802428, 597560667, 592409282, 587345955, 582368447, 577474594,
    572662306, 567929560, 563274399, 558694933, 554189329, 549755814, 545392673, 541098242]

/-- LL[j], −log2(LR[j] × 2^−30) × 2^30 (R205). -/
def tabLL : List Int :=
  [
    0, 24017256, 47667823, 70962728, 93912511, 116527249, 138816582, 160789745,
    182455581, 203822568, 224898838, 245692198, 266210141, 286459867, 306448298, 326182095,
    345667660, 364911161, 383918542, 402695523, 421247625, 439580171, 457698295, 475606957,
    493310944, 510814882, 528123240, 545240343, 562170370, 578917365, 595485245, 611877800,
    628098702, 644151509, 660039670, 675766524, 691335320, 706749198, 722011214, 737124328,
    752091421, 766915285, 781598637, 796144115, 810554284, 824831638, 838978603, 852997541,
    866890746, 880660456, 894308842, 907838030, 921250079, 934547002, 947730758, 960803258,
    973766363, 986621888, 999371608, 1012017244, 1024560485, 1037002979, 1049346326, 1061592099]

/-- SN[j], sin(2πj/256) × 2^30 (R205). -/
def tabSN : List Int :=
  [
    0, 26350943, 52686014, 78989349, 105245103, 131437462, 157550647, 183568930,
    209476638, 235258165, 260897982, 286380643, 311690799, 336813204, 361732726, 386434353,
    410903207, 435124548, 459083786, 482766489, 506158392, 529245404, 552013618, 574449320,
    596538995, 618269338, 639627258, 660599890, 681174602, 701339000, 721080937, 740388522,
    759250125, 777654384, 795590213, 813046808, 830013654, 846480531, 862437520, 877875009,
    892783698, 907154608, 920979082, 934248793, 946955747, 959092290, 970651112, 981625251,
    992008094, 1001793390, 1010975242, 1019548121, 1027506862, 1034846671, 1041563127, 1047652185,
    1053110176, 1057933813, 1062120190, 1065666786, 1068571464, 1070832474, 1072448455, 1073418433]

/-- CS[j], cos(2πj/256) × 2^30 (R205). -/
def tabCS : List Int :=
  [
    1073741824, 1073418433, 1072448455, 1070832474, 1068571464, 1065666786, 1062120190, 1057933813,
    1053110176, 1047652185, 1041563127, 1034846671, 1027506862, 1019548121, 1010975242, 1001793390,
    992008094, 981625251, 970651112, 959092290, 946955747, 934248793, 920979082, 907154608,
    892783698, 877875009, 862437520, 846480531, 830013654, 813046808, 795590213, 777654384,
    759250125, 740388522, 721080937, 701339000, 681174602, 660599890, 639627258, 618269338,
    596538995, 574449320, 552013618, 529245404, 506158392, 482766489, 459083786, 435124548,
    410903207, 386434353, 361732726, 336813204, 311690799, 286380643, 260897982, 235258165,
    209476638, 183568930, 157550647, 131437462, 105245103, 78989349, 52686014, 26350943]

/-- EC1, ln 2 × 2^30 (R205). -/
def conEC1 : Int := 744261118
/-- EC2, (ln 2)^2 / 2 × 2^30 (R205). -/
def conEC2 : Int := 257941248
/-- EC3, (ln 2)^3 / 6 × 2^30 (R205). -/
def conEC3 : Int := 59597083
/-- K3, 2^30 / 3 (R205). -/
def conK3 : Int := 357913941
/-- KL, 2^30 / ln 2 (R205). -/
def conKL : Int := 1549082005
/-- TP, 2π × 2^30 (R205). -/
def conTP : Int := 6746518852
/-- K6, 2^30 / 6 (R205). -/
def conK6 : Int := 178956971
/-- K24, 2^30 / 24 (R205). -/
def conK24 : Int := 44739243

/-- Entry `j` of a table. -/
def tab (t : List Int) (j : Int) : Int := t.getD j.toNat 0
/-- hi(a, b) (R205). -/
def hi30 (a b : Int) : Int := a * b / 2 ^ 30
/-- hi32(a, b) (R205). -/
def hi32 (a b : Int) : Int := a * b / 2 ^ 32

/-- `(−1)^neg × m × 2^e` times `2^k`, rounded to the nearest integer, ties to even. -/
def scaledNearest (neg : Bool) (m : Nat) (e : Int) (k : Nat) : Int :=
  let r : Int := (roundUnits 0 neg m (e + k) 0).1
  if neg then -r else r

/-- An integer times a power of two, rounded RN to F32; zero gives +0 (R205). -/
def roundInt (flush : Bool) (v : Int) (e : Int) : Nat × FFlags := f32.round ⟨0, flush⟩ (v < 0) v.natAbs e

/-- The delivered result differs from the exact one (R186, R205). -/
def FFlags.withInexact (f : FFlags) (b : Bool) : FFlags := { f with inexact := f.inexact || b }

/-- The value is an integer multiple of `2^-k`. -/
def multipleOf (m : Nat) (e : Int) (k : Nat) : Bool := decide (0 ≤ e + k) || m % 2 ^ (-(e + k)).toNat == 0

/-- The computation of FEX2 on a finite operand in range: the integer and its power of two (R206). -/
def ex2Core (neg : Bool) (m : Nat) (e : Int) : Int × Int :=
  let x := scaledNearest neg m e 24
  let n := x / 2 ^ 24
  let f := x % 2 ^ 24
  let j := f / 2 ^ 18
  let g := f % 2 ^ 18 * 2 ^ 6
  let q := 2 ^ 30 + hi30 g (conEC1 + hi30 g (conEC2 + hi30 g conEC3))
  (hi30 (tab tabET j) q, n - 30)

/-- FEX2 (R206). A result that is too small, or inexact and below the smallest normal, raises underflow (R186). -/
def fex2 (flush : Bool) (a : Nat) : Nat × FFlags :=
  match f32.read ⟨0, flush⟩ a with
  | .nan s => f32.nanOf s
  | .inf neg => (if neg then 0 else f32.inf false, FFlags.none)
  | .fin neg m e =>
    if !neg && decide (128 * 2 ^ 24 ≤ (roundUnits 1 neg m (e + 24) 0).1) then
      (f32.inf false, ⟨false, false, true, false, true⟩)
    else if neg && decide (150 * 2 ^ 24 < (roundUnits 2 neg m (e + 24) 0).1) then
      (0, ⟨false, false, false, true, true⟩)
    else
      let c := ex2Core neg m e
      let r := roundInt flush c.1 c.2
      let inex := r.2.inexact || !multipleOf m e 0
      (r.1, { r.2 with inexact := inex, underflow := r.2.underflow || (inex && decide (r.1 < 2 ^ 23)) })

/-- FLG2 (R207). -/
def flg2 (flush : Bool) (a : Nat) : Nat × FFlags :=
  match f32.read ⟨0, flush⟩ a with
  | .nan s => f32.nanOf s
  | .inf neg => if neg then f32.bad else (f32.inf false, FFlags.none)
  | .fin neg m e =>
    if m = 0 then (f32.inf true, ⟨false, true, false, false, false⟩)
    else if neg then f32.bad
    else
      let l := Nat.log2 m
      let mm : Int := (m * 2 ^ (23 - l) : Nat)
      let ex : Int := e + l
      let j := mm / 2 ^ 17 % 64
      let u := hi30 (mm * 2 ^ 7) (tab tabLR j) - 2 ^ 30
      let u2 := hi30 u u
      let u3 := hi30 u2 u
      let u4 := hi30 u2 u2
      let h := u - u2 / 2 + hi30 u3 conK3 - u4 / 4
      let y := ex * 2 ^ 30 + tab tabLL j + hi30 h conKL
      let r := roundInt flush y (-30)
      (r.1, r.2.withInexact (mm != 2 ^ 23))

/-- The scaled sine or cosine of a reduced argument (R208). -/
def sinCore (cosine : Bool) (x0 : Int) : Int :=
  let x := if cosine then (x0 + 2 ^ 30) % 2 ^ 32 else x0 % 2 ^ 32
  let qd := x / 2 ^ 30
  let t := x % 2 ^ 30
  let j := t / 2 ^ 24
  let g := t % 2 ^ 24
  let b := hi32 g conTP
  let b2 := hi30 b b
  let sb := b - hi30 b (hi30 b2 conK6)
  let cb := 2 ^ 30 - b2 / 2 + hi30 (hi30 b2 b2) conK24
  let s := hi30 (tab tabSN j) cb + hi30 (tab tabCS j) sb
  let c := hi30 (tab tabCS j) cb - hi30 (tab tabSN j) sb
  if qd = 0 then s else if qd = 1 then c else if qd = 2 then -s else -c

/-- FSIN and FCOS (R208). The sine of a small argument that is not 0 is never exactly what is delivered (R205). -/
def fsincos (cosine : Bool) (flush : Bool) (a : Nat) : Nat × FFlags :=
  match f32.read ⟨0, flush⟩ a with
  | .nan s => f32.nanOf s
  | .inf _ => f32.bad
  | .fin neg m e =>
    if !cosine && (m = 0 || e + Nat.log2 m < -16) then
      let r := f32.roundVal ⟨0, flush⟩ (mulVal (.fin neg m e) (f32.value 0x40C90FDB))
      (r.1, r.2.withInexact (m != 0))
    else
      let r := roundInt flush (sinCore cosine (scaledNearest neg m e 32)) (-30)
      (r.1, r.2.withInexact (!multipleOf m e 2))

end Sys2Proof.Machine
end

