-- ==== Sys2Proof/Machine/FloatOps.lean ====
section
/-!
DEFINITION. Vector floating-point words (R197 to R209): each thread that the word selects reads its operands, computes
once, writes the result and raises its own flags.
-/

namespace Sys2Proof.Machine

/-- The rounding mode and flush of a word in a thread: the suffix, or FPMODE without one (R183, R185, R197). -/
def Thread.fmode (th : Thread) (r : BitVec 3) : FMode :=
  ⟨if r = 0 then wbits th.fpmode 0 2 else r.toNat - 1, wbits th.fpmode 2 1 == 1⟩

/-- Write an F32 result and raise its flags. -/
def Thread.putF (th : Thread) (d : Nat) (r : Nat × FFlags) : Thread := (th.setReg d (word r.1)).flag r.2

/-- A float word of two sources (R197, R198). -/
def floatBin (o : BinR) (f : FMode → Nat → Nat → Nat → Nat × FFlags) (s : State) : Out :=
  regWord o.g ([o.d.toNat, o.a.toNat] ++ bReg o.sb o.b)
    (fun tk th =>
      th.putF o.d.toNat
        (f (th.fmode o.r) (th.reg o.a.toNat).toNat (bValue tk th o.sb o.b).toNat (th.reg o.d.toNat).toNat)) s

/-- A float word of one source. -/
def floatUn (o : UnR) (f : FMode → Nat → Nat × FFlags) (s : State) : Out :=
  regWord o.g [o.d.toNat, o.a.toNat]
    (fun _ th => th.putF o.d.toNat (f (th.fmode o.r) (th.reg o.a.toNat).toNat)) s

/-- A special-function word: RN always (R205). -/
def floatSpecial (o : Un) (f : Bool → Nat → Nat × FFlags) (s : State) : Out :=
  regWord o.g [o.d.toNat, o.a.toNat]
    (fun _ th => th.putF o.d.toNat (f (th.fmode 0).flush (th.reg o.a.toNat).toNat)) s

/-- FADD (R198). -/
def execFadd (o : BinR) (s : State) : Out := floatBin o (fun m a b _ => f32.add m a b) s
/-- FSUB (R198). -/
def execFsub (o : BinR) (s : State) : Out := floatBin o (fun m a b _ => f32.sub m a b) s
/-- FMUL (R198). -/
def execFmul (o : BinR) (s : State) : Out := floatBin o (fun m a b _ => f32.mul m a b) s
/-- FFMA (R198). -/
def execFfma (o : BinR) (s : State) : Out := floatBin o (fun m a b d => f32.fma m a b d) s
/-- FDIV (R198, R199). -/
def execFdiv (o : BinR) (s : State) : Out := floatBin o (fun m a b _ => f32.div m a b) s

/-- FMIN and FMAX (R200). -/
def minmaxWord (o : Bin) (isMax : Bool) (s : State) : Out :=
  regWord o.g ([o.d.toNat, o.a.toNat] ++ bReg o.sb o.b)
    (fun tk th =>
      th.putF o.d.toNat
        (f32.minmax (th.fmode 0) isMax (th.reg o.a.toNat).toNat (bValue tk th o.sb o.b).toNat)) s

/-- FMIN (R200). -/
def execFmin (o : Bin) (s : State) : Out := minmaxWord o false s
/-- FMAX (R200). -/
def execFmax (o : Bin) (s : State) : Out := minmaxWord o true s
/-- FSQRT (R198, R199). -/
def execFsqrt (o : UnR) (s : State) : Out := floatUn o f32.sqrt s
/-- FRCP (R198, R199). -/
def execFrcp (o : UnR) (s : State) : Out := floatUn o f32.rcp s
/-- FRSQ (R198, R199). -/
def execFrsq (o : UnR) (s : State) : Out := floatUn o f32.rsq s
/-- FRND (R198, R199). -/
def execFrnd (o : UnR) (s : State) : Out := floatUn o f32.rnd s

/-- FCMP (R201). -/
def execFcmp (o : Cmp) (s : State) : Out :=
  regWord o.g [o.a.toNat, o.b.toNat]
    (fun _ th =>
      let r := fcmpHolds o.x.toNat (th.fmode 0) (th.reg o.a.toNat).toNat (th.reg o.b.toNat).toNat
      (th.setPair o.t o.f r.1).flag r.2) s

/-! ## FCVT (R202, R203) -/

/-- The value of the pair V(a), V(a + 1) as 40 bits (R177). -/
def Thread.acc (th : Thread) (a : Nat) : Nat := (th.reg a).toNat + wbits (th.reg (a + 1)) 0 8 * 2 ^ 32
/-- A 40-bit pattern read as INT40. -/
def int40 (n : Nat) : Int := (BitVec.ofNat 40 n).toInt
/-- Write an FA40 pair (R177). -/
def Thread.putAcc (th : Thread) (d : Nat) (r : Nat × FFlags) : Thread :=
  ((th.setReg d (word r.1)).setReg (d + 1) (word (r.1 / 2 ^ 32))).flag r.2
/-- Write an INT40 pair, bits 39 copied upward (R177). -/
def Thread.putInt40 (th : Thread) (d : Nat) (x : Int) (f : FFlags) : Thread :=
  (th.setReg2 d (BitVec.ofInt 64 x)).flag f
/-- Write an integer result. -/
def Thread.putInt (th : Thread) (d : Nat) (r : Int × FFlags) : Thread := (th.setReg d (BitVec.ofInt 32 r.1)).flag r.2

/-- One conversion in one thread, by its pair code (R202). Where INT40.S32 saturates, it raises invalid alone (DEDUCED from R188, log entry
118: R186 would raise inexact as well). -/
def Thread.convert (th : Thread) (p d a : Nat) (m : FMode) : Thread :=
  let x := (th.reg a).toNat
  let h := x % 2 ^ 16
  let w := th.acc a
  match p with
  | 0 => th.putF d (cvtFloat f32 bf16 m x)
  | 1 => th.putF d (cvtFloat bf16 f32 m h)
  | 2 => th.putAcc d (cvtFloat f32 fa40 m x)
  | 3 => th.putAcc d (cvtFloat bf16 fa40 m h)
  | 4 => th.putF d (cvtFloat fa40 f32 m w)
  | 5 => th.putF d (cvtFloat fa40 bf16 m w)
  | 6 => th.putInt d (cvtToInt f32 m (-(2 ^ 31)) (2 ^ 31 - 1) x)
  | 7 => th.putInt d (cvtToInt f32 m 0 (2 ^ 32 - 1) x)
  | 8 => th.putInt d (cvtToInt f32 m (-(2 ^ 15)) (2 ^ 15 - 1) x)
  | 9 => th.putInt d (cvtToInt f32 m 0 (2 ^ 16 - 1) x)
  | 10 => th.putInt d (cvtToInt f32 m (-(2 ^ 7)) (2 ^ 7 - 1) x)
  | 11 => th.putInt d (cvtToInt f32 m 0 (2 ^ 8 - 1) x)
  | 12 => th.putInt d (cvtToInt fa40 m (-(2 ^ 31)) (2 ^ 31 - 1) w)
  | 13 => th.putInt d (cvtToInt fa40 m 0 (2 ^ 32 - 1) w)
  | 14 => th.putInt d (cvtToInt fa40 m (-(2 ^ 15)) (2 ^ 15 - 1) w)
  | 15 => th.putInt d (cvtToInt fa40 m 0 (2 ^ 16 - 1) w)
  | 16 => th.putInt d (cvtToInt fa40 m (-(2 ^ 7)) (2 ^ 7 - 1) w)
  | 17 => th.putInt d (cvtToInt fa40 m 0 (2 ^ 8 - 1) w)
  | 18 => let r := cvtToInt fa40 m (-(2 ^ 39)) (2 ^ 39 - 1) w; th.putInt40 d r.1 r.2
  | 19 => th.putF d (cvtFromInt f32 m (th.reg a).toInt)
  | 20 => th.putF d (cvtFromInt f32 m x)
  | 21 => th.putF d (cvtFromInt bf16 m (th.reg a).toInt)
  | 22 => th.putF d (cvtFromInt bf16 m x)
  | 23 => th.putAcc d (cvtFromInt fa40 m (th.reg a).toInt)
  | 24 => th.putAcc d (cvtFromInt fa40 m x)
  | 25 => th.putAcc d (cvtFromInt fa40 m (int40 w))
  | 26 => th.putF d (cvtFromInt f32 m (int40 w))
  | 27 =>
    let v := int40 w
    let r : Int := if v < -(2 ^ 31) then -(2 ^ 31) else if 2 ^ 31 - 1 < v then 2 ^ 31 - 1 else v
    th.putInt d (r, if r = v then FFlags.none else FFlags.inv)
  | _ => th.putInt40 d (th.reg a).toInt FFlags.none

/-- The registers that FCVT names: both of a pair (R203). -/
def cvtRegs (p d a : Nat) : List Nat :=
  [d, a] ++ (if cvtPairDst p then [d + 1] else []) ++ (if cvtPairSrc p then [a + 1] else [])

/-- FCVT (R202). -/
def execFcvt (o : Cvt) (s : State) : Out :=
  regWord o.g (cvtRegs o.p.toNat o.d.toNat o.a.toNat)
    (fun _ th => th.convert o.p.toNat o.d.toNat o.a.toNat (th.fmode o.r)) s

/-! ## BF16 pairs (R204) -/

/-- Both halves of a BF16 pair word, each rounded once; the flags are the OR of both halves'. -/
def pairWord (o : Bin) (f : FMode → Nat → Nat → Nat → Nat × FFlags) (s : State) : Out :=
  regWord o.g ([o.d.toNat, o.a.toNat] ++ bReg o.sb o.b)
    (fun tk th =>
      let m := th.fmode 0
      let a := th.reg o.a.toNat
      let b := bValue tk th o.sb o.b
      let d := th.reg o.d.toNat
      let lo := f m (wbits a 0 16) (wbits b 0 16) (wbits d 0 16)
      let hi := f m (wbits a 16 16) (wbits b 16 16) (wbits d 16 16)
      (th.setReg o.d.toNat (word (lo.1 + hi.1 * 2 ^ 16))).flag (lo.2.or hi.2)) s

/-- BADD2 (R204). -/
def execBadd2 (o : Bin) (s : State) : Out := pairWord o (fun m a b _ => bf16.add m a b) s
/-- BMUL2 (R204). -/
def execBmul2 (o : Bin) (s : State) : Out := pairWord o (fun m a b _ => bf16.mul m a b) s
/-- BFMA2 (R204). -/
def execBfma2 (o : Bin) (s : State) : Out := pairWord o (fun m a b d => bf16.fma m a b d) s

/-! ## Special functions (R205 to R208) -/

/-- FEX2 (R206). -/
def execFex2 (o : Un) (s : State) : Out := floatSpecial o fex2 s
/-- FLG2 (R207). -/
def execFlg2 (o : Un) (s : State) : Out := floatSpecial o flg2 s
/-- FSIN (R208). -/
def execFsin (o : Un) (s : State) : Out := floatSpecial o (fsincos false) s
/-- FCOS (R208). -/
def execFcos (o : Un) (s : State) : Out := floatSpecial o (fsincos true) s

end Sys2Proof.Machine
end

