-- ==== Sys2Proof/Machine/Memory.lean ====
section
/-!
DEFINITION. Memory: bytes in canonical form, homes and WCTs (R113 to R116), L1 (R100), update-only partials (R105 to
R107), leases and near copies (R108, R115), the mesh distances of R14, R110 and R111, and translation (R367 to R370).
-/

namespace Sys2Proof.Machine

/-! ## Bytes -/

/-- Read a byte; an unlisted one is 0x00 (log entry 1). -/
def memRead (m : Memory) (k : Nat) : Byte := KMap.getD k 0 m
/-- Write a byte, keeping the canonical form. -/
def memWrite (m : Memory) (k : Nat) (b : Byte) : Memory := if b = 0 then KMap.del k m else KMap.put k b m
/-- Write several bytes. -/
def memWriteAll (m : Memory) (bs : KMap Byte) : Memory := bs.foldl (fun m p => memWrite m p.1 p.2) m
/-- The canonical form: addresses rising, no byte equal to what an unlisted address reads as. -/
def Memory.wf (m : Memory) : Bool := KMap.ascending m && m.all fun p => p.2 ≠ 0
/-- The line of a byte (R100). -/
def lineOf (k : Nat) : Nat := k / 128
/-- Bytes at consecutive keys. -/
def bytesAt (k : Nat) (bs : List Byte) : KMap Byte := bs.zipIdx.map fun p => (k + p.2, p.1)

/-! ## The mesh (R14, R110, R111, R431) -/

/-- Row and column of a cluster's stop in the 12 by 12 grid (R431). -/
def stopOf (k : Nat) : Nat × Nat :=
  (k % 36 / 6 + 6 * (k / 36 / 2), k % 36 % 6 + 6 * (k / 36 % 2))
/-- Row and column of a slice's stop (R111). -/
def sliceStop (k : Nat) : Nat × Nat :=
  (k % 24 / 4 + 6 * (k / 24 / 2), 1 + k % 24 % 4 + 6 * (k / 24 % 2))
/-- The difference of two numbers. -/
def gap (a b : Nat) : Nat := (a - b) + (b - a)
/-- Hops between two stops of the mesh, one more for each die seam crossed (R14). -/
def meshDist (a b : Nat × Nat) : Nat := gap a.1 b.1 + gap a.2 b.2 + gap (a.1 / 6) (b.1 / 6) + gap (a.2 / 6) (b.2 / 6)
/-- The home slice of a device address (R110): `n` slices, `total` granules. -/
def homeSliceOf (n total pa : Nat) : Nat :=
  let g := pa / 512
  let st := g / n
  if total < (st + 1) * n then g % n else (g % n + 7 * st % n) % n
/-- Usable bytes of device memory (R110, R414). -/
def State.usable (s : State) : Nat := if s.regs.level = 1 then Config.reducedBytes else Config.deviceBytes
/-- Slices in the interleave (R110). -/
def State.slices (s : State) : Nat := if s.regs.level = 1 then 24 else 96
/-- The home slice of an address in force (R110). -/
def State.homeSlice (s : State) (pa : Nat) : Nat := homeSliceOf s.slices (s.usable / 512) pa
/-- The slice of a list that is nearest to a stop, ties to the lower index (R108). -/
def nearestOf (at' : Nat × Nat) (ks : List Nat) : Nat :=
  ks.foldl (fun b k => if meshDist at' (sliceStop k) < meshDist at' (sliceStop b) then k else b) (ks.headD 0)
/-- The slice nearest to a cluster (R108). -/
def State.nearSlice (s : State) (k : Nat) : Nat := nearestOf (stopOf k) (List.range s.slices)

/-! ## Homes (R103, R113 to R116) -/

/-- The home's record of a line. -/
def State.home (s : State) (line : Nat) : Home := KMap.getD line Home.empty s.homes
/-- Change the home's record of a line. -/
def State.updHome (s : State) (line : Nat) (f : Home → Home) : State :=
  { s with homes := KMap.put line (f (s.home line)) s.homes }

/-- The order in which a home takes up writes: by WCT, commits of one time by ascending accession number (R128). -/
def HomeWrite.rank (w : HomeWrite) : Nat := w.wct * 2 ^ 64 + if w.commit then w.owners.headD 0 else 0

/-- The byte of the last write in that order at a key among the writes that satisfy a test, or `d`. -/
def pickByte (k : Nat) (ok : HomeWrite → Bool) (ws : List HomeWrite) (d : Byte) : Byte :=
  (ws.foldl (fun (acc : Nat × Byte) w =>
    match KMap.get? k w.bytes with
    | some b => if ok w && acc.1 ≤ w.rank then (w.rank, b) else acc
    | none => acc) (0, d)).2

/-- A byte at its home now: the write of greatest WCT at or before DTIME (R113). -/
def State.homeByte (s : State) (k : Nat) : Byte := pickByte k (fun w => w.wct ≤ s.dtime) s.writes (memRead s.mem k)
/-- A byte as the latest accepted write leaves it (R114): what the next operation at the home works on. -/
def State.lastByte (s : State) (k : Nat) : Byte := pickByte k (fun _ => true) s.writes (memRead s.mem k)
/-- A 4-byte word as the latest accepted write leaves it. -/
def State.lastWord (s : State) (k : Nat) : Word := word (leNat ((List.range 4).map fun i => s.lastByte (k + i)))

/-- The greatest of a figure over the pending commits of a line, 0 for none (R116, R128). -/
def State.pendingMax (s : State) (line : Nat) (f : HomeWrite → Nat) : Nat :=
  s.writes.foldl (fun m w => if w.commit && w.line == line then max m (f w) else m) 0

/-- The latest WCT given for a line, pending commits among them. -/
def State.lastWct (s : State) (line : Nat) : Nat := max (s.home line).wct (s.pendingMax line HomeWrite.wct)

/-- The least WCT of R116 for a write to a line accepted now. -/
def State.minWct (s : State) (line : Nat) : Nat :=
  let h := s.home line
  let w := s.lastWct line
  max s.dtime (max (if h.lease = 0 then 0 else h.lease + 1) (if w = 0 then 0 else w + 1))

/-- The contexts of tasks. -/
def State.ctxsOf (s : State) (as : List Nat) : List Nat := (as.filterMap fun a => (s.task? a).map Task.ctx).eraseDups

/-- Raise the latest WCTs of a thread (R116, R119). -/
def State.noteWct (s : State) (a t w : Nat) : State := s.updThread a t fun th => th.noteWct w

/-- Accept a write of bytes of one line at a given WCT: near copies are gone and so are host copies, but for the host's own write
(R108, R116). Until it is performed no lease ends after `bound`. -/
def State.acceptUnder (s : State) (line wct bound : Nat) (bytes : KMap Byte) (core : Nat) (owners : List Nat) (commit : Bool) : State :=
  { s.updHome line (fun h => { h with near := [] }) with
    writes := s.writes ++ [⟨wct, line, bytes, core, owners, bound, commit, s.ctxsOf owners⟩]
    hostLines := if core = Config.cores then s.hostLines else s.hostLines.filter (· ≠ line) }

/-- Accept a write of bytes of one line at a given WCT, which is the last one of the line from now on (R116). -/
def State.acceptAt (s : State) (line wct : Nat) (bytes : KMap Byte) (core : Nat) (owners : List Nat) : State :=
  (s.acceptUnder line wct (wct - 1) bytes core owners false).updHome line fun h => { h with wct := wct }

/-- The time that removing the near copies of a line takes: free, and never past the 2,200 ticks of R116. -/
def State.nearTime (s : State) (line : Nat) : Nat :=
  if (s.home line).near = [] then 0
  else min (Config.nearInvalidation s.free line % 128) (2200 - (s.minWct line - s.dtime))

/-- The WCT that a write to a line accepted now would have (R116): removing near copies and recalling host copies take a
free time. -/
def State.stamp (s : State) (line core : Nat) : Nat :=
  let back := if s.hostLines.contains line && core ≠ Config.cores then Config.backInvalidation s.free line else 0
  s.minWct line + s.nearTime line + back

/-- Accept a write of bytes of one line now and give it its WCT (R116). -/
def State.accept (s : State) (line : Nat) (bytes : KMap Byte) (core : Nat) (owners : List Nat) : State × Nat :=
  ((s.acceptAt line (s.stamp line core) bytes core owners).drew, s.stamp line core)

/-! ## Update-only partials (R105 to R107) -/

/-- Partials in ascending owner, so that a fold runs in ascending TID (R273). -/
def sortPartials (ps : List Partial) : List Partial := sortBy (fun p => p.accn * 2048 + p.tid) ps

/-- The partials of one element folded into one value, in list order. -/
def foldPartials : List Partial → Option Word
  | [] => none
  | p :: ps => some (ps.foldl (fun v q => atomOp q.op q.fmt v q.value) p.value)

/-- The element keys of a list of partials, each once. -/
def partialKeys (ps : List Partial) : List Nat := (ps.map Partial.key).eraseDups

/-- The operations and formats among partials, each once. -/
def partialOps (ps : List Partial) : List (Nat × Nat) := (ps.map fun p => (p.op, p.fmt)).eraseDups

/-- The bytes that combining partials writes: each element's partials of one operation and format are folded and the fold is
combined into the home value with one rounding (R106, R273). Outside deterministic launches the grouping of F32 partials is
free (R106): the list is ordered by a free key. -/
def State.combined (s : State) (det : Bool) (ps : List Partial) : KMap Byte :=
  (partialKeys ps).foldl (fun bs k =>
    let own := sortPartials (ps.filter fun p => p.key = k)
    let own := if det || own.length ≤ 1 then own else sortBy (fun p => Config.partialOrder s.free p.accn p.tid) own
    let v := (partialOps own).foldl (fun v x =>
      match foldPartials (own.filter fun p => p.op = x.1 ∧ p.fmt = x.2) with
      | some u => atomOp x.1 x.2 v u
      | none => v) (s.lastWord k)
    ((leBytes 4 v.toNat).zipIdx).foldl (fun bs x => KMap.put (k + x.2) x.1 bs) bs) []

/-- Note a WCT for the owner of each partial. -/
def State.noteOwners (s : State) (ps : List Partial) (w : Nat) : State := ps.foldl (fun s p => s.noteWct p.accn p.tid w) s

/-- The partials are those of deterministic launches (R273). -/
def State.detParts (s : State) (ps : List Partial) : Bool := ps.any fun p => ((s.task? p.accn).map s.isDet).getD false

/-- Combine partials of one line at its home as one write (R106), which is a write of every task that holds one of them. -/
def State.combine (s : State) (line : Nat) (ps : List Partial) (core : Nat) : State × Nat :=
  let r := s.accept line (s.combined (s.detParts ps) ps) core (ps.map Partial.accn).eraseDups
  (r.1.noteOwners ps r.2, r.2)

/-- The ordinary update-only partials of a line, over all cores. -/
def State.lineParts (s : State) (line : Nat) : List Partial :=
  (KMap.vals s.cores).flatMap fun c => c.parts.filter fun p => lineOf p.key = line

/-- Recall every ordinary update-only copy of a line and combine it at the home (R106). -/
def State.recall (s : State) (line : Nat) : State × Option Nat :=
  match s.lineParts line with
  | [] => (s, none)
  | p :: ps =>
    let s1 := { s with cores := KMap.mapAll (fun c => { c with parts := c.parts.filter fun q => lineOf q.key ≠ line }) s.cores }
    let r := s1.combine line (p :: ps) (Config.cores + 1)
    (r.1, some r.2)

/-- A store that arrives at the home: it recalls update-only copies first (R106), then takes its WCT. -/
def State.homeStore (s : State) (line : Nat) (bytes : KMap Byte) (core : Nat) (owners : List Nat) : State × Nat :=
  (s.recall line).1.accept line bytes core owners

/-- Accept writes to several lines as one event, at one WCT, not before `least`: update-only copies are recalled first (R106,
R116). -/
def State.acceptAll (s : State) (ls : List (Nat × KMap Byte)) (least core : Nat) (owners : List Nat) : State × Nat :=
  let s := ls.foldl (fun s l => (s.recall l.1).1) s
  let w := ls.foldl (fun w l => max w (s.stamp l.1 core)) least
  ((ls.foldl (fun s l => s.acceptAt l.1 w l.2 core owners) s).drew, w)

/-- The combine of a line's update-only copies has been accepted and is still to be performed. -/
def State.combining (s : State) (line : Nat) : Bool :=
  s.writes.any fun w => w.core == Config.cores + 1 && w.line == line && s.dtime < w.wct

/-- The first line of a list whose update-only copies have to be combined first: an access that reaches its home recalls them (R106). -/
def State.copied (s : State) (ls : List Nat) : Option Nat := ls.find? fun l => !(s.lineParts l).isEmpty || s.combining l

/-- Lines of `n` bytes from a key. -/
def linesOf (k n : Nat) : List Nat := ((List.range n).map fun i => lineOf (k + i)).eraseDups

/-- The little-endian number of `n` bytes at their homes. -/
def State.homeNat (s : State) (k n : Nat) : Nat := leNat ((List.range n).map fun i => s.homeByte (k + i))

/-! ## L1 (R100) -/

/-- A core's line. -/
def State.l1 (s : State) (core line : Nat) : L1Line := KMap.getD line ⟨[], none⟩ (s.core core).l1
/-- Change a core's line. -/
def State.updL1 (s : State) (core line : Nat) (f : L1Line → L1Line) : State :=
  s.updCore core fun c => { c with l1 := KMap.put line (f (KMap.getD line ⟨[], none⟩ c.l1)) c.l1 }

/-- A task, or one of its threads, has written the byte since it was clean. -/
def DirtyByte.ofTask (d : DirtyByte) (a : Nat) : Bool := d.writers.any fun w => w.1 == a
/-- A thread has written the byte since it was clean. -/
def DirtyByte.ofThread (d : DirtyByte) (a t : Nat) : Bool := d.writers.contains (a, t)
/-- A thread writes a byte that may be dirty already: it counts as written by all of them (R118, R119). -/
def DirtyByte.over (old : Option DirtyByte) (b : Byte) (a t gen : Nat) : DirtyByte :=
  match old with
  | none => ⟨b, [(a, t)], gen⟩
  | some d => ⟨b, (a, t) :: d.writers.filter (· ≠ (a, t)), min d.gen gen⟩

/-- Send the dirty bytes of a core's line that satisfy a test to their home (R100, R118): their writers note the WCT. -/
def State.writeBack (s : State) (core line : Nat) (sel : DirtyByte → Bool) : State :=
  let out := (s.l1 core line).dirty.filter fun p => sel p.2
  match out with
  | [] => s
  | _ :: _ =>
    let s1 := s.updL1 core line fun l => { l with dirty := l.dirty.filter fun p => !sel p.2 }
    let ws := (out.flatMap fun p => p.2.writers).eraseDups
    let r := s1.homeStore line (out.map fun p => (line * 128 + p.1, p.2.byte)) core (ws.map Prod.fst).eraseDups
    ws.foldl (fun s w => s.noteWct w.1 w.2 r.2) r.1

/-- Send home every dirty byte of a task on a core. -/
def State.writeBackTask (s : State) (core accn : Nat) : State :=
  (KMap.keys (s.core core).l1).foldl (fun s line => s.writeBack core line fun d => d.ofTask accn) s

/-- Send home the ordinary update-only partials on a core that satisfy a test: the home recalls every update-only copy of
their lines (R106). -/
def State.flushParts (s : State) (core : Nat) (sel : Partial → Bool) : State :=
  ((((s.core core).parts.filter sel).map fun p => lineOf p.key).eraseDups).foldl (fun s l => (s.recall l).1) s

/-- The cores of a task. -/
def Task.cores (tk : Task) : List Nat := if tk.twoCore then [tk.core, tk.core + 1] else [tk.core]

/-- Grant a lease on a line for a load (R115): its end is free, at most 2,048 ticks away and never after what a
pending write allows (R116, R128). -/
def State.grantLease (s : State) (core line : Nat) : State :=
  let live : Bool := match (s.l1 core line).lease with
    | some e => decide (s.dtime + 1 < e)
    | none => false
  if live then s
  else
    let e := s.dtime + Config.leaseLength s.free line % 2049
    let e := s.writes.foldl (fun e w => if w.line = line ∧ s.dtime < w.wct then min e w.bound else e) e
    ((s.updHome line fun h => { h with lease := max h.lease e }).updL1 core line fun l => { l with lease := some e }).drew

/-- Place a near copy of a line for a cluster and a launch (R108). -/
def State.placeNear (s : State) (line cluster launch : Nat) : State :=
  s.updHome line fun h => { h with near := ((s.nearSlice cluster, launch) :: h.near).eraseDups }

/-- The near copies of a launch that has ended are dropped (R108). -/
def State.dropNear (s : State) (launch : Nat) : State :=
  { s with homes := KMap.mapAll (fun h => { h with near := h.near.filter fun p => p.2 ≠ launch }) s.homes }

/-- Drop the leases of a core's lines (R122). -/
def State.dropLeases (s : State) (core : Nat) : State :=
  s.updCore core fun c => { c with l1 := KMap.mapAll (fun l => { l with lease := none }) c.l1 }

/-! ## Performing writes -/

/-- The accepted write that is performed next: the first in the order of the homes, of those whose WCT is at or before DTIME. -/
def State.nextWrite (s : State) : Option HomeWrite :=
  s.writes.foldl (fun b w =>
    if s.dtime < w.wct then b
    else match b with
      | none => some w
      | some v => if w.rank < v.rank then some w else b) none

/-- Wake every thread that waits for a line or an event: a spurious wake blocks again unseen (R166, R322). -/
def State.wakeWaiters (s : State) : State :=
  s.tasks.foldl (fun s p => p.2.threads.foldl (fun s q =>
    if q.2.cond = .held .line then s.due (.waitlnWake p.1 q.1)
    else if q.2.cond = .held .event then s.due (.waitevWake p.1 q.1) else s) s) s

/-! ## Translation (R367, R368) -/

/-- The rights an access needs: read, write, fetch. -/
structure Rights where
  rd : Bool
  wr : Bool
  ex : Bool
  deriving DecidableEq, Repr

/-- Bits indexed at each level: lowest bit and width (R367). -/
def levels : List (Nat × Nat) := [(48, 8), (39, 9), (30, 9), (21, 9), (16, 5)]

/-- The key of a physical address in the table of bytes. -/
def physKey (host : Bool) (pa : Nat) : Nat := if host then Config.hostBase + pa else pa

/-- What a walk finds: a translation; none; or a line of an entry whose update-only copies have to be recalled first (R106). -/
inductive Walk where
  | page (x : Xlate)
  | missing
  | copies (line : Nat)
  deriving DecidableEq, Repr

/-- Walk the tables from a table at a key; `l` is the level reached (R368). -/
def State.walkFrom (s : State) (va : Nat) : Nat → List (Nat × Nat) → Nat → Walk
  | _, [], _ => .missing
  | l, (lo, n) :: rest, base =>
    let k := base + 8 * (va / 2 ^ lo % 2 ^ n)
    match s.copied [lineOf k] with
    | some line => .copies line
    | none =>
      let e := dword (s.homeNat k 8)
      let pa := dbits e 12 44 * 2 ^ 12
      if dbits e 0 1 = 0 ∨ dbits e 56 8 ≠ 0 ∨ dbits e 8 4 ≠ 0 then .missing
      else if dbits e 1 1 = 1 then
        if l ≤ 1 ∨ pa % 2 ^ lo ≠ 0 then .missing else .page ⟨e, l⟩
      else s.walkFrom va (l + 1) rest (physKey (dbits e 7 1 == 1) pa)

/-- The low bit of a page at a level. -/
def pageShift (level : Nat) : Nat := if level = 2 then 30 else if level = 3 then 21 else 16

/-- The physical key of an address under a translation. -/
def Xlate.key (x : Xlate) (va : Nat) : Nat :=
  physKey (dbits x.pte 7 1 == 1) (dbits x.pte 12 44 * 2 ^ 12 + va % 2 ^ pageShift x.level)

/-- First byte of the translation control block; the management page follows it (R366, R413). -/
def tcbBase : Nat := 0x3E00000000
/-- The key lies in one of the two pages of device registers. -/
def isReg (k : Nat) : Bool := tcbBase ≤ k && k < tcbBase + 0x2000
/-- The page of device memory or registers maps some of `n` bytes from a physical address. -/
def Xlate.meets (x : Xlate) (lo n : Nat) : Bool :=
  let pa := dbits x.pte 12 44 * 2 ^ 12
  dbits x.pte 7 1 == 0 && pa < lo + n && lo < pa + 2 ^ pageShift x.level
/-- The page maps the device registers (R366). -/
def Xlate.mapsRegs (x : Xlate) : Bool := x.meets tcbBase 0x2000
/-- Base of the save reserve, 1 MiB aligned: low bits of SAVEB have no meaning (R395, R413). -/
def Regs.saveBase (r : Regs) : Nat := dbits r.saveb 20 37 * 2 ^ 20
/-- Bytes of the save reserve (R413). -/
def Regs.saveSize (r : Regs) : Nat := r.saves.toNat * 2 ^ 20
/-- The page maps what only context 0 can map: the device registers (R366) or a part of the save reserve (R395, log entry 88). -/
def Xlate.guarded (x : Xlate) (r : Regs) : Bool := x.mapsRegs || x.meets r.saveBase r.saveSize
/-- Two pages, one named by its bits 55:16, are or lie in one page of a translation. -/
def Xlate.samePage (x : Xlate) (va page : Nat) : Bool := page * 2 ^ 16 / 2 ^ pageShift x.level == va / 2 ^ pageShift x.level
/-- The ROE mark of a page has been revoked (R376). -/
def Ctx.isRevoked (c : Ctx) (x : Xlate) (va : Nat) : Bool := c.revoked.any (x.samePage va)

/-- The translation of a page: a walk, or the cached one; which, when one is cached, is free (R369, R370). -/
def State.lookup (s : State) (c : Ctx) (va : Nat) : Walk :=
  match KMap.get? (va / 2 ^ 16) c.tlb with
  | some x => if Config.walksAgain s.free (va / 2 ^ 16) then s.walkFrom va 0 levels c.ptroot else .page x
  | none => s.walkFrom va 0 levels c.ptroot

/-- In place of a cause: a line whose update-only copies the access has to recall before it goes on (R106). -/
def recallCode (line : Nat) : Nat := 2 ^ 16 + line
/-- The line of such a code, where it is one. -/
def recallLine (code : Nat) : Option Nat := if 2 ^ 16 ≤ code then some (code - 2 ^ 16) else none

/-- Translate a local address in context `n` with the rights an access needs (R368): the translation, a cause, or a line to recall. A
page whose ROE mark has been revoked takes no write before an INVCMD finds ROE clear (R376). -/
def State.translate (s : State) (n va : Nat) (r : Rights) : Except Nat Xlate :=
  match s.ctx? n with
  | none => .error causeTranslation
  | some c =>
    match s.lookup c va with
    | .missing => .error causeTranslation
    | .copies l => .error (recallCode l)
    | .page x =>
      if x.guarded s.regs && n ≠ 0 then .error causeTranslation
      else if (r.rd && dbits x.pte 2 1 == 0) || (r.wr && (dbits x.pte 3 1 == 0 || dbits x.pte 5 1 == 1 || c.isRevoked x va)) ||
          (r.ex && dbits x.pte 4 1 == 0) then .error causePermission
      else .ok x

/-- Keep a translation that was used (R369). -/
def State.remember (s : State) (n va : Nat) (x : Xlate) : State :=
  (s.updCtx n fun c => { c with tlb := KMap.put (va / 2 ^ 16) x c.tlb }).drew

/-- Which of two failures of an access counts: a line to recall first (R106), a missing translation before a missing right (steps 6 and
7 of R144), else the first. -/
def firstCause (c : Nat × Nat) (e : Nat × Nat) : Nat × Nat :=
  if (recallLine c.1).isNone && ((recallLine e.1).isSome || (c.1 = causePermission && e.1 = causeTranslation)) then e else c

/-- Keys of `n` consecutive bytes at a virtual address, each translated, and the translations used; or the cause and
the address that failed. -/
def State.keysOf (s : State) (ctx : Nat) (r : Rights) : Nat → Nat → Except (Nat × Nat) (List Nat × List (Nat × Xlate))
  | _, 0 => .ok ([], [])
  | va, n + 1 =>
    match s.translate ctx va r, s.keysOf ctx r (va + 1) n with
    | .error c, .error e => .error (firstCause (c, va) e)
    | .error c, .ok _ => .error (c, va)
    | .ok _, .error e => .error e
    | .ok x, .ok (ks, xs) =>
      .ok (x.key va :: ks, if xs.any fun p => p.1 / 2 ^ 16 = va / 2 ^ 16 then xs else (va, x) :: xs)

/-- Keep every translation used. -/
def State.rememberAll (s : State) (ctx : Nat) (xs : List (Nat × Xlate)) : State :=
  xs.foldl (fun s p => s.remember ctx p.1 p.2) s

/-- The machine stops after the step if a key is no byte of memory and no device register. -/
def State.touch (s : State) (k : Nat) : State :=
  if k < s.usable ∨ Config.hostBase ≤ k ∨ isReg k then s else { s with hole := some k }

/-- Touch several keys. -/
def State.touchAll (s : State) (ks : List Nat) : State := ks.foldl State.touch s

end Sys2Proof.Machine
end

