-- ==== Sys2Proof/Machine/Commit.lean ====
section
/-!
DEFINITION. Order and commit: release and acquire work by scope (R119 to R123), posted-store faults (R136), entry into
the irrevocable state and the buffered commit (R128, R130), deterministic turns (R271 to R275), and the byte-level
loads, stores and home operations that the memory words share (R113, R117, R118).
-/

namespace Sys2Proof.Machine

/-- Whether a word may go on: `go`, or `wait` with the thread still at its word. -/
inductive Ready where
  | go (s : State)
  | wait (s : State)
  deriving DecidableEq, Repr

/-- Go on if ready. -/
def Ready.bind (r : Ready) (f : State → Ready) : Ready :=
  match r with
  | .go s => f s
  | .wait s => .wait s

/-- Nothing is to be waited for. -/
def Ready.isGo (r : Ready) : Bool :=
  match r with
  | .go _ => true
  | .wait _ => false

/-- The state either way. -/
def Ready.state : Ready → State
  | .go s => s
  | .wait s => s

/-! ## Scopes (R119 to R122) -/

/-- THREAD, TASK and CORE send no dirty bytes and drop no lines; TASK counts as CLUSTER for a two-core task (R119, R122). -/
def Task.narrow (tk : Task) (scope : Nat) : Bool := scope = 0 || scope = 2 || (scope = 1 && !tk.twoCore)

/-- Report a posted-store fault at a release, FENCE or EXIT (R136): the trap empties the record. -/
def State.reportPosted (s : State) (a t : Nat) (p : PostedFault) : State :=
  (s.updThread a t fun th => { th with posted := none }).raise a t p.cause p.addr (word (p.reason + min p.count 255 * 256))

/-- A posted store or RED of a thread, not one of an engine (R121). -/
def OutReq.stores (o : OutReq) (a t : Nat) : Bool := o.posted && o.eng.isNone && o.accn == a && o.tid == t

/-- The thread has posted remote operations that are not acknowledged. -/
def State.unacked (s : State) (a t : Nat) : Bool := (KMap.vals s.outs).any fun o => o.stores a t

/-- The thread has to wait for acknowledgements (R119, R136): at DOMAIN scope or wider. -/
def State.awaitsAcks (s : State) (a t scope : Nat) : Bool := 5 ≤ scope && s.unacked a t

/-- What a release sends home (R106, R119): the thread's ordinary partials, and from CLUSTER scope the task's dirty bytes. -/
def State.sendHome (s : State) (a t scope : Nat) (tk : Task) : State :=
  tk.cores.foldl (fun s c =>
    (if tk.narrow scope then s else s.writeBackTask c a).flushParts c fun p => p.accn = a ∧ p.tid = t) s

/-- The release work of a scope (R119, R121): ready when it is done. A posted-store fault is reported once no
acknowledgement is awaited (R136); from TASK scope DTIME must pass the WCT of the stores sent home. -/
def State.release (s : State) (a t scope : Nat) : Ready :=
  match s.task? a, s.thread? a t with
  | some tk, some th =>
    match (if s.awaitsAcks a t scope then none else th.posted) with
    | some p => .wait (s.reportPosted a t p)
    | none =>
      let s1 := s.sendHome a t scope tk
      let w := ((s1.thread? a t).map fun th => th.lwct.getD scope 0).getD 0
      if s1.awaitsAcks a t scope then .wait (s1.interlock a t)
      else if scope ≠ 0 && s1.dtime ≤ w && w ≠ 0 then .wait (s1.stall a t w)
      else .go s1
  | _, _ => .go s

/-- The acquire part of a scope (R122): at CLUSTER or wider the task's leased lines are dropped, on both cores of a two-core task. -/
def State.acquire (s : State) (a scope : Nat) : State :=
  match s.task? a with
  | some tk => if tk.narrow scope then s else tk.cores.foldl State.dropLeases s
  | none => s

/-- Release order is asked for (R55). -/
def ordRel (o : BitVec 2) : Bool := 2 ≤ o.toNat
/-- Acquire order is asked for (R55). -/
def ordAcq (o : BitVec 2) : Bool := o.toNat % 2 == 1

/-- The release part of an ordered access. -/
def State.ordBefore (s : State) (a t : Nat) (o : BitVec 2) (scope : Nat) : Ready :=
  if ordRel o then s.release a t scope else .go s
/-- The acquire part of an ordered access. -/
def State.ordAfter (s : State) (a : Nat) (o : BitVec 2) (scope : Nat) : State :=
  if ordAcq o then s.acquire a scope else s

/-! ## Bounds and incumbents (R306, R308) -/

/-- The direction of an incumbent: true for MAX (R364). -/
def Ctx.isMax (c : Ctx) (i : Nat) : Bool := c.incdir.getLsbD i
/-- An incumbent that the context has set up (R364). -/
def Ctx.hasInc (c : Ctx) (i : Nat) : Bool := c.inccfg.getLsbD i
/-- `v` is better than `u` (R306). -/
def better (isMax : Bool) (v u : DWord) : Bool := if isMax then u.toNat < v.toNat else v.toNat < u.toNat
/-- The better of two values. -/
def best (isMax : Bool) (v u : DWord) : DWord := if better isMax v u then v else u
/-- The task's bound is dominated by a value under its strictness (R308). -/
def Task.dominatedBy (tk : Task) (isMax : Bool) (u : DWord) : Bool :=
  better isMax u tk.bnd || (tk.bsel.getLsbD 4 && u == tk.bnd)
/-- The task holds a valid bound (R38). -/
def Task.bounded (tk : Task) : Bool := tk.bsel.getLsbD 5
/-- The incumbent the task's bound names. -/
def Task.boundInc (tk : Task) : Nat := tk.bsel.toNat % 16

/-! ### Hops along the wiring of a context (R14, R371) -/

/-- The stop of a region-relative index, row-major. -/
def Ctx.stop (c : Ctx) (i : Nat) : Nat × Nat := (c.row + i / c.cols, c.col + i % c.cols)
/-- Hops over a link: one, and one for each die seam it crosses. -/
def linkHops (a b : Nat × Nat) : Nat := 1 + gap (a.1 / 6) (b.1 / 6) + gap (a.2 / 6) (b.2 / 6)
/-- The links of a closed loop of `n` stops, the last back to the first. -/
def loopLinks (n : Nat) (at' : Nat → Nat × Nat) : List Nat := (List.range n).map fun i => linkHops (at' i) (at' ((i + 1) % n))
/-- Hops between two stops of a loop, the shorter way. -/
def loopDist (ws : List Nat) (i j : Nat) : Nat :=
  let d := ((ws.drop (min i j)).take (gap i j)).sum
  min d (ws.sum - d)
/-- Hops between two stops of a tree whose stop i is the parent of 2i + 1 and 2i + 2: the greater index climbs; `n` bounds the
climbs. -/
def treeDist (at' : Nat → Nat × Nat) : Nat → Nat → Nat → Nat
  | 0, _, _ => 0
  | n + 1, i, j =>
    if i = j then 0
    else
      let x := max i j
      let up := (x - 1) / 2
      linkHops (at' x) (at' up) + treeDist at' n up (min i j)
/-- The links of a row and of a column of the region, closed to loops as in a torus. -/
def Ctx.rowLinks (c : Ctx) : List Nat := loopLinks c.cols fun i => (c.row, c.col + i)
/-- The links of a column. -/
def Ctx.colLinks (c : Ctx) : List Nat := loopLinks c.rows fun i => (c.row + i, c.col)
/-- Hops between two stops of a context's region, by region-relative index (R14, R371). -/
def Ctx.hops (c : Ctx) (i j : Nat) : Nat :=
  if c.wiring = 1 then loopDist c.colLinks (i / c.cols) (j / c.cols) + loopDist c.rowLinks (i % c.cols) (j % c.cols)
  else if c.wiring = 2 then loopDist (loopLinks (c.rows * c.cols) c.stop) i j
  else if c.wiring = 3 then treeDist c.stop 16 i j
  else meshDist (c.stop i) (c.stop j)
/-- The greatest of a distance over pairs of `n` stops. -/
def widest (n : Nat) (d : Nat → Nat → Nat) : Nat :=
  (List.range n).foldl (fun m i => (List.range i).foldl (fun m j => max m (d i j)) m) 0
/-- The diameter of a context's region along its wiring. -/
def Ctx.hmax (c : Ctx) : Nat :=
  if c.wiring = 0 then meshDist (c.stop 0) (c.stop (c.rows * c.cols - 1))
  else if c.wiring = 1 then widest c.rows (loopDist c.colLinks) + widest c.cols (loopDist c.rowLinks)
  else if c.wiring = 2 then widest (c.rows * c.cols) (loopDist (loopLinks (c.rows * c.cols) c.stop))
  else widest (c.rows * c.cols) (treeDist c.stop 16)

/-- Δdev of a context at 1,250 MHz (R306). -/
def Ctx.deltaDev (c : Ctx) : Nat := 24 + 2 * c.hmax

/-- Δdev in ticks: scaled by 1,250 MHz over the clock in force, which is kept in steps of 25 MHz (R412, R416). -/
def State.deltaDev (s : State) (c : Ctx) : Nat := (50 * c.deltaDev + s.regs.clk - 1) / s.regs.clk

/-- A value of an incumbent's log has reached every copy: performed at the home at least `d` ticks ago, or marked so, with tick 0, when
the clock changed (R306, R416). -/
def arrivedBy (now d : Nat) (e : Nat × DWord) : Bool := e.1 == 0 || e.1 + d ≤ now

/-- A core's copy of an incumbent (R306): the stored copy (the start value where none is stored), improved by every
value that was performed at the home at least Δdev ticks ago. -/
def State.incCopy (s : State) (core n i : Nat) : DWord :=
  match s.ctx? n with
  | none => 0
  | some c =>
    match KMap.get? i c.incs with
    | none => 0
    | some h =>
      h.log.foldl (fun u e => if arrivedBy s.dtime (s.deltaDev c) e then best (c.isMax i) e.2 u else u)
        (KMap.getD (n * 16 + i) h.start (s.core core).incs)

/-- The task is dominated by its core's copy (R308): on two cores, by either (R19). -/
def State.dominated (s : State) (tk : Task) : Bool :=
  match s.ctx? tk.ctx with
  | none => false
  | some c => tk.bounded && tk.cores.any fun k => tk.dominatedBy (c.isMax tk.boundInc) (s.incCopy k tk.ctx tk.boundInc)

/-- The launch incumbent of a deterministic launch (R275). -/
def State.launchInc (s : State) (tk : Task) (i : Nat) : DWord :=
  ((s.launch? tk.launch).map fun l => KMap.getD i 0 l.inc).getD 0
/-- The turn-time test of R275. -/
def State.dominatedAtTurn (s : State) (tk : Task) : Bool :=
  match s.ctx? tk.ctx with
  | none => false
  | some c => tk.bounded && tk.dominatedBy (c.isMax tk.boundInc) (s.launchInc tk tk.boundInc)
/-- The test at a commit point: R310, or R275 in a deterministic launch; never for an irrevocable task. -/
def State.dominatedNow (s : State) (tk : Task) : Bool :=
  !s.immune tk && (if s.isDet tk then s.dominatedAtTurn tk else s.dominated tk)
/-- The turn of a deterministic launch is the task's (R271); any task of another launch. -/
def State.hasTurn (s : State) (tk : Task) : Bool :=
  match s.launch? tk.launch with
  | some l => !l.det || l.turn == tk.rcd.tidx
  | none => true

/-- Offer a value at an incumbent's home (R306): it changes the home only if it is better. -/
def Ctx.offer (c : Ctx) (i : Nat) (v : DWord) (now : Nat) : Ctx :=
  { c with incs := KMap.upd i (fun h => if better (c.isMax i) v h.value then ⟨v, h.start, h.log ++ [(now, v)]⟩ else h) c.incs }

/-! ## Commit (R128) -/

/-- Bytes grouped by line, lines in order of first appearance. -/
def byLine (bs : KMap Byte) : List (Nat × KMap Byte) :=
  ((bs.map fun p => lineOf p.1).eraseDups).map fun l => (l, bs.filter fun p => lineOf p.1 = l)

/-- What a home reports for a line of a commit, H (R128): no lease, write or H of a pending commit on it is later. -/
def State.commitBound (s : State) (l : Nat) : Nat :=
  max (max s.dtime (s.pendingMax l HomeWrite.bound)) (max (s.home l).lease (s.home l).wct)

/-- The time T of a commit of lines (R128). -/
def State.commitTime (s : State) (ls : List Nat) : Nat := ls.foldl (fun t l => max t (s.commitBound l)) s.dtime + 1

/-- Send a task's held partials home, after its commit (R128, R156, R273). -/
def State.commitParts (s : State) (core : Nat) (ps : List Partial) : State :=
  ((ps.map fun p => lineOf p.key).eraseDups).foldl (fun s l =>
    ((s.recall l).1.combine l (ps.filter fun p => lineOf p.key = l) core).1) s

/-- The task commits its buffered bytes at one time, and nothing stops it for another task any more (R128). Its held partials go home
once DTIME has passed that time (`settleCommit`). -/
def State.commitTask (s : State) (a : Nat) (tk : Task) : State :=
  let bs : KMap Byte := tk.ebuf.map fun p => (p.1, p.2.byte)
  let ls := byLine bs
  let s := ls.foldl (fun s l => (s.recall l.1).1) s
  let tm := s.commitTime (ls.map Prod.fst)
  let s := ls.foldl (fun s l => s.acceptUnder l.1 tm (s.commitBound l.1) l.2 tk.core [a] true) s
  let s := s.updTask a fun tk =>
    { tk with irrevocable := true, ebuf := [],
              commitT := if ls.isEmpty && tk.parts.isEmpty then tk.commitT else some tm }
  if ls.isEmpty then s else s.updThreads a fun th => th.noteWct tm

/-- The task enters the irrevocable state (R130): it commits, and a cooperative launch is irrevocable as a group from now on (R301). The
commit of a task at its end is no such entry. -/
def State.irrevoke (s : State) (a : Nat) (tk : Task) : State :=
  (s.commitTask a tk).updLaunch tk.launch fun l => { l with irrevocable := true }

/-- Let go the locks of a task whose release is pending. -/
def State.dropPending (s : State) (a : Nat) : State :=
  { s with locks := s.locks.filterMap fun e =>
      if e.accn = a ∧ e.pend then
        (match e.wait with | some w => some { e with mode := 0, pend := false, wait := some { w with upgrade := false } } | none => none)
      else some e }

/-- A commit whose time has passed lets go the locks whose release was deferred to it, and sends home the partials that the task
held (R128, R351). -/
def State.settleCommit (s : State) (a : Nat) (tk : Task) : State :=
  if tk.irrevocable then
    match tk.commitT with
    | some tm =>
      if tm < s.dtime then
        ((s.updTask a fun tk => { tk with commitT := none, parts := [] }).dropPending a).commitParts tk.core tk.parts
      else s
    | none => s.dropPending a
  else s

/-- Every such commit. -/
def State.settleCommits (s : State) : State := s.tasks.foldl (fun s p => s.settleCommit p.1 p.2) s

/-- Enter the irrevocable state (R130, R272): the word goes on once the commit's time has passed. In a deterministic
launch the thread first stalls until its task's turn, and the turn-time test may cancel the task. -/
def State.enter (s : State) (a t : Nat) : Ready :=
  match s.task? a with
  | none => .go s
  | some tk =>
    if tk.irrevocable then
      match tk.commitT with
      | some tm => if tm < s.dtime then .go (s.settleCommit a tk) else .wait (s.stall a t tm)
      | none => .go s
    else if !s.hasTurn tk then .wait (s.holdThread a t .turn)
    else if s.isDet tk && s.dominatedNow tk then .wait ((s.haltTask a .cancel).updThread a t Thread.stopAt)
    else
      let s1 := s.irrevoke a tk
      match (s1.task? a).bind Task.commitT with
      | some tm => .wait (s1.stall a t tm)
      | none => .go s1

/-! ## Bytes through the core (R113, R117, R118) -/

/-- What a load finds. -/
inductive Got where
  | val (s : State) (bs : List Byte)
  | wait (s : State)
  | dead (s : State)
  deriving DecidableEq, Repr

/-- Go on with the bytes, where the load has found them. -/
def Got.done (g : Got) (use : State → List Byte → State) : State :=
  match g with
  | .val s bs => use s bs
  | .wait s => s
  | .dead s => s

/-- The task reads a poisoned line: a machine check (R394). -/
def State.poisoned (s : State) (ks : List Nat) : Bool := ks.any fun k => s.poison.contains (lineOf k)

/-- The latest WCT still to come of a write by the core, the task or a home to one of the lines (R106, R117): all threads of
an issue that load from a line wait for the same writes (R126). -/
def State.ownPending (s : State) (core a : Nat) (ks : List Nat) : Nat :=
  s.writes.foldl (fun m w =>
    if s.dtime < w.wct ∧ (w.core = core ∨ w.core = Config.cores + 1 ∨ w.owners.contains a) ∧ ks.any (fun k => lineOf k = w.line) then
      max m w.wct
    else m) 0

/-- A byte that the task or the core supplies: effect buffer, then dirty L1 (R113). -/
def State.nearByte (s : State) (tk : Task) (core k : Nat) : Option Byte :=
  match KMap.get? k tk.ebuf with
  | some e => some e.byte
  | none => (KMap.get? (k % 128) (s.l1 core (lineOf k)).dirty).map DirtyByte.byte

/-- Recall the update-only copies of lines; the latest WCT it gives, 0 for none. -/
def State.recallLines (s : State) (ls : List Nat) : State × Nat :=
  ls.foldl (fun r l => let q := r.1.recall l; (q.1, max r.2 (q.2.getD 0))) (s, 0)

/-- Load bytes of global memory (R113): from the first source of R113, after what must come first has been performed. -/
def State.loadKeys (s : State) (a t : Nat) (tk : Task) (core pol : Nat) (ks : List Nat) : Got :=
  let far := ks.filter fun k => (s.nearByte tk core k).isNone
  let ls := (far.map lineOf).eraseDups
  if s.poisoned far then .dead (s.haltTask a .machineCheck)
  else
    let r := s.recallLines ((ks.map lineOf).eraseDups)
    let w := max r.2 (r.1.ownPending core a ks)
    if s.dtime < w then .wait (r.1.stall a t w)
    else
      let bs := ks.map fun k => (r.1.nearByte tk core k).getD (r.1.homeByte k)
      let s1 := if pol = 1 ∨ pol = 3 then r.1 else ls.foldl (fun s l => s.grantLease core l) r.1
      let s2 := if pol = 2 then ls.foldl (fun s l => s.placeNear l (core / 4) tk.launch) s1 else s1
      .val (s2.touchAll far) bs

/-- Lines that the effect buffer of a task occupies: its buffered bytes, and one for each line, operation and format of
its held partials (R106). -/
def ebufLines (eb : KMap EbByte) (ps : List Partial) : Nat :=
  ((eb.map fun p => lineOf p.1).eraseDups).length +
    ((ps.map fun p => (lineOf p.key, p.op, p.fmt)).eraseDups).length

/-- Put the bytes of an access at a virtual address into an effect buffer (R101), each with its own page (R369). -/
def Task.buffer (tk : Task) (gen va : Nat) (bs : KMap Byte) : Task :=
  { tk with ebuf := bs.zipIdx.foldl (fun m p => KMap.put p.1.1 ⟨p.1.2, gen, (va + p.2) / 2 ^ 16⟩ m) tk.ebuf }

/-- The translation generation of a task's context (R369). -/
def State.genOf (s : State) (tk : Task) : Nat := ((s.ctx? tk.ctx).map Ctx.gen).getD 0

/-- Store bytes into a core's L1, where they stay dirty (R118). -/
def State.dirtyKeys (s : State) (a t core gen : Nat) (bs : KMap Byte) : State :=
  bs.foldl (fun s p => s.updL1 core (lineOf p.1) fun l =>
    { l with dirty := KMap.put (p.1 % 128) (DirtyByte.over (KMap.get? (p.1 % 128) l.dirty) p.2 a t gen) l.dirty }) s

/-- Store bytes of global memory (R101, R118): into the effect buffer of a task that buffers, on overflow after its
commit (R130); otherwise dirty in L1, in a task that has just committed once the time of its commit has passed. -/
def State.storeKeys (s : State) (a t : Nat) (core va : Nat) (bs : KMap Byte) : Ready :=
  match s.task? a with
  | none => .go s
  | some tk =>
    let direct (s : State) : State := s.dirtyKeys a t core (s.genOf tk) bs
    if tk.buffers then
      let tk' := tk.buffer (s.genOf tk) va bs
      if ebufLines tk'.ebuf tk.parts ≤ 32 * tk.ebPages then .go ((s.updTask a fun _ => tk').touchAll (KMap.keys bs))
      else (s.enter a t).bind fun s => .go ((direct s).touchAll (KMap.keys bs))
    else (if tk.irrevocable then s.enter a t else .go s).bind fun s => .go ((direct s).touchAll (KMap.keys bs))

/-- What an operation performed at its home answers: the words read and the tick at which it was performed. -/
structure HomeRes where
  s : State
  old : List Word
  at' : Nat
  deriving DecidableEq, Repr

/-- Perform an indivisible operation on 4-byte words of global memory at their home (R104): `f` takes the words and says
what to write, if it writes: in one event, at one WCT, also where the words lie in several lines (R158). A form that does not
write counts as a read (R154). -/
def State.atHome (s : State) (core a : Nat) (ks : List Nat) (f : List Word → Option (List Word)) : HomeRes :=
  let ls := (ks.map lineOf).eraseDups
  let s := ls.foldl (fun s l => s.writeBack core l fun _ => true) s
  let s := (s.recallLines ls).1
  let old := ks.map s.lastWord
  match f old with
  | none => ⟨s, old, ls.foldl (fun m l => max m (s.lastWct l)) s.dtime⟩
  | some new =>
    let bs : KMap Byte := (ks.zip new).flatMap fun p => bytesAt p.1 (leBytes 4 p.2.toNat)
    let r := s.acceptAll (byLine bs) s.dtime core (if a = 0 then [] else [a])
    ⟨r.1.touchAll ks, old, r.2⟩

/-- A lane of a word that enters the irrevocable state in some of its lanes (R147): as `State.lane`, but the entry comes at the
issue of the word, before any fault of the lane; in a deterministic launch no lane goes before one of lower TID (R270). -/
def State.laneIn (g : Nat) (regs : List Nat) (entry : State → Nat → Task → Thread → Ready)
    (act : State → Nat → Task → Thread → State) (s : State) (t : Nat) : State :=
  let a := s.issue.accn
  match s.task? a with
  | none => s
  | some tk =>
    match KMap.get? t tk.threads with
    | none => s
    | some th =>
      if !s.issue.carries th then s
      else if !th.pred g then s.putThread a t th.next
      else if regs.any (s.awaits a t) || (s.isDet tk && tk.lowerWaits t th) then s.interlock a t
      else
        match entry s t (tk.seen th) th with
        | .wait s => s
        | .go s =>
          if regs.any fun n => !tk.holdsReg n then s.raise a t causeIllegalOperand 0 0
          else
            match s.task? a, s.thread? a t with
            | some tk, some th => act s t (tk.seen th) th
            | _, _ => s

/-- A word that acts separately in each thread and enters the irrevocable state at its issue (R68, R147). Its lanes act in ascending TID:
of two that store to one byte the value of the greater TID stays (DESIGN CHOICE, log entry 109: R146 has them act concurrently). -/
def State.perLaneIn (s : State) (g : Nat) (regs : List Nat) (entry : State → Nat → Task → Thread → Ready)
    (act : State → Nat → Task → Thread → State) : State :=
  s.issue.lanes.foldl (State.laneIn g regs entry act) s

/-- Such a word whose lanes act in an order that the spec leaves open (R155). -/
def State.perLaneFreeIn (s : State) (g : Nat) (regs : List Nat) (entry : State → Nat → Task → Thread → Ready)
    (act : State → Nat → Task → Thread → State) : State :=
  s.freeLanes.foldl (State.laneIn g regs entry act) s.drew

/-- The thread moves on once an operation at a home has been performed (R116, R128). -/
def Thread.after (th : Thread) (tick now : Nat) : Thread := if now < tick then { th with stallTo := some tick } else th

end Sys2Proof.Machine
end

