-- ==== Sys2Proof/Machine/Access.lean ====
section
/-!
DEFINITION. From a record and an offset to a place (R35, R90 to R98, R139 to R144), for every space; and the device
registers of the translation control block and the management page (R366, R413).
-/

namespace Sys2Proof.Machine

/-- A fault found by a check: cause, TADDR, TINFO. -/
structure AccFault where
  cause : Nat
  taddr : Nat
  tinfo : Word
  deriving DecidableEq, Repr

/-- Where an access goes. `glob`: virtual address, keys of its bytes, translations used; `spad` and `priv`: byte
offsets; `remote`: virtual address, peer, export, offset in the export, whether the window is replicated. -/
inductive Place where
  | dropped
  | glob (va : Nat) (ks : List Nat) (xs : List (Nat × Xlate))
  | spad (offs : List Nat)
  | priv (offs : List Nat)
  | remote (va peer exp off : Nat) (repl : Bool)
  deriving DecidableEq, Repr

/-- The first byte of a place: a key, or an offset. -/
def Place.first : Place → Nat
  | .glob _ (k :: _) _ => k
  | .spad (o :: _) => o
  | .priv (o :: _) => o
  | .remote _ _ _ off _ => off
  | _ => 0

/-- The translations that a place has used. -/
def Place.xlates : Place → List (Nat × Xlate)
  | .glob _ _ xs => xs
  | _ => []

/-- NTID rounded up to a multiple of 32 (R93). -/
def Task.ntidPad (tk : Task) : Nat := (tk.rcd.ntid + 31) / 32 * 32
/-- PRIVLIM (R27, R37). -/
def Task.privLim (tk : Task) : Nat := wbits tk.rcd.rreq 16 16
/-- The offset of a private byte in the task's area (R94). -/
def Task.privOff (tk : Task) (t b : Nat) : Nat := (b / 4 * tk.ntidPad + t) * 4 + b % 4

/-- The base of a task's private area in the table of bytes (R93): apart from all memory that an address reaches (log entry 111). Each
attempt has an area of zeros. -/
def TaskRec.privBase (r : TaskRec) : Nat := 2 ^ 58 + (r.accn * 2 ^ 16 + r.rlcnt % 2 ^ 16) * 2 ^ 32
/-- The key lies in a private area of a task. -/
def isPrivOf (a k : Nat) : Bool := (2 ^ 58 + a * 2 ^ 48 ≤ k) && (k < 2 ^ 58 + (a + 1) * 2 ^ 48)
/-- The keys of bytes of a task's private area. -/
def Task.privKeys (tk : Task) (offs : List Nat) : List Nat := offs.map (tk.rcd.privBase + ·)

/-- The key of the peer entry of a remote address (R372). -/
def Ctx.peerKey (c : Ctx) (va : Nat) : Nat := c.peert + 8 * (va / 2 ^ 46 % 2 ^ 10)
/-- The key of the window entry of a remote address, by its peer entry. -/
def windowKey (pe va : Nat) : Nat := pe % 2 ^ 47 * 2 ^ 10 + 16 * (va / 2 ^ 40 % 2 ^ 6)
/-- The peer entry is valid, with its reserved bits 0 (R372). -/
def peerValid (pe : Nat) : Bool := pe / 2 ^ 63 ≠ 0 && pe / 2 ^ 58 % 2 ^ 5 == 0 && pe / 2 ^ 47 % 2 == 0

/-- The peer entry and the window entry of a remote address (R372). -/
def State.windowOf (s : State) (c : Ctx) (va : Nat) : Nat × Nat :=
  let pe := s.homeNat (c.peerKey va) 8
  (pe, s.homeNat (windowKey pe va) 16)

/-- A line of those entries whose update-only copies have to be recalled first (R106). -/
def State.windowCopies (s : State) (c : Ctx) (va : Nat) : Option Nat :=
  if c.peert = 0 then none
  else (s.copied [lineOf (c.peerKey va)]).orElse fun _ =>
    if peerValid (s.windowOf c va).1 then s.copied [lineOf (windowKey (s.windowOf c va).1 va)] else none

/-- Decode a remote address through the peer and window tables (R372, R373), with the rights an access needs. -/
def State.remotePlace (s : State) (ctx va : Nat) (r : Rights) : Except AccFault Place :=
  match s.ctx? ctx with
  | none => .error ⟨causeTranslation, va, 0⟩
  | some c =>
    let pe := (s.windowOf c va).1
    let we := (s.windowOf c va).2
    let off := va % 2 ^ 40
    if let some l := s.windowCopies c va then .error ⟨recallCode l, va, 0⟩
    else if c.peert = 0 ∨ peerValid pe = false ∨ we / 2 ^ 127 = 0 ∨
        we / 2 ^ 118 % 2 ^ 6 ≠ 0 ∨ we / 2 ^ 104 % 2 ^ 8 ≠ 0 ∨ we / 2 ^ 40 % 2 ^ 24 ≠ 0 ∨ we / 2 ^ 64 % 2 ^ 40 ≤ off then
      .error ⟨causeTranslation, va, 0⟩
    else if (r.rd && we / 2 ^ 126 % 2 == 0) || (r.wr && we / 2 ^ 125 % 2 == 0) then .error ⟨causePermission, va, 0⟩
    else .ok (.remote va (pe / 2 ^ 48 % 2 ^ 10) (we / 2 ^ 112 % 2 ^ 6) (we % 2 ^ 40 + off) (we / 2 ^ 124 % 2 == 1))

/-- What an instruction asks of an access: bytes, whether misalignment always faults, rights. -/
structure Want where
  bytes : Nat
  strict : Bool
  rights : Rights
  deriving DecidableEq, Repr

/-- The place of `bytes` bytes at an address of a record's space, after bounds (steps 4 to 7 of R144). -/
def State.placeAt (s : State) (tk : Task) (t : Nat) (r : Rec) (a : Nat) (w : Want) : Except AccFault Place :=
  if a % w.bytes ≠ 0 ∧ (w.strict = true ∨ r.bmode = 0 ∨ r.space = 2) then .error ⟨causeMisaligned, a, 0⟩
  else if r.space = 1 then
    let bad := (List.range w.bytes).filter fun i => 4096 * tk.pages ≤ a + i
    match bad with
    | [] => .ok (.spad ((List.range w.bytes).map (a + ·)))
    | _ => .error ⟨causeBounds, a, 0⟩
  else if r.space = 2 then
    if (List.range w.bytes).any fun i => tk.privLim ≤ (a + i) / 4 then .error ⟨causePrivateLimit, a / 4 * 4, 0⟩
    else .ok (.priv ((List.range w.bytes).map fun i => tk.privOff t (a + i)))
  else if r.space = 0 then
    if a / 2 ^ 56 % 2 = 1 then .error ⟨causePermission, a, 0⟩
    else
      match s.keysOf tk.ctx w.rights a w.bytes with
      | .error e => .error ⟨e.1, e.2, 0⟩
      | .ok p => .ok (.glob a p.1 p.2)
  else if a / 2 ^ 56 % 2 = 0 then .error ⟨causePermission, a, 0⟩
  else s.remotePlace tk.ctx a w.rights

/-- The checks of R144 on a record and an offset: `slot` the record's slot, `form` what step 2 finds (true when space,
format, X and pairing are allowed), `addr` the address of an element in bounds. -/
def State.place (s : State) (tk : Task) (t slot : Nat) (r : Rec) (form : Bool) (o : Nat) (addr : Nat → Nat) (w : Want) :
    Except AccFault Place :=
  if !r.ok || !form then .error ⟨causeIllegalOperand, 0, word slot⟩
  else
    match r.bounded o with
    | .fault => .error ⟨causeBounds, o, 0⟩
    | .dropped => .ok .dropped
    | .at o => s.placeAt tk t r (addr o) w

/-- A thread waits until the update-only copies of a line have been combined at its home (R106). -/
def State.awaitCopies (s : State) (a t line : Nat) : State :=
  let r := s.recall line
  r.1.stall a t (r.2.getD s.dtime)

/-- Raise a fault that a check found, or wait for a line that it has to find combined. -/
def State.raiseAcc (s : State) (a t : Nat) (f : AccFault) : State :=
  match recallLine f.cause with
  | some l => s.awaitCopies a t l
  | none => s.raise a t f.cause f.taddr f.tinfo

/-! ## Scratchpad bytes (R92, R96 to R98) -/

/-- Read a scratchpad byte: 0 where nothing was written (R92). -/
def Task.spadByte (tk : Task) (o : Nat) : Byte := KMap.getD o 0 tk.spad
/-- Write scratchpad bytes. -/
def Task.spadWrite (tk : Task) (bs : KMap Byte) : Task := { tk with spad := bs.foldl (fun m p => KMap.put p.1 p.2 m) tk.spad }

/-- An entry of the range scoreboard stalls an access of the task (R112): the accesses of one core's entries are checked
by both cores of a two-core task. -/
def State.boardStalls (s : State) (tk : Task) (isLoad : Bool) (offs : List Nat) : Bool :=
  tk.cores.any fun c => (s.core c).board.any fun e =>
    e.accn == tk.rcd.accn && (e.loads || !isLoad) && offs.any fun o => e.lo ≤ o && o < e.hi

/-! ## Device registers (R366, R413) -/

/-- BSTAT (R414). -/
def Regs.bstat (r : Regs) : Nat :=
  (if r.level = 1 then 64 else if r.level = 2 then 248 else 0) * 2 ^ 32 + r.dies * 2 ^ 28 + r.fail * 2 ^ 16 +
    r.clk * 2 ^ 8 + bit r.stest * 8 + bit r.train * 4 + r.level

/-- The value of the 64-bit register at an offset from the translation control block; reserved offsets read 0. A
command register reads as its stored low word with nothing above it (log entry 5). -/
def Regs.read (r : Regs) (off : Nat) : Nat :=
  match off with
  | 0x008 => r.ctxsts
  | 0x018 => r.invsts.toNat
  | 0x020 => r.exptb.toNat
  | 0x030 => r.shdsts.toNat
  | 0x038 => r.encl.toNat
  | 0x040 => r.vcmode.toNat
  | 0x1000 => r.bstat
  | 0x1010 => r.rqbase
  | 0x1018 => r.saveb.toNat
  | 0x1020 => r.saves.toNat
  | 0x1030 => r.pcap.toNat
  | 0x1038 => r.launchq.toNat
  | 0x000 => ((KMap.get? 0x000 r.latch).map BitVec.toNat).getD 0
  | 0x010 => ((KMap.get? 0x010 r.latch).map BitVec.toNat).getD 0
  | 0x028 => ((KMap.get? 0x028 r.latch).map BitVec.toNat).getD 0
  | 0x1008 => ((KMap.get? 0x1008 r.latch).map BitVec.toNat).getD 0
  | 0x1028 => ((KMap.get? 0x1028 r.latch).map BitVec.toNat).getD 0
  | _ => 0

/-- Load bytes of device registers (R366): they bypass L1 and L2. -/
def State.regLoad (s : State) (ks : List Nat) : List Byte :=
  ks.map fun k =>
    let off := k - tcbBase
    BitVec.ofNat 8 (s.regs.read (off / 8 * 8) / 256 ^ (off % 8))

/-- The command that a register's value is (R366, R413), if the register is one that a store commands or writes. -/
def regCommand (s : State) (off : Nat) (v : DWord) : Option Instr :=
  match off with
  | 0x000 =>
    if s.regs.ctxsts = 1 then none
    else if dbits v 6 2 = 0 then some (.ctxActivate (dbits v 0 6) (dbits v 8 49 * 2 ^ 8))
    else if dbits v 6 2 = 1 then some (.ctxRetire (dbits v 0 6)) else none
  | 0x010 =>
    if s.regs.invsts.getLsbD 63 then none
    else some (.translationInvalidate (dbits v 10 6) (dbits v 16 40) (dbits v 8 2))
  | 0x020 => some (.registerWrite .exptb v)
  | 0x028 => if s.regs.shdsts.getLsbD 63 then none else some (.shootDown (dbits v 10 6) (dbits v 16 40))
  | 0x038 => some (.registerWrite .encl v)
  | 0x040 => some (.registerWrite .vcmode v)
  | 0x1008 => if dbits v 0 1 = 1 then some .serviceFull else none
  | 0x1018 => some (.registerWrite .saveb v)
  | 0x1020 => some (.registerWrite .saves v)
  | 0x1028 =>
    if dbits v 54 2 = 0 then some (.stopAllOff (dbits v 48 6))
    else if dbits v 54 2 = 1 then some (.stopAllOn (dbits v 48 6))
    else if dbits v 54 2 = 2 then some (.debugResume (dbits v 48 6) (dbits v 0 48)) else none
  | 0x1030 => some (.registerWrite .pcap v)
  | _ => none

/-- The status that reads busy while a command is carried out (R366). -/
def Regs.busy (r : Regs) (off : Nat) : Regs :=
  match off with
  | 0x000 => { r with ctxsts := 1 }
  | 0x010 => { r with invsts := r.invsts ||| dword (2 ^ 63) }
  | 0x028 => { r with shdsts := r.shdsts ||| dword (2 ^ 63) }
  | _ => r

/-- Write a register (R366, R413): reserved bits are not kept; a power cap outside 1,000 to 2,300 W is dropped. -/
def Regs.write (g : Regs) (r : CtlReg) (v : DWord) : Regs :=
  match r with
  | .exptb => { g with exptb := v &&& dword (2 ^ 63 + (2 ^ 57 - 1)) }
  | .encl => { g with encl := v &&& 0xFFFF }
  | .vcmode => { g with vcmode := v &&& 0x7F }
  | .saveb => { g with saveb := v &&& dword (2 ^ 57 - 1) }
  | .saves => { g with saves := v }
  | .pcap => if 1000 ≤ dbits v 0 12 ∧ dbits v 0 12 ≤ 2300 then { g with pcap := dword (dbits v 0 12) } else g
  | .launchq => { g with launchq := v }

/-- What the tables give for a page (bits 55:16) now. -/
def State.walkPage (s : State) (c : Ctx) (page : Nat) : Walk := s.walkFrom (page * 2 ^ 16) 0 levels c.ptroot

/-- A translation has ROE set. -/
def Xlate.roe (x : Xlate) : Bool := dbits x.pte 5 1 == 1

/-- The tables give a page with ROE set now. -/
def State.isRoe (s : State) (c : Ctx) (page : Nat) : Bool :=
  match s.walkPage c page with
  | .page x => x.roe
  | _ => false

/-- A cached translation of a page has ROE set (R369). -/
def Ctx.cachedRoe (c : Ctx) (page : Nat) : Bool := c.tlb.any fun p => p.2.roe && p.2.samePage (p.1 * 2 ^ 16) page

/-- ROE is revoked for a page that has it (R376): from now on no response is marked for it. -/
def State.revoke (s : State) (n page : Nat) : State :=
  s.updCtx n fun c => if s.isRoe c page || c.cachedRoe page then { c with revoked := (page :: c.revoked).eraseDups } else c

/-- What takes effect with the store of a command itself: the marks of R376 end with it. -/
def State.commanded (s : State) (e : Instr) : State :=
  match e with
  | .shootDown n page => s.revoke n page
  | _ => s

/-- Store one 4-byte word of a device register (R366): the low word is kept, and the store of the high word carries out
the command: a register is written at once, and another command stands on the agenda. -/
def State.regStore (s : State) (k : Nat) (w : Word) : State :=
  let off := (k - tcbBase) / 8 * 8
  if k % 8 = 0 then { s with regs := { s.regs with latch := KMap.put off w s.regs.latch } }
  else
    match regCommand s off (pair (KMap.getD off 0 s.regs.latch) w) with
    | none => s
    | some (.registerWrite r v) => { s with regs := s.regs.write r v }
    | some e => ({ s with regs := s.regs.busy off }.commanded e).due e

end Sys2Proof.Machine
end

