-- ==== Sys2Proof/Machine/LoadStore.lean ====
section
/-!
DEFINITION. Remote requests as they leave a thread (R133 to R136, R148 to R151, R402), and the loads and stores LD, ST,
LDS, STS, LDP and STP (R139 to R149).
-/

namespace Sys2Proof.Machine

/-! ## Remote requests -/

/-- The place a remote request is for. -/
structure Dest where
  va : Nat
  peer : Nat
  exp : Nat
  off : Nat
  deriving DecidableEq, Repr

/-- The module serves memory and host accesses: LEVEL 1 or 2 (R414). -/
def Regs.serves (r : Regs) : Bool := r.level == 1 || r.level == 2

/-- Some Sniut port is up (R379). -/
def State.linked (s : State) : Bool := (List.range 24).any fun p => (KMap.getD p Port.empty s.ports).up
/-- A port sends flits under the slot in use (R378). -/
def Port.sends (x : Port) (n : Nat) : Port :=
  if x.slot = 0 then { x with count0 := x.count0 + n } else { x with count1 := x.count1 + n }
/-- Put something on the fabric, through the port that is up at a place in their order, in a free number of flits (R378); with every
link down it is lost (R379), and a module that has failed sends nothing (R414). -/
def State.onPort (s : State) (route : Nat) (x : Sent) : State :=
  if !s.regs.serves then s else
  match (List.range 24).filter fun p => (KMap.getD p Port.empty s.ports).up with
  | [] => s
  | p :: ps =>
    let q := (p :: ps).getD (route % (ps.length + 1)) p
    { s.emit x with ports := KMap.put q ((KMap.getD q Port.empty s.ports).sends (Config.flits s.free + 1)) s.ports }.drew

/-- Put something on the fabric, through a free port (R378). -/
def State.onFabric (s : State) (x : Sent) : State := s.onPort (Config.route s.free) x

/-- Put a request on its way (R402: to the module itself, if the peer entry names it); `path` is the fixed path of a .ORD store
(R150). -/
def State.transmit (s : State) (peer : Nat) (posted : Bool) (path : Option Nat) (r : RemoteReq) : State :=
  if peer = s.regs.peerid then s.due (if posted then .remotePostedStore r else .remoteRequestArrival r)
  else s.onPort (path.getD (Config.route s.free)) (.request peer r)

/-- The fixed path of a .ORD store to its peer; any path for another operation (R150, R410). -/
def OutReq.path (o : OutReq) : Option Nat := if o.isOrd then some (Config.fixedRoute o.peer) else none

/-- A remote operation of a thread is outstanding under a new tag. -/
def State.enlist (s : State) (a t : Nat) (d : Dest) (bytes : Nat) (op : RemoteOp) (posted isOrd : Bool)
    (async : Option (Nat × Nat × Nat)) (eng : Option (Nat × Nat)) : State :=
  let r : RemoteReq := ⟨s.regs.peerid, s.nextId, d.exp, d.off, op⟩
  { s with
    outs := KMap.put s.nextId ⟨r, d.peer, a, t, d.va, bytes, posted, isOrd, async, eng, s.nextId, s.dtime, 0, none, 0, false,
      ((s.task? a).map s.genOf).getD 0⟩ s.outs
    nextId := s.nextId + 1 }

/-- Send a remote operation of a thread. -/
def State.sendRemote (s : State) (a t : Nat) (d : Dest) (bytes : Nat) (op : RemoteOp) (posted isOrd : Bool)
    (async : Option (Nat × Nat × Nat)) (eng : Option (Nat × Nat) := none) : State :=
  (s.enlist a t d bytes op posted isOrd async eng).transmit d.peer posted none ⟨s.regs.peerid, s.nextId, d.exp, d.off, op⟩

/-! ### The accesses of 32 threads to one remote line (R126) -/

/-- The operation on a line that does the work of operations on its parts. -/
def lineOp : List RemoteOp → Option RemoteOp
  | .load _ :: _ => some (.load 128)
  | .store bs :: ops =>
    some (.store (ops.foldl (fun bs x => match x with
      | .store cs => bs ++ cs
      | _ => bs) bs))
  | _ => none

/-- The requests of one issue cover exactly one line, each of threads 32k to 32k + 31 four bytes of it: its offset, and the one
operation that does the work of all. -/
def lineRequest (os : List (Nat × OutReq)) : Option (Nat × RemoteOp) :=
  match os with
  | [] => none
  | (_, o) :: _ =>
    let base := o.req.off / 128 * 128
    let own := (List.range 32).filterMap fun i => os.find? fun p => p.2.req.off = base + 4 * i
    if os.length = 32 ∧ own.length = 32 ∧ o.tid % 32 = 0 ∧ (os.map fun p => p.2.tid) = (List.range 32).map (o.tid + ·) ∧
        (os.all fun p => p.2.peer = o.peer ∧ p.2.req.exp = o.req.exp ∧ p.2.bytes = 4) = true then
      (lineOp (own.map fun p => p.2.req.op)).map fun op => (base, op)
    else none

/-- Send what LD or ST has enlisted since a state: one request where the threads cover a line, else one for each thread. -/
def State.sendNew (s s0 : State) : State :=
  let os := (List.range (s.nextId - s0.nextId)).filterMap fun i =>
    (KMap.get? (s0.nextId + i) s.outs).map fun o => (s0.nextId + i, o)
  match os, lineRequest os with
  | (g, o) :: _, some (base, op) =>
    let r : RemoteReq := ⟨s.regs.peerid, g, o.req.exp, base, op⟩
    let outs := os.foldl (fun m (p : Nat × OutReq) => KMap.put p.1 { p.2 with req := r, part := p.2.req.off - base } m) s.outs
    { s with outs := outs }.transmit o.peer o.posted o.path r
  | _, _ => os.foldl (fun s p => s.transmit p.2.peer p.2.posted p.2.path p.2.req) s

/-- Where the bytes of a remote operation begin in its export. -/
def OutReq.at' (o : OutReq) : Nat := o.req.off + o.part

/-- An earlier remote operation of the thread on one of `n` bytes of an export has not been performed as far as the thread knows:
accesses to one byte are performed in program order (R117, R133), by whatever window entry they reach it. -/
def State.trails (s : State) (a t peer exp off n : Nat) : Bool :=
  (KMap.vals s.outs).any fun o =>
    o.accn == a && o.tid == t && o.eng.isNone && o.back.isNone && o.peer == peer && o.req.exp == exp && off < o.at' + o.bytes &&
      o.at' < off + n

/-- The response of a stalled remote operation is in: the access is over, and no check of it is made again (R148). -/
def State.takeAnswer (s : State) (a t va : Nat) (res : RemoteRes) (use : State → List Word → State)
    (bad : State → RemoteRes → State := fun s _ => s) : State :=
  match res with
  | .data ws => use s ws
  | .poisoned reason => s.raise a t causePoisoned va (word reason)
  | .unknown => s.raise a t causeUnknown va 0
  | r => bad s r

/-- Enlist a remote operation on which the thread stalls (R135, R148), once earlier operations on its bytes have been performed
(R117). -/
def State.remoteAsk (s : State) (a t : Nat) (d : Dest) (bytes : Nat) (op : RemoteOp) : State :=
  if s.trails a t d.peer d.exp d.off bytes then s.holdThread a t .remote
  else (s.enlist a t d bytes op false false none none).holdThread a t .remote

/-- As `remoteAsk`, for a word whose threads send a request each; `reach` says on which bytes of the export earlier operations must
have been performed. -/
def State.remoteCall (s : State) (a t : Nat) (d : Dest) (bytes : Nat) (op : RemoteOp) (reach : Nat × Nat := (d.off, bytes)) : State :=
  if s.trails a t d.peer d.exp reach.1 reach.2 then s.holdThread a t .remote
  else (s.sendRemote a t d bytes op false false none).holdThread a t .remote

/-- A remote store waits at the source (R117, R133): an earlier operation of the thread on a common byte, or for a .ORD store an
earlier .ORD store of the thread to the same peer, is not acknowledged. -/
def State.postWaits (s : State) (a t : Nat) (d : Dest) (bytes : Nat) (isOrd : Bool) : Bool :=
  s.trails a t d.peer d.exp d.off bytes ||
    (isOrd && (KMap.vals s.outs).any fun o => o.stores a t && o.isOrd && o.peer == d.peer)

/-- The operation that is enlisted last acquires once it is over: until then its thread does not go on (R122). -/
def State.acquiring (s s0 : State) (ord : BitVec 2) : State :=
  { s with outs := KMap.upd s0.nextId (fun o => { o with acq := ordAcq ord }) s.outs }

/-- Post a remote store or RED (R133): it is enlisted when nothing holds it back. With acquire order the thread goes on only once it
is acknowledged (R122). -/
def State.post (s : State) (a t : Nat) (d : Dest) (bytes : Nat) (op : RemoteOp) (isOrd : Bool) (ord : BitVec 2) : Ready :=
  if s.postWaits a t d bytes isOrd then .wait (s.interlock a t)
  else .go ((s.enlist a t d bytes op true isOrd none none).acquiring s ord)

/-- The scope of an ordered access (R120, R134): below DOMAIN is read as DOMAIN through a remote record. -/
def Rec.orderScope (r : Rec) : Nat := if r.space = 3 then max 5 r.scope else r.scope

/-- The word completes in a thread: its registers are written, the acquire part acts, the thread moves on. -/
def State.finish (s : State) (a t : Nat) (ord : BitVec 2) (scope : Nat) (f : Thread → Thread) : State :=
  (s.updThread a t fun th => (f th).next).ordAfter a ord scope

/-- As `finish`, once the operation has been performed at its home. -/
def State.finishAt (s : State) (a t : Nat) (ord : BitVec 2) (scope tick : Nat) (f : Thread → Thread) : State :=
  let now := s.dtime
  (s.updThread a t fun th => ((f th).next).after tick now).ordAfter a ord scope

/-- The dirty bytes of a core's lines go home, each line's as one write (R126), and the update-only copies of the lines; the latest
WCT. -/
def State.performed (s : State) (core : Nat) (ls : List Nat) : State × Nat :=
  ls.foldl (fun (r : State × Nat) l =>
    let q := ((r.1.writeBack core l fun _ => true).recall l).1
    (q, max r.2 (q.lastWct l))) (s, 0)

/-- A store or RED of a thread with acquire order is performed before the thread's later accesses (R122): the dirty bytes and the
partials of the lines go home, and the word is over at the latest WCT. What a revocable task buffers is performed at its
commit alone. -/
def State.finishStore (s : State) (a t : Nat) (ord : BitVec 2) (scope : Nat) (ks : List Nat) : State :=
  match s.task? a with
  | none => s
  | some tk =>
    if !ordAcq ord || tk.buffers then s.finish a t ord scope id
    else
      let r := s.performed (tk.coreOf t) ((ks.map lineOf).eraseDups)
      r.1.finishAt a t ord scope r.2 id

/-- The first `n` bytes of response words. -/
def bytesOfWords (n : Nat) (ws : List Word) : List Byte := (ws.flatMap fun w => leBytes 4 w.toNat).take n
/-- Response words of bytes. -/
def wordsOfBytes (bs : List Byte) : List Word :=
  (List.range ((bs.length + 3) / 4)).map fun i => word (leNat ((bs.drop (4 * i)).take 4))

/-! ## Loads and stores (R146) -/

/-- What the six words share: which spaces, data register, offset register, slot, order, .U, policy field. -/
structure MemWord where
  spaces : List Nat
  d : Nat
  off : Nat
  k : Nat
  ord : BitVec 2
  u : Bool
  p : Nat
  deriving DecidableEq, Repr

/-- Bytes of an access (R140). -/
def MemWord.bytes (m : MemWord) (r : Rec) : Nat := if m.u then 4 else fmtBytes r.fmt
/-- The 8-byte formats, which use a register pair (R140). -/
def MemWord.pair (m : MemWord) (r : Rec) : Bool := fmtPair r.fmt && !m.u
/-- The address of an access (R140): rounded down to a multiple of 4 under .U. -/
def MemWord.addr (m : MemWord) (r : Rec) (o : Nat) : Nat :=
  if m.u then r.address o - r.address o % 4 else r.address o
/-- The policy in force (R102, R141): the override, or the record's; a private access takes near-copy as normal. -/
def MemWord.pol (m : MemWord) (r : Rec) : Nat :=
  let p := if m.p = 0 then r.pol else m.p
  if r.space = 2 ∧ p = 2 then 0 else p
/-- The value a load writes. -/
def MemWord.value (m : MemWord) (r : Rec) (o : Nat) (bs : List Byte) : List Word :=
  if m.u then [word (leNat bs)] else fmtLoad r.fmt (r.subBit o) bs
/-- The offset that is accessed, after BMODE. -/
def Rec.used (r : Rec) (o : Nat) : Nat :=
  match r.bounded o with
  | .at o => o
  | _ => o
/-- How many registers a load writes. -/
def MemWord.width (m : MemWord) (r : Rec) : Nat := if m.pair r then 2 else 1

/-- Step 2 of R144 for a load: space, X against space, register pairing (R139 to R141). -/
def MemWord.loadForm (m : MemWord) (r : Rec) : Bool :=
  m.spaces.contains r.space && (r.space ≠ 3 || m.p = 0 || m.p = 2) && (!m.pair r || m.d % 2 == 0)
/-- Step 2 of R144 for a store. -/
def MemWord.storeForm (m : MemWord) (r : Rec) : Bool :=
  m.spaces.contains r.space && (r.space ≠ 3 || m.p ≤ 1) && (!m.pair r || m.d % 2 == 0) && (m.u || !fmtPacked r.fmt)

/-- A load in one lane, its place known. -/
def MemWord.loadFrom (m : MemWord) (r : Rec) (s : State) (a t : Nat) (tk : Task) (th : Thread) (p : Place) : State :=
  let o := r.used (th.reg m.off).toNat
  let put (bs : List Byte) (th : Thread) : Thread := th.setRegs m.d (m.value r o bs)
  match p with
  | .dropped => s.finish a t m.ord r.orderScope fun th => th.setRegs m.d (List.replicate (m.width r) 0)
  | .spad offs =>
    if s.boardStalls tk true offs then s.interlock a t
    else s.finish a t m.ord r.orderScope (put (offs.map tk.spadByte))
  | .priv offs => (s.loadKeys a t tk (tk.coreOf t) (m.pol r) (tk.privKeys offs)).done fun s bs => s.finish a t m.ord r.orderScope (put bs)
  | .glob _ ks xs =>
    let s := s.rememberAll tk.ctx xs
    if ks.any isReg then s.finish a t m.ord r.orderScope (put (s.regLoad ks))
    else (s.loadKeys a t tk (tk.coreOf t) (m.pol r) ks).done fun s bs => s.finish a t m.ord r.orderScope (put bs)
  | .remote va peer exp off _ =>
    if m.p = 2 then
      if 63 ≤ th.counter 3 || s.trails a t peer exp off (m.bytes r) then s.interlock a t
      else
        let s1 := (s.enlist a t ⟨va, peer, exp, off⟩ (m.bytes r) (.load (m.bytes r)) false false
          (some (m.d, m.width r, if m.u then 16 + fmtN32 else r.fmt + 32 * r.subBit o)) none).acquiring s m.ord
        s1.finish a t 0 r.orderScope fun th => th.count 3
    else s.remoteAsk a t ⟨va, peer, exp, off⟩ (m.bytes r) (.load (m.bytes r))

/-- The second data register of an 8-byte format, where record and form are valid (R140): its chunk must be held (R23), and a
response still to come that writes it is waited for (R49, R149). -/
def MemWord.second (m : MemWord) (s : State) (a t : Nat) (tk : Task) (r : Rec) (form : Bool) (act : State) : State :=
  if r.ok && form && m.pair r then
    if !tk.holdsReg (m.d + 1) then s.raise a t causeIllegalOperand 0 0
    else if s.awaits a t (m.d + 1) then s.interlock a t
    else act
  else act

/-- A load in one lane (R146); the response of a remote one completes it (R148). -/
def MemWord.load (m : MemWord) (s : State) (t : Nat) (tk : Task) (th : Thread) : State :=
  let a := s.issue.accn
  let r := tk.record m.k
  let o := r.used (th.reg m.off).toNat
  match th.answer with
  | some res =>
    s.takeAnswer a t (m.addr r o) res fun s ws =>
      s.finish a t m.ord r.orderScope fun th => th.setRegs m.d (m.value r o (bytesOfWords (m.bytes r) ws))
  | none =>
  m.second s a t tk r (m.loadForm r)
    (match s.place tk t m.k r (m.loadForm r) (th.reg m.off).toNat (m.addr r) ⟨m.bytes r, false, ⟨true, false, false⟩⟩ with
    | .error f => s.raiseAcc a t f
    | .ok p =>
      match s.ordBefore a t m.ord r.orderScope with
      | .go s => m.loadFrom r s a t tk th p
      | .wait s => s)

/-- The bytes a store writes. -/
def MemWord.data (m : MemWord) (r : Rec) (th : Thread) : List Byte :=
  if m.u then leBytes 4 (th.reg m.d).toNat else fmtStore r.fmt (th.reg m.d) (th.reg (m.d + 1))

/-- Store bytes to device registers (R366): 4-byte stores, low word first; a narrower store is dropped. -/
def State.regStoreBytes (s : State) (ks : List Nat) (bs : List Byte) : State :=
  match ks with
  | k :: _ =>
    let ws := wordsOfBytes bs
    if k % 4 ≠ 0 ∨ bs.length % 4 ≠ 0 then s
    else ws.zipIdx.foldl (fun s p => s.regStore (k + 4 * p.2) p.1) s
  | [] => s

/-- A store in one lane, its place known. The acquire part of a global store comes once for all lanes of the issue (`acquireStores`). -/
def MemWord.storeTo (m : MemWord) (r : Rec) (s : State) (a t : Nat) (tk : Task) (th : Thread) (p : Place) : State :=
  let bs := m.data r th
  let done (s : State) : State := s.finish a t m.ord r.orderScope id
  match p with
  | .dropped => done s
  | .spad offs =>
    if s.boardStalls tk false offs then s.interlock a t
    else done (s.updTask a fun tk => tk.spadWrite (offs.zip bs))
  | .priv offs => done (s.dirtyKeys a t (tk.coreOf t) (s.genOf tk) ((tk.privKeys offs).zip bs))
  | .glob va ks xs =>
    let s := s.rememberAll tk.ctx xs
    if ks.any isReg then done (s.regStoreBytes ks bs)
    else
      let s := ((ks.map lineOf).eraseDups).foldl (fun s l =>
        if (s.core (tk.coreOf t)).parts.any fun q => lineOf q.key = l then (s.recall l).1 else s) s
      match s.storeKeys a t (tk.coreOf t) va (ks.zip bs) with
      | .go s => s.finish a t 0 r.orderScope id
      | .wait s => s
  | .remote va peer exp off _ =>
    match s.post a t ⟨va, peer, exp, off⟩ bs.length (.store bs) (m.p == 1) m.ord with
    | .go s => done s
    | .wait s => s

/-- A remote store enters the irrevocable state (R147). -/
def MemWord.entry (m : MemWord) (s : State) (t : Nat) (tk : Task) (_th : Thread) : Ready :=
  if (tk.record m.k).space = 3 ∧ m.spaces.contains 3 then s.enter s.issue.accn t else .go s

/-- A store in one lane (R146). -/
def MemWord.store (m : MemWord) (s : State) (t : Nat) (tk : Task) (th : Thread) : State :=
  let a := s.issue.accn
  let r := tk.record m.k
  m.second s a t tk r (m.storeForm r)
    (match s.place tk t m.k r (m.storeForm r) (th.reg m.off).toNat (m.addr r) ⟨m.bytes r, false, ⟨false, true, false⟩⟩ with
    | .error f => s.raiseAcc a t f
    | .ok p =>
      match s.ordBefore a t m.ord r.orderScope with
      | .go s => m.storeTo r s a t tk th p
      | .wait s => s)

/-- The shared fields of LD, ST, LDP and STP. -/
def MemP.word (o : MemP) (spaces : List Nat) : MemWord :=
  ⟨spaces, o.d.toNat, o.off.toNat, o.k.toNat, o.ord, o.u, o.p.toNat⟩
/-- The shared fields of LDS and STS. -/
def MemU.word (o : MemU) : MemWord := ⟨[1], o.d.toNat, o.off.toNat, o.k.toNat, o.ord, o.u, 0⟩

/-- A thread has completed the word at which it stood in a state before. -/
def State.completed (s s0 : State) (t : Nat) : Bool :=
  match s0.thread? s.issue.accn t, s.thread? s.issue.accn t with
  | some x, some y => x.next.pc == y.pc && x.next.rep == y.rep && x.h == y.h && y.kept.isNone
  | _, _ => false

/-- The word is a global store under stream or no-allocate in a thread that stands at it with its guard true (R102). -/
def MemWord.streams (m : MemWord) (g : Nat) (s : State) (tk : Task) (t : Nat) : Bool :=
  match KMap.get? t tk.threads with
  | none => false
  | some th =>
    let r := (tk.seen th).record m.k
    s.issue.carries th && th.pred g && r.space == 0 && (m.pol r == 1 || m.pol r == 3)

/-- A core's lines on which one of some threads has written a byte since it was clean. -/
def State.linesOfThreads (s : State) (core a : Nat) (ts : List Nat) : List Nat :=
  (KMap.keys (s.core core).l1).filter fun l => (KMap.vals (s.l1 core l).dirty).any fun d => ts.any (d.ofThread a)

/-- Stores under stream and no-allocate do not stay in L1 (R102): the lines on which the threads that have made one, the state before
the issue being `s0`, have dirty bytes go home, each with all its dirty bytes as one write, so that a line stored by 32 threads is not parted
(R126). -/
def MemWord.pass (m : MemWord) (g : Nat) (s0 s : State) : State :=
  let a := s0.issue.accn
  match s0.task? a with
  | none => s
  | some tk =>
    match s0.issue.lanes.filter fun t => m.streams g s0 tk t && s.completed s0 t with
    | [] => s
    | ts =>
      tk.cores.foldl (fun s c => (s.linesOfThreads c a ts).foldl (fun s l => s.writeBack c l fun _ => true) s) s

/-! ### One issue of threads 32k to 32k + 31 (R126) -/

/-- The threads 32k to 32k + 31. -/
def fullGroup (ts : List Nat) : Bool := ts.headD 0 % 32 == 0 && ts == (List.range 32).map (ts.headD 0 + ·)

/-- The thread stands at its word still: it waits there. -/
def State.waitsAt (s s0 : State) (t : Nat) : Bool :=
  match s0.thread? s.issue.accn t, s.thread? s.issue.accn t with
  | some x, some y => y.kept.isSome && x.pc == y.pc && x.rep == y.rep
  | _, _ => false

/-- LD or ST of an issue (`act`). Where threads 32k to 32k + 31 issue together, their accesses are one event: as long as some of them
have to wait, those wait and the others stay at the word with them. -/
def State.asOne (s : State) (act : State → State) : State :=
  let r := act s
  let late := s.issue.lanes.filter (r.waitsAt s)
  if fullGroup s.issue.lanes && !late.isEmpty && late.length < 32 then
    let q := act { s with issue := { s.issue with lanes := late } }
    let q := s.issue.lanes.foldl (fun q t => if late.contains t then q else q.stall s.issue.accn t s.dtime) q
    { q with issue := s.issue }
  else r

/-- The word with its release part done. -/
def MemWord.released (m : MemWord) : MemWord := { m with ord := if ordAcq m.ord then 1 else 0 }

/-- A lane of LD or ST (`wr`) that is about to make an access: it stands at the word, its guard holds, no response to come holds it up,
and its access passes the checks of R144. -/
def MemWord.ready (m : MemWord) (s : State) (g : Nat) (wr : Bool) (t : Nat) : Bool :=
  match s.task? s.issue.accn, s.thread? s.issue.accn t with
  | some tk, some th =>
    let tk := tk.seen th
    let r := tk.record m.k
    let form := if wr then m.storeForm r else m.loadForm r
    s.issue.carries th && th.pred g && th.answer.isNone && [m.d, m.off].all tk.holdsReg &&
      !([m.d, m.off].any (s.awaits s.issue.accn t)) && !(form && m.pair r && (!tk.holdsReg (m.d + 1) || s.awaits s.issue.accn t (m.d + 1))) &&
      (s.place tk t m.k r form (th.reg m.off).toNat (m.addr r) ⟨m.bytes r, false, ⟨!wr, wr, false⟩⟩).isOk
  | _, _ => false

/-- The release part of one lane, after the irrevocable entry of a remote store (R121, R147). -/
def MemWord.release (m : MemWord) (wr : Bool) (s : State) (t : Nat) : Ready :=
  match s.task? s.issue.accn, s.thread? s.issue.accn t with
  | some tk, some th =>
    let r := (tk.seen th).record m.k
    (if wr then m.entry s t (tk.seen th) th else .go s).bind fun s => s.ordBefore s.issue.accn t m.ord r.orderScope
  | _, _ => .go s

/-- A thread of the issue stands at the word still, and has taken no fault there. -/
def State.goesOn (s : State) (t : Nat) : Bool :=
  match s.task? s.issue.accn, s.thread? s.issue.accn t with
  | some tk, some th => s.issue.carries th && (tk.stop.bind Stop.tid) ≠ some t
  | _, _ => false

/-- LD or ST with release order in an issue: the release work of all its lanes is done before the first of them makes its access, so
that the accesses of one issue are not parted (R121, R126). While a lane has to wait for it, those that make no access go on. -/
def MemWord.afterReleases (m : MemWord) (g : Nat) (wr : Bool) (act : MemWord → State → State) (s : State) : State :=
  if !ordRel m.ord then act m s
  else
    let ts := s.issue.lanes.filter (m.ready s g wr)
    let r := ts.foldl (fun (r : State × Bool) t =>
      match m.release wr r.1 t with
      | .go s => (s, r.2)
      | .wait s => (s, true)) (s, false)
    if !r.2 then act m.released r.1
    else
      let q := ts.foldl (fun q t => if q.waitsAt s t || !q.goesOn t then q else q.interlock s.issue.accn t) r.1
      { act m { q with issue := { q.issue with lanes := q.issue.lanes.filter fun t => !ts.contains t } } with issue := q.issue }

/-- The acquire part of the global stores of an issue, once for all its lanes (R122, R126): the lines on which its threads have dirty
bytes go home, each as one write, and the threads go on once they are performed. What a revocable task buffers is performed at
its commit alone. -/
def MemWord.acquireStores (m : MemWord) (g : Nat) (s0 s : State) : State :=
  let a := s.issue.accn
  match s0.task? a, s.task? a with
  | some tk, some now =>
    let ts := s0.issue.lanes.filter fun t =>
      match KMap.get? t tk.threads with
      | some th => s0.issue.carries th && th.pred g && ((tk.seen th).record m.k).space == 0 && s.completed s0 t
      | none => false
    if !ordAcq m.ord || ts.isEmpty then s
    else
      let scope (t : Nat) : Nat := ((KMap.get? t tk.threads).map fun th => ((tk.seen th).record m.k).orderScope).getD 0
      let r := if now.buffers then (s, 0)
        else tk.cores.foldl (fun (r : State × Nat) c =>
          let q := r.1.performed c (r.1.linesOfThreads c a ts)
          (q.1, max r.2 q.2)) (s, 0)
      let now' := s.dtime
      ts.foldl (fun s t => (s.updThread a t fun th => th.after r.2 now').acquire a (scope t)) r.1
  | _, _ => s

/-- LD (R146). -/
def execLd (o : MemP) (s : State) : Out :=
  .next (s.asOne ((MemP.word o [0, 3]).afterReleases o.g.toNat false fun m s =>
    (s.perLane o.g.toNat [o.d.toNat, o.off.toNat] m.load).sendNew s))
/-- ST (R146). -/
def execSt (o : MemP) (s : State) : Out :=
  .next ((MemP.word o [0, 3]).pass o.g.toNat s ((MemP.word o [0, 3]).acquireStores o.g.toNat s
    (s.asOne ((MemP.word o [0, 3]).afterReleases o.g.toNat true fun m s =>
      (s.perLaneIn o.g.toNat [o.d.toNat, o.off.toNat] m.entry m.store).sendNew s))))
/-- LDS (R146). -/
def execLds (o : MemU) (s : State) : Out :=
  .next (s.perLane o.g.toNat [o.d.toNat, o.off.toNat] (MemU.word o).load)
/-- STS (R146). -/
def execSts (o : MemU) (s : State) : Out :=
  .next (s.perLaneIn o.g.toNat [o.d.toNat, o.off.toNat] (MemU.word o).entry (MemU.word o).store)
/-- LDP (R146). -/
def execLdp (o : MemP) (s : State) : Out :=
  .next (s.perLane o.g.toNat [o.d.toNat, o.off.toNat] (MemP.word o [2]).load)
/-- STP (R146). -/
def execStp (o : MemP) (s : State) : Out :=
  .next (s.perLaneIn o.g.toNat [o.d.toNat, o.off.toNat] (MemP.word o [2]).entry (MemP.word o [2]).store)

end Sys2Proof.Machine
end

