-- ==== Sys2Proof/Machine/Atomic.lean ====
section
/-!
DEFINITION. Atomics, compare-and-swap, reductions and lists: ATOM, CAS, CAS2, MCAS, RED, LDSUM, ENQ, CHASE (R147, R152
to R159, R269).
-/

namespace Sys2Proof.Machine

/-- The rights of an atomic: W covers writes and atomics of a local page (R368); a remote window needs both (R373). -/
def atomRights (r : Rec) : Rights := ⟨r.space = 3, true, false⟩
/-- S32, N32 or F32 (R152). -/
def atomFmt (f : Nat) : Bool := f == fmtF32 || f == fmtS32 || f == fmtN32

/-- The start of an atomic in one lane (R147, R269): in a deterministic launch a permission fault on a global or remote
record that is valid, before the entry and before any access; otherwise the irrevocable entry. -/
def State.atomStart (s : State) (a t : Nat) (tk : Task) (r : Rec) (form : Bool) (o : Nat) : Ready :=
  if r.space ≠ 0 ∧ r.space ≠ 3 then .go s
  else if s.isDet tk && r.ok && form then .wait (s.raise a t causePermission (r.address (r.used o)) 0x10)
  else s.enter a t

/-- Step 2 of R144 for an atomic: a space that is not private, and an allowed format. -/
def Rec.atomForm (r : Rec) (fmt : Bool) : Bool := (r.space = 0 || r.space = 1 || r.space = 3) && fmt

/-- The entry of an atomic whose record lies in slot `k` and whose offset is V(off). -/
def atomEntry (k off : Nat) (form : Rec → Thread → Bool) (s : State) (t : Nat) (tk : Task) (th : Thread) : Ready :=
  s.atomStart s.issue.accn t tk (tk.record k) (form (tk.record k) th) (th.reg off).toNat

/-- An indivisible operation on words at a place: scratchpad at once, global memory at its home (R104, R152). `ks` are
the first keys or offsets of the words; `use` completes the word with the old words. -/
def State.atomSpad (s : State) (a t : Nat) (tk : Task) (os : List Nat) (f : List Word → Option (List Word))
    (use : State → List Word → State) : State :=
  if s.boardStalls tk false (os.flatMap fun o => [o, o + 1, o + 2, o + 3]) then s.interlock a t
  else
    let old := os.map fun o => word (leNat ((List.range 4).map fun i => tk.spadByte (o + i)))
    match f old with
    | none => use s old
    | some new =>
      use (s.updTask a fun tk => tk.spadWrite ((os.zip new).flatMap fun p => bytesAt p.1 (leBytes 4 p.2.toNat))) old

/-- As `atomSpad` on global memory; the thread goes on once the operation has been performed. A device register is read
and not changed (log entry 5). -/
def State.atomGlob (s : State) (a t : Nat) (tk : Task) (ks : List Nat) (f : List Word → Option (List Word))
    (use : State → Nat → List Word → State) : State :=
  if s.poisoned ks then s.haltTask a .machineCheck
  else if ks.any isReg then use s s.dtime (ks.map fun k => word (leNat (s.regLoad [k, k + 1, k + 2, k + 3])))
  else
    let r := s.atHome (tk.coreOf t) a ks f
    use (r.s.noteWct a t r.at') r.at' r.old

/-- Every fourth element: the first bytes of consecutive words. -/
def wordStarts (ks : List Nat) : List Nat := (List.range (ks.length / 4)).map fun i => ks.getD (4 * i) 0

/-- ATOM, CAS and CAS2 in one lane: `bytes` 4 or 8, `fmts` whether the format is allowed, `f` the operation on the words,
`op` the request to a peer, `put` what the old words do to the thread, `zero` what a dropped access does (R142). -/
def atomLane (k off : Nat) (ord : BitVec 2) (bytes : Nat) (fmts : Rec → Bool) (f : Rec → Thread → List Word → Option (List Word))
    (op : Rec → Thread → RemoteOp) (put : Thread → List Word → Thread) (zero : Thread → Thread)
    (s : State) (t : Nat) (tk : Task) (th : Thread) : State :=
  let a := s.issue.accn
  let r := tk.record k
  let o := (th.reg off).toNat
  match th.answer with
  | some res => s.takeAnswer a t (r.address (r.used o)) res fun s ws => s.finish a t ord r.orderScope (put · ws)
  | none =>
  match s.place tk t k r (r.atomForm (fmts r)) o r.address ⟨bytes, true, atomRights r⟩ with
  | .error e => s.raiseAcc a t e
  | .ok p =>
    match s.ordBefore a t ord r.orderScope with
    | .wait s => s
    | .go s =>
      match p with
      | .dropped => s.finish a t ord r.orderScope zero
      | .spad offs => s.atomSpad a t tk (wordStarts offs) (f r th) fun s old => s.finish a t ord r.orderScope (put · old)
      | .priv _ => s
      | .glob _ ks xs =>
        (s.rememberAll tk.ctx xs).atomGlob a t tk (wordStarts ks) (f r th) fun s w old =>
          s.finishAt a t ord r.orderScope w (put · old)
      | .remote va peer exp off _ => s.remoteCall a t ⟨va, peer, exp, off⟩ bytes (op r th)

/-- A word whose lanes are atomics (R147, R155). -/
def atomWord (g off k : Nat) (ord : BitVec 2) (regs : List Nat) (bytes : Nat) (fmts : Rec → Bool)
    (f : Rec → Thread → List Word → Option (List Word)) (op : Rec → Thread → RemoteOp) (put : Thread → List Word → Thread)
    (zero : Thread → Thread) (s : State) : Out :=
  .next (s.perLaneFreeIn g regs (atomEntry k off fun r _ => r.atomForm (fmts r))
    (atomLane k off ord bytes fmts f op put zero))

/-- ATOM (R152, R153). -/
def execAtom (o : MemX) (s : State) : Out :=
  atomWord o.g.toNat o.off.toNat o.k.toNat o.ord [o.d.toNat, o.off.toNat] 4 (fun r => atomFmt r.fmt)
    (fun r th old => some (old.map fun x => atomOp o.x.toNat r.fmt x (th.reg o.d.toNat)))
    (fun r th => .atom o.x.toNat r.fmt (th.reg o.d.toNat))
    (fun th old => th.setReg o.d.toNat (old.headD 0))
    (fun th => th.setReg o.d.toNat 0) s

/-- A compare-and-swap on words (R154): what to write. -/
def casWrite (cmp new old : List Word) : Option (List Word) := if old = cmp then some new else none

/-- CAS (R154): old value to V(D), success to P(X). -/
def execCas (o : MemX) (s : State) : Out :=
  let d := o.d.toNat
  atomWord o.g.toNat o.off.toNat o.k.toNat o.ord [d, d + 1, o.off.toNat] 4 (fun r => fmtBits r.fmt == 32)
    (fun _ th old => casWrite [th.reg d] [th.reg (d + 1)] old)
    (fun _ th => .cas (th.reg d) (th.reg (d + 1)))
    (fun th old => (th.setReg d (old.headD 0)).setPred o.x.toNat (old.headD 0 == th.reg d))
    (fun th => (th.setReg d 0).setPred o.x.toNat false) s

/-- CAS2 (R154): both words match, or nothing is written. -/
def execCas2 (o : Mem0) (s : State) : Out :=
  let d := o.d.toNat
  atomWord o.g.toNat o.off.toNat o.k.toNat o.ord [d, d + 1, d + 2, d + 3, o.off.toNat] 8 (fun r => fmtBits r.fmt == 32)
    (fun _ th old => casWrite [th.reg d, th.reg (d + 1)] [th.reg (d + 2), th.reg (d + 3)] old)
    (fun _ th => .cas2 (th.reg d) (th.reg (d + 1)) (th.reg (d + 2)) (th.reg (d + 3)))
    (fun th old => (th.setReg d (old.headD 0)).setReg (d + 1) (old.getD 1 0))
    (fun th => (th.setReg d 0).setReg (d + 1) 0) s

/-! ## MCAS (R154) -/

/-- The used words of an MCAS: position, offset. -/
def mcasUsed (th : Thread) (off : Nat) : List (Nat × Nat) :=
  ((List.range 4).map fun i => (i, (th.reg (off + i)).toNat)).filter fun p => p.2 ≠ 0xFFFFFFFF

/-- The offset of the first used word of an MCAS. -/
def mcasFirst (th : Thread) (off : Nat) : Nat := ((mcasUsed th off).headD (0, 0)).2

/-- The places of the used words, all in bounds, or the first fault. -/
def State.mcasPlaces (s : State) (tk : Task) (t : Nat) (r : Rec) : List Nat → Except AccFault (List Place)
  | [] => .ok []
  | o :: rest =>
    match s.placeAt tk t r (r.address o) ⟨4, true, atomRights r⟩, s.mcasPlaces tk t r rest with
    | .error e, _ => .error e
    | _, .error e => .error e
    | .ok p, .ok ps => .ok (p :: ps)

/-- The misaligned fault of an MCAS whose used words have these addresses: a word that is not aligned; words that are not distinct or
not in one line, with the address of the first. -/
def mcasMisaligned (xs : List Nat) : Option Nat :=
  match xs.find? fun x => x % 4 ≠ 0 with
  | some x => some x
  | none =>
    if (xs.any fun x => x / 128 ≠ xs.headD 0 / 128) || xs.eraseDups.length ≠ xs.length then some (xs.headD 0) else none

/-- Step 2 of R144 for MCAS: a 4-byte format (log entry 79), and at least one used word (R154). -/
def mcasForm (off : Nat) (r : Rec) (th : Thread) : Bool := r.atomForm (fmtBits r.fmt == 32) && !(mcasUsed th off).isEmpty

/-- Old words by position, 0 where unused. -/
def mcasOld (us : List (Nat × Nat)) (old : List Word) : List Word :=
  (List.range 4).map fun i => (((us.zip old).find? fun p => p.1.1 = i).map Prod.snd).getD 0

/-- MCAS in one lane (R154). TADDR of a poisoned or unknown response is the address of the line (DESIGN CHOICE, log entry 97: R148 says
only that it holds the remote virtual address). -/
def mcasLane (k off d : Nat) (ord : BitVec 2) (s : State) (t : Nat) (tk : Task) (th : Thread) : State :=
  let a := s.issue.accn
  let r := tk.record k
  let us := mcasUsed th off
  let zero (s : State) : State :=
    match s.ordBefore a t ord r.orderScope with
    | .wait s => s
    | .go s => s.finish a t ord r.orderScope fun th => th.setRegs d [0, 0, 0, 0]
  let put (old : List Word) (th : Thread) : Thread := th.setRegs d (mcasOld us old)
  match th.answer with
  | some res =>
    s.takeAnswer a t (r.address (r.used (mcasFirst th off)) / 128 * 128) res fun s ws => s.finish a t ord r.orderScope (put ws)
  | none =>
  if !r.ok || !mcasForm off r th then s.raise a t causeIllegalOperand 0 (word k)
  else
    match us.find? fun u => r.bounded u.2 = .fault with
    | some u => s.raise a t causeBounds u.2 0
    | none =>
      if us.any fun u => r.bounded u.2 = .dropped then zero s
      else
        let os := us.map fun u => r.used u.2
        match mcasMisaligned (os.map r.address) with
        | some x => s.raise a t causeMisaligned x 0
        | none =>
          match s.mcasPlaces tk t r os with
          | .error e => s.raiseAcc a t e
          | .ok ps =>
            match s.ordBefore a t ord r.orderScope with
            | .wait s => s
            | .go s =>
              let cmp := us.map fun u => th.reg (d + u.1)
              let new := us.map fun u => th.reg (d + 4 + u.1)
              let firsts := ps.map Place.first
              match ps.head? with
              | some (.spad _) =>
                s.atomSpad a t tk firsts (casWrite cmp new) fun s old => s.finish a t ord r.orderScope (put old)
              | some (.glob ..) =>
                (s.rememberAll tk.ctx (ps.flatMap Place.xlates)).atomGlob a t tk firsts (casWrite cmp new)
                  fun s w old => s.finishAt a t ord r.orderScope w (put old)
              | some (.remote va peer exp off _) =>
                s.remoteCall a t ⟨va / 128 * 128, peer, exp, off⟩ 128 (.mcas firsts cmp new) (off - va % 128, 128)
              | _ => s

/-- MCAS (R154). -/
def execMcas (o : Mem0) (s : State) : Out :=
  let d := o.d.toNat
  let f := o.off.toNat
  .next (s.perLaneFreeIn o.g.toNat ((List.range 8).map (d + ·) ++ (List.range 4).map (f + ·))
    (fun s t tk th => s.atomStart s.issue.accn t tk (tk.record o.k.toNat) (mcasForm f (tk.record o.k.toNat) th) (mcasFirst th f))
    (mcasLane o.k.toNat f d o.ord))

/-! ## RED (R105 to R107, R156) -/

/-- Fold a value into a list of partials (R105): the partial of the element starts at the identity. Each thread has a partial of its
own for an element; R106 leaves the grouping of F32 partials open outside deterministic mode (DESIGN CHOICE, log entry 80). -/
def foldInto (ps : List Partial) (p : Partial) : List Partial :=
  if ps.any fun q => q.key = p.key ∧ q.op = p.op ∧ q.fmt = p.fmt ∧ q.accn = p.accn ∧ q.tid = p.tid then
    ps.map fun q =>
      if q.key = p.key ∧ q.op = p.op ∧ q.fmt = p.fmt ∧ q.accn = p.accn ∧ q.tid = p.tid then
        { q with value := atomOp p.op p.fmt q.value p.value }
      else q
  else ps ++ [{ p with value := atomOp p.op p.fmt (atomIdentity p.op p.fmt) p.value }]

/-- An ordinary RED (R105, R107): a partial of another operation or format in the same L1, and the core's own dirty
bytes, go home first. -/
def State.redLine (s : State) (core : Nat) (p : Partial) : State :=
  let l := lineOf p.key
  let clash := (s.core core).parts.any fun q => lineOf q.key = l ∧ ¬ (q.op = p.op ∧ q.fmt = p.fmt)
  let s := if clash then (s.recall l).1 else s
  let s := s.writeBack core l fun _ => true
  s.updCore core fun c => { c with parts := foldInto c.parts p }

/-- A partial that its task holds itself (R105, R273). -/
def State.holdPartial (s : State) (p : Partial) : State :=
  s.updTask p.accn fun tk => { tk with parts := foldInto tk.parts p }

/-- A RED that is not held to a commit: ordinary (R105); but F32 partials of a deterministic launch stay with their task, one for
each thread and element, until it ends (R273, log entry 64). -/
def State.redOpen (s : State) (tk : Task) (p : Partial) : State :=
  if s.isDet tk && p.fmt == fmtF32 then s.holdPartial p else s.redLine (tk.coreOf p.tid) p

/-- RED to global memory (R147, R156): held to the commit in a BUF task that is revocable, ordinary otherwise. -/
def State.redGlob (s : State) (a t : Nat) (p : Partial) : Ready :=
  match s.task? a with
  | none => .go s
  | some tk =>
    if tk.buffers && ebufLines tk.ebuf (foldInto tk.parts p) ≤ 32 * tk.ebPages then .go (s.holdPartial p)
    else (s.enter a t).bind fun s => .go (s.redOpen tk p)

/-- RED enters the irrevocable state on a remote record, and in an IDEM task on a global one (R147). -/
def redEntry (k : Nat) (s : State) (t : Nat) (tk : Task) (_th : Thread) : Ready :=
  let sp := (tk.record k).space
  if sp = 3 ∨ (sp = 0 ∧ ¬ tk.isBuf) then s.enter s.issue.accn t else .go s

/-- RED in one lane (R156). -/
def redLane (k off d op : Nat) (ord : BitVec 2) (s : State) (t : Nat) (tk : Task) (th : Thread) : State :=
  let a := s.issue.accn
  let r := tk.record k
  let v := th.reg d
  match s.place tk t k r (r.atomForm (atomFmt r.fmt)) (th.reg off).toNat r.address ⟨4, true, ⟨false, true, false⟩⟩ with
  | .error e => s.raiseAcc a t e
  | .ok p =>
    match s.ordBefore a t ord r.orderScope with
    | .wait s => s
    | .go s =>
      let done (s : State) : State := s.finish a t ord r.orderScope id
      match p with
      | .dropped => done s
      | .spad offs => s.atomSpad a t tk (wordStarts offs) (fun old => some (old.map fun x => atomOp op r.fmt x v))
          fun s _ => done s
      | .priv _ => s
      | .glob va ks xs =>
        let s := s.rememberAll tk.ctx xs
        if ks.any isReg then done s
        else
          match s.redGlob a t ⟨ks.headD 0, op, r.fmt, v, a, t, s.genOf tk, va / 2 ^ 16⟩ with
          | .go s => (s.touchAll ks).finishStore a t ord r.orderScope ks
          | .wait s => s
      | .remote va peer exp off _ =>
        match s.post a t ⟨va, peer, exp, off⟩ 4 (.red op r.fmt v) false ord with
        | .go s => done s
        | .wait s => s

/-- RED (R156). -/
def execRed (o : MemX) (s : State) : Out :=
  .next ((s.perLaneFreeIn o.g.toNat [o.d.toNat, o.off.toNat] (redEntry o.k.toNat) (redLane o.k.toNat o.off.toNat o.d.toNat o.x.toNat o.ord)).sendNew s)

/-! ## LDSUM (R157) -/

/-- LDSUM in one lane: the sum over the replicas of a replicated window, otherwise the single value. -/
def ldsumLane (k off d : Nat) (ord : BitVec 2) (y : Bool) (s : State) (t : Nat) (tk : Task) (th : Thread) : State :=
  let a := s.issue.accn
  let r := tk.record k
  let o := r.used (th.reg off).toNat
  match th.answer with
  | some res => s.takeAnswer a t (r.address o) res fun s ws => s.finish a t ord r.orderScope fun th => th.setReg d (ws.headD 0)
  | none =>
  match s.place tk t k r (r.space = 3 && atomFmt r.fmt) (th.reg off).toNat r.address ⟨4, true, ⟨true, false, false⟩⟩ with
  | .error e => s.raiseAcc a t e
  | .ok p =>
    match s.ordBefore a t ord r.orderScope with
    | .wait s => s
    | .go s =>
      match p with
      | .remote va peer exp off repl =>
        let op : RemoteOp := if repl then .ldsum r.fmt else .load 4
        if y then
          if 63 ≤ th.counter 3 || s.trails a t peer exp off 4 then s.interlock a t
          else
            ((s.sendRemote a t ⟨va, peer, exp, off⟩ 4 op false false (some (d, 1, fmtN32))).acquiring s ord).finish a t 0 r.orderScope
              fun th => th.count 3
        else s.remoteCall a t ⟨va, peer, exp, off⟩ 4 op
      | .dropped => s.finish a t ord r.orderScope fun th => th.setReg d 0
      | _ => s

/-- LDSUM (R157). -/
def execLdsum (o : MemY) (s : State) : Out :=
  .next (s.perLane o.g.toNat [o.d.toNat, o.off.toNat] (ldsumLane o.k.toNat o.off.toNat o.d.toNat o.ord o.y))

/-! ## Lists (R158, R159) -/

/-- The layout of a remote record, and the window in which one of its elements lies, with the window's ends in the target's export. -/
def State.shape (s : State) (ctx : Nat) (r : Rec) (va off : Nat) : Shape :=
  let size := ((s.ctx? ctx).map fun c => (s.windowOf c va).2 / 2 ^ 64 % 2 ^ 40).getD 0
  let lo := off - va % 2 ^ 40
  ⟨r.base, va / 2 ^ 40 * 2 ^ 40, lo, lo + size, r.str0, r.str1, r.rowlen, r.extent⟩

/-- The bytes of the export that a list operation on a remote record may reach: its window (R117, log entry 98). -/
def windowReach (va off : Nat) : Nat × Nat := (off - va % 2 ^ 40, 2 ^ 40)

/-- The fault of a list operation that its target reports (R148, R158, R373): an index out of bounds, or the address of an element
that is not aligned or that lies outside the window. -/
def State.listFault (s : State) (a t : Nat) (r : Rec) (e : RemoteRes) : State :=
  match e with
  | .bounds i => s.raise a t causeBounds i 0
  | .misaligned i => s.raise a t causeMisaligned (r.address i) 0
  | .outside i => s.raise a t causeTranslation (r.address i) 0
  | _ => s

/-- The place of the first of several elements of a remote record, or the first fault of one (R373). -/
def State.farPlaces (s : State) (tk : Task) (t : Nat) (r : Rec) (rt : Rights) : List Nat → Except AccFault Place
  | [] => .ok .dropped
  | i :: is =>
    match s.placeAt tk t r (r.address i) ⟨4, true, rt⟩, s.farPlaces tk t r rt is with
    | .error e, _ => .error e
    | _, .error e => .error e
    | .ok p, .ok _ => .ok p

/-- The first key of element `i` of a global record with its translation, or the fault. -/
def State.elemKey (s : State) (tk : Task) (r : Rec) (rt : Rights) (i : Nat) : Except AccFault (Nat × List (Nat × Xlate)) :=
  let va := r.address i
  if va % 4 ≠ 0 then .error ⟨causeMisaligned, va, 0⟩
  else if va / 2 ^ 56 % 2 = 1 then .error ⟨causePermission, va, 0⟩
  else
    match s.keysOf tk.ctx rt va 4 with
    | .error e => .error ⟨e.1, e.2, 0⟩
    | .ok (k :: _, xs) => .ok (k, xs)
    | .ok ([], xs) => .ok (0, xs)

/-- The words that an ENQ writes, by key (R158): the node's link, the link or head that leads to it, and the tail; of two on one
word the later stands. -/
def enqWords (kn kl kt n : Nat) : KMap Word := KMap.put kt (word n) (KMap.put kl (word n) (KMap.put kn 0 []))

/-- A 4-byte word as an operation at the home works on it; a device register as it reads (R366). -/
def State.wordAtHome (s : State) (k : Nat) : Word :=
  if isReg k then word (leNat (s.regLoad [k, k + 1, k + 2, k + 3])) else s.lastWord k

/-- Words written as one at their homes; a device register is not changed (log entry 5). -/
def State.writeHome (s : State) (core a : Nat) (w : KMap Word) : HomeRes :=
  let w := w.filter fun p => !isReg p.1
  s.atHome core a (KMap.keys w) fun _ => some (KMap.vals w)

/-- ENQ on a global record, all checks on `h` and `n` made (R158). -/
def State.enqGlob (s : State) (a t : Nat) (tk : Task) (r : Rec) (h n : Nat) (use : State → Nat → Word → State) : State :=
  let rt : Rights := ⟨false, true, false⟩
  match s.elemKey tk r rt h, s.elemKey tk r rt (h + 1), s.elemKey tk r rt n with
  | .error e, _, _ => s.raiseAcc a t e
  | _, .error e, _ => s.raiseAcc a t e
  | _, _, .error e => s.raiseAcc a t e
  | .ok kh, .ok kt, .ok kn =>
    let s := s.rememberAll tk.ctx (kh.2 ++ kt.2 ++ kn.2)
    let core := tk.coreOf t
    let ls := ([kh.1, kt.1, kn.1].map lineOf).eraseDups
    let s := ls.foldl (fun s l => s.writeBack core l fun _ => true) s
    let s := (s.recallLines ls).1
    let tail := (s.wordAtHome kt.1).toNat
    if s.poisoned [kh.1, kt.1, kn.1] then s.haltTask a .machineCheck
    else if r.extent ≤ tail then s.raise a t causeBounds tail 0
    else if tail = 0 then
      let q := s.writeHome core a (enqWords kn.1 kh.1 kt.1 n)
      use (q.s.noteWct a t q.at') q.at' 0
    else
      match s.elemKey tk r rt tail with
      | .error e => s.raiseAcc a t e
      | .ok kl =>
        if s.poisoned [kl.1] then s.haltTask a .machineCheck
        else
          let q := s.writeHome core a (enqWords kn.1 kl.1 kt.1 n)
          use (q.s.noteWct a t q.at') q.at' (word tail)

/-- Step 2 of R144 for ENQ and CHASE: global or remote, of FMT N32 (R158, R159). -/
def listForm (r : Rec) : Bool := (r.space = 0 || r.space = 3) && r.fmt == fmtN32

/-- ENQ in one lane (R158). -/
def enqLane (k off d : Nat) (ord : BitVec 2) (s : State) (t : Nat) (tk : Task) (th : Thread) : State :=
  let a := s.issue.accn
  let r := tk.record k
  let o := (th.reg off).toNat
  let n := (th.reg d).toNat
  match th.answer with
  | some res =>
    s.takeAnswer a t (r.address (r.used o)) res (fun s ws => s.finish a t ord r.orderScope fun th => th.setReg d (ws.headD 0))
      (·.listFault a t r ·)
  | none =>
  if !r.ok || !listForm r then s.raise a t causeIllegalOperand 0 (word k)
  else
    match r.bounded o with
    | .fault => s.raise a t causeBounds o 0
    | .dropped =>
      (match s.ordBefore a t ord r.orderScope with
      | .wait s => s
      | .go s => s.finish a t ord r.orderScope fun th => th.setReg d 0)
    | .at h =>
      if h % 2 ≠ 0 then s.raise a t causeMisaligned (r.address h) 0
      else if r.extent ≤ h + 1 then s.raise a t causeBounds h 0
      else if n = 0 ∨ r.extent ≤ n then s.raise a t causeBounds n 0
      else
        match s.ordBefore a t ord r.orderScope with
        | .wait s => s
        | .go s =>
          if r.space = 0 then
            s.enqGlob a t tk r h n fun s w old => s.finishAt a t ord r.orderScope w fun th => th.setReg d old
          else
            match s.farPlaces tk t r ⟨true, true, false⟩ [h, h + 1, n] with
            | .ok (.remote va peer exp off _) =>
              s.remoteCall a t ⟨va, peer, exp, off⟩ 4 (.enq (s.shape tk.ctx r va off) h n) (windowReach va off)
            | .error e => s.raiseAcc a t e
            | .ok _ => s

/-- ENQ (R158). -/
def execEnq (o : Mem0) (s : State) : Out :=
  .next (s.perLaneFreeIn o.g.toNat [o.d.toNat, o.off.toNat] (atomEntry o.k.toNat o.off.toNat fun r _ => listForm r)
    (enqLane o.k.toNat o.off.toNat o.d.toNat o.ord))

/-- One look of a CHASE on a global record (R159), at node `i` after `c` links of at most `n`: it reads one link, as an ordinary load,
from the sources of R113, of which the first are the task's effect buffer and the core's dirty bytes (DEDUCED, log entry 99); the next
look comes when a tick has passed, so that the reads are not one event. `put` completes the word. -/
def State.chaseLook (s : State) (a t : Nat) (tk : Task) (r : Rec) (n i c : Nat) (put : Nat → Nat → State → State) : State :=
  let link (s : State) (bs : List Byte) : State :=
    let nx := leNat bs
    if nx = 0 then put i c s
    else if r.extent ≤ nx then s.raise a t causeBounds nx 0
    else if c + 1 = n then put nx (c + 1) s
    else (s.interlock a t).updThread a t fun th => { th with chased := some (nx, c + 1) }
  match s.elemKey tk r ⟨true, false, false⟩ i with
  | .error e => s.raiseAcc a t e
  | .ok k =>
    let s := s.rememberAll tk.ctx k.2
    let ks := [k.1, k.1 + 1, k.1 + 2, k.1 + 3]
    if ks.any isReg then link s (s.regLoad ks) else (s.loadKeys a t tk (tk.coreOf t) r.pol ks).done link

/-- CHASE in one lane (R159). A k outside 1 to 8 is an illegal operand like a wrong FMT: before the bounds of s, with the slot in
TINFO (DESIGN CHOICE, log entry 89). -/
def chaseLane (k off d : Nat) (ord : BitVec 2) (s : State) (t : Nat) (tk : Task) (th : Thread) : State :=
  let a := s.issue.accn
  let r := tk.record k
  let o := (th.reg off).toNat
  let n := (th.reg (d + 1)).toNat
  let put (i c : Nat) (s : State) : State :=
    s.finish a t ord r.orderScope fun th => (th.setReg d (word i)).setReg (d + 1) (word c)
  match th.answer, th.chased with
  | some res, _ =>
    s.takeAnswer a t (r.address (r.used o)) res (fun s ws => put (ws.headD 0).toNat (ws.getD 1 0).toNat s) (·.listFault a t r ·)
  | none, some (i, c) => s.chaseLook a t tk r n i c put
  | none, none =>
  if !r.ok || !listForm r || n = 0 || 8 < n then
    s.raise a t causeIllegalOperand 0 (word k)
  else
    match (if o = 0 then .at 0 else r.bounded o) with
    | .fault => s.raise a t causeBounds o 0
    | .dropped =>
      (match s.ordBefore a t ord r.orderScope with
      | .wait s => s
      | .go s => put 0 0 s)
    | .at o =>
      match s.ordBefore a t ord r.orderScope with
      | .wait s => s
      | .go s =>
        if o = 0 then put 0 0 s
        else if r.space = 0 then s.chaseLook a t tk r n o 0 put
        else
          match s.placeAt tk t r (r.address o) ⟨4, true, ⟨true, false, false⟩⟩ with
          | .ok (.remote va peer exp off _) =>
            s.remoteCall a t ⟨va, peer, exp, off⟩ 4 (.chase (s.shape tk.ctx r va off) o n 0 true) (windowReach va off)
          | .error e => s.raiseAcc a t e
          | .ok _ => s

/-- CHASE (R159). -/
def execChase (o : Mem0) (s : State) : Out :=
  .next (s.perLane o.g.toNat [o.d.toNat, o.d.toNat + 1, o.off.toNat] (chaseLane o.k.toNat o.off.toNat o.d.toNat o.ord))

end Sys2Proof.Machine
end

