-- ==== Sys2Proof/Machine/Engine.lean ====
section
/-!
DEFINITION. The copy and the gather-and-scatter engines (R112, R131, R132, R160 to R163), fences and line control (R164,
R165), and the events of the memory side: ENGINE_RETIRE, HOME_WRITE_PERFORM, L1_EVICTION, WAITLN_WAKE.
-/

namespace Sys2Proof.Machine

/-! ## Commands (R160, R161) -/

/-- The descriptor V(D + 1): source slot, index-list slot, reserved bits, count (R160). -/
def descSrc (w : Word) : Nat := wbits w 0 5
/-- The index-list slot. -/
def descLst (w : Word) : Nat := wbits w 5 5
/-- The count. -/
def descN (w : Word) : Nat := wbits w 16 16

/-- A contiguous range of elements lies in bounds where BMODE is trap (R161 step 5): the first offset that does not. -/
def Rec.rangeFault (r : Rec) (o n : Nat) : Option Nat :=
  if r.bmode ≠ 0 ∨ n = 0 ∨ o + n ≤ r.extent then none else some (max o r.extent)

/-- BASE, STR0 and STR1 are multiples of the element size (R161 step 4). -/
def Rec.strideOk (r : Rec) : Bool :=
  let z := fmtBytes r.fmt
  r.base % z == 0 && r.str0 % z == 0 && r.str1 % z == 0

/-- A scratchpad range of bytes rounded out to 32-byte boundaries (R112). -/
def rangeOut (lo hi : Int) : Nat × Nat := (lo.toNat / 32 * 32, (hi.toNat + 31) / 32 * 32)

/-- The lowest and the highest address of elements of `z` bytes, with the bytes of the last. -/
def spanOf (z : Nat) (xs : List Int) : Int × Int :=
  xs.foldl (fun p x => (min p.1 x, max p.2 (x + z))) (xs.headD 0, xs.headD 0 + z)

/-- The lowest and the highest address (R35) of elements `o` to `o + n - 1` after BMODE. -/
def Rec.span (r : Rec) (o n : Nat) : Int × Int :=
  spanOf (fmtBytes r.fmt) ((List.range n).map fun i => ((r.address (r.used (o + i)) : Nat) : Int))

/-- The elements at the corners of a whole record. -/
def Rec.corners (r : Rec) : List Nat :=
  let last := r.extent - 1
  let w := r.rowlen
  (if w = 0 then [0, last] else [0, min (w - 1) last, last / w * w, last, (last / w - 1) * w, (last / w - 1) * w + w - 1]).filter
    (· ≤ last)

/-- The lowest and the highest element address of a whole record: they stand at its corners, unless the addresses run past a multiple
of 2^57 (R35). -/
def Rec.wholeSpan (r : Rec) : Int × Int :=
  let p := spanOf (fmtBytes r.fmt) (r.corners.map r.exact)
  let m : Int := 2 ^ 57
  if p.1 / m = (p.2 - 1) / m then (p.1 - p.1 / m * m, p.2 - p.1 / m * m)
  else spanOf (fmtBytes r.fmt) ((List.range r.extent).map fun o => ((r.address o : Nat) : Int))

/-- Clip a range to the task's window (R112). -/
def Task.clip (tk : Task) (p : Int × Int) : Int × Int := (max 0 p.1, min (4096 * tk.pages : Nat) p.2)

/-- The ranges that a command registers (R112): range, and whether loads stall too. -/
def engRanges (tk : Task) (kind : Nat) (dst src lst : Rec) (start frm n : Nat) : List ((Int × Int) × Bool) :=
  let d := if dst.space = 1 then (if kind = 2 then [(tk.clip dst.wholeSpan, true)] else [(dst.span start n, true)]) else []
  let s :=
    if src.space = 1 then
      (if kind = 0 then [(src.span frm n, false)]
       else if kind = 2 then [(src.span start n, false)] else [(tk.clip src.wholeSpan, false)])
    else []
  let l := if kind ≠ 0 && lst.space == 1 then [(lst.span frm n, false)] else []
  d ++ s ++ l

/-- The first failed check of R161. An illegal-operand fault names the slot of the destination record, whatever failed (log entry
82); of several ranges out of bounds the destination's is reported first, then the source's, then the list's (log entry 65). -/
def engCheck (tk : Task) (kind k : Nat) (w : Word) (start frm : Nat) : Option AccFault :=
  let dst := tk.record k
  let src := tk.record (descSrc w)
  let lst := tk.record (descLst w)
  let n := descN w
  let sp (r : Rec) : Bool := r.space = 0 || r.space = 1 || r.space = 3
  let op : AccFault := ⟨causeIllegalOperand, 0, word k⟩
  if wbits w 10 6 ≠ 0 ∨ 19 < descSrc w ∨ 19 < descLst w ∨ (kind = 0 ∧ descLst w ≠ 0) then some op
  else if !dst.ok || !src.ok || (kind ≠ 0 && !lst.ok) then some op
  else if !sp dst || !sp src || (kind ≠ 0 && !sp lst) || src.fmt ≠ dst.fmt || fmtPacked dst.fmt ||
      (kind ≠ 0 && lst.fmt ≠ fmtN32) then some op
  else if !dst.strideOk then some ⟨causeMisaligned, dst.base, 0⟩
  else if !src.strideOk then some ⟨causeMisaligned, src.base, 0⟩
  else if kind ≠ 0 && !lst.strideOk then some ⟨causeMisaligned, lst.base, 0⟩
  else
    let fs :=
      [if kind = 2 then none else dst.rangeFault start n,
       if kind = 0 then src.rangeFault frm n else if kind = 2 then src.rangeFault start n else none,
       if kind = 0 then none else lst.rangeFault frm n].filterMap id
    match fs with
    | o :: _ => some ⟨causeBounds, o, 0⟩
    | [] => none

/-- The core that keeps the entry of a scratchpad offset (R98, R112): that of its page. -/
def Task.spadCore (tk : Task) (o : Nat) : Nat := ((tk.spots[o / 4096]?).map Prod.fst).getD tk.core

/-- Register ranges in the scoreboard: a range that straddles both halves of a two-core task's window has one entry, on the core of
its lowest offset (DESIGN CHOICE, log entry 83), or none if a core has too few free entries (R112). -/
def State.register (s : State) (tk : Task) (op : Nat) (rs : List ((Int × Int) × Bool)) : Option State :=
  rs.foldl (fun o r => o.bind fun s =>
    let b := rangeOut r.1.1 r.1.2
    let c := tk.spadCore b.1
    if 16 ≤ (s.core c).board.length then none
    else some (s.updCore c fun x => { x with board := x.board ++ [⟨tk.rcd.accn, b.1, b.2, r.2, op⟩] })) (some s)

/-- An engine word that writes a remote window enters the irrevocable state at its issue (R147). -/
def engEntry (k : Nat) (s : State) (t : Nat) (tk : Task) (_th : Thread) : Ready :=
  if (tk.record k).space = 3 then s.enter s.issue.accn t else .go s

/-- CPY, GATH and SCAT in one lane (R160, R161): `kind` 0, 1 or 2. -/
def engLane (kind k off d : Nat) (ord : BitVec 2) (s : State) (t : Nat) (tk : Task) (th : Thread) : State :=
  let a := s.issue.accn
  let r := tk.record k
  let w := th.reg (d + 1)
  let start := (th.reg off).toNat
  let frm := (th.reg d).toNat
  let cls := if kind = 0 then 0 else 2
  match engCheck tk kind k w start frm with
  | some f => s.raiseAcc a t f
  | none =>
    match s.ordBefore a t ord r.orderScope with
    | .wait s => s
    | .go s =>
      if descN w = 0 then s.finish a t ord r.orderScope id
      else if 63 ≤ th.counter cls then s.interlock a t
      else
        let op := s.nextId
        let rs := engRanges tk kind r (tk.record (descSrc w)) (tk.record (descLst w)) start frm (descN w)
        match s.register tk op rs with
        | none => s.interlock a t
        | some s =>
          let e : EngOp :=
            ⟨op, a, t, cls, kind, tk.recWords k, tk.recWords (descSrc w), tk.recWords (descLst w), start, frm, descN w,
              th.issued.getD cls 0 + 1, none, [], false, 0, none, 0, 0⟩
          ({ s with engs := s.engs ++ [e], nextId := op + 1 }).finish a t ord r.orderScope fun th => th.count cls

/-- An engine word. -/
def engWord (kind : Nat) (o : Mem0) (s : State) : Out :=
  .next (s.perLaneIn o.g.toNat [o.d.toNat, o.d.toNat + 1, o.off.toNat] (engEntry o.k.toNat)
    (engLane kind o.k.toNat o.off.toNat o.d.toNat o.ord))

/-- CPY (R160). -/
def execCpy (o : Mem0) (s : State) : Out := engWord 0 o s
/-- GATH (R160). -/
def execGath (o : Mem0) (s : State) : Out := engWord 1 o s
/-- SCAT (R160). -/
def execScat (o : Mem0) (s : State) : Out := engWord 2 o s

/-! ## WAITC (R163) -/

/-- The counter of a thread as a WAITC of a chain sees it (R52): without the operations issued since the chain began. -/
def Thread.baseCounter (th : Thread) (n : Nat) : Nat :=
  match th.base with
  | some b => th.counter n - (th.issued.getD n 0 - b.issued.getD n 0)
  | none => th.counter n

/-- An engine fault of a class that a wait for all but the newest `k` operations must report (R162). -/
def Thread.dueFault (th : Thread) (n k : Nat) : Option EngFault :=
  match th.eflt.getD n none with
  | some f => if f.order + k ≤ th.issued.getD n 0 then some f else none
  | none => none

/-- Report an engine fault (R162): the trap consumes the record. -/
def State.reportEng (s : State) (a t n : Nat) (f : EngFault) : State :=
  (s.updThread a t fun th => { th with eflt := th.eflt.setIfInBounds n none }).raise a t f.cause f.addr (word f.info)

/-- WAITC (R162, R163): once enough operations have retired, a due fault is reported instead of going on. -/
def execWaitc (o : WaitC) (s : State) : Out :=
  .next (s.perLane o.g.toNat [] fun s t _ th =>
    let a := s.issue.accn
    if o.k.toNat < th.baseCounter o.n.toNat then s.holdThread a t .engine
    else
      match th.dueFault o.n.toNat o.k.toNat with
      | some f => s.reportEng a t o.n.toNat f
      | none => s.putThread a t th.next)

/-! ## Fences and line control (R123, R164, R165) -/

/-- FENCE (R123, R164). -/
def execFence (o : FenceOp) (s : State) : Out :=
  .next (s.perLane o.g.toNat [] fun s t _ _ =>
    let a := s.issue.accn
    match s.release a t o.s.toNat with
    | .wait s => s
    | .go s => (s.updThread a t Thread.next).acquire a o.s.toNat)

/-- The line that FLUSH, INVL and PF name (R165): the checks of R144 with the read right. -/
def State.linePlace (s : State) (tk : Task) (t k : Nat) (o : Nat) : Except AccFault Place :=
  let r := tk.record k
  s.place tk t k r true o r.address ⟨fmtBytes r.fmt, false, ⟨true, false, false⟩⟩

/-- The keys of memory at a place: global or private bytes, which alone have a line in L1 (R100, R165). -/
def Place.keys (p : Place) (tk : Task) : List Nat :=
  match p with
  | .glob _ ks _ => ks
  | .priv offs => tk.privKeys offs
  | _ => []

/-- FLUSH and INVL in one lane: `act` on the line of L1 that holds the element (R165); of an element that spans two lines, which only a
record without BMODE trap has, the line of its first byte (DESIGN CHOICE, log entry 112). -/
def flushLane (k off : Nat) (act : State → Nat → Nat → Nat → State) (s : State) (t : Nat) (tk : Task) (th : Thread) : State :=
  let a := s.issue.accn
  match s.linePlace tk t k (th.reg off).toNat with
  | .error f => s.raiseAcc a t f
  | .ok p =>
    let s := s.rememberAll tk.ctx p.xlates
    (match p.keys tk with
    | x :: _ => if isReg x then s else act s (tk.coreOf t) (lineOf x) t
    | [] => s).updThread a t Thread.next

/-- FLUSH (R165): where dirty bytes are sent, the thread notes the WCT returned. -/
def execFlush (o : LineOp) (s : State) : Out :=
  .next (s.perLane o.g.toNat [o.off.toNat] (flushLane o.k.toNat o.off.toNat fun s c l t =>
    let q := s.writeBack c l fun _ => true
    if (s.l1 c l).dirty.isEmpty then s else q.noteWct s.issue.accn t (q.home l).wct))

/-- INVL (R165). -/
def execInvl (o : LineOp) (s : State) : Out :=
  .next (s.perLane o.g.toNat [o.off.toNat] (flushLane o.k.toNat o.off.toNat fun s c l _ =>
    s.updL1 c l fun x => { x with lease := none }))

/-- PF in one lane (R165): no fault of any kind, also where OFF names a chunk that the task does not hold. Its access recalls the
update-only copies of the line, and it does not wait for them (R106). -/
def pfLane (k off : Nat) (near : Bool) (s : State) (t : Nat) (tk : Task) (th : Thread) : State :=
  let a := s.issue.accn
  let fetch (s : State) (l : Nat) : State :=
    let s := (s.recall l).1
    if near then s.placeNear l (tk.coreOf t / 4) tk.launch else s.grantLease (tk.coreOf t) l
  if !tk.holdsReg off then s.updThread a t Thread.next
  else if s.awaits a t off then s.interlock a t
  else
    match s.linePlace tk t k (th.reg off).toNat with
    | .ok p =>
      let s := s.rememberAll tk.ctx p.xlates
      (match p.keys tk with
      | x :: _ => if isReg x then s else fetch s (lineOf x)
      | [] => s).updThread a t Thread.next
    | .error f =>
      match recallLine f.cause with
      | some l => s.awaitCopies a t l
      | none => s.updThread a t Thread.next

/-- PF (R165). -/
def execPf (o : PfOp) (s : State) : Out :=
  .next (s.perLane o.g.toNat [] (pfLane o.k.toNat o.off.toNat o.n))

/-! ## ENGINE_RETIRE (R131, R132, R162) -/

/-- The spot of element `o` of a record for the engines, or the cause and the address that stop it; bounds apply element by element
(R161). -/
def State.spotOf (s : State) (tk : Task) (t : Nat) (r : Rec) (o : Nat) (rt : Rights) (isDst : Bool) : Except (Nat × Nat) Spot :=
  match r.bounded o with
  | .fault => .error (causeBounds, o)
  | .dropped => .ok (if isDst then .drop else .zero)
  | .at o =>
    match s.placeAt tk t r (r.address o) ⟨fmtBytes r.fmt, true, rt⟩ with
    | .error f => .error (f.cause, f.taddr)
    | .ok (.spad os) => .ok (.spad (os.headD 0))
    | .ok (.glob va ks _) => .ok (.keys va ks)
    | .ok (.remote va peer exp off _) => .ok (.far va peer exp off)
    | .ok _ => .ok .zero

/-- The keys of memory at a spot. -/
def Spot.mem : Spot → List Nat
  | .keys _ ks => ks
  | _ => []

/-- The keys of memory that reading a spot asks the home for. -/
def State.homeKeys (s : State) (tk : Task) (e : EngOp) (p : Spot) : List Nat :=
  p.mem.filter fun k => (s.nearByte tk (tk.coreOf e.tid) k).isNone

/-- Read the `z` bytes of an element at a spot; `key` is its place among the remote elements read so far. -/
def State.readSpot (s : State) (tk : Task) (e : EngOp) (z key : Nat) : Spot → List Byte
  | .zero => List.replicate z 0
  | .drop => List.replicate z 0
  | .spad x => (List.range z).map fun i => tk.spadByte (x + i)
  | .keys _ ks =>
    if ks.any isReg then s.regLoad ks else ks.map fun k => (s.nearByte tk (tk.coreOf e.tid) k).getD (s.homeByte k)
  | .far _ _ _ _ =>
    match KMap.get? key e.got with
    | some (.data ws) => bytesOfWords z ws
    | _ => List.replicate z 0

/-- What stands in the way of an element: a remote read that has still to be made (where to, bytes, key), or a fault (cause, address,
reason). -/
inductive Bar where
  | ask (d : Dest) (bytes key : Nat)
  | bad (cause addr reason : Nat)
  deriving DecidableEq, Repr

/-- An element that is read: its spot, once a remote element has been read. -/
def State.source (s : State) (tk : Task) (e : EngOp) (r : Rec) (o key : Nat) : Except Bar Spot :=
  match s.spotOf tk e.tid r o ⟨true, false, false⟩ false with
  | .error f => .error (.bad f.1 f.2 0)
  | .ok (.far va peer exp off) =>
    (match KMap.get? key e.got with
    | some (.data _) => .ok (.far va peer exp off)
    | some (.poisoned rs) => .error (.bad causePoisoned va rs)
    | some _ => .error (.bad causeUnknown va 0)
    | none => .error (.ask ⟨va, peer, exp, off⟩ (fmtBytes r.fmt) key))
  | .ok p => .ok p

/-- Element `i` of the index list of a command; 0 for one that has none. -/
def State.indexAt (s : State) (tk : Task) (e : EngOp) (i : Nat) : Except Bar Nat :=
  if e.kind = 0 then .ok 0
  else
    match s.source tk e (Rec.ofWords e.lst) (e.from' + i) (2 * i + 1) with
    | .error b => .error b
    | .ok p => .ok (leNat (s.readSpot tk e 4 (2 * i + 1) p))

/-- Element `i` of a command (R160): where it is read and where it is written, or what stands in the way. -/
def State.moving (s : State) (tk : Task) (e : EngOp) (i : Nat) : Except Bar Moving :=
  match s.indexAt tk e i with
  | .error b => .error b
  | .ok n =>
    let o := if e.kind = 0 then e.from' + i else if e.kind = 1 then n else e.start + i
    let d := if e.kind = 2 then n else e.start + i
    match s.source tk e (Rec.ofWords e.src) o (2 * i) with
    | .error b => .error b
    | .ok p =>
      match s.spotOf tk e.tid (Rec.ofWords e.dst) d ⟨false, true, false⟩ true with
      | .error f => .error (.bad f.1 f.2 0)
      | .ok q => .ok ⟨i, p, d, q⟩

/-- What a command has to do: the elements before the first that faults, the fault, and the remote elements to read first. -/
structure Work where
  moves : List Moving
  fault : Option (Nat × Nat × Nat)
  asks : List (Dest × Nat × Nat)
  deriving DecidableEq, Repr

/-- Look at the elements of a command in ascending order: the first fault is that of a source or index that cannot be read, or of a
destination that cannot be written. -/
def State.engWork (s : State) (tk : Task) (e : EngOp) : Work :=
  (List.range e.n).foldl (fun (r : Work) i =>
    match r.fault with
    | some _ => r
    | none =>
      match s.moving tk e i with
      | .error (.ask d z k) => { r with asks := r.asks ++ [(d, z, k)] }
      | .error (.bad c x rs) => { r with fault := some (c, x, rs) }
      | .ok m => { r with moves := r.moves ++ [m] }) ⟨[], none, []⟩

/-- What writing elements gives: the state, and the tick at which the last write of them at a home is performed, 0 for none. -/
structure EngWrite where
  s : State
  wct : Nat
  deriving DecidableEq, Repr

/-- Perform one element in the module (R132): whole. Direct global writes go home. -/
def EngWrite.one (w : EngWrite) (tk : Task) (e : EngOp) (bs : List Byte) (p : Spot) : EngWrite :=
  match p with
  | .spad o => { w with s := w.s.updTask e.accn fun tk => tk.spadWrite (bytesAt o bs) }
  | .keys va ks =>
    let w := { w with s := w.s.touchAll ks }
    if ks.any isReg then { w with s := w.s.regStoreBytes ks bs }
    else if tk.buffers then
      { w with s := w.s.updTask e.accn fun tk => tk.buffer e.gen va (ks.zip bs) }
    else
      (byLine (ks.zip bs)).foldl (fun w l =>
        let r := (w.s.writeBack (tk.coreOf e.tid) l.1 fun _ => true).homeStore l.1 l.2 (tk.coreOf e.tid) [e.accn]
        ⟨r.1, max w.wct r.2⟩) w
  | _ => w

/-- Lines of the effect buffer after global writes of a command (R130). -/
def State.engLines (tk : Task) (ms : List Moving) : Nat :=
  (((tk.ebuf.map fun p => lineOf p.1) ++ ms.flatMap fun m => m.dst.mem.map lineOf).eraseDups).length + ebufLines [] tk.parts

/-- The first operation of its thread and class that has not retired: classes retire in issue order (R131). -/
def State.engHead (s : State) (e : EngOp) : Bool :=
  match s.engs.find? fun x => x.accn = e.accn ∧ x.tid = e.tid ∧ x.cls = e.cls with
  | some x => x.id == e.id
  | none => false

/-- Record an engine fault in its thread (R162): the first of a class is kept, further ones are counted. A thread that
has exited ends the task. -/
def State.recordEng (s : State) (a t cls cause addr reason order : Nat) : State :=
  match s.thread? a t with
  | none => s
  | some th =>
    if th.cond = .exited then
      s.updTask a fun tk => tk.halt ⟨.program cause, some t, 0, word (cls + reason * 4), th.pc.toNat, addr, false⟩
    else
      let put (f : EngFault) : State := s.updThread a t fun th => { th with eflt := th.eflt.setIfInBounds cls (some f) }
      match th.eflt.getD cls none with
      | none => put ⟨cause, cls + reason % 64 * 4, addr, order⟩
      | some f => put { f with info := f.info % 256 + min 255 (f.info / 256 + 1) * 256 }

/-- An operation of class `cls` of a thread retires: the counter falls and waiters for the engines look again. -/
def State.retired (s : State) (a t cls : Nat) : State := (s.updThread a t fun th => th.uncount cls).wakeTask a [.engine]

/-- Change an engine operation. -/
def State.updEng (s : State) (id : Nat) (f : EngOp → EngOp) : State :=
  { s with engs := s.engs.map fun e => if e.id = id then f e else e }

/-- Retire an operation (R131, R162): entries freed, its writes among those of its thread (R121), counter lowered, its fault
recorded. -/
def State.engRetire (s : State) (e : EngOp) : State :=
  let s := { s with
    engs := s.engs.filter fun x => x.id ≠ e.id
    cores := KMap.mapAll (fun c => { c with board := c.board.filter fun b => b.op ≠ e.id }) s.cores }
  let s := s.noteWct e.accn e.tid e.wct
  let s := match e.fault with
    | some (c, x, r) => s.recordEng e.accn e.tid e.cls c x r e.order
    | none => s
  s.retired e.accn e.tid e.cls

/-- Cause and reason of a response that is no data (R148). -/
def resFault : RemoteRes → Option (Nat × Nat)
  | .data _ => none
  | .poisoned n => some (causePoisoned, n)
  | .unknown => some (causeUnknown, 0)
  | .bounds _ => some (causeBounds, 0)
  | .misaligned _ => some (causeMisaligned, 0)
  | .outside _ => some (causeTranslation, 0)

/-- A command has issued its last write. -/
def State.engStop (s : State) (e : EngOp) (f : Option (Nat × Nat × Nat)) : State :=
  s.updEng e.id fun e => { e with plan := some [], written := true, until' := s.dtime, fault := f }

/-- The bytes of an element that has been read: kept from the read of its line (R104), or read now. -/
def State.valueOf (s : State) (tk : Task) (e : EngOp) (z : Nat) (m : Moving) : List Byte :=
  match KMap.get? (2 * m.i) e.got with
  | some (.data ws) => bytesOfWords z ws
  | _ => s.readSpot tk e z (2 * m.i) m.src

/-- Elements are read now and kept until they are written (R104). -/
def State.engRead (s : State) (tk : Task) (e : EngOp) (ms : List Moving) : State :=
  let z := fmtBytes (Rec.ofWords e.dst).fmt
  s.updEng e.id fun e => { e with
    got := ms.foldl (fun g m => if (KMap.get? (2 * m.i) g).isSome then g
      else KMap.put (2 * m.i) (.data (wordsOfBytes (s.readSpot tk e z (2 * m.i) m.src))) g) e.got }

/-- Elements with a remote destination are written one after another, each once the one before is acknowledged: none is
performed after one that faults (R162). -/
def State.engSend (s : State) (tk : Task) (e : EngOp) (ms : List Moving) : State :=
  match ms with
  | [] => s.engStop e e.fault
  | m :: rest =>
    let z := fmtBytes (Rec.ofWords e.dst).fmt
    match m.dst with
    | .far va peer exp off =>
      (match KMap.get? (2 * e.n + 2 + m.i) e.got with
      | none =>
        s.sendRemote e.accn e.tid ⟨va, peer, exp, off⟩ z (.store (s.valueOf tk e z m)) true false none
          (some (e.id, 2 * e.n + 2 + m.i))
      | some res =>
        match resFault res with
        | some (c, r) => s.engStop e (some (c, va, r))
        | none => s.updEng e.id fun e => { e with plan := some rest })
    | _ => s.updEng e.id fun e => { e with plan := some rest }

/-- Elements of a gather that lie within one line, up to 32, are read as one event (R104): the elements that are read with an
element. -/
def gathered (ms : List Moving) (m : Moving) : List Moving :=
  match m.src with
  | .keys _ (k :: _) =>
    let own := ms.filter fun x => match x.src with
      | .keys _ (j :: _) => lineOf j = lineOf k
      | _ => false
    (own.drop (own.idxOf m / 32 * 32)).take 32
  | _ => [m]

/-- The elements that one step performs: a free part of those that may be, not empty (R132); a gather's by lines (R104); of
elements of a scatter on one destination element the greater number is never first (R160). -/
def State.engPart (s : State) (e : EngOp) (ms : List Moving) : List Moving :=
  let free (m : Moving) : Bool := Config.performed s.free m.i
  let group (m : Moving) : List Moving := if e.kind = 1 then gathered ms m else [m]
  let ok (m : Moving) : Bool :=
    (group m).head?.all free && (e.kind ≠ 2 || ms.all fun x => m.i ≤ x.i || free x || x.dst ≠ m.dst)
  match ms.filter ok with
  | [] => (ms.head?.map group).getD []
  | xs => xs

/-- The engine is about to read keys at their homes (R106, R394): a poisoned line is a machine check; update-only copies of the lines
are recalled, and the command waits until they are combined. -/
def State.engFetch (s : State) (e : EngOp) (ks : List Nat) (go : State → State) : State :=
  let s := s.touchAll ks
  if s.poisoned ks then s.haltTask e.accn .machineCheck
  else
    match ((ks.map lineOf).eraseDups).filter fun l => !(s.lineParts l).isEmpty with
    | [] => go s
    | ls => let q := s.recallLines ls; q.1.updEng e.id fun e => { e with until' := q.2 }

/-- The index elements of a command, as keys to be read at their homes. -/
def State.listKeys (s : State) (tk : Task) (e : EngOp) : List Nat :=
  if e.kind = 0 then []
  else (List.range e.n).flatMap fun i =>
    match s.source tk e (Rec.ofWords e.lst) (e.from' + i) (2 * i + 1) with
    | .ok p => s.homeKeys tk e p
    | .error _ => []

/-- A command waits until the update-only copies of a line have been combined (R106). -/
def State.engAwait (s : State) (e : EngOp) (line : Nat) : State :=
  let q := s.recallLines [line]
  q.1.updEng e.id fun e => { e with until' := q.2 }

/-- Find out what a command has to do: its index list and its remote elements are read first (R131). -/
def State.engPlan (s : State) (tk : Task) (e : EngOp) : State :=
  let w := s.engWork tk e
  if let some l := w.fault.bind fun f => recallLine f.1 then s.engAwait e l
  else if w.asks.isEmpty then s.updEng e.id fun e => { e with plan := some w.moves, fault := w.fault, gen := s.genOf tk }
  else
    w.asks.foldl (fun s x => s.sendRemote e.accn e.tid x.1 x.2.1 (.load x.2.1) false false none (some (e.id, x.2.2))) s

/-- Perform elements of a command (R131, R132). An overflow of the effect buffer commits the task first (R130, R272, R275). -/
def State.engPerform (s : State) (tk : Task) (e : EngOp) (ms left : List Moving) : State :=
  if tk.buffers && 32 * tk.ebPages < State.engLines tk ms then
    (if !s.hasTurn tk then s
     else if s.isDet tk && s.dominatedNow tk then s.haltTask e.accn .cancel
     else s.irrevoke e.accn tk)
  else
    let z := fmtBytes (Rec.ofWords e.dst).fmt
    let bs := ms.map (s.valueOf tk e z)
    let w := (ms.zip bs).foldl (fun (w : EngWrite) p => w.one tk e p.2 p.1.dst) ⟨s.drew, 0⟩
    w.s.updEng e.id fun e =>
      { e with plan := some left, written := left.isEmpty, until' := max e.until' w.wct, wct := max e.wct w.wct }

/-- A step of a command. -/
def State.engStep (s : State) (tk : Task) (e : EngOp) : State :=
  match e.plan with
  | none => s.engFetch e (s.listKeys tk e) fun s => s.engPlan tk e
  | some plan =>
    if (Rec.ofWords e.dst).space = 3 then
      let ms := ((plan.head?.map fun m => if e.kind = 1 then gathered plan m else [m]).getD []).filter fun m =>
        (KMap.get? (2 * m.i) e.got).isNone
      if ms.isEmpty then s.engSend tk e plan else s.engFetch e (ms.flatMap fun m => s.homeKeys tk e m.src) fun s => s.engRead tk e ms
    else
      let ms := s.engPart e plan
      s.engFetch e (ms.flatMap fun m => s.homeKeys tk e m.src) fun s => s.engPerform tk e ms (plan.filter fun m => !ms.contains m)

/-- Some write of the task or its core is accepted but not performed, or its commit has not passed: an engine read
waits for it (R113, R117). -/
def State.engBlocked (s : State) (tk : Task) : Bool :=
  tk.commitT.isSome || s.writes.any fun w => s.dtime < w.wct && (tk.cores.contains w.core || w.owners.contains tk.rcd.accn)

/-- ENGINE_RETIRE may act on an operation: it is the head of its class, no remote element of it is under way, its task is
not stopping at a boundary that it has reached, and what it waits for has been performed. -/
def State.engReady (s : State) (tk : Task) (e : EngOp) : Bool :=
  s.engHead e && (tk.stop.isNone || tk.midChain) && e.until' ≤ s.dtime && (e.written || !s.engBlocked tk) &&
    !((KMap.vals s.outs).any fun o => (o.eng.map Prod.fst) == some e.id)

/-- ENGINE_RETIRE (R131, R132): the operation reads and writes elements, a part of them in each step, and retires when its writes
have been performed. Not enabled: nothing changes. -/
def execEngineRetire (op : Nat) (s : State) : Out :=
  match s.engs.find? fun e => e.id = op with
  | none => .next s
  | some e =>
    match s.task? e.accn with
    | none => .next s
    | some tk =>
      if !s.engReady tk e then .next s
      else if e.written then .next (s.engRetire e)
      else .next (s.engStep tk e)

/-! ## Home and cache events -/

/-- HOME_WRITE_PERFORM (R116): the accepted write of least WCT at or before DTIME takes effect, near copies of its line that have been
placed meanwhile and a copy that the host has taken are gone (R108, R407), a commit's time counts as the line's last WCT from now on
(R128), and threads that wait for a line or an event look again. It goes before all else, so that nothing sees the write before. -/
def execHomeWritePerform (s : State) : Out :=
  match s.nextWrite with
  | none => .next s
  | some w =>
    .next ({ s.updHome w.line (fun h => { h with near := [], wct := if w.commit then max h.wct w.wct else h.wct }) with
      mem := memWriteAll s.mem w.bytes
      writes := s.writes.erase w
      hostLines := if w.core = Config.cores then s.hostLines else s.hostLines.filter (· ≠ w.line) }).wakeWaiters

/-- L1_EVICTION (R100, R106): the dirty bytes of a line go home, its lease is dropped, and a core's update-only copies of
it are recalled. -/
def execL1Eviction (core line : Nat) (s : State) : Out :=
  let s1 := if (s.core core).parts.any fun p => lineOf p.key = line then (s.recall line).1 else s
  let s2 := s1.writeBack core line fun _ => true
  .next (s2.updCore core fun c => { c with l1 := KMap.del line c.l1 })

/-- A held thread looks at its word again. -/
def State.wakeThread (s : State) (a t : Nat) (w : Wait) : State :=
  s.updThread a t fun th => if th.cond = .held w then { th with cond := .running } else th

/-- WAITLN_WAKE (R166). -/
def execWaitlnWake (a t : Nat) (s : State) : Out := .next (s.wakeThread a t .line)
/-- WAITEV_WAKE (R322). -/
def execWaitevWake (a t : Nat) (s : State) : Out := .next (s.wakeThread a t .event)

end Sys2Proof.Machine
end

