-- ==== Sys2Proof/Machine/Control.lean ====
section
/-!
DEFINITION. Control words and special registers: NOP, RET, BRX, BRA, CALL, REP, SYSRD, SYSWR (R59 to R61, R64, R81, R82,
R85 to R87). EXIT is in Ending.lean, BRK in Recovery.lean.
-/

namespace Sys2Proof.Machine

/-- NOP (R64): its slot passes. -/
def execNop (_c : Bool) (s : State) : Out := .next (s.pass s.carried)

/-- The target of a BR word (R56): DISP packets from the packet that holds the word, modulo 2^57. -/
def brTarget (pc : DWord) (d : BitVec 22) : Nat :=
  (((pc.toNat / 12 * 12 : Nat) + 12 * d.toInt : Int) % (2 ^ 57 : Int)).toNat

/-- BRA (R81). -/
def execBra (g : BitVec 3) (d : BitVec 22) (s : State) : Out :=
  .next (s.perLane g.toNat [] fun s t _ th => s.putThread s.issue.accn t (th.jump (brTarget th.pc d)))

/-- The return address of a CALL (R81): the packet after it. -/
def retAddr (pc : DWord) : Nat := (pc.toNat / 12 * 12 + 12) % 2 ^ 57

/-- CALL (R81): the return address goes to V30 and V31. -/
def execCall (g : BitVec 3) (d : BitVec 22) (s : State) : Out :=
  .next (s.perLane g.toNat [30, 31] fun s t _ th =>
    s.putThread s.issue.accn t ((th.setReg2 30 (dword (retAddr th.pc))).jump (brTarget th.pc d)))

/-- A jump to V(A), V(A + 1) in one lane (R82): an illegal-instruction fault where the target is no packet address. -/
def jumpLane (a : Nat) (s : State) (t : Nat) (_ : Task) (th : Thread) : State :=
  if th.addr2 a % 12 ≠ 0 then s.raise s.issue.accn t causeIllegalInstruction (th.addr2 a) 0
  else s.putThread s.issue.accn t (th.jump (th.addr2 a))

/-- RET (R82). -/
def execRet (g : BitVec 3) (a : BitVec 6) (s : State) : Out :=
  .next (s.perLane g.toNat [a.toNat, a.toNat + 1] (jumpLane a.toNat))
/-- BRX (R82). -/
def execBrx (g : BitVec 3) (a : BitVec 6) (s : State) : Out :=
  .next (s.perLane g.toNat [a.toNat, a.toNat + 1] (jumpLane a.toNat))

/-- The step of a step code (R60), where its field is stepped. -/
def repStep (sel : Bool) (c : BitVec 2) : Nat := if sel then 2 ^ c.toNat else 0

/-- A thread comes to a REP word (R60, R61): the repeat it resumes at stands next, or, past CNT, the word after the
prefixed one. -/
def Thread.arm (th : Thread) (o : RepOp) : Thread :=
  if o.n.toNat < th.repFrom then { th.clear with pc := th.pc + 8, repFrom := 0 }
  else
    { th.clear with
      pc := th.pc + 4, repFrom := 0,
      rep := some ⟨o.n.toNat, repStep (o.s.getLsbD 2) o.d, repStep (o.s.getLsbD 1) o.a, repStep (o.s.getLsbD 0) o.b,
        th.repFrom⟩ }

/-- REP (R59 to R61): the repeats that follow are steps of their own. -/
def execRep (o : RepOp) (s : State) : Out :=
  .next (s.perLane 0 [] fun s t _ th => s.putThread s.issue.accn t (th.arm o))

/-! ## Special registers (R27, R28, R85 to R87) -/

/-- TFLAGS (R27), with bit 7 as given. -/
def Task.tflags (tk : Task) (irr : Bool) : Nat := wbits tk.rcd.flags 0 7 + bit irr * 128

/-- The task-owned and device-owned special registers (R27). DTIME is one count for every stop: the skew of up to one tick that R15
allows between two stops is always 0 (DESIGN CHOICE, log entry 71). DTIME and TFLAGS[7] read as they stood before the chain (R52). -/
def State.taskSpecial (s : State) (tk : Task) (b : Option Before) (n : Nat) : Nat :=
  match n with
  | 0x01 => tk.rcd.ntid
  | 0x02 => tk.rcd.tidx
  | 0x03 => tk.rcd.accn
  | 0x04 => tk.bnd.toNat
  | 0x05 => tk.bsel.toNat
  | 0x07 => (b.map Before.dtime).getD s.dtime % 2 ^ 64
  | 0x0A => tk.privLim
  | 0x0B => tk.rngkey.toNat
  | 0x0D => s.regs.peerid
  | 0x12 => tk.tflags ((b.map Before.irrevocable).getD tk.irrevocable)
  | _ => 0

/-- Any special register as a thread reads it (R27). FPFLAGS and RNGCTR read as they stood before the chain (R52). -/
def State.special (s : State) (tk : Task) (t : Nat) (th : Thread) (n : Nat) : Nat :=
  match n with
  | 0x00 => t
  | 0x06 => th.cmem.toNat
  | 0x08 => th.fpmode.toNat
  | 0x09 => ((th.base.map Before.fpflags).getD th.fpflags).toNat
  | 0x0C => ((th.base.map Before.rngctr).getD th.rngctr).toNat
  | 0x0E => th.tepc.toNat
  | 0x0F => th.tcause.toNat
  | 0x10 => th.taddr.toNat
  | 0x11 => th.tinfo.toNat
  | _ => s.taskSpecial tk th.base n

/-- The half that a SYSRD reads (R85). -/
def half (h : Bool) (x : Nat) : Word := if h then word (x / 2 ^ 32) else word x

/-- What a SYSRD of DTIME keeps (R86): the high half after a low-half read, nothing after a high-half read. -/
def keepHigh (h : Bool) (x : Nat) : Option Word := if h then none else some (word (x / 2 ^ 32))

/-- SYSRD (R85, R86). -/
def execSysrd (o : SysOp) (s : State) : Out :=
  let n := o.a.toNat
  if o.k then
    .next (match s.carried, s.task? s.issue.accn with
    | t :: ts, some tk =>
      let th := KMap.get? t tk.threads
      let x := s.taskSpecial ((th.map tk.seen).getD tk) (th.bind Thread.base) n
      let v := if n = 7 ∧ o.h then tk.dtimeHi.getD (half true x) else half o.h x
      let tk1 := tk.setS o.d.toNat v
      let tk2 := if n = 7 then { tk1 with dtimeHi := keepHigh o.h x } else tk1
      (s.updTask s.issue.accn fun _ => tk2).pass (t :: ts)
    | _, _ => s)
  else
    .next (s.perLane o.g.toNat [o.d.toNat] fun s t tk th =>
      let x := s.special tk t th n
      let v := if n = 7 ∧ o.h then th.dtimeHi.getD (half true x) else half o.h x
      let th1 := th.setReg o.d.toNat v
      let th2 := if n = 7 then { th1 with dtimeHi := keepHigh o.h x } else th1
      s.putThread s.issue.accn t th2.next)

/-- A 64-bit register with one half replaced (R87). -/
def setHalf (h : Bool) (old : DWord) (v : Word) : DWord := if h then pair (loWord old) v else pair v (hiWord old)

/-- Write a thread-owned special register (R27, R28, R87); none where reserved bits of FPMODE or FPFLAGS are set. -/
def Thread.writeSpecial (th : Thread) (n : Nat) (h : Bool) (v : Word) : Option Thread :=
  match n with
  | 0x08 => if wbits v 3 29 = 0 then some { th with fpmode := v } else none
  | 0x09 => if wbits v 5 27 = 0 then some { th with fpflags := v } else none
  | 0x0C => some { th with rngctr := v }
  | 0x0E => some { th with tepc := setHalf h th.tepc v }
  | 0x0F => some { th with tcause := v.truncate 16 }
  | 0x10 => some { th with taddr := setHalf h th.taddr v }
  | 0x11 => some { th with tinfo := v }
  | _ => some th

/-- SYSWR (R28, R87). -/
def execSyswr (o : SysOp) (s : State) : Out :=
  let n := o.d.toNat
  if n = 0x0B then
    scalarWord (fun own tk => { tk with rngkey := setHalf o.h tk.rngkey (own.sreg o.a.toNat) }) s
  else
    .next (s.perLane o.g.toNat (if o.k then [] else [o.a.toNat]) fun s t tk th =>
      match th.writeSpecial n o.h (if o.k then tk.sreg o.a.toNat else th.reg o.a.toNat) with
      | some th => s.putThread s.issue.accn t th.next
      | none => s.raise s.issue.accn t causeIllegalOperand 0 0)

end Sys2Proof.Machine
end

