-- ==== Sys2Proof/Machine/VecInt.lean ====
section
/-!
DEFINITION. Vector integer, logic, shift, compare, select and predicate words (R71 to R78).
-/

namespace Sys2Proof.Machine

/-! ## Operations on words -/

/-- The smaller, read signed (R71). -/
def minS (a b : Word) : Word := if a.toInt ≤ b.toInt then a else b
/-- The larger, read signed (R71). -/
def maxS (a b : Word) : Word := if a.toInt ≤ b.toInt then b else a
/-- The smaller, read unsigned (R71). -/
def minN (a b : Word) : Word := if a.toNat ≤ b.toNat then a else b
/-- The larger, read unsigned (R71). -/
def maxN (a b : Word) : Word := if a.toNat ≤ b.toNat then b else a
/-- SHL by an unsigned amount (R74). -/
def shlW (a : Word) (n : Nat) : Word := if 32 ≤ n then 0 else word (a.toNat * 2 ^ n)
/-- SHR by an unsigned amount (R74). -/
def shrW (a : Word) (n : Nat) : Word := if 32 ≤ n then 0 else word (a.toNat / 2 ^ n)
/-- SAR by an unsigned amount, toward minus infinity (R74). -/
def sarW (a : Word) (n : Nat) : Word :=
  if 32 ≤ n then (if a.toInt < 0 then 0xFFFFFFFF else 0) else BitVec.ofInt 32 (a.toInt / (2 ^ n : Int))
/-- ROTL by an unsigned amount mod 32 (R74). -/
def rotlW (a : Word) (n : Nat) : Word :=
  word (a.toNat * 2 ^ (n % 32)) ||| word (a.toNat / 2 ^ (32 - n % 32))
/-- Number of set bits (R73). -/
def popcW (a : Word) : Word := word ((List.range 32).countP fun i => a.getLsbD i)
/-- Number of leading zero bits (R73). -/
def clzW (a : Word) : Word := if a = 0 then 32 else word (31 - Nat.log2 a.toNat)
/-- Bits in reverse order (R73). -/
def brevW (a : Word) : Word := a.reverse

/-- The field descriptor of BFX and BFI: position and width, cut at bit 31 (R75). -/
def fieldPos (b : Word) : Nat := wbits b 0 5
/-- Width of the field, 1 to 32 (R75). -/
def fieldWidth (b : Word) : Nat := min (wbits b 5 5 + 1) (32 - fieldPos b)
/-- The mask of the field (R75). -/
def fieldMask (b : Word) : Word := word ((2 ^ fieldWidth b - 1) * 2 ^ fieldPos b)
/-- BFX.N32 (R75). -/
def bfxN (a b : Word) : Word := word ((a &&& fieldMask b).toNat / 2 ^ fieldPos b)
/-- BFX.S32: the field's top bit is its sign (R75). -/
def bfxS (a b : Word) : Word :=
  if (bfxN a b).toNat / 2 ^ (fieldWidth b - 1) % 2 = 1 then word ((bfxN a b).toNat + (2 ^ 32 - 2 ^ fieldWidth b))
  else bfxN a b
/-- BFI (R75). -/
def bfiW (a b d : Word) : Word :=
  (d &&& ~~~ (fieldMask b)) ||| (word (a.toNat * 2 ^ fieldPos b) &&& fieldMask b)

/-! ## Arithmetic (R71, R72) -/

/-- IADD (R71). -/
def execIadd (o : Bin) (s : State) : Out := binWord o (fun a b _ => a + b) s
/-- ISUB (R71). -/
def execIsub (o : Bin) (s : State) : Out := binWord o (fun a b _ => a - b) s
/-- IMUL (R71). -/
def execImul (o : Bin) (s : State) : Out := binWord o (fun a b _ => a * b) s
/-- IMULH.S32 (R71). -/
def execImulhS32 (o : Bin) (s : State) : Out :=
  binWord o (fun a b _ => BitVec.ofInt 32 (a.toInt * b.toInt / (2 ^ 32 : Int))) s
/-- IMULH.N32 (R71). -/
def execImulhN32 (o : Bin) (s : State) : Out := binWord o (fun a b _ => word (a.toNat * b.toNat / 2 ^ 32)) s
/-- IMAD (R71). -/
def execImad (o : Bin) (s : State) : Out := binWord o (fun a b d => a * b + d) s
/-- LEA (R71). -/
def execLea (o : Bin) (s : State) : Out := binWord o (fun a b _ => a + 4 * b) s
/-- IMIN.S32 and IMIN.N32 (R71). -/
def execImin (o : BinU) (s : State) : Out := binUWord o (fun a b => if o.u then minN a b else minS a b) s
/-- IMAX.S32 and IMAX.N32 (R71). -/
def execImax (o : BinU) (s : State) : Out := binUWord o (fun a b => if o.u then maxN a b else maxS a b) s
/-- IABS (R71). -/
def execIabs (o : Un) (s : State) : Out := unWord o (fun a => if a.toInt < 0 then 0 - a else a) s
/-- INEG (R71). -/
def execIneg (o : Un) (s : State) : Out := unWord o (fun a => 0 - a) s
/-- MOV (R71). -/
def execMov (o : Un) (s : State) : Out := unWord o (fun a => a) s
/-- IADD with an immediate (R72). -/
def execIaddImm (o : Imm) (s : State) : Out := immWord o (fun a i => a + i) s
/-- AND with an immediate (R72). -/
def execAndImm (o : Imm) (s : State) : Out := immWord o (fun a i => a &&& i) s
/-- OR with an immediate (R72). -/
def execOrImm (o : Imm) (s : State) : Out := immWord o (fun a i => a ||| i) s
/-- XOR with an immediate (R72). -/
def execXorImm (o : Imm) (s : State) : Out := immWord o (fun a i => a ^^^ i) s
/-- SHL with an immediate (R72, R74). -/
def execShlImm (o : ShImm) (s : State) : Out := shImmWord o shlW s
/-- SHR with an immediate (R72, R74). -/
def execShrImm (o : ShImm) (s : State) : Out := shImmWord o shrW s
/-- SAR with an immediate (R72, R74). -/
def execSarImm (o : ShImm) (s : State) : Out := shImmWord o sarW s
/-- ROTL with an immediate (R72, R74). -/
def execRotlImm (o : ShImm) (s : State) : Out := shImmWord o rotlW s
/-- MOVI (R72). -/
def execMovi (o : MovImm) (s : State) : Out :=
  regWord o.g [o.d.toNat] (fun _ th => th.setReg o.d.toNat (imm10 o.i)) s

/-! ## Logic, shifts and fields (R73 to R75) -/

/-- AND (R73). -/
def execAnd (o : Bin) (s : State) : Out := binWord o (fun a b _ => a &&& b) s
/-- OR (R73). -/
def execOr (o : Bin) (s : State) : Out := binWord o (fun a b _ => a ||| b) s
/-- XOR (R73). -/
def execXor (o : Bin) (s : State) : Out := binWord o (fun a b _ => a ^^^ b) s
/-- ANDN (R73). -/
def execAndn (o : Bin) (s : State) : Out := binWord o (fun a b _ => a &&& ~~~ b) s
/-- NOT (R73). -/
def execNot (o : Un) (s : State) : Out := unWord o (fun a => ~~~ a) s
/-- POPC (R73). -/
def execPopc (o : Un) (s : State) : Out := unWord o popcW s
/-- CLZ (R73). -/
def execClz (o : Un) (s : State) : Out := unWord o clzW s
/-- BREV (R73). -/
def execBrev (o : Un) (s : State) : Out := unWord o brevW s
/-- SHL (R74). -/
def execShl (o : Bin) (s : State) : Out := binWord o (fun a b _ => shlW a b.toNat) s
/-- SHR (R74). -/
def execShr (o : Bin) (s : State) : Out := binWord o (fun a b _ => shrW a b.toNat) s
/-- SAR (R74). -/
def execSar (o : Bin) (s : State) : Out := binWord o (fun a b _ => sarW a b.toNat) s
/-- ROTL (R74). -/
def execRotl (o : Bin) (s : State) : Out := binWord o (fun a b _ => rotlW a b.toNat) s
/-- BFX.N32 and BFX.S32 (R75). -/
def execBfx (o : BinU) (s : State) : Out := binUWord o (fun a b => if o.u then bfxS a b else bfxN a b) s
/-- BFI (R75). -/
def execBfi (o : Bin) (s : State) : Out := binWord o bfiW s

/-! ## Compare, select, predicates (R76 to R78) -/

/-- A step of D adds to both predicate subfields (R70). ICMP (R76). -/
def execIcmp (o : Cmp) (s : State) : Out :=
  regWord o.g [o.a.toNat, o.b.toNat]
    (fun _ th => th.setPair o.t o.f (icmpHolds o.x.toNat (th.reg o.a.toNat) (th.reg o.b.toNat))) s

/-- SEL: a where P(n) holds, otherwise b (R77). -/
def execSel (o : SelOp) (s : State) : Out :=
  regWord o.g ([o.d.toNat, o.a.toNat] ++ bReg o.sb o.b)
    (fun tk th => th.setReg o.d.toNat (if th.pred o.p.toNat then th.reg o.a.toNat else bValue tk th o.sb o.b)) s

/-- A word that writes a predicate from two (R78). -/
def predWord (o : Pbin) (f : Bool → Bool → Bool) (s : State) : Out :=
  regWord o.g [] (fun _ th => th.setPred o.d.toNat (f (th.pred o.a.toNat) (th.pred o.b.toNat))) s

/-- PAND (R78). -/
def execPand (o : Pbin) (s : State) : Out := predWord o (fun a b => a && b) s
/-- POR (R78). -/
def execPor (o : Pbin) (s : State) : Out := predWord o (fun a b => a || b) s
/-- PXOR (R78). -/
def execPxor (o : Pbin) (s : State) : Out := predWord o (fun a b => a != b) s
/-- PNOT (R78). -/
def execPnot (o : Un) (s : State) : Out := regWord o.g [] (fun _ th => th.setPred o.d.toNat (!th.pred o.a.toNat)) s
/-- PMOV (R78). -/
def execPmov (o : Un) (s : State) : Out := regWord o.g [] (fun _ th => th.setPred o.d.toNat (th.pred o.a.toNat)) s

end Sys2Proof.Machine
end

