-- ==== Sys2Proof/Machine/Cross.lean ====
section
/-!
DEFINITION. Cross-lane words: subgroups, meetings and results (R210 to R218), and RNG (R219).
-/

namespace Sys2Proof.Machine

/-! ## Subgroups (R43, R44, R210, R211) -/

/-- A field of a catalogue entry. -/
def cbits (e : BitVec 128) (lo n : Nat) : Nat := e.toNat / 2 ^ lo % 2 ^ n
/-- Entry `e` of the task's catalogue; with none, an entry whose EV is 0. -/
def Task.entry (tk : Task) (e : Nat) : BitVec 128 := tk.cat.getD e 0
/-- EV. -/
def entryValid (e : BitVec 128) : Bool := cbits e 127 1 == 1
/-- STRIDE. -/
def entryStride (e : BitVec 128) : Nat := cbits e 96 11
/-- COUNT. -/
def entryCount (e : BitVec 128) : Nat := cbits e 64 12
/-- BASE. -/
def entryBase (e : BitVec 128) : Nat := cbits e 32 11
/-- A thread of a task of index `x` is a member of a valid entry (R44). -/
def entryHas (e : BitVec 128) (x t : Nat) : Bool :=
  entryValid e && cbits e 0 16 ≤ x && x ≤ cbits e 16 16 && entryBase e ≤ t &&
    (t - entryBase e) % entryStride e == 0 && (t - entryBase e) / entryStride e < entryCount e

/-- KIND of a lane-control word. -/
def laneKind (w : Word) : Nat := wbits w 14 2
/-- COH. -/
def laneCoh (w : Word) : Nat := wbits w 20 8
/-- RP. -/
def laneRp (w : Word) : Nat := wbits w 11 3
/-- The lane-control word passes the checks of R210 in a thread. -/
def Task.laneOk (tk : Task) (w : Word) (t : Nat) : Bool :=
  wbits w 28 4 == 0 && wbits w 0 8 == 0 && wbits w 8 2 ≠ 3 &&
    (if laneKind w = 0 then laneCoh w == 0 && 1 ≤ wbits w 16 4 && wbits w 16 4 ≤ 11
     else if laneKind w = 1 then wbits w 16 4 == 0 && entryHas (tk.entry (laneCoh w)) tk.rcd.tidx t
     else false)

/-- A subgroup: its size and the TID of rank 0 and the step between ranks (R211). -/
structure Group where
  n : Nat
  base : Nat
  stride : Nat
  deriving DecidableEq, Repr

/-- The subgroup of a thread under a lane-control word (R211). -/
def Task.group (tk : Task) (w : Word) (t : Nat) : Group :=
  if laneKind w = 0 then ⟨2 ^ wbits w 16 4, t / 2 ^ wbits w 16 4 * 2 ^ wbits w 16 4, 1⟩
  else ⟨entryCount (tk.entry (laneCoh w)), entryBase (tk.entry (laneCoh w)), entryStride (tk.entry (laneCoh w))⟩
/-- The thread is in the subgroup. -/
def Group.has (g : Group) (t : Nat) : Bool := g.base ≤ t && (t - g.base) % g.stride == 0 && (t - g.base) / g.stride < g.n
/-- The rank of a thread. -/
def Group.rank (g : Group) (t : Nat) : Nat := (t - g.base) / g.stride

/-! ## Results (R213 to R218) -/

/-- A participant: rank and thread, with what it brought. -/
structure Party where
  rank : Nat
  tid : Nat
  th : Thread
  ar : Arrival
  deriving DecidableEq, Repr

/-- What a present lane receives: V(D), RP, flags. -/
structure Given where
  value : Word
  rp : Bool
  flags : FFlags
  deriving DecidableEq, Repr

/-- The present parties in ascending rank. -/
def present (ps : List Party) : List Party := sortBy Party.rank (ps.filter fun p => p.ar.guard)

/-- A value read from a source rank (R213). -/
def fromRank (n : Nat) (ps : List Party) (me : Party) (a : Nat) (i : Int) : Given :=
  let ok : Bool := decide (0 ≤ i ∧ i < n)
  let m := wbits me.ar.lane 8 2
  let r : Nat :=
    if ok then i.toNat
    else if m = 0 then (i % (n : Int)).toNat
    else if m = 1 then (if i < 0 then 0 else n - 1) else me.rank
  match (present ps).find? fun p => p.rank = r with
  | some p => ⟨p.th.reg a, ok, FFlags.none⟩
  | none => ⟨if wbits me.ar.lane 10 1 = 1 then me.th.reg a else 0, false, FFlags.none⟩

/-- One step of a fold (R218): `m` the mode of the lowest present rank. -/
def foldStep (op : Nat) (m : FMode) (a b : Word) : Word × FFlags :=
  match op with
  | 0 => (a + b, FFlags.none)
  | 1 => (minS a b, FFlags.none)
  | 2 => (maxS a b, FFlags.none)
  | 3 => (a &&& b, FFlags.none)
  | 4 => (a ||| b, FFlags.none)
  | 5 => (a ^^^ b, FFlags.none)
  | 6 => let r := f32.add m a.toNat b.toNat; (word r.1, r.2)
  | _ => let r := f32.minmax m true a.toNat b.toNat; (word r.1, r.2)

/-- The fold of V(A) over parties in ascending rank, with the flags of its steps (R218). -/
def foldParties (op a : Nat) (m : FMode) : List Party → Word × FFlags
  | [] => (0, FFlags.none)
  | p :: ps => ps.foldl (fun r q => let x := foldStep op m r.1 (q.th.reg a); (x.1, r.2.or x.2)) (p.th.reg a, FFlags.none)

/-- LRED and LSCAN (R218). -/
def laneFold (n : Nat) (ps : List Party) (me : Party) (scan : Bool) (op a : Nat) : Given :=
  let pr := present ps
  let m := match pr with
    | p :: _ => p.th.fmode 0
    | [] => FMode.rn
  let r := foldParties op a m (if scan then pr.filter fun p => p.rank ≤ me.rank else pr)
  ⟨r.1, pr.length == n, r.2⟩

/-- The ballot of R217. -/
def ballot (n : Nat) (ps : List Party) (me : Party) (a : Nat) : Word :=
  word ((List.range 32).foldl (fun x i =>
    let r := 32 * (me.rank / 32) + i
    if r < n ∧ (present ps).any (fun p => p.rank = r ∧ p.th.pred a) then x + 2 ^ i else x) 0)

/-- What the word gives a present lane (R214 to R218). -/
def crossGive (n : Nat) (ps : List Party) (me : Party) : Given :=
  let pr := present ps
  match me.ar.op with
  | .perm o =>
    let i := (me.th.reg o.d.toNat).toNat
    let x : Int :=
      if o.f = 0 then i else if o.f = 1 then ((me.rank ^^^ i : Nat) : Int) else if o.f = 2 then (me.rank : Int) - i
      else (me.rank : Int) + i
    fromRank n ps me o.a.toNat x
  | .bcast o =>
    if o.f = 0 then fromRank n ps me o.a.toNat ((pr.head?.map Party.rank).getD 0)
    else if o.f = 1 then fromRank n ps me o.a.toNat ((pr.getLast?.map Party.rank).getD 0)
    else fromRank n ps me o.a.toNat me.ar.after.toNat
  | .laneq o =>
    let v := if o.f = 0 then me.rank else if o.f = 1 then n else if o.f = 2 then pr.length
      else (pr.filter fun p => p.rank < me.rank).length
    ⟨word v, (pr.head?.map Party.rank) == some me.rank, FFlags.none⟩
  | .vote o =>
    let yes := (pr.filter fun p => p.th.pred o.a.toNat).length
    if o.f = 3 then
      let b := ballot n ps me o.a.toNat
      ⟨b, b != 0, FFlags.none⟩
    else
      ⟨word yes, if o.f = 0 then yes == pr.length else if o.f = 1 then yes ≠ 0 else yes == 0 || yes == pr.length,
        FFlags.none⟩
  | .lred o => laneFold n ps me false o.o.toNat o.a.toNat
  | .lscan o => laneFold n ps me true o.o.toNat o.a.toNat
  | _ => ⟨0, false, FFlags.none⟩

/-- The destination register of a cross-lane word. -/
def crossDest : Instr → Nat
  | .perm o => o.d.toNat
  | .bcast o => o.d.toNat
  | .laneq o => o.d.toNat
  | .vote o => o.d.toNat
  | .lred o => o.d.toNat
  | .lscan o => o.d.toNat
  | _ => 0

/-! ## Meetings (R212) -/

/-- The words at which threads meet. -/
def meetWord : Instr → Bool
  | .perm _ | .bcast _ | .laneq _ | .vote _ | .lred _ | .lscan _ => true
  | _ => false

/-- The other words that are stop points (R212); at a collective matrix word only a thread that is held while signing stands at one. -/
def stopWord : Instr → Bool
  | .bar _ | .barw _ | .waitev _ | .waitln _ | .xacq _ | .lkreq _ | .lkupg _ => true
  | .exit _ => true
  | _ => false

/-- A thread that is held for this reason while it signs stands at a stop point (R212, R233). -/
def Wait.signs : Wait → Bool
  | .signing => true
  | .toSign => true
  | _ => false

/-- The word at an address, as a fetch for the task would find it; none where it cannot be fetched or decoded. -/
def State.wordAt (s : State) (tk : Task) (pc : Nat) : Option Instr :=
  match s.keysOf tk.ctx ⟨false, false, true⟩ pc 4 with
  | .error _ => none
  | .ok (ks, _) => (decode (word (leNat (ks.map s.homeByte)))).toOption

/-- The word at which a thread stands: from its packet, or as it would be fetched. -/
def State.standsAt (s : State) (tk : Task) (th : Thread) : Option Instr := th.atWord.orElse fun _ => s.wordAt tk th.pc.toNat

/-- How often a thread has come to a word (R313). -/
def Thread.nth (th : Thread) (addr : Nat) : Nat := KMap.getD addr 0 th.reached
/-- A thread comes to the word at which it stands. -/
def Thread.arrive (th : Thread) : Thread := { th with reached := KMap.put th.pc.toNat (th.nth th.pc.toNat + 1) th.reached }

/-- A thread stands at a stop point, for those that meet at a word: exited, stopped, held or stalled at a stop point, or evicted with
one as the word at which it is to resume (R212). An evicted thread that is to resume at the word of the meeting itself takes part once
it is restored (R221). -/
def State.atStop (s : State) (tk : Task) (pc : DWord) (t : Nat) : Bool :=
  match KMap.get? t tk.threads with
  | none => true
  | some th =>
    th.halted ||
      match th.cond with
      | .exited => true
      | .held w => w == .meeting || w.signs || ((s.standsAt tk th).map stopWord).getD false
      | .running =>
        (th.away && th.pc ≠ pc && ((s.standsAt tk th).map fun i => meetWord i || stopWord i).getD false) ||
          (th.kept.isSome && ((s.standsAt tk th).map stopWord).getD false)
      | .filed _ => false

/-- What a thread brought to the cross-lane word at which it stands. -/
def Task.arrivalAt (tk : Task) (t : Nat) : Option Arrival := (KMap.get? t tk.threads).bind Thread.arrival

/-- The stop point at which `u` waits has met an earlier one of `t`: the present one of `t` meets a later one of `u`. -/
def Task.behind (tk : Task) (u t : Nat) : Bool := ((tk.arrivalAt u).map fun ar => ar.past.contains t).getD false

/-- Those that meet with a thread: at the same word, with the same lane-control word, in its subgroup, at stop points that belong
together (log entry 100). -/
def Task.parties (tk : Task) (g : Group) (pc : DWord) (lane : Word) (t : Nat) : List Party :=
  tk.threads.filterMap fun p =>
    match p.2.arrival with
    | some ar =>
      if p.2.cond = .held .meeting ∧ p.2.pc = pc ∧ ar.lane = lane ∧ g.has p.1 = true ∧ tk.behind p.1 t = false ∧
          tk.behind t p.1 = false then some ⟨g.rank p.1, p.1, p.2, ar⟩
      else none
    | none => none

/-- A rank has come to a stop point for the participants: it stands at one, or has come to one for each of their arrivals. -/
def State.rankThere (s : State) (tk : Task) (pc : DWord) (ps : List Party) (u : Nat) : Bool :=
  (s.atStop tk pc u && ps.all fun p => !tk.behind u p.tid) || ps.all fun p => p.ar.met.contains u

/-- The meeting of a thread is complete: every launched rank has come to a stop point, and no participant is evicted or stopped (R212,
R221, R398). The answer is its subgroup and participants. -/
def State.meeting (s : State) (tk : Task) (th : Thread) (t : Nat) : Option (Group × List Party) :=
  match th.arrival with
  | none => none
  | some ar =>
    if th.cond ≠ .held .meeting then none
    else
      let g := tk.group ar.lane t
      let ps := tk.parties g th.pc ar.lane t
      if (List.range g.n).all (fun r => s.rankThere tk th.pc ps (g.base + r * g.stride)) &&
          ps.all (fun p => !p.th.away && !p.th.halted) then some (g, ps)
      else none

/-- The word acts for one participant: a present lane writes V(D), RP and its flags; all go on. -/
def Thread.crossed (n : Nat) (ps : List Party) (me : Party) (th : Thread) : Thread :=
  let th1 :=
    if me.ar.guard then
      let r := crossGive n ps me
      ((th.setReg (crossDest me.ar.op) r.value).setPred (laneRp me.ar.lane) r.rp).flag r.flags
    else th
  { th1.next with cond := .running }

/-- Threads have come to a stop point: the first of each that a thread meets at its arrival counts for it, a later one for a later
arrival. -/
def Arrival.count (ar : Arrival) (us : List Nat) : Arrival :=
  { ar with
    met := ar.met ++ us.filter fun u => !ar.met.contains u
    past := ar.past ++ us.filter fun u => ar.met.contains u && !ar.past.contains u }

/-- The threads that a thread had still to meet at a stop point when it came to this one. -/
def Thread.meets (th : Thread) : List Nat := if th.kept.isNone then th.missed.eraseDups else []

/-- What a thread keeps when threads of its task have come to a stop point: those that come to one which belongs to an earlier stop
point of this thread leave it as it is; and if it is one of them, it meets those that passed a word before. -/
def Thread.noteStops (now : List (Nat × List Nat)) (t : Nat) (th : Thread) : Thread :=
  let ms := (now.lookup t).getD []
  { th with
    missed := ms.foldl List.erase th.missed
    arrival := th.arrival.map fun ar =>
      let ar := ar.count ((now.filter fun u => u.1 ≠ t && !u.2.contains t).map Prod.fst)
      { ar with met := ar.met ++ ms, past := ar.past ++ ms } }

/-- The members of its subgroup that stand at a stop point when a thread comes to a cross-lane word. -/
def State.standing (s : State) (tk : Task) (t : Nat) (th : Thread) (ar : Arrival) : List Nat :=
  let g := tk.group ar.lane t
  ((List.range g.n).map fun r => g.base + r * g.stride).filter fun u =>
    u ≠ t && !ar.met.contains u && s.atStop tk th.pc u && !tk.behind u t

/-- Threads of a task have come to a stop point: those that wait at a cross-lane word count them from now on, and those of them that
have come to such a word count whoever stands at a stop point (R212, log entry 100). -/
def State.meet (s : State) (a : Nat) (now : List Nat) : State :=
  if now.isEmpty then s
  else
    s.updTask a fun tk =>
      let us := now.map fun u => (u, ((KMap.get? u tk.threads).map Thread.meets).getD [])
      let tk := tk.mapThreads fun t th => th.noteStops us t
      tk.mapThreads fun t th =>
        if now.contains t then { th with arrival := th.arrival.map fun ar => ar.count (s.standing tk t th ar) } else th

/-- The meeting in which a thread has the lowest TID acts, if it is complete. -/
def State.holdMeeting (a : Nat) (s : State) (t : Nat) : State :=
  match s.task? a, s.thread? a t with
  | some tk, some th =>
    (match s.meeting tk th t with
    | some (g, p :: ps) =>
      if p.tid = t then (p :: ps).foldl (fun s q => s.updThread a q.tid fun th => th.crossed g.n (p :: ps) q) s else s
    | _ => s)
  | _, _ => s

/-- Threads of a task (`now`) have reached a stop point; the meetings of the task that are complete act, each once (R212). -/
def State.meetings (s : State) (a : Nat) (now : List Nat) : State :=
  let s := s.meet a now
  match s.task? a with
  | none => s
  | some tk => (KMap.keys (tk.threads.filter fun p => p.2.cond == .held .meeting)).foldl (State.holdMeeting a) s

/-- A thread passes a cross-lane word, or faults there, and does not wait: each thread that is on its way to a stop point is still to
meet it, unless this thread has met the other that way (R210). -/
def Task.passes (tk : Task) (t : Nat) : Task :=
  let ms := ((KMap.get? t tk.threads).map Thread.missed).getD []
  tk.mapThreads fun u th =>
    if u = t ∨ th.arrival.isSome = true ∨ ms.contains u = true then th else { th with missed := th.missed ++ [t] }

/-- A thread comes to a cross-lane word (R210, R212): a fault of the lane-control word, or it is held. A thread whose
guard fails takes none of the faults, and passes where it belongs to no subgroup. -/
def crossLane (op : Instr) (g b : Nat) (regs : List Nat) (s : State) (t : Nat) : State :=
  let a := s.issue.accn
  match s.task? a with
  | none => s
  | some tk =>
    match KMap.get? t tk.threads with
    | none => s
    | some th =>
      let tk := tk.seen th
      let lane := tk.sreg b
      if !s.issue.carries th then s
      else if th.pred g && regs.any (fun n => !tk.holdsReg n) then s.raise a t causeIllegalOperand 0 0
      else if th.pred g && regs.any (s.awaits a t) then s.interlock a t
      else if !tk.laneOk lane t then
        let s := s.updTask a fun tk => tk.passes t
        if th.pred g then s.raise a t causeIllegalOperand 0 (word b) else s.updThread a t Thread.next
      else
        s.putThread a t
          { th with kept := none, cond := .held .meeting, arrival := some ⟨op, lane, tk.sreg (b + 1), th.pred g, [], []⟩ }

/-- The thread has not yet issued the word at which it stands: it stalls there for a register (R49). -/
def State.stallsAt (s : State) (t : Nat) : Bool :=
  ((s.thread? s.issue.accn t).map fun th => th.cond == .running && th.pc == s.issue.pc && th.kept.isSome).getD false

/-- A cross-lane word: its threads arrive, and what is complete acts; a thread that passes the word or faults there counts at it
as a thread at a stop point (R210, R212). -/
def crossWord (op : Instr) (g : BitVec 3) (b : BitVec 6) (regs : List Nat) (s : State) : Out :=
  let r := s.issue.lanes.foldl (crossLane op g.toNat b.toNat regs) s
  .next (r.meetings s.issue.accn (s.carried.filter fun t => !r.stallsAt t))

/-- PERM (R214). -/
def execPerm (o : Lane) (s : State) : Out := crossWord (.perm o) o.g o.b [o.d.toNat, o.a.toNat] s
/-- BCAST (R215). -/
def execBcast (o : Lane) (s : State) : Out := crossWord (.bcast o) o.g o.b [o.d.toNat, o.a.toNat] s
/-- LANEQ (R216). -/
def execLaneq (o : LaneQ) (s : State) : Out := crossWord (.laneq o) o.g o.b [o.d.toNat] s
/-- VOTE (R217). -/
def execVote (o : Lane) (s : State) : Out := crossWord (.vote o) o.g o.b [o.d.toNat] s
/-- LRED (R218). -/
def execLred (o : LaneR) (s : State) : Out := crossWord (.lred o) o.g o.b [o.d.toNat, o.a.toNat] s
/-- LSCAN (R218). -/
def execLscan (o : LaneR) (s : State) : Out := crossWord (.lscan o) o.g o.b [o.d.toNat, o.a.toNat] s

/-! ## RNG (R219) -/

/-- One round of the draw. -/
def drawRound (z : DWord) : DWord :=
  let z := (z ^^^ z >>> 31) * 0xC3A59B17E46D2F8B
  let z := (z ^^^ z >>> 29) * 0x8F1B6E29D54CA3E7
  z ^^^ z >>> 32

/-- The draw of a counter value. -/
def draw (key : DWord) (t : Nat) (c : Word) : Word :=
  loWord (drawRound (drawRound (drawRound (key ^^^ pair c (word t)))))

/-- The F32 value of a draw: its upper 24 bits times 2^-24. -/
def drawF32 (x : Word) : Word :=
  if x.toNat / 256 = 0 then 0 else word (f32.round FMode.rn false (x.toNat / 256) (-24)).1

/-- RNG (R219). -/
def execRng (o : RngOp) (s : State) : Out :=
  .next (s.perLane o.g.toNat (if o.f = 2 then [o.d.toNat, o.d.toNat + 1] else [o.d.toNat]) fun s t tk th =>
    let c := th.rngctr
    let x := draw tk.rngkey t c
    let th1 :=
      if o.f = 0 then { th.setReg o.d.toNat x with rngctr := c + 1 }
      else if o.f = 1 then { th.setReg o.d.toNat (drawF32 x) with rngctr := c + 1 }
      else { (th.setReg o.d.toNat x).setReg (o.d.toNat + 1) (draw tk.rngkey t (c + 1)) with rngctr := c + 2 }
    s.putThread s.issue.accn t th1.next)

end Sys2Proof.Machine
end

