-- ==== Sys2Proof/Machine/Resource.lean ====
section
/-!
DEFINITION. Acquirable resources: pools, wound-wait, grants and releases (R23, R26, R29 to R32, R97 to R99, R327 to
R329), the event RESOURCE_GRANT, and the task words as R313 runs them.
-/

namespace Sys2Proof.Machine

/-! ## Pools (R29, R99) -/

/-- The task has an attempt on a core. -/
def Task.resident (tk : Task) : Bool := tk.phase == .running || tk.phase == .ending
/-- The cluster of a core. -/
def clusterOf (core : Nat) : Nat := core / 4
/-- The pages of a core's scratchpad that a task holds. -/
def Task.spotsOn (tk : Task) (c : Nat) : List Nat := tk.spots.filterMap fun p => if p.1 = c then some p.2 else none
/-- Effect-buffer pages of a task on a core. R98 divides scratchpad pages alone; that those of a two-core task stand on its lower core
is the model's (DESIGN CHOICE, log entry 85). -/
def Task.ebufOn (tk : Task) (c : Nat) : Nat := if c = tk.core then tk.ebPages else 0
/-- A sum over the resident tasks. -/
def State.sumTasks (s : State) (f : Task → Nat) : Nat := s.tasks.foldl (fun n p => if p.2.resident then n + f p.2 else n) 0
/-- The pages of a core's scratchpad that are granted. -/
def State.spotsUsed (s : State) (c : Nat) : List Nat := s.tasks.flatMap fun p => if p.2.resident then p.2.spotsOn c else []
/-- Effect-buffer pages granted on a core. -/
def State.ebufUsed (s : State) (c : Nat) : Nat := s.sumTasks fun tk => tk.ebufOn c
/-- The `n` lowest pages of a scratchpad that are not in use; past page 111 there is none (DESIGN CHOICE, log entry 84: the spec does
not say which pages a grant gives). -/
def freeSpots (used : List Nat) (n : Nat) : List Nat := ((List.range 240).filter fun i => !used.contains i).take n
/-- Steps of 64 KiB that reach over the pages in use (R99): every page above them is free. -/
def splitOf (used : List Nat) : Nat := (used.foldl (fun m i => max m (i + 1)) 0 + 15) / 16
/-- The greatest split that leaves room for effect-buffer pages and 16 KiB (R99). -/
def maxSplit (ebuf : Nat) : Nat := min 7 ((496 - 4 * ebuf) / 64)
/-- Scratchpad pages that can still be granted on a core. -/
def State.spadFree (s : State) (c : Nat) : Nat := 16 * maxSplit (s.ebufUsed c) - (s.spotsUsed c).length
/-- Effect-buffer pages that can still be granted on a core (R29). -/
def State.ebufFree (s : State) (c : Nat) : Nat := (496 - 64 * splitOf (s.spotsUsed c)) / 4 - s.ebufUsed c
/-- Physical tiles of a cluster that no task holds. -/
def State.freeTiles (s : State) (k : Nat) : List Nat :=
  (List.range 16).filter fun i => ((KMap.get? i (s.cluster k).tiles).bind Tile.owner).isNone
/-- The task that holds a convergence register of a cluster. -/
def State.cvOwner (s : State) (k cv : Nat) : Option Nat := (KMap.get? cv (s.cluster k).cvs).map Binding.accn

/-- The split follows what is granted (R99): where it grows, dirty bytes go home and lines are dropped. -/
def State.resplit (s : State) (c : Nat) : State :=
  let n := splitOf (s.spotsUsed c)
  if (s.core c).split < n then
    let s := (KMap.keys (s.core c).l1).foldl (fun s line => s.writeBack c line fun _ => true) s
    s.updCore c fun x => { x with split := n, l1 := [] }
  else if (s.core c).split = n then s
  else s.updCore c fun x => { x with split := n }

/-! ## Rooms held for a record (R296) -/

/-- A record still stands in the queue of a cluster. -/
def State.queuedOn (s : State) (k a : Nat) : Bool := ((s.task? a).map fun x => x.phase == .queued && x.cluster == k).getD false

/-- The reserved records of a cluster that hold a core. -/
def State.holdsCore (s : State) (c : Nat) : List Reserve :=
  (KMap.vals (s.cluster (clusterOf c)).reserved).filter fun r => s.queuedOn (clusterOf c) r.accn && (KMap.get? c r.spare).isSome

/-- What of the free units of a core is not held for one of some reserved records (R296). -/
def leftBy (rs : List Reserve) (c : Nat) (part : Room → Nat) (free : Nat) : Nat :=
  rs.foldl (fun n r => min n (((KMap.get? c r.spare).map part).getD n)) free

/-- What a task that asks for units of a class may have of the free units of a core: what becomes free there is held for a reserved
record that is older; an older waiter goes before a younger record (R31, R296, R311, log entry 87). -/
def State.spareOf (s : State) (a c : Nat) (part : Room → Nat) (free : Nat) : Nat :=
  leftBy ((s.holdsCore c).filter fun r => r.accn < a) c part free

/-- Units of a core are given away. -/
def State.spend (s : State) (c : Nat) (f : Room → Room) : State :=
  s.updCluster (clusterOf c) fun k => { k with reserved := KMap.mapAll (fun r => { r with spare := KMap.upd c f r.spare }) k.reserved }

/-! ## Wound-wait (R30, R31) -/

/-- A holder of a class: task, amount, whether it may be wounded, and whether it is stopping already. -/
structure Holder where
  accn : Nat
  amount : Nat
  revocable : Bool
  going : Bool
  deriving DecidableEq, Repr

/-- What R30 decides for a request that does not fit. -/
inductive Verdict where
  | blocked
  | wait (wounds : List Nat)
  deriving DecidableEq, Repr

/-- Members of `ws`, youngest first, until `free` covers `need`. -/
def woundUntil (need : Nat) : Nat → List Holder → List Nat
  | _, [] => []
  | free, w :: ws => if need ≤ free then [] else w.accn :: woundUntil need (free + w.amount) ws

/-- What a list of holders holds. -/
def amounts (hs : List Holder) : Nat := hs.foldl (fun n h => n + h.amount) 0

/-- The rules of R30 for task `q`. What a member of W holds that is stopping already counts as freed. -/
def woundWait (q : Nat) (irrevocable : Bool) (need free : Nat) (hs : List Holder) : Verdict :=
  let ws := (sortBy Holder.accn (hs.filter fun h => q < h.accn && h.revocable)).reverse
  let more := ws.filter fun h => !h.going
  if need ≤ free + amounts ws then .wait (woundUntil need (free + amounts (ws.filter Holder.going)) more)
  else if irrevocable && hs.any fun h => h.accn < q then .blocked
  else .wait (more.map Holder.accn)

/-- Amount of a class that a task holds in the pool of core `c`, or of its cluster (R30). Extended chunks have room for every thread
slot (R13), so they never run out. -/
def State.held (s : State) (tk : Task) (c cls n : Nat) : Nat :=
  match cls with
  | 1 => if clusterOf tk.core = clusterOf c then tk.tiles.length else 0
  | 2 => (tk.spotsOn c).length
  | 3 => tk.ebufOn c
  | 4 => if s.cvOwner (clusterOf c) n = some tk.rcd.accn then 1 else 0
  | _ => 0

/-- Free amount of a class that a task may have where it stands. -/
def State.freeOf (s : State) (tk : Task) (cls n : Nat) : Nat :=
  match cls with
  | 1 => (s.freeTiles (clusterOf tk.core)).length
  | 2 => s.spareOf tk.rcd.accn tk.core Room.spad (s.spadFree tk.core)
  | 3 => s.spareOf tk.rcd.accn tk.core Room.ebuf (s.ebufFree tk.core)
  | 4 => if (s.cvOwner (clusterOf tk.core) n).all (· == tk.rcd.accn) then 1 else 0
  | _ => n

/-- Units that a request needs: one register for class 4. -/
def unitsOf (cls n : Nat) : Nat := if cls = 4 then 1 else n

/-- Two tasks ask for units of one pool of a class: a core, or for tiles and registers a cluster. -/
def samePool (cls : Nat) (a b : Task) : Bool :=
  if cls = 1 ∨ cls = 4 then clusterOf a.core == clusterOf b.core else a.core == b.core

/-- The other holders of a class in a task's pool. -/
def State.holders (s : State) (tk : Task) (cls n : Nat) : List Holder :=
  s.tasks.filterMap fun p =>
    if p.2.resident && p.1 ≠ tk.rcd.accn && 0 < s.held p.2 tk.core cls n then
      some ⟨p.1, s.held p.2 tk.core cls n, !s.immune p.2, p.2.stop.isSome⟩
    else none

/-- Some thread of a task is held at a request, and its squad is on its core. -/
def Task.waitsAt (tk : Task) (addr : Nat) : Bool :=
  tk.threads.any fun p => p.2.cond == .held .resource && p.2.pc.toNat == addr && !p.2.away

/-- The requests of a task that it waits on. -/
def Task.waiting (tk : Task) : List ResReq :=
  if tk.stop.isSome || !tk.resident then [] else tk.wants.filter fun w => tk.waitsAt w.addr

/-- An older task of the pool waits on a request that fits now, and so goes first (R31). -/
def State.olderFits (s : State) (tk : Task) (cls n : Nat) : Bool :=
  s.tasks.any fun p =>
    p.1 < tk.rcd.accn && samePool cls tk p.2 &&
      p.2.waiting.any fun w => w.cls == cls && (cls ≠ 4 || w.count == n) && unitsOf cls w.count ≤ s.freeOf p.2 cls w.count

/-- Wound tasks: each is aborted at its next instruction boundary (R30). -/
def State.woundAll (s : State) (ws : List Nat) : State := ws.foldl (fun s w => s.haltTask w .wound) s

/-- A task's request fits and no older waiter goes first. -/
def State.fits (s : State) (tk : Task) (cls n : Nat) : Bool :=
  unitsOf cls n ≤ s.freeOf tk cls n && !s.olderFits tk cls n

/-- What R30 decides for a request of a task that does not fit. -/
def State.decide (s : State) (tk : Task) (cls n : Nat) : Verdict :=
  woundWait tk.rcd.accn (s.immune tk) (unitsOf cls n) (s.freeOf tk cls n) (s.holders tk cls n)

/-! ## Grants (R31, R32, R328) -/

/-- The lowest tile names that a task does not hold. -/
def Task.freeNames (tk : Task) : List Nat := (List.range 16).filter fun i => (KMap.get? i tk.tiles).isNone

/-- Give a task tiles: the lowest free names, bound to free physical tiles that hold zeros (R26, R32). -/
def State.grantTiles (s : State) (a n : Nat) : State :=
  match s.task? a with
  | none => s
  | some tk =>
    let k := clusterOf tk.core
    let ts := (tk.freeNames.zip (s.freeTiles k)).take n
    let s := s.updCluster k fun c =>
      { c with tiles := ts.foldl (fun m p => KMap.put p.2 { Tile.empty with owner := some a } m) c.tiles }
    s.updTask a fun tk => { tk with tiles := ts.foldl (fun m p => KMap.put p.1 p.2 m) tk.tiles }

/-- Clear the registers of chunks `k` to `k + n - 1` (R20, R32). -/
def Thread.clearChunks (th : Thread) (k n : Nat) : Thread := th.setRegs (32 + 8 * k) (List.replicate (8 * n) 0)

/-- Give a task units of a class (R328). -/
def State.grant (s : State) (a cls n : Nat) : State :=
  match cls with
  | 0 =>
    s.updTask a fun tk =>
      { tk with chunks := tk.chunks + n, threads := KMap.mapAll (fun th => th.clearChunks tk.chunks n) tk.threads }
  | 1 => s.grantTiles a n
  | 2 =>
    match s.task? a with
    | none => s
    | some tk =>
      let c := tk.core
      let s := (s.spend c fun r => { r with spad := r.spad - n }).updTask a fun tk =>
        { tk with
          pages := tk.pages + n, spots := tk.spots ++ (freeSpots (s.spotsUsed c) n).map fun i => (c, i)
          spad := KMap.keep (fun o _ => o < 4096 * tk.pages) tk.spad }
      s.resplit c
  | 3 =>
    match s.task? a with
    | none => s
    | some tk =>
      (s.spend tk.core fun r => { r with ebuf := r.ebuf - n }).updTask a fun tk => { tk with ebPages := tk.ebPages + n }
  | _ => s

/-- The descriptor of a register that is held for a task but not yet bound: REL is set, as in no binding. -/
def heldDescriptor : Word := 0x80000000
/-- The register is bound (R248). -/
def Binding.bound (b : Binding) : Bool := wbits b.w0 31 1 == 0
/-- A register held for a task until its MBIND binds it. -/
def Binding.reserve (a : Nat) : Binding :=
  ⟨a, heldDescriptor, 0, 0, Vector.replicate 8 0, Vector.replicate 8 0, none, none, []⟩

/-- The first request of a task that can be granted. -/
def State.grantable (s : State) (tk : Task) : Option ResReq := tk.waiting.find? fun w => s.fits tk w.cls w.count

/-- The first request of a task that waits and for which R30 now decides otherwise than to wait on: holders that have come since are
younger and revocable, or an older one faces a task that has become irrevocable. -/
def State.redecides (s : State) (tk : Task) : Option (ResReq × Verdict) :=
  (tk.waiting.map fun w => (w, s.decide tk w.cls w.count)).find? fun p =>
    !s.fits tk p.1.cls p.1.count && unitsOf p.1.cls p.1.count > s.freeOf tk p.1.cls p.1.count && p.2 ≠ .wait []

/-- The threads of a task that are held at a request go on. -/
def State.wakeAt (s : State) (a addr : Nat) : State :=
  s.updThreads a fun th => if th.cond = .held .resource ∧ th.pc.toNat = addr then { th with cond := .running } else th

/-- RESOURCE_GRANT (R30, R31): the units are given, the reaching has its status, and its threads go on; where a request that waits
does not fit, holders that have come since are wounded, or the task asks again and is BLOCKED. -/
def execResourceGrant (a : Nat) (s : State) : Out :=
  match s.task? a with
  | none => .next s
  | some tk =>
    let drop (w : ResReq) : State := s.updTask a fun tk => { tk with wants := tk.wants.erase w }
    match s.grantable tk, s.redecides tk with
    | some w, _ =>
      let s2 :=
        if w.cls = 4 then
          (drop w).updCluster (clusterOf tk.core) fun c =>
            if (KMap.get? w.count c.cvs).isSome then c else { c with cvs := KMap.put w.count (Binding.reserve a) c.cvs }
        else
          ((drop w).grant a w.cls w.count).updTask a fun tk => { tk with reach := tk.reach ++ [⟨w.addr, w.nth, 0, false, none⟩] }
      .next (s2.wakeAt a w.addr)
    | none, some (_, .wait ws) => .next (s.woundAll ws)
    | none, some (w, .blocked) => .next ((drop w).wakeAt a w.addr)
    | none, none => .next s

/-! ## Task words (R313) -/

/-- What carrying out a task word does. -/
inductive Act where
  | done (s : State) (status : Nat)
  | wait (s : State) (w : Wait)
  | later (s : State)
  | fault (cause taddr : Nat) (tinfo : Word)
  deriving DecidableEq, Repr

/-- The thread passes a task word: its arrival there is over (R313). -/
def Thread.passTaskWord (th : Thread) : Thread := th.arrive.next

/-- Write the status of a reaching, once, where the word has a status register. -/
def State.writeStatus (s : State) (a addr nth : Nat) (d : Option Nat) (v : Nat) : State :=
  s.updTask a fun tk =>
    { (match d with
       | some d => tk.setS d (word v)
       | none => tk) with
      reach := tk.reach.filter (fun r => !(r.addr == addr && r.nth == nth)) ++ [⟨addr, nth, v, true, none⟩] }

/-- The S registers as a reaching of a task word has read them: those that a thread that waits there has kept (R313). -/
def Task.reachS (tk : Task) (th : Thread) : Vector Word 160 :=
  let addr := th.pc.toNat
  (tk.threads.findSome? fun p => if p.2.pc.toNat = addr ∧ p.2.nth addr = th.nth addr then p.2.kept else none).getD tk.s

/-- A reaching ends in a fault, which a thread of it takes; the thread's arrival is over (R313). -/
def State.faultReaching (s : State) (a t : Nat) (f : Nat × Nat × Word) : State :=
  (s.updThread a t Thread.arrive).raise a t f.1 f.2.1 f.2.2

/-- One lane of a task word: the first thread of a reaching carries the word out; the others have its result, also where it is a
fault, and pass (R313). -/
def taskLane (d : Option Nat) (act : State → Task → Nat → Act) (s : State) (t : Nat) : State :=
  let a := s.issue.accn
  match s.task? a with
  | none => s
  | some tk =>
    match KMap.get? t tk.threads with
    | none => s
    | some th =>
      let addr := th.pc.toNat
      if !s.issue.carries th then s
      else
        match tk.reach.find? fun r => r.addr == addr && r.nth == th.nth addr with
        | some ⟨_, _, _, _, some f⟩ => s.faultReaching a t f
        | some r =>
          let s := if r.written then s else s.writeStatus a addr (th.nth addr) d r.status
          s.updThread a t Thread.passTaskWord
        | none =>
          if tk.stop.isSome then s
          else
            let sr := tk.reachS th
            match act s { tk with s := sr } t with
            | .done s v => (s.writeStatus a addr (th.nth addr) d v).updThread a t Thread.passTaskWord
            | .wait s w => s.updThread a t fun th => { th.hold w with kept := some sr }
            | .later s => s
            | .fault c x i =>
              (s.updTask a fun tk => { tk with reach := tk.reach ++ [⟨addr, th.nth addr, 0, true, some (c, x, i)⟩] }).faultReaching a t
                (c, x, i)

/-- A task word (R313). -/
def taskWord (d : Option Nat) (act : State → Task → Nat → Act) (s : State) : Out :=
  .next (s.issue.lanes.foldl (taskLane d act) s)

/-! ## XACQ and XREL (R327 to R329) -/

/-- CLASS of a request word. -/
def reqClass (w : Word) : Nat := wbits w 0 4
/-- COUNT of a request word. -/
def reqCount (w : Word) : Nat := wbits w 8 8
/-- TMASK of a request word. -/
def reqMask (w : Word) : Nat := wbits w 16 16

/-- A request that can never be granted (R328). -/
def Task.neverFits (tk : Task) (cls n : Nat) : Bool :=
  match cls with
  | 0 => 4 < tk.chunks + n
  | 1 => 16 < tk.tiles.length + n
  | 2 => 112 < tk.pages + n || tk.twoCore
  | _ => 124 < tk.ebPages + n

/-- XACQ (R328). -/
def acquireRes (src : Nat) (s : State) (tk : Task) (t : Nat) : Act :=
  let a := s.issue.accn
  let w := tk.sreg src
  let cls := reqClass w
  let n := reqCount w
  match s.thread? a t with
  | none => .later s
  | some th =>
    let me : ResReq := ⟨cls, n, th.pc.toNat, th.nth th.pc.toNat⟩
    if n = 0 ∨ reqMask w ≠ 0 ∨ wbits w 4 4 ≠ 0 ∨ 3 < cls then .fault causeIllegalOperand 0 (word src)
    else if tk.wants.any fun x => x.addr == me.addr && x.nth == me.nth then .wait s .resource
    else if tk.neverFits cls n then .done s 2
    else if s.fits tk cls n then .done (s.grant a cls n) 0
    else
      match s.decide tk cls n with
      | .blocked => .done s 1
      | .wait ws => .wait ((s.woundAll ws).updTask a fun tk => { tk with wants := tk.wants ++ [me] }) .resource

/-- XACQ (R328). The threads that come to it stand at a stop point (R212). -/
def execXacq (o : Da) (s : State) : Out :=
  taskWord (some o.d.toNat) (acquireRes o.a.toNat) (s.meetings s.issue.accn s.carried)

/-- A formed request that has not retired names a physical tile of a cluster (R260). -/
def State.tileBusy (s : State) (tk : Task) (name : Nat) : Bool :=
  (s.cluster (clusterOf tk.core)).table.any fun r => r.accn == tk.rcd.accn && (r.tl == name || r.stile == some name)

/-- Release tiles by name: scrubbed and free (R32). -/
def State.dropTiles (s : State) (a : Nat) (names : List Nat) : State :=
  match s.task? a with
  | none => s
  | some tk =>
    let ps := names.filterMap fun n => KMap.get? n tk.tiles
    (s.updCluster (clusterOf tk.core) fun c => { c with tiles := ps.foldl (fun m p => KMap.put p Tile.empty m) c.tiles }).updTask
      a fun tk => { tk with tiles := names.foldl (fun m n => KMap.del n m) tk.tiles }

/-- The pages of a window that has shrunk to `n`: on two cores the lower one keeps ceil(n/2), its partner floor(n/2) (R98). -/
def Task.shrunk (tk : Task) (n : Nat) : List (Nat × Nat) :=
  if tk.twoCore then
    (tk.spots.filter fun p => p.1 = tk.core).take ((n + 1) / 2) ++ (tk.spots.filter fun p => p.1 ≠ tk.core).take (n / 2)
  else tk.spots.take n

/-- XREL (R329). Which effect-buffer pages hold a buffered byte is not said: the model counts the lines that are in use as packed, 32 to
a page, and gives back what is left (DESIGN CHOICE, log entry 119). -/
def releaseRes (src : Nat) (s : State) (tk : Task) (_t : Nat) : Act :=
  let a := s.issue.accn
  let w := tk.sreg src
  let cls := reqClass w
  let n := reqCount w
  let names := (List.range 16).filter fun i => reqMask w / 2 ^ i % 2 = 1
  if 3 < cls ∨ wbits w 4 4 ≠ 0 ∨ (cls ≠ 1 ∧ reqMask w ≠ 0) ∨ (cls = 1 ∧ n ≠ 0) then .fault causeIllegalOperand 0 (word src)
  else
    match cls with
    | 0 => let k := min n tk.chunks; .done (s.updTask a fun tk => { tk with chunks := tk.chunks - k }) k
    | 1 =>
      if names.any fun i => (KMap.get? i tk.tiles).isNone then .fault causeIllegalOperand 0 (word src)
      else if names.any (s.tileBusy tk) then .wait s .engine
      else .done (s.dropTiles a names) names.length
    | 2 =>
      let k := min n tk.pages
      let lo := 4096 * (tk.pages - k)
      if tk.cores.any fun c => (s.core c).board.any fun e => e.accn == a && lo < e.hi then .wait s .engine
      else
        let s := s.updTask a fun tk =>
          { tk with pages := tk.pages - k, spots := tk.shrunk (tk.pages - k), spad := KMap.keep (fun o _ => o < lo) tk.spad }
        .done (tk.cores.foldl State.resplit s) k
    | _ =>
      let used := (ebufLines tk.ebuf tk.parts + 31) / 32
      let k := min n (tk.ebPages - used)
      .done (s.updTask a fun tk => { tk with ebPages := tk.ebPages - k }) k

/-- XREL (R329). -/
def execXrel (o : Da) (s : State) : Out := taskWord (some o.d.toNat) (releaseRes o.a.toNat) s

end Sys2Proof.Machine
end

