-- ==== Sys2Proof/Machine/Semiring.lean ====
section
/-!
DEFINITION. The arithmetic of the semiring matrix engine: operator-table entries (R222, R223), zeros and ones (R224), the
operators with the empty value (R194, R195, R225), exceptional results (R228, R229), and one cell of one pass (R193).
A value is a 40-bit pattern as a number: FA40, INT40, or 0 and 1 for B1; an empty one is `none`.
-/

namespace Sys2Proof.Machine

/-! ## Entries (R222, R223) -/

/-- PAIR. -/
def enPair (w : Word) : Nat := wbits w 0 3
/-- AF. -/
def enAf (w : Word) : Nat := wbits w 3 4
/-- BF. -/
def enBf (w : Word) : Nat := wbits w 7 4
/-- ACC: 0 FA40, 1 INT40, 2 B1. -/
def enAcc (w : Word) : Nat := wbits w 11 2
/-- SKIP. -/
def enSkip (w : Word) : Bool := wbits w 13 1 == 1
/-- PAD: 0 ZERO, 1 RECORD. -/
def enPad (w : Word) : Nat := wbits w 14 2
/-- EXC: 0 propagate, 1 quiet, 2 trap. -/
def enExc (w : Word) : Nat := wbits w 16 2
/-- EV. -/
def enValid (w : Word) : Bool := wbits w 31 1 == 1

/-- F32, BF16 or C4. -/
def isFloatFmt (f : Nat) : Bool := f == fmtF32 || f == fmtBF16 || f == fmtC4
/-- S8, S16, N8 or N16. -/
def isNarrowInt (f : Nat) : Bool := f == fmtS8 || f == fmtS16 || f == fmtN8 || f == fmtN16

/-- An entry word with EV = 1 is legal (R223). -/
def enLegal (w : Word) : Bool :=
  let fl := isFloatFmt (enAf w) && isFloatFmt (enBf w) && enAcc w == 0
  let it := isNarrowInt (enAf w) && isNarrowInt (enBf w) && enAcc w == 1
  let b1 := enAf w == fmtB1 && enBf w == fmtB1 && enAcc w == 2
  wbits w 18 13 == 0 && enExc w ≤ 2 && enPad w ≤ 1 &&
    match enPair w with
    | 0 => fl || it
    | 1 => fl
    | 2 => fl
    | 3 => fl
    | 4 => fl
    | 5 => b1
    | _ => fl || it

/-- ⊗ of the pair is multiplication (R192). -/
def pairMul (p : Nat) : Bool := p == 0 || p == 3 || p == 4
/-- K indices of one pass (R193, R223). -/
def pairDepth (p : Nat) : Nat := if p = 5 then 128 else 32

/-! ## Zeros and ones (R224) -/

/-- +∞ of FA40. -/
def accInf : Nat := 0x7FC0000000
/-- −∞ of FA40. -/
def accNegInf : Nat := 0xFFC0000000
/-- The canonical NaN of FA40. -/
def accNan : Nat := 0x7FE0000000
/-- 1 in FA40. -/
def accOne : Nat := 0x3FC0000000
/-- The least INT40. -/
def intLeast : Nat := 0x8000000000
/-- The greatest INT40. -/
def intMost : Nat := 0x7FFFFFFFFF

/-- The zero of a pair under an accumulator type. -/
def srZero (pair acc : Nat) : Nat :=
  match pair with
  | 1 => accInf
  | 2 => accNegInf
  | 4 => accInf
  | 6 => if acc = 1 then intLeast else accNegInf
  | 7 => if acc = 1 then intMost else accInf
  | _ => 0

/-- The one of a pair under an accumulator type. -/
def srOne (pair acc : Nat) : Nat :=
  match pair with
  | 0 => if acc = 1 then 1 else accOne
  | 1 => 0
  | 2 => 0
  | 3 => accOne
  | 4 => accOne
  | 5 => 1
  | 6 => if acc = 1 then intMost else accInf
  | _ => if acc = 1 then intLeast else accNegInf

/-- An operand is the zero: both signs of a float zero count (R224). -/
def isZero (pair acc x : Nat) : Bool :=
  x == srZero pair acc || (acc == 0 && srZero pair acc == 0 && x == 0x8000000000)

/-! ## Operators (R194, R195, R228) -/

/-- What one operator gives: the value, whether INT40 saturated, whether the result is exceptional. -/
structure OpRes where
  v : Nat
  sat : Bool
  exc : Bool
  deriving DecidableEq, Repr

/-- An INT40 result, saturated (R178). -/
def satInt (x : Int) : OpRes :=
  if x < -(2 ^ 39) then ⟨intLeast, true, false⟩
  else if (2 ^ 39 : Int) ≤ x then ⟨intMost, true, false⟩
  else ⟨(x % (2 ^ 40 : Int)).toNat, false, false⟩

/-- A plain result. -/
def OpRes.plain (v : Nat) : OpRes := ⟨v, false, false⟩
/-- An exceptional result. -/
def OpRes.bad : OpRes := ⟨accNan, false, true⟩

/-- The lesser or greater FA40 value, −0 below +0. -/
def accPick (isMax : Bool) (x y : Nat) : Nat :=
  if (if isMax then fa40.key y ≤ fa40.key x else fa40.key x ≤ fa40.key y) then x else y
/-- The lesser or greater INT40 value. -/
def intPick (isMax : Bool) (x y : Nat) : Nat :=
  if (if isMax then int40 y ≤ int40 x else int40 x ≤ int40 y) then x else y

/-- An FA40 value below −0 (R228). -/
def accBelow (x : Nat) : Bool := fa40.key x < -1

/-- x ⊗ y, neither empty nor the zero. -/
def otimes (pair acc x y : Nat) : OpRes :=
  if acc = 2 then OpRes.plain (x &&& y)
  else if acc = 1 then
    (if pair = 0 then satInt (int40 x * int40 y) else OpRes.plain (intPick (pair == 7) x y))
  else if fa40.isNan x || fa40.isNan y then OpRes.bad
  else if pair = 3 ∨ pair = 4 then
    (if accBelow x || accBelow y then OpRes.bad else OpRes.plain (fa40.mul FMode.rn x y).1)
  else if pair = 0 then OpRes.plain (fa40.mul FMode.rn x y).1
  else if pair = 1 ∨ pair = 2 then OpRes.plain (fa40.add FMode.rn x y).1
  else OpRes.plain (accPick (pair == 7) x y)

/-- A product with a generated one: the other element bit for bit, unless it is exceptional (R231). -/
def otimesOne (pair acc x : Nat) : OpRes :=
  if acc = 0 && (fa40.isNan x || ((pair = 3 ∨ pair = 4) && accBelow x)) then OpRes.bad else OpRes.plain x

/-- x ⊕ y, neither empty. -/
def oplus (pair acc x y : Nat) : OpRes :=
  if acc = 2 then OpRes.plain (x ||| y)
  else if acc = 1 then
    (if pair = 0 then satInt (int40 x + int40 y) else OpRes.plain (intPick (pair == 6) x y))
  else if fa40.isNan x || fa40.isNan y then OpRes.bad
  else if pair = 0 then
    let r := fa40.add FMode.rn x y
    if fa40.isNan r.1 then OpRes.bad else OpRes.plain r.1
  else OpRes.plain (accPick (pair == 2 || pair == 3 || pair == 6) x y)

/-! ## The empty value and exceptions (R225, R229) -/

/-- A value in a pass: empty or a pattern, with what happened on the way: saturation, and the least KIND of R259 of an
exceptional result; `final` says that the value is what the cell becomes, whatever it held (R229); `num` is the integer that a scaled
sum of an integer pair is, where it is one (R193). -/
structure SVal where
  v : Option Nat
  sat : Bool
  kind : Option Nat
  final : Bool
  num : Option Int
  deriving DecidableEq, Repr

/-- Empty. -/
def SVal.empty : SVal := ⟨none, false, none, false, none⟩
/-- A value as it is. -/
def SVal.of (v : Option Nat) : SVal := ⟨v, false, none, false, none⟩
/-- The lesser of two KINDs. -/
def leastKind : Option Nat → Option Nat → Option Nat
  | none, k => k
  | k, none => k
  | some a, some b => some (min a b)

/-- A result of stage `kind` under the policy of the entry; `zero` is what quiet makes of it (R229). -/
def settleRes (e : Word) (kind : Nat) (zero : Option Nat) (r : OpRes) : SVal :=
  if r.exc then ⟨if enExc e = 1 then zero else some accNan, r.sat, some kind, false, none⟩
  else ⟨some r.v, r.sat, none, false, none⟩

/-- ⊗ with the empty value and annihilation. -/
def otimesSr (e : Word) (x y : Option Nat) : SVal :=
  match x, y with
  | some x, some y =>
    if isZero (enPair e) (enAcc e) x || isZero (enPair e) (enAcc e) y then SVal.empty
    else settleRes e 0 none (otimes (enPair e) (enAcc e) x y)
  | _, _ => SVal.empty

/-- A generated one ⊗ x. -/
def oneSr (e : Word) (x : Option Nat) : SVal :=
  match x with
  | some x => if isZero (enPair e) (enAcc e) x then SVal.empty else settleRes e 0 none (otimesOne (enPair e) (enAcc e) x)
  | none => SVal.empty

/-- ⊕ with the empty value, in the tree. -/
def oplusSr (e : Word) (x y : SVal) : SVal :=
  let sat := x.sat || y.sat
  let kind := leastKind x.kind y.kind
  match x.v, y.v with
  | none, v => ⟨v, sat, kind, false, none⟩
  | v, none => ⟨v, sat, kind, false, none⟩
  | some a, some b =>
    let r := settleRes e 1 none (oplus (enPair e) (enAcc e) a b)
    ⟨r.v, sat || r.sat, leastKind kind r.kind, false, none⟩

/-- Neighbours combined. -/
def pairUp (e : Word) : List SVal → List SVal
  | x :: y :: rest => oplusSr e x y :: pairUp e rest
  | xs => xs

/-- The fixed pairwise tree of R193, `n` levels. -/
def treeSum (e : Word) : Nat → List SVal → SVal
  | 0, xs => xs.headD SVal.empty
  | n + 1, xs => treeSum e n (pairUp e xs)

/-- One scale (R190, R225): not applied to an empty sum. Of an exceptional product the canonical NaN, or under quiet the pair's
zero, is what the cell becomes (R229). -/
def scaleSr (e : Word) (sc : Option Nat) (x : SVal) : SVal :=
  match x.v, sc with
  | some v, some c =>
    if x.final then x
    else
      let p := (fa40.mul FMode.rn v c).1
      let r := settleRes e 2 (some (srZero (enPair e) (enAcc e))) (if fa40.isNan p then OpRes.bad else OpRes.plain p)
      ⟨r.v, x.sat, leastKind x.kind r.kind, r.kind.isSome, none⟩
  | _, _ => x

/-- The value of an INT40 pattern. -/
def intVal (v : Nat) : FVal := .fin (int40 v < 0) (int40 v).natAbs 0

/-- The integer that a value is, where it is one. -/
def FVal.int? : FVal → Option Int
  | .fin neg m e =>
    let sign (n : Nat) : Int := if neg then -(n : Int) else n
    if 0 ≤ e then some (sign (m * 2 ^ e.toNat))
    else if m % 2 ^ (-e).toNat = 0 then some (sign (m / 2 ^ (-e).toNat)) else none
  | _ => none

/-- What a scaled sum adds to an INT40 cell, where that is stated: an integer; an infinity takes every cell beyond the range (R178,
R195). -/
def FVal.addend (v : FVal) : Option Int :=
  match v with
  | .inf neg => some (if neg then -(2 ^ 41) else 2 ^ 41)
  | v => v.int?

/-- An INT40 sum times scales: scaled as the number it is, rounded to FA40 each time (R193). A NaN is an exceptional scale product
(R192, R229). As which number a product that is no integer, or a NaN that is not quieted, enters an INT40 cell is not stated (R178,
R254): a free value (log entry 74). -/
def scaleInt (e : Word) (v c : Nat) (cs : List Nat) (x : SVal) : SVal :=
  let p := cs.foldl (fun p c => (fa40.mul FMode.rn p c).1) (fa40.roundVal FMode.rn (mulVal (intVal v) (fa40.value c))).1
  let open' : Nat := Config.scaledInt p % 2 ^ 40
  if fa40.isNan p then
    ⟨some (if enExc e = 1 then srZero (enPair e) (enAcc e) else open'), x.sat, leastKind x.kind (some 2), true, none⟩
  else
    match (fa40.value p).addend with
    | some n => { x with v := some (satInt n).v, num := some n }
    | none => { x with v := some open' }

/-- A sum times the scales that are asked for (R193, R253), that of the A row first. -/
def scaleSum (e : Word) (sa sb : Option Nat) (x : SVal) : SVal :=
  if enAcc e = 1 then
    match x.v, sa.toList ++ sb.toList with
    | none, _ => x
    | _, [] => x
    | some v, c :: cs => scaleInt e v c cs x
  else scaleSr e sb (scaleSr e sa x)

/-- A scaled integer enters an INT40 cell: added exactly and saturated (R178, R193); an empty cell counts as 0. -/
def intoInt (cell : Option Nat) (n : Int) (x : SVal) : SVal :=
  let r := satInt (((cell.map int40).getD 0) + n)
  { x with v := some r.v, sat := x.sat || r.sat, num := none }

/-- Into the cell: an empty sum leaves it, an empty cell takes the sum (R225), and a final value replaces it (R229). -/
def intoCell (e : Word) (cell : Option Nat) (x : SVal) : SVal :=
  if let some n := x.num then intoInt cell n x else
  match x.v, cell with
  | none, _ => { x with v := cell }
  | some _, none => x
  | some v, some c =>
    if x.final then x
    else
      let r := settleRes e 3 (some (srZero (enPair e) (enAcc e))) (oplus (enPair e) (enAcc e) c v)
      ⟨r.v, x.sat || r.sat, leastKind x.kind r.kind, false, none⟩

/-- One cell of one pass (R193): products, tree, scales, cell. -/
def passCell (e : Word) (cell : Option Nat) (as bs : List (Option Nat)) (sa sb : Option Nat) : SVal :=
  let ps := (as.zip bs).map fun p => otimesSr e p.1 p.2
  intoCell e cell (scaleSum e sa sb (treeSum e 7 ps))

/-! ## Elements -/

/-- An element of a format as a value of the engine (R180, R188, R194): `n` its bits in memory, `book` the codebook of its
tensor. -/
def engineValue (f n : Nat) (book : List (BitVec 16)) : Nat :=
  if f = fmtF32 then (cvtFloat bf16 fa40 FMode.rn (cvtFloat f32 bf16 FMode.rn n).1).1
  else if f = fmtBF16 then (cvtFloat bf16 fa40 FMode.rn n).1
  else if f = fmtC4 then (cvtFloat bf16 fa40 FMode.rn (book.getD n 0).toNat).1
  else if f = fmtS8 then ((BitVec.ofNat 8 n).signExtend 40).toNat
  else if f = fmtS16 then ((BitVec.ofNat 16 n).signExtend 40).toNat
  else n

/-- What MLD makes of an element (R256): exact; any NaN is the canonical one. -/
def loadValue (f n : Nat) : Nat :=
  if f = fmtF32 then (cvtFloat f32 fa40 FMode.rn n).1
  else if f = fmtBF16 then (cvtFloat bf16 fa40 FMode.rn n).1
  else if f = fmtFA40 then (if fa40.isNan (n % 2 ^ 40) then accNan else n % 2 ^ 40)
  else if f = fmtS8 then ((BitVec.ofNat 8 n).signExtend 40).toNat
  else if f = fmtS16 then ((BitVec.ofNat 16 n).signExtend 40).toNat
  else if f = fmtS32 then ((BitVec.ofNat 32 n).signExtend 40).toNat
  else n % 2 ^ 40

/-- Saturate to a range; the second says whether it did. -/
def satRange (lo hi x : Int) : Int × Bool := if x < lo then (lo, true) else if hi < x then (hi, true) else (x, false)

/-- What MST makes of a cell (R256): the element's bits, and whether it saturated. -/
def storeValue (f c : Nat) : Nat × Bool :=
  let ofInt (n : Nat) (r : Int × Bool) : Nat × Bool := ((r.1 % (2 ^ n : Int)).toNat, r.2)
  let x := int40 c
  if f = fmtF32 then ((cvtFloat fa40 f32 FMode.rn c).1, false)
  else if f = fmtBF16 then ((cvtFloat fa40 bf16 FMode.rn c).1, false)
  else if f = fmtFA40 then (if fa40.isNan c then accNan else c, false)
  else if f = fmtS8 then ofInt 8 (satRange (-(2 ^ 7)) (2 ^ 7 - 1) x)
  else if f = fmtS16 then ofInt 16 (satRange (-(2 ^ 15)) (2 ^ 15 - 1) x)
  else if f = fmtS32 then ofInt 32 (satRange (-(2 ^ 31)) (2 ^ 31 - 1) x)
  else if f = fmtN8 then ofInt 8 (satRange 0 (2 ^ 8 - 1) x)
  else if f = fmtN16 then ofInt 16 (satRange 0 (2 ^ 16 - 1) x)
  else if f = fmtN32 then ofInt 32 (satRange 0 (2 ^ 32 - 1) x)
  else if f = fmtB1 then (c % 2, false)
  else ofInt 64 (x, false)

/-- The formats that MLD and MST allow for an accumulator type (R256). -/
def tileFmt (acc f : Nat) : Bool :=
  match acc with
  | 0 => f == fmtF32 || f == fmtBF16 || f == fmtFA40
  | 1 => isNarrowInt f || f == fmtS32 || f == fmtN32 || f == fmtINT40
  | _ => f == fmtB1

end Sys2Proof.Machine
end

