-- ==== Sys2Proof/Machine/Matrix.lean ====
section
/-!
DEFINITION. Matrix requests: signing, the vote and the checks (R232 to R235, R247, R251, R252), operands (R226, R237,
R242), the reservation table and its passes (R239 to R243, R253 to R259), and retirement.
-/

namespace Sys2Proof.Machine

/-! ## Names of a request -/

/-- The request adds an operand product: MMA. -/
def Request.isMma (r : Request) : Bool := r.maj == 0x35
/-- The request reads a source tile. -/
def readsTile (maj : Nat) : Bool := maj == 0x36 || maj == 0x37
/-- MXP, MRP, MRR, MADD, MLD, MST by major and X. -/
def Request.isMxp (r : Request) : Bool := r.maj == 0x36 && r.x == 0
/-- MRP. -/
def Request.isMrp (r : Request) : Bool := r.maj == 0x36 && r.x == 1
/-- MRR. -/
def Request.isMrr (r : Request) : Bool := r.maj == 0x37 && r.x == 0
/-- MADD. -/
def Request.isMadd (r : Request) : Bool := r.maj == 0x37 && r.x == 1
/-- MLD. -/
def Request.isMld (r : Request) : Bool := r.maj == 0x38 && r.x == 0
/-- MST. -/
def Request.isMst (r : Request) : Bool := r.maj == 0x38 && r.x == 1
/-- INIT of the format word (R232). -/
def Request.init (r : Request) : Bool := wbits r.fw 2 1 == 1 && r.maj ≠ 0x38
/-- SB. -/
def Request.useSb (r : Request) : Bool := wbits r.fw 1 1 == 1
/-- SA. -/
def Request.useSa (r : Request) : Bool := wbits r.fw 0 1 == 1
/-- The passes of a request (R231, R254 to R256). -/
def Request.passes (r : Request) : Nat :=
  if r.isMma then (r.klen + pairDepth (enPair r.entry) - 1) / pairDepth (enPair r.entry)
  else if r.maj = 0x38 ∨ r.isMadd = true then 1 else 4
/-- The request is done with its passes, or stopped. -/
def Request.spent (r : Request) : Bool := r.exc.isSome || r.passes ≤ r.pass
/-- The record row of latch row `i`, if the row is not padding (R226, R237, R257). -/
def Request.row (r : Request) (i : Nat) : Option Nat :=
  match KMap.get? i r.rows with
  | some w => if w = 0xFFFFFFFF then none else some w.toNat
  | none => none
/-- INIT empties the cells that the request can write (R253). -/
def Request.writes (r : Request) (k : Nat) : Bool := !r.isMrr || k % 128 == 0

/-! ## Operands (R226, R237, R242) -/

/-- Where an operand element lies: padding; bytes of memory or of the scratchpad with the place of a packed element; the fault of
R242; or not to be found before the update-only copies of a line are combined (R106). -/
inductive Opnd where
  | pad
  | copies (line : Nat)
  | glob (ks : List Nat) (sub : Nat)
  | spad (os : List Nat) (sub : Nat)
  | bad (cause addr : Nat)
  deriving DecidableEq, Repr

/-- The place of an element in bounds. A scale element takes the bounds fault beyond the window as an element of A or B does (log
entry 101). -/
def State.opndAt (s : State) (tk : Task) (r : Rec) (o : Nat) (rt : Rights) : Opnd :=
  let a := r.address o
  let z := fmtBytes r.fmt
  if r.space = 1 then
    if (List.range z).any fun i => 4096 * tk.pages ≤ a + i then .bad causeBounds a
    else .spad ((List.range z).map (a + ·)) (r.subBit o)
  else if a / 2 ^ 56 % 2 = 1 then .bad causePermission a
  else
    match s.keysOf tk.ctx rt a z with
    | .error e => ((recallLine e.1).map Opnd.copies).getD (.bad e.1 e.2)
    | .ok p => .glob p.1 (r.subBit o)

/-- The place of element `o` under PAD: 0 pads what lies beyond the record, 1 asks its BMODE (R142, R226). -/
def State.opnd (s : State) (tk : Task) (r : Rec) (pad o : Nat) (rt : Rights) : Opnd :=
  if o < r.extent then s.opndAt tk r o rt
  else if pad = 0 then .pad
  else
    match r.bounded o with
    | .at o => s.opndAt tk r o rt
    | .dropped => .pad
    | .fault => .bad causeBounds o

/-- The read right. -/
def readOnly : Rights := ⟨true, false, false⟩

/-- A byte of memory as an engine request of a task sees it: what a core of the task holds, else that of the home (R113, R258); a byte
of a device register (R366). -/
def State.matByte (s : State) (tk : Task) (k : Nat) : Byte :=
  if isReg k then (s.regLoad [k]).headD 0 else (tk.cores.findSome? fun c => s.nearByte tk c k).getD (s.homeByte k)

/-- The bits of an operand element as they stand now; none for padding. -/
def State.opndBits (s : State) (tk : Task) (f : Nat) (x : Opnd) : Option Nat :=
  let part (n sub : Nat) : Nat := if fmtPacked f then n / 2 ^ sub % 2 ^ fmtBits f else n
  match x with
  | .glob ks sub => some (part (leNat (ks.map (s.matByte tk))) sub)
  | .spad os sub => some (part (leNat (os.map tk.spadByte)) sub)
  | _ => none

/-- The K indices of a pass; those past the bound range are padding. -/
def Request.ks (r : Request) (p : Nat) : List (Option Nat) :=
  let d := pairDepth (enPair r.entry)
  (List.range d).map fun k => if d * p + k < r.klen then some (r.kstart + d * p + k) else none

/-- The offset of element K of latch row `i` of A; none for padding. -/
def Request.offA (r : Request) (i : Nat) (k : Option Nat) : Option Nat :=
  (r.row i).bind fun row => k.map fun k => row * (Rec.ofWords r.recA).rowlen + k
/-- The offset of element (K, c) of B. -/
def Request.offB (r : Request) (c : Nat) (k : Option Nat) : Option Nat := k.map fun k => k * (Rec.ofWords r.recB).rowlen + c
/-- The offset of element (i, c) of the record that MLD and MST name (R257). -/
def Request.offTile (r : Request) (i c : Nat) : Option Nat := (r.row i).map fun row => row * (Rec.ofWords r.recB).rowlen + c

/-- The place of an element of a record of the request; none is padding. -/
def State.opndOf (s : State) (tk : Task) (r : Request) (x : Rec) (o : Option Nat) (rt : Rights) : Opnd :=
  match o with
  | some o => s.opnd tk x (enPad r.entry) o rt
  | none => .pad
/-- Element K of latch row `i` of A. -/
def State.opndA (s : State) (tk : Task) (r : Request) (i : Nat) (k : Option Nat) : Opnd :=
  s.opndOf tk r (Rec.ofWords r.recA) (r.offA i k) readOnly
/-- Element (K, c) of B. -/
def State.opndB (s : State) (tk : Task) (r : Request) (c : Nat) (k : Option Nat) : Opnd :=
  s.opndOf tk r (Rec.ofWords r.recB) (r.offB c k) readOnly
/-- The scale of a row or column of a K block (R190). -/
def State.opndScale (s : State) (tk : Task) (w : Option (Vector Word 8)) (row : Option Nat) (kb : Nat) : Opnd :=
  match w, row with
  | some w, some row => let c := Rec.ofWords w; s.opnd tk c 1 (row * c.rowlen + kb) readOnly
  | _, _ => .pad
/-- The K block of a pass (R190). -/
def Request.kb (r : Request) (p : Nat) : Nat := (r.kstart + 32 * p) / 32
/-- Element (i, c) of the record that MLD and MST name (R257). -/
def State.opndTile (s : State) (tk : Task) (r : Request) (i c : Nat) : Opnd :=
  s.opndOf tk r (Rec.ofWords r.recB) (r.offTile i c) (if r.isMst then ⟨false, true, false⟩ else readOnly)

/-- 0 to 127. -/
def lanes128 : List Nat := List.range 128

/-! ### Elements read at the formation of a request (R238) -/

/-- The lines of memory of operands. -/
def passLines (xs : List Opnd) : List Nat :=
  (xs.flatMap fun x => match x with
    | .glob ks _ => ks.map lineOf
    | _ => []).eraseDups

/-- The name of element `o` of a side: 0 for A, 1 for B and for the record of MLD. -/
def sideKey (side o : Nat) : Nat := 2 * o + side

/-- The elements of A, B or the record of MLD that a request reads: side, record, offset. -/
def Request.elements (r : Request) : List (Nat × Rec × Nat) :=
  if r.isMma then
    let ks := (List.range r.klen).map fun k => some (r.kstart + k)
    (lanes128.flatMap fun i => ks.filterMap fun k => (r.offA i k).map fun o => (0, Rec.ofWords r.recA, o)) ++
      ks.flatMap fun k => lanes128.filterMap fun c => (r.offB c k).map fun o => (1, Rec.ofWords r.recB, o)
  else if r.isMld then
    lanes128.flatMap fun i => lanes128.filterMap fun c => (r.offTile i c).map fun o => (1, Rec.ofWords r.recB, o)
  else []

/-- What a request reads at its formation: a free choice of its elements, of those that need not wait for a write. An element that is
written while the request is outstanding is so read as its old or as its new value (R238). -/
def State.readEarly (s : State) (tk : Task) (r : Request) : KMap Nat :=
  if s.engBlocked tk then []
  else
    (r.elements.filter fun x => Config.readEarly r.id (sideKey x.1 x.2.2)).foldl (fun m x =>
      let p := s.opnd tk x.2.1 (enPad r.entry) x.2.2 readOnly
      let ls := passLines [p]
      if ls.any s.poison.contains || (s.copied ls).isSome then m
      else ((s.opndBits tk x.2.1.fmt p).map fun n => KMap.put (sideKey x.1 x.2.2) n m).getD m) []

/-- The bits of an element, read at the formation of the request or now. -/
def State.elemBits (s : State) (tk : Task) (r : Request) (side : Nat) (x : Rec) (o : Option Nat) : Option Nat :=
  o.bind fun o => (s.opndBits tk x.fmt (s.opnd tk x (enPad r.entry) o readOnly)).map fun n => (KMap.get? (sideKey side o) r.early).getD n

/-- Every operand of a pass, A first, then B, then scales. -/
def State.opnds (s : State) (tk : Task) (r : Request) (p : Nat) : List Opnd :=
  if r.isMma then
    let ks := r.ks p
    (lanes128.flatMap fun i => ks.map fun k => s.opndA tk r i k) ++
    (ks.flatMap fun k => lanes128.map fun c => s.opndB tk r c k) ++
    (if r.useSa then lanes128.map fun i => s.opndScale tk r.scA (r.row i) (r.kb p) else []) ++
    (if r.useSb then lanes128.map fun c => s.opndScale tk r.scB (some c) (r.kb p) else [])
  else if r.maj = 0x38 then lanes128.flatMap fun i => lanes128.map fun c => s.opndTile tk r i c
  else []

/-- The first fault among operands: A by row, then B by K index, then scales (log entry 102). -/
def firstBad : List Opnd → Option (Nat × Nat)
  | [] => none
  | .bad c a :: _ => some (c, a)
  | _ :: rest => firstBad rest

/-- The lines that have to be combined before the operands can be found. -/
def openLines (xs : List Opnd) : List Nat :=
  (xs.filterMap fun x => match x with
    | .copies l => some l
    | _ => none).eraseDups

/-- The lines that have to be combined before the operands of the passes `p` to `p + n - 1` can be found (R106). -/
def State.operandCopies (s : State) (tk : Task) (r : Request) : Nat → Nat → List Nat
  | _, 0 => []
  | p, n + 1 => openLines (s.opnds tk r p) ++ s.operandCopies tk r (p + 1) n

/-- The first operand fault of the passes `p` to `p + n - 1` (R242): of the first pass that has one (log entry 102). -/
def State.operandFault (s : State) (tk : Task) (r : Request) : Nat → Nat → Option (Nat × Nat)
  | _, 0 => none
  | p, n + 1 =>
    match firstBad (s.opnds tk r p) with
    | some f => some f
    | none => s.operandFault tk r (p + 1) n

/-! ## Formation (R233 to R235, R242, R251, R252) -/

/-- The members of a binding's cohort, by TID. -/
def Task.members (tk : Task) (b : Binding) : List Nat :=
  let e := tk.entry (wbits b.w0 0 8)
  (List.range (entryCount e)).map fun r => entryBase e + r * entryStride e
/-- The rank of a member. -/
def Task.memberRank (tk : Task) (b : Binding) (t : Nat) : Nat :=
  let e := tk.entry (wbits b.w0 0 8)
  (t - entryBase e) / entryStride e

/-- A scale record that is there and valid (R190): of the scratchpad or of global memory (log entry 103). -/
def scaleOk (w : Option (Vector Word 8)) : Bool :=
  match w with
  | some w =>
    let r := Rec.ofWords w
    r.ok && r.fmt == fmtBF16 && r.rowlen ≠ 0 && (r.space == 0 || r.space == 1)
  | none => false

/-- The key of a codebook in a cluster's store (R262). -/
def bookKey (ctx tens : Nat) : Nat := ctx * 256 + tens
/-- A C4 record has its codebook (R180). -/
def State.hasBook (s : State) (k ctx : Nat) (r : Rec) : Bool :=
  r.fmt ≠ fmtC4 || (KMap.get? (bookKey ctx r.tens) (s.cluster k).books).isSome

/-- The first failing step of R252 for what was signed. -/
def State.formatStep (s : State) (tk : Task) (b : Binding) (g : Sig) (e : Word) : Option Nat :=
  let a := Rec.ofWords b.recA
  let c := Rec.ofWords b.recB
  let k := clusterOf tk.core
  let fw := g.fw.toNat
  let sa := fw % 2 == 1
  let sb := fw / 2 % 2 == 1
  let stray := wbits g.fw 16 16 ≠ 0 || wbits g.fw 3 5 ≠ 0 ||
    (readsTile g.maj && (sa || sb)) || (g.maj == 0x38 && (sa || sb || fw / 4 % 2 == 1))
  let stile := wbits b.w0 18 4
  if stray then some 1
  else if !enValid e then some 2
  else if g.maj = 0x35 &&
      !(a.ok && c.ok && a.space == 1 && (c.space == 0 || c.space == 1) && a.fmt == enAf e && c.fmt == enBf e &&
        a.rowlen ≠ 0 && c.rowlen ≠ 0) then some 3
  else if g.maj = 0x38 &&
      !(c.ok && (c.space == 0 || c.space == 1) && tileFmt (enAcc e) c.fmt && c.rowlen ≠ 0) then some 3
  else if g.maj = 0x35 && ((sa || sb) && !pairMul (enPair e) || (sa && !scaleOk b.scA) || (sb && !scaleOk b.scB) ||
      ((sa || sb) && wbits b.w1 0 24 % 32 ≠ 0)) then some 4
  else if g.maj = 0x35 && !(s.hasBook k tk.ctx a && s.hasBook k tk.ctx c) then some 5
  else if readsTile g.maj && ((KMap.get? stile tk.tiles).isNone || stile == g.tl) then some 6
  else none

/-- The signers that still stand at the word (R233). -/
def Binding.standing (b : Binding) : List Nat := b.sigs.filterMap fun p => if p.2.left then none else some p.2.tid

/-- A signer that the watchdog has taken from the word, and that waits there to sign again, looks again. -/
def State.wakeLeft (s : State) (a : Nat) (b : Binding) : State :=
  b.sigs.foldl (fun s p => if p.2.left then s.updThread a p.2.tid (fun th => if th.cond = .held .toSign then th.wake else th) else s) s

/-- Take a fault at every signer's word; OC1 falls back (R234, R242). A signer that the watchdog has taken from the word takes
none. -/
def State.refuse (s : State) (a cause taddr : Nat) (tinfo : Word) (b : Binding) : State :=
  let s := b.sigs.foldl (fun s p => s.updThread a p.2.tid fun th => th.uncount 1) s
  (b.standing.foldl (fun s t => s.raise a t cause taddr tinfo) s).wakeLeft a b

/-- The page and word that R393 remembers of a matrix fetch. -/
def fetchPage (va pc : Nat) : Nat := va / 2 ^ 16 * 2 ^ 57 + pc

/-- A translation or permission fault of an operand (R242, R393): a revocable task is killed and relaunched after a hold,
unless its last attempt was for the same page at the same word; otherwise every signer takes the fault. -/
def State.operandKill (s : State) (a : Nat) (tk : Task) (cause va pc : Nat) (b : Binding) : State :=
  if s.immune tk || tk.matFault == some (fetchPage va pc) then s.refuse a cause va 0 b
  else
    let s := s.updTask a fun tk => { tk with matFault := some (fetchPage va pc) }
    s.haltTask a (.relaunch cause 65536) 0 va

/-- The requests of a cluster that stand in the table (R239). -/
def Cluster.admitted (c : Cluster) : List Request := c.table.filter Request.admitted

/-- The request that a binding's signatures make (R233, R239, R252). -/
def State.request (s : State) (a cv : Nat) (b : Binding) (g : Sig) (e : Word) : Request :=
  { id := s.nextId, accn := a, cv := cv, maj := g.maj, x := g.x, tl := g.tl
    stile := if readsTile g.maj then some (wbits b.w0 18 4) else none
    entry := e, fw := g.fw, rows := b.sigs.map fun p => (p.1, p.2.idx), signers := b.sigs.map fun p => p.2.tid
    held := if enExc e = 2 then b.standing else [], recA := b.recA, recB := b.recB, scA := b.scA, scB := b.scB
    kstart := wbits b.w1 0 24, klen := wbits b.w2 0 25, formed := s.nextId, pass := 0, filled := [], exc := none
    early := [], stopped := false, wct := 0, admitted := false, hold := 0 }

/-- The request is formed: it enters the table, or waits outside it, and its signers go on unless EXC is trap. -/
def State.enterRequest (s : State) (a cv k : Nat) (r : Request) (b : Binding) : State :=
  let c := s.cluster k
  let r := { r with admitted := c.admitted.length < 32 }
  let s := (s.updCluster k fun c =>
    { c with table := c.table ++ [r], cvs := KMap.upd cv (fun b => { b with sigs := [] }) c.cvs })
  let s := { s with nextId := s.nextId + 1 }.wakeLeft a b
  if enExc r.entry = 2 then s
  else b.standing.foldl (fun s t => s.updThread a t fun th => { th.next with cond := .running }) s

/-- Every live member of a binding has signed, and some member has (R233). -/
def Task.allSigned (tk : Task) (b : Binding) : Bool :=
  !b.sigs.isEmpty && (tk.members b).all fun t =>
    (b.sigs.any fun p => p.2.tid == t) || !((KMap.get? t tk.threads).map Thread.live).getD false

/-- Form the request of a convergence register if every live member has signed or exited (R233). Where the place of an operand rests on
update-only copies they are recalled, and the request is formed once they are combined (R106). -/
def State.form (s : State) (a cv : Nat) : State :=
  match s.task? a with
  | none => s
  | some tk =>
    let k := clusterOf tk.core
    match KMap.get? cv (s.cluster k).cvs with
    | none => s
    | some b =>
      if b.accn ≠ a || !tk.allSigned b then s
      else
        match b.sigs with
        | [] => s
        | (_, g) :: rest =>
          let drop (s : State) : State :=
            s.updCluster k fun c => { c with cvs := KMap.upd cv (fun b => { b with sigs := [] }) c.cvs }
          let e := ((s.ctx? tk.ctx).map fun c => c.optab.getD g.opx 0).getD 0
          let lost := b.sigs.any fun p => (KMap.get? p.2.tl tk.tiles).isNone ||
            (readsTile p.2.maj && (KMap.get? (wbits b.w0 18 4) tk.tiles).isNone)
          if lost then (drop s).refuse a causeIllegalOperand 0 0 b
          else
            match rest.find? fun p => (p.2.fw, p.2.maj, p.2.x, p.2.tl, p.2.opx) ≠ (g.fw, g.maj, g.x, g.tl, g.opx) with
            | some p => (drop s).refuse a causeDivergence 0 (word p.2.tid) b
            | none =>
              match s.formatStep tk b g e with
              | some n => (drop s).refuse a causeFormat 0 (word n) b
              | none =>
                let r := s.request a cv b g e
                let ls := s.operandCopies tk r 0 r.passes
                if !ls.isEmpty then (s.recallLines ls).1 else
                match s.operandFault tk r 0 r.passes with
                | some f =>
                  let pc := ((s.thread? a g.tid).map fun th => th.pc.toNat).getD 0
                  if f.1 = causeBounds then (drop s).refuse a f.1 f.2 0 b
                  else (drop s).operandKill a tk f.1 f.2 pc b
                | none => s.enterRequest a cv k { r with early := s.readEarly tk r } b

/-- Form every request of a task that an exit completes (R233). -/
def State.formAll (s : State) (a : Nat) : State :=
  match s.task? a with
  | none => s
  | some tk =>
    (KMap.keys (s.cluster (clusterOf tk.core)).cvs).foldl (fun s cv => s.form a cv) s

/-! ## Signing (R233, R247) -/

/-- A collective word: what it signs, and its row-index register if it has one. -/
structure MatWord where
  cv : Nat
  tl : Nat
  opx : Nat
  maj : Nat
  x : Nat
  idx : Option Nat
  fw : Nat
  deriving DecidableEq, Repr

/-- One lane of a collective word (R247): the checks, then the signature. -/
def signLane (m : MatWord) (s : State) (t : Nat) (tk : Task) (th : Thread) : State :=
  let a := s.issue.accn
  let k := clusterOf tk.core
  let regs := m.fw :: m.idx.toList
  match KMap.get? m.cv (s.cluster k).cvs with
  | none => s.raise a t causeIllegalOperand 0 0
  | some b =>
    if b.accn ≠ a || !b.bound || !entryHas (tk.entry (wbits b.w0 0 8)) tk.rcd.tidx t || (KMap.get? m.tl tk.tiles).isNone ||
        regs.any fun n => !tk.holdsReg n then s.raise a t causeIllegalOperand 0 0
    else if regs.any (s.awaits a t) then s.interlock a t
    else if (b.sigs.any fun p => p.2.tid == t) || 63 ≤ th.counter 1 then s.holdThread a t .toSign
    else
      let g : Sig := ⟨t, (m.idx.map th.reg).getD 0xFFFFFFFF, th.reg m.fw, m.maj, m.x, m.tl, m.opx, false⟩
      let s := s.updCluster k fun c =>
        { c with cvs := KMap.upd m.cv (fun b => { b with sigs := KMap.put (tk.memberRank b t) g b.sigs }) c.cvs }
      s.updThread a t fun th => (th.count 1).hold .signing

/-- A thread is held while it signs, or waits to sign. -/
def State.signs (s : State) (a t : Nat) : Bool :=
  match (s.thread? a t).map Thread.cond with
  | some (.held w) => w.signs
  | _ => false

/-- A collective word: its threads sign; the held signers stand at a stop point (R212); the request is formed if that completes it. -/
def matWord (m : MatWord) (s : State) : Out :=
  let a := s.issue.accn
  let r := s.perLane 0 [] (signLane m)
  .next (((r.meetings a (s.carried.filter (r.signs a))).form a m.cv).meetings a [])

/-- MMA (R254). -/
def execMma (o : Mx) (s : State) : Out :=
  matWord ⟨o.v.toNat, o.t.toNat, o.o.toNat, 0x35, 0, some o.i.toNat, o.f.toNat⟩ s
/-- MXP (R255). -/
def execMxp (o : Mx0) (s : State) : Out := matWord ⟨o.v.toNat, o.t.toNat, o.o.toNat, 0x36, 0, none, o.f.toNat⟩ s
/-- MRP (R255). -/
def execMrp (o : Mx) (s : State) : Out :=
  matWord ⟨o.v.toNat, o.t.toNat, o.o.toNat, 0x36, 1, some o.i.toNat, o.f.toNat⟩ s
/-- MRR (R255). -/
def execMrr (o : Mx0) (s : State) : Out := matWord ⟨o.v.toNat, o.t.toNat, o.o.toNat, 0x37, 0, none, o.f.toNat⟩ s
/-- MADD (R255). -/
def execMadd (o : Mx0) (s : State) : Out := matWord ⟨o.v.toNat, o.t.toNat, o.o.toNat, 0x37, 1, none, o.f.toNat⟩ s
/-- MLD (R256). -/
def execMld (o : Mx) (s : State) : Out :=
  matWord ⟨o.v.toNat, o.t.toNat, o.o.toNat, 0x38, 0, some o.i.toNat, o.f.toNat⟩ s
/-- MST (R256). -/
def execMst (o : Mx) (s : State) : Out :=
  matWord ⟨o.v.toNat, o.t.toNat, o.o.toNat, 0x38, 1, some o.i.toNat, o.f.toNat⟩ s

/-! ## Passes (R193, R231, R239, R254 to R257) -/

/-- The cells of a tile as an array. -/
def Tile.array (t : Tile) : Array Nat :=
  t.cells.foldl (fun m p => m.setIfInBounds p.1 p.2.toNat) (Array.replicate 16384 0)
/-- A cell read under an accumulator type (R176, R256). -/
def cellRead (acc x : Nat) : Nat := if acc = 2 then x % 2 else if acc = 0 && fa40.isNan x then accNan else x
/-- Cells from an array; 0 is unlisted. -/
def cellsOf (m : Nat → Nat) : KMap Acc :=
  (List.range 16384).filterMap fun k => if m k = 0 then none else some (k, BitVec.ofNat 40 (m k))

/-- A physical tile of a task by name. -/
def State.tileOf (s : State) (tk : Task) (name : Nat) : Tile :=
  match KMap.get? name tk.tiles with
  | some p => KMap.getD p Tile.empty (s.cluster (clusterOf tk.core)).tiles
  | none => Tile.empty
/-- Change a physical tile of a task by name. -/
def State.updTile (s : State) (tk : Task) (name : Nat) (f : Tile → Tile) : State :=
  match KMap.get? name tk.tiles with
  | some p => s.updCluster (clusterOf tk.core) fun c => { c with tiles := KMap.put p (f (KMap.getD p Tile.empty c.tiles)) c.tiles }
  | none => s

/-- The codebook that a record names, as it stands when the pass decodes with it: after a CBLD over the key of a request that has been
formed, the passes of that request that are still to come decode with the new one (DESIGN CHOICE, log entry 115: R262 speaks only of
requests formed after it). -/
def State.bookOf (s : State) (tk : Task) (r : Rec) : List (BitVec 16) :=
  ((KMap.get? (bookKey tk.ctx r.tens) (s.cluster (clusterOf tk.core)).books).map Codebook.vals).getD []

/-- The key of a scale line in a cluster's cache (R191): launch, tensor id, line in the record. -/
def scaleKey (launch : Nat) (r : Rec) (va : Nat) : Nat :=
  (launch * 256 + r.tens) * 2 ^ 50 + ((((va / 128 : Nat) : Int) - (r.base / 128 : Nat)) % (2 ^ 50 : Int)).toNat

/-- The cached byte of a scale record at an address, where its line is cached (R191). -/
def State.scaleByte (s : State) (tk : Task) (r : Rec) (va : Nat) : Option Byte :=
  (KMap.get? (scaleKey tk.launch r va) (s.cluster (clusterOf tk.core)).scales).map fun line => line.getD (va % 128) 0

/-- A scale as a pass sees it (R191): where its lines are cached, the cached value or that of memory, which is free for each scale;
0 beyond the record under zero-fill (R142, R190). `side` is 0 for a row of A, 1 for a column of B. -/
def State.scaleBits (s : State) (tk : Task) (side : Nat) (w : Option (Vector Word 8)) (row kb : Nat) (x : Opnd) : Nat :=
  match w, x with
  | none, _ => 0
  | _, .pad => 0
  | some w, _ =>
    let r := Rec.ofWords w
    let va := r.address (r.used (row * r.rowlen + kb))
    let now := (s.opndBits tk fmtBF16 x).getD 0
    match s.scaleByte tk r va, s.scaleByte tk r (va + 1) with
    | some lo, some hi =>
      let old := leNat [lo, hi]
      if now = old then now else if Config.scaleStale s.free ((side * 2 ^ 32 + row) * 2 ^ 24 + kb) then old else now
    | _, _ => now

/-- Latch row `i` of A in a pass. -/
def State.latchA (s : State) (tk : Task) (r : Request) (p i : Nat) : List (Option Nat) :=
  let a := Rec.ofWords r.recA
  (r.ks p).map fun k => (s.elemBits tk r 0 a (r.offA i k)).map fun n => engineValue a.fmt n (s.bookOf tk a)
/-- Column `c` of B in a pass. -/
def State.latchB (s : State) (tk : Task) (r : Request) (p c : Nat) : List (Option Nat) :=
  let b := Rec.ofWords r.recB
  (r.ks p).map fun k => (s.elemBits tk r 1 b (r.offB c k)).map fun n => engineValue b.fmt n (s.bookOf tk b)
/-- A scale as an FA40 value; none where it is not asked for. -/
def State.scaleVal (s : State) (tk : Task) (use : Bool) (side : Nat) (w : Option (Vector Word 8)) (row : Option Nat) (kb : Nat) :
    Option Nat :=
  match use, row with
  | true, some row =>
    some (engineValue fmtBF16 (s.scaleBits tk side w row kb (s.opndScale tk w (some row) kb)) [])
  | _, _ => none

/-- The sums of a pass before they enter the cells (R193, R231): by row and column. What the request has not read before is read in one
step (log entry 104). -/
def State.passSums (s : State) (tk : Task) (r : Request) (src : Array Nat) : Nat → Nat → SVal :=
  let e := r.entry
  let sv (k : Nat) : Option Nat := some (cellRead (enAcc e) (src.getD k 0))
  if r.isMma then
    let as : Array (List (Option Nat)) := (lanes128.map (s.latchA tk r r.pass)).toArray
    let bs : Array (List (Option Nat)) := (lanes128.map (s.latchB tk r r.pass)).toArray
    let sa : Array (Option Nat) := (lanes128.map fun i => s.scaleVal tk r.useSa 0 r.scA (r.row i) (r.kb r.pass)).toArray
    let sb : Array (Option Nat) := (lanes128.map fun c => s.scaleVal tk r.useSb 1 r.scB (some c) (r.kb r.pass)).toArray
    fun i c =>
      let ps := ((as.getD i []).zip (bs.getD c [])).map fun p => otimesSr e p.1 p.2
      scaleSum e (sa.getD i none) (sb.getD c none) (treeSum e 7 ps)
  else if r.isMxp then fun i j => if i / 32 = r.pass then oneSr e (sv (128 * j + i)) else SVal.empty
  else if r.isMrp then fun i j =>
    match KMap.get? i r.rows with
    | some w => if w.toNat / 32 = r.pass then oneSr e (sv (128 * w.toNat + j)) else SVal.empty
    | none => SVal.empty
  else if r.isMrr then fun i j =>
    if j = 0 then treeSum e 7 ((List.range 32).map fun k => oneSr e (sv (128 * i + 32 * r.pass + k))) else SVal.empty
  else fun i j => SVal.of (sv (128 * i + j))

/-- A cell of the target as the pass finds it: empty under INIT until something entered it (R225, R253). -/
def Request.cell (r : Request) (old : Array Nat) (k : Nat) : Option Nat :=
  if r.init && r.writes k && (KMap.get? k r.filled).isNone then none
  else some (cellRead (enAcc r.entry) (old.getD k 0))

/-- The element of the source tile that MXP or MRP copies to cell k in this pass, if it is a zero: it annihilates, so it leaves a
cell that holds a number alone (R225), and is copied bit for bit into an empty one (R231, R255). -/
def Request.zeroCopy (r : Request) (src : Array Nat) (k : Nat) : Option Nat :=
  let at' (row col : Nat) : Option Nat :=
    let x := cellRead (enAcc r.entry) (src.getD (128 * row + col) 0)
    if isZero (enPair r.entry) (enAcc r.entry) x then some x else none
  if r.isMxp then (if k / 128 / 32 = r.pass then at' (k % 128) (k / 128) else none)
  else if r.isMrp then
    match KMap.get? (k / 128) r.rows with
    | some w => if w.toNat / 32 = r.pass then at' w.toNat (k % 128) else none
    | none => none
  else none

/-- The first exceptional cell of a pass, lowest row then lowest column, as the TINFO of R259: of a pass number of 65,536 or more, PASS
has the low 16 bits (DESIGN CHOICE, log entry 116). -/
def Request.firstExc (r : Request) (res : Array SVal) : Option Word :=
  (List.range 16384).findSome? fun k =>
    ((res.getD k SVal.empty).kind).map fun kind => word (r.pass * 2 ^ 16 + kind * 2 ^ 14 + k % 128 * 2 ^ 7 + k / 128)

/-- The cells of an arithmetic pass: an empty sum leaves a cell bit for bit (R225, R227). -/
def State.passCells (s : State) (tk : Task) (r : Request) : Array SVal :=
  let old := (s.tileOf tk r.tl).array
  let src := (s.tileOf tk (r.stile.getD r.tl)).array
  let sums := s.passSums tk r src
  ((List.range 16384).map fun k =>
    match (sums (k / 128) (k % 128)).v with
    | none =>
      { sums (k / 128) (k % 128) with
        v := match r.cell old k with
          | some _ => some (old.getD k 0)
          | none => r.zeroCopy src k }
    | some _ => intoCell r.entry (r.cell old k) (sums (k / 128) (k % 128))).toArray

/-- Change a request of a cluster. -/
def State.updRequest (s : State) (k id : Nat) (f : Request → Request) : State :=
  s.updCluster k fun c => { c with table := c.table.map fun r => if r.id = id then f r else r }

/-- An arithmetic pass (R193, R243): it writes its cells, or under EXC trap stops the request with none written. -/
def State.arithPass (s : State) (tk : Task) (k : Nat) (r : Request) : State :=
  let res := s.passCells tk r
  let old := (s.tileOf tk r.tl).array
  match (if enExc r.entry = 2 then r.firstExc res else none) with
  | some i => s.updRequest k r.id fun r => { r with exc := some i }
  | none =>
    let touched (j : Nat) : Bool := r.writes j
    let s := s.updTile tk r.tl fun t =>
      { t with
        cells := cellsOf fun j => if touched j then (res.getD j SVal.empty).v.getD (old.getD j 0) else old.getD j 0
        sat := t.sat || res.any SVal.sat }
    s.updRequest k r.id fun r =>
      { r with
        pass := r.pass + 1
        filled := if r.init then (List.range 16384).filterMap fun j =>
            if r.writes j && (res.getD j SVal.empty).v.isSome then some (j, ()) else none
          else [] }

/-- MLD (R256, R257): rows with a row index are replaced. -/
def State.loadPass (s : State) (tk : Task) (k : Nat) (r : Request) : State :=
  let b := Rec.ofWords r.recB
  let old := (s.tileOf tk r.tl).array
  let new (j : Nat) : Nat :=
    match r.row (j / 128) with
    | none => old.getD j 0
    | some _ =>
      match s.elemBits tk r 1 b (r.offTile (j / 128) (j % 128)) with
      | some n => loadValue b.fmt n
      | none => srZero (enPair r.entry) (enAcc r.entry)
  (s.updTile tk r.tl fun t => { t with cells := cellsOf new }).updRequest k r.id fun r => { r with pass := r.pass + 1 }

/-- An element that an MST writes: the cell, its virtual address and its place, its bits, and whether it saturated. -/
structure StoreItem where
  cell : Nat
  va : Nat
  place : Opnd
  bits : Nat
  sat : Bool
  deriving DecidableEq, Repr

/-- The place of an element as a number: elements at one place are written together. -/
def Opnd.spot : Opnd → Nat
  | .glob ks sub => 16 * ks.headD 0 + sub
  | .spad os sub => 16 * os.headD 0 + sub + 8
  | _ => 0

/-- What an MST writes (R257): by rank and column, so that the higher rank of a duplicate row is written last. -/
def State.storeItems (s : State) (tk : Task) (r : Request) : List StoreItem :=
  let b := Rec.ofWords r.recB
  let old := (s.tileOf tk r.tl).array
  (List.range 16384).filterMap fun j =>
    match s.opndTile tk r (j / 128) (j % 128) with
    | .pad => none
    | .bad _ _ => none
    | x =>
      let v := storeValue b.fmt (old.getD j 0)
      some ⟨j, b.address (b.used ((r.offTile (j / 128) (j % 128)).getD 0)), x, v.1, v.2⟩

/-- Merge element bits into bytes: `old` reads a byte as it stands, `m` holds the bytes written so far. -/
def mergeBits (f : Nat) (old : Nat → Byte) (m : KMap Byte) (ks : List Nat) (sub v : Nat) : KMap Byte :=
  if fmtPacked f then
    match ks with
    | k :: _ =>
      let b := (KMap.getD k (old k) m).toNat
      KMap.put k (BitVec.ofNat 8 (b - b / 2 ^ sub % 2 ^ fmtBits f * 2 ^ sub + v * 2 ^ sub)) m
    | [] => m
  else (ks.zip (leBytes ks.length v)).foldl (fun m p => KMap.put p.1 p.2 m) m

/-- The bytes that an MST writes to memory and to the scratchpad. -/
def State.storeBytes (s : State) (tk : Task) (f : Nat) (xs : List StoreItem) : KMap Byte × KMap Byte :=
  xs.foldl (fun (m : KMap Byte × KMap Byte) x =>
    match x.place with
    | .glob ks sub => (mergeBits f (fun k => (tk.cores.findSome? fun c => s.nearByte tk c k).getD (s.lastByte k)) m.1 ks sub x.bits, m.2)
    | .spad os sub => (m.1, mergeBits f tk.spadByte m.2 os sub x.bits)
    | _ => m) ([], [])

/-- What an MST writes would overflow the effect buffer of its task (R130). -/
def State.storeFull (s : State) (tk : Task) (r : Request) : Bool :=
  let b := Rec.ofWords r.recB
  let bs : KMap Byte := (s.storeBytes tk b.fmt (s.storeItems tk r)).1.filter fun p => !isReg p.1
  tk.buffers && !bs.isEmpty && 32 * tk.ebPages < ebufLines ((tk.buffer 0 0 bs).ebuf) tk.parts

/-- The bytes `bs` of elements go into the effect buffer, each under its own page (R369); a byte of a device register does not. -/
def Task.bufferItems (tk : Task) (gen : Nat) (bs : KMap Byte) (xs : List StoreItem) : Task :=
  xs.foldl (fun tk x => match x.place with
    | .glob ks _ =>
      ks.zipIdx.foldl (fun tk p => if isReg p.1 then tk else tk.buffer gen (x.va + p.2) [(p.1, KMap.getD p.1 0 bs)]) tk
    | _ => tk) tk

/-- Elements that lie on device registers are stored there (R366): 4-byte stores; a narrower one is dropped. -/
def State.storeRegs (s : State) (xs : List StoreItem) : State :=
  xs.foldl (fun s x => match x.place with
    | .glob ks _ => if ks.any isReg then s.regStoreBytes ks (leBytes ks.length x.bits) else s
    | _ => s) s

/-- The elements that an MST writes in one step: a free part of those not written yet, not empty, elements at one place together (R258). -/
def State.storePart (s : State) (xs : List StoreItem) : List StoreItem :=
  match xs.filter fun x => Config.performed s.free x.place.spot with
  | [] => xs
  | ys => ys

/-- MST (R256 to R258): engine writes, buffered in a BUF task that is revocable. An overflow of the effect buffer commits
the task first (R130, R272, R275). The pass is over once every element is written; `filled` holds those that are. -/
def State.storePass (s : State) (tk : Task) (k : Nat) (r : Request) : State :=
  let a := r.accn
  let b := Rec.ofWords r.recB
  let left := (s.storeItems tk r).filter fun x => (KMap.get? x.cell r.filled).isNone
  let xs := s.storePart left
  let m := s.storeBytes tk b.fmt xs
  let bs : KMap Byte := m.1.filter fun p => !isReg p.1
  if s.storeFull tk r then (if s.isDet tk && s.dominatedNow tk then s.haltTask a .cancel else s.irrevoke a tk)
  else
    let s := (s.storeRegs xs).updTask a fun tk => tk.spadWrite m.2
    let s := s.updTile tk r.tl fun t => { t with sat := t.sat || xs.any StoreItem.sat }
    let w : State × Nat :=
      if tk.buffers then (s.updTask a fun tk => tk.bufferItems (s.genOf tk) bs xs, 0)
      else
        (byLine bs).foldl (fun (w : State × Nat) l =>
          let q := (tk.cores.foldl (fun s c => s.writeBack c l.1 fun _ => true) w.1).homeStore l.1 l.2 tk.core [a]
          (q.1, max w.2 q.2)) (s, 0)
    (w.1.touchAll (KMap.keys bs)).updRequest k r.id fun r =>
      { r with
        pass := if xs.length < left.length then r.pass else r.pass + 1
        filled := xs.foldl (fun m x => KMap.put x.cell () m) r.filled
        wct := max r.wct w.2
        hold := w.2 }

/-! ## The arbiter (R239, R240, R260) -/

/-- Priority of a task (R37). -/
def Task.priority (tk : Task) : Nat := wbits tk.rcd.flags 2 2

/-- Two requests share a physical tile. -/
def Request.shares (r q : Request) : Bool :=
  r.accn == q.accn && (r.tl == q.tl || r.stile == some q.tl || q.stile == some r.tl || (r.stile.isSome && r.stile == q.stile))

/-- No earlier request on a tile of this one is outstanding (R240, R260). -/
def Cluster.tileFree (c : Cluster) (r : Request) : Bool := !(c.table.any fun q => q.formed < r.formed && q.shares r)

/-- The next pass of a request has its operands present, nothing that its reads must follow is still to come (R113, R117,
R239), and an MST that would overflow the effect buffer has its task's turn (R272). A request whose operands are accessible no longer
waits (log entry 105). -/
def State.passReady (s : State) (k : Nat) (r : Request) : Bool :=
  match s.task? r.accn with
  | none => false
  | some tk =>
    r.admitted && !r.spent && !r.stopped && (tk.stop.isNone || tk.midChain) && r.hold ≤ s.dtime && (s.cluster k).tileFree r && !s.engBlocked tk &&
      (firstBad (s.opnds tk r r.pass)).isNone && (!r.isMst || s.hasTurn tk || !s.storeFull tk r)

/-- The better of two requests for the arbiter: priority, then accession number, then formation (R239). -/
def State.prefers (s : State) (r q : Request) : Bool :=
  let p (x : Request) : Nat := ((s.task? x.accn).map Task.priority).getD 0
  p q < p r || (p q == p r && (r.accn < q.accn || (r.accn == q.accn && r.formed < q.formed)))

/-- The best of a list of requests. -/
def State.bestRequest (s : State) (rs : List Request) : Option Request :=
  rs.foldl (fun b r => match b with
    | none => some r
    | some q => if s.prefers r q then some r else some q) none

/-- Requests from outside a cluster's table enter it while it has room, in the order of grants (R239); `n` bounds how many. -/
def State.admitAll (s : State) (k : Nat) : Nat → State
  | 0 => s
  | n + 1 =>
    if 32 ≤ (s.cluster k).admitted.length then s
    else
      match s.bestRequest ((s.cluster k).table.filter fun q => !q.admitted) with
      | some q => (s.updRequest k q.id fun q => { q with admitted := true }).admitAll k n
      | none => s

/-- Every CBLD that waits for an entry of a codebook store looks again (R262). -/
def State.wakeBooks (s : State) : State := s.tasks.foldl (fun s p => s.wakeTask p.1 [.codebook]) s

/-- The request that gets the next pass of a cluster. -/
def State.nextPass (s : State) (k : Nat) : Option Request := s.bestRequest ((s.cluster k).table.filter (s.passReady k))

/-- Fill the line of a scale record at an address into the cluster's cache (R191): 512 lines, and a full cache gives up the line of
the lowest key (log entry 106). -/
def State.fillLine (s : State) (tk : Task) (r : Rec) (va : Nat) : State :=
  let key := scaleKey tk.launch r va
  let k := clusterOf tk.core
  if (KMap.get? key (s.cluster k).scales).isSome then s
  else
    let base := va / 128 * 128
    let byte (i : Nat) : Byte :=
      if r.space = 1 then tk.spadByte (base + i)
      else
        match s.keysOf tk.ctx readOnly (base + i) 1 with
        | .ok ([x], _) => s.matByte tk x
        | _ => 0
    let line := (List.range 128).map byte
    s.updCluster k fun c => { c with scales := KMap.put key line (if c.scales.length < 512 then c.scales else c.scales.drop 1) }

/-- The lines that a scale lies in are filled into the cache (R191). -/
def State.fillScale (s : State) (tk : Task) (w : Option (Vector Word 8)) (row kb : Nat) : State :=
  match w with
  | none => s
  | some w =>
    let r := Rec.ofWords w
    let o := r.used (row * r.rowlen + kb)
    if r.extent ≤ o then s else (s.fillLine tk r (r.address o)).fillLine tk r (r.address o + 1)

/-- Fill the scale lines of a pass. -/
def State.fillScales (s : State) (tk : Task) (r : Request) : State :=
  let s := if r.useSa && r.isMma then lanes128.foldl (fun s i =>
      match r.row i with
      | some row => s.fillScale tk r.scA row (r.kb r.pass)
      | none => s) s else s
  if r.useSb && r.isMma then lanes128.foldl (fun s c => s.fillScale tk r.scB c (r.kb r.pass)) s else s

/-- A pass forms products (R227, R241): with SKIP, not where every row of A holds only the zero and padding. -/
def State.formsProducts (s : State) (tk : Task) (r : Request) : Bool :=
  let e := r.entry
  !r.isMadd && r.maj ≠ 0x38 &&
    !(r.isMma && enSkip e && lanes128.all fun i => (s.latchA tk r r.pass i).all fun x => x.all (isZero (enPair e) (enAcc e)))

/-- Perform the next pass of a request: update-only copies of what it reads are recalled first (R106), a poisoned line is
a machine check (R394). -/
def State.runPass (s : State) (k : Nat) (r : Request) : State :=
  match s.task? r.accn with
  | none => s
  | some tk =>
    let xs := s.opnds tk r r.pass
    let ls := if r.isMst then [] else passLines xs
    let s := s.touchAll (ls.map (· * 128))
    let q := s.recallLines (openLines xs ++ ls.filter fun l => !(s.lineParts l).isEmpty)
    if s.dtime < q.2 || !(openLines xs).isEmpty then q.1.updRequest k r.id fun r => { r with hold := q.2 }
    else if ls.any s.poison.contains then s.haltTask r.accn .machineCheck
    else
      let s := q.1.updCluster k fun c => { c with passes := if r.isMst && !r.filled.isEmpty then c.passes else c.passes + 1 }
      if r.isMld then s.loadPass tk k r
      else if r.isMst then (s.storePass tk k r).drew
      else ((s.fillScales tk r).arithPass tk k r).drew

/-- What a stopped request does to its held signers: the matrix exception at each one's word (R243, R259). -/
def State.matrixTrap (s : State) (r : Request) : State :=
  match r.exc with
  | none => s
  | some i => r.held.foldl (fun s t => s.raise r.accn t causeMatrix 0 i) s

/-- Retirement (R233, R239, R254): empty cells become the pair's zero, the writes of an MST count among those of its signers (R121), OC1
of each signer falls, held signers go on or
take the exception, a request from outside enters the table, and waiters look again. -/
def State.retireRequest (s : State) (k : Nat) (r : Request) : State :=
  match s.task? r.accn with
  | none => s
  | some tk =>
    let old := (s.tileOf tk r.tl).array
    let z := srZero (enPair r.entry) (enAcc r.entry)
    let s := if r.init then s.updTile tk r.tl fun t =>
        { t with cells := cellsOf fun j => ((r.cell old j).map fun _ => old.getD j 0).getD z } else s
    let s := s.updCluster k fun c => { c with table := c.table.filter fun q => q.id ≠ r.id }
    let s := s.admitAll k (s.cluster k).table.length
    let s := r.signers.foldl (fun s t => s.updThread r.accn t fun th => (th.noteWct r.wct).uncount 1) s
    let s := s.matrixTrap r
    let s :=
      if r.exc.isNone then
        r.held.foldl (fun s t => s.updThread r.accn t fun th => { th.next with cond := .running }) s
      else s
    (s.wakeTask r.accn [.engine, .toSign]).wakeBooks

/-- A request may retire (R131, R233): its passes are over, its writes performed, and no earlier request of one of its
signers is outstanding. -/
def State.retireReady (s : State) (k : Nat) (r : Request) : Bool :=
  r.spent && !r.stopped && r.hold ≤ s.dtime &&
    !((s.cluster k).table.any fun q => q.accn == r.accn && q.formed < r.formed && q.signers.any r.signers.contains)

/-- Bindings of a cluster whose request is to be formed once update-only copies are combined (R106, R233). -/
def State.unformed (s : State) (k : Nat) : List (Nat × Nat) :=
  (s.cluster k).cvs.filterMap fun p =>
    if ((s.task? p.2.accn).map fun tk => (tk.stop.isNone || tk.midChain) && tk.allSigned p.2).getD false then some (p.2.accn, p.1) else none

/-- MATRIX_PASS (R239): requests that could not be formed before are formed, and the arbiter grants one pass. An exceptional result
under EXC trap stops the request. -/
def execMatrixPass (k : Nat) (s : State) : Out :=
  let s := (s.unformed k).foldl (fun s p => s.form p.1 p.2) s
  match s.nextPass k with
  | none => .next s
  | some r => .next (s.runPass k r)

/-- MATRIX_RETIRE (R254). -/
def execMatrixRetire (k id : Nat) (s : State) : Out :=
  match (s.cluster k).table.find? fun r => r.id = id with
  | none => .next s
  | some r => .next (if s.retireReady k r then s.retireRequest k r else s)

/-- The requests, signatures, bindings and tiles of a task whose attempt ends (R32, R236, R244): requests that waited for its
places in the table enter, and a CBLD that waited for its codebooks looks again (R239, R262). -/
def State.dropMatrix (s : State) (a : Nat) (tk : Task) : State :=
  let k := clusterOf tk.core
  let s := s.updCluster k fun c =>
    { c with
      table := c.table.filter fun r => r.accn ≠ a
      cvs := KMap.keep (fun _ b => b.accn ≠ a) c.cvs
      tiles := KMap.mapAll (fun t => if t.owner = some a then Tile.empty else t) c.tiles }
  (s.admitAll k (s.cluster k).table.length).wakeBooks

end Sys2Proof.Machine
end

