-- ==== Sys2Proof/Machine/MatrixTask.lean ====
section
/-!
DEFINITION. The task words of the matrix class: MBIND, MFILL, OPTAB, CBLD, SCLD, MQRY (R246, R248 to R250, R261 to R265).
Each acts once for an issue, as a scalar word does.
-/

namespace Sys2Proof.Machine

/-- What one issue of a matrix task word does: it has acted and its threads go on; its threads are held; the hardware holds them up; they
stand at the word as they are; or each takes a fault. -/
inductive MxAct where
  | done (s : State)
  | hold (s : State) (w : Wait)
  | busy
  | stay (s : State)
  | fault (cause taddr : Nat) (tinfo : Word)
  deriving DecidableEq, Repr

/-- One issue of a matrix task word (R246): `act` sees the first thread that stands at it. -/
def mxTask (act : State → Task → Nat → MxAct) (s : State) : Out :=
  match s.carried, s.task? s.issue.accn with
  | t :: ts, some tk =>
    let a := s.issue.accn
    let sr := ((KMap.get? t tk.threads).map tk.seen).getD tk
    (match act s sr t with
    | .done s => .next (s.pass (t :: ts))
    | .hold s w => .next ((t :: ts).foldl (fun s t => s.holdThread a t w) s)
    | .busy => .next ((t :: ts).foldl (fun s t => s.interlock a t) s)
    | .stay s => .next s
    | .fault c x i => .next ((t :: ts).foldl (fun s t => s.raise a t c x i) s))
  | _, _ => .next s

/-- An illegal operand found in execution. -/
def MxAct.illegal (tinfo : Word) : MxAct := .fault causeIllegalOperand 0 tinfo

/-! ## MBIND (R248 to R250) -/

/-- The descriptor passes the checks of R249 on its own words. -/
def descOk (w0 w1 w2 : Word) : Bool :=
  wbits w0 22 9 == 0 && wbits w1 24 8 == 0 && wbits w2 25 7 == 0 && wbits w0 8 5 ≤ 19 && wbits w0 13 5 ≤ 19 &&
    1 ≤ wbits w2 0 25 && wbits w2 0 25 ≤ 2 ^ 24 && wbits w1 0 24 + wbits w2 0 25 ≤ 2 ^ 24

/-- A catalogue entry whose members all belong to the task (R233, R249). -/
def Task.ownCohort (tk : Task) (e : BitVec 128) : Bool :=
  entryValid e && cbits e 0 16 == tk.rcd.tidx && cbits e 16 16 == tk.rcd.tidx

/-- The scale record that a record names (R33, R190). -/
def Task.scaleCopy (tk : Task) (r : Rec) : Option (Vector Word 8) := if r.scv then some (tk.recWords r.scslot) else none

/-- The binding that a descriptor makes, with its copies (R249). -/
def Task.newBinding (tk : Task) (w0 w1 w2 : Word) : Binding :=
  { accn := tk.rcd.accn, w0 := w0, w1 := w1, w2 := w2
    recA := tk.recWords (wbits w0 8 5), recB := tk.recWords (wbits w0 13 5)
    scA := tk.scaleCopy (tk.record (wbits w0 8 5)), scB := tk.scaleCopy (tk.record (wbits w0 13 5)), sigs := [] }

/-- A binding of the task with signatures that have not formed a request. -/
def Binding.signed (b : Binding) : Bool := !b.sigs.isEmpty

/-- MBIND with REL = 1 (R249). -/
def unbindReg (cv : Nat) (w0 w1 w2 : Word) (d : Nat) (s : State) (tk : Task) : MxAct :=
  let k := clusterOf tk.core
  let free (s : State) : MxAct := .done (s.updTask tk.rcd.accn fun tk => tk.setS d 2)
  if wbits w0 0 31 ≠ 0 ∨ w1 ≠ 0 ∨ w2 ≠ 0 then MxAct.illegal 0
  else
    match KMap.get? cv (s.cluster k).cvs with
    | some b =>
      if b.accn ≠ tk.rcd.accn then free s
      else if b.signed then MxAct.illegal 0
      else free (s.updCluster k fun c => { c with cvs := KMap.del cv c.cvs })
    | none => free s

/-- MBIND with REL = 0 (R249, R250): `addr` is the address of the word. -/
def bindReg (cv : Nat) (w0 w1 w2 : Word) (d addr : Nat) (s : State) (tk : Task) : MxAct :=
  let k := clusterOf tk.core
  let a := tk.rcd.accn
  let status (s : State) (v : Word) : MxAct := .done (s.updTask a fun tk => tk.setS d v)
  let bindIt (s : State) : MxAct :=
    status (s.updCluster k fun c => { c with cvs := KMap.put cv (tk.newBinding w0 w1 w2) c.cvs }) 0
  let me : ResReq := ⟨4, cv, addr, 0⟩
  if !descOk w0 w1 w2 then MxAct.illegal 0
  else if !tk.ownCohort (tk.entry (wbits w0 0 8)) then MxAct.illegal (word (wbits w0 0 8))
  else
    match (KMap.get? cv (s.cluster k).cvs).filter fun b => b.accn = a with
    | some b =>
      if b.w0 = w0 ∧ b.w1 = w1 ∧ b.w2 = w2 then status s 0
      else if b.signed then MxAct.illegal 0
      else bindIt s
    | none =>
      if tk.wants.contains me then .hold s .resource
      else if s.fits tk 4 cv then bindIt s
      else
        match s.decide tk 4 cv with
        | .blocked => status s 1
        | .wait ws => .hold ((s.woundAll ws).updTask a fun tk => { tk with wants := tk.wants ++ [me] }) .resource

/-- MBIND (R248). -/
def execMbind (o : MbindOp) (s : State) : Out :=
  mxTask (fun s tk _ =>
    let w (i : Nat) : Word := tk.sreg (o.a.toNat + i)
    if wbits (w 0) 31 1 = 1 then unbindReg o.v.toNat (w 0) (w 1) (w 2) o.b.toNat s tk
    else bindReg o.v.toNat (w 0) (w 1) (w 2) o.b.toNat s.issue.pc.toNat s tk) s

/-! ## MFILL and MQRY (R264, R265) -/

/-- The value that MFILL writes (R224, R264). -/
def Task.fillValue (tk : Task) (e : Word) (kind m : Nat) : Nat :=
  match kind with
  | 0 => srZero (enPair e) (enAcc e)
  | 1 => srOne (enPair e) (enAcc e)
  | _ => cellRead (enAcc e) ((tk.sreg2 (2 * m)).toNat % 2 ^ 40)

/-- MFILL (R260, R264). -/
def execMfill (o : MfillOp) (s : State) : Out :=
  mxTask (fun s tk _ =>
    let e := ((s.ctx? tk.ctx).map fun c => c.optab.getD o.o.toNat 0).getD 0
    let v := tk.fillValue e o.k.toNat o.m.toNat
    if (KMap.get? o.t.toNat tk.tiles).isNone || !enValid e then MxAct.illegal 0
    else if s.tileBusy tk o.t.toNat then .hold s .engine
    else .done (s.updTile tk o.t.toNat fun t => { t with cells := cellsOf fun _ => v })) s

/-- Formed requests that have not retired and name a tile. -/
def State.requestsOn (s : State) (tk : Task) (name : Nat) : Nat :=
  ((s.cluster (clusterOf tk.core)).table.filter fun r => r.accn = tk.rcd.accn ∧ (r.tl = name ∨ r.stile = some name)).length

/-- MQRY (R265). -/
def execMqry (o : MqryOp) (s : State) : Out :=
  mxTask (fun s tk _ =>
    let n := o.t.toNat
    if (KMap.get? n tk.tiles).isNone then MxAct.illegal 0
    else
      let v := word (min 255 (s.requestsOn tk n) * 256 + bit (s.tileOf tk n).sat)
      let s := if o.l then s.updTile tk n fun t => { t with sat := false } else s
      .done (s.updTask tk.rcd.accn fun tk => tk.setS o.d.toNat v)) s

/-! ## OPTAB (R261) -/

/-- The only combination of the reduced service (R414): (MUL, ADD) over BF16 into FA40. -/
def enReduced (w : Word) : Bool := enPair w == 0 && enAf w == fmtBF16 && enBf w == fmtBF16 && enAcc w == 0

/-- OPTAB (R223, R261). -/
def execOptab (o : OptabOp) (s : State) : Out :=
  mxTask (fun s tk _ =>
    let w := tk.sreg o.a.toNat
    if enValid w && (!enLegal w || (s.regs.level = 1 && !enReduced w)) then MxAct.illegal 0
    else .done (s.updCtx tk.ctx fun c => { c with optab := c.optab.setIfInBounds o.o.toNat w })) s

/-! ## CBLD and SCLD (R262, R263) -/

/-- The 16 elements of a codebook as read so far. -/
inductive BookRead where
  | vals (s : State) (vs : List (BitVec 16))
  | stay (s : State)
  | busy
  | bad (f : AccFault)
  deriving DecidableEq, Repr

/-- Read `n` elements from offset `o` of the record in slot `k` (R262). -/
def State.readBook (a t k : Nat) (tk : Task) : Nat → Nat → State → BookRead
  | _, 0, s => .vals s []
  | o, n + 1, s =>
    let r := tk.record k
    let more (s : State) (bs : List Byte) : BookRead :=
      match State.readBook a t k tk (o + 1) n s with
      | .vals s vs => .vals s (BitVec.ofNat 16 (leNat bs) :: vs)
      | x => x
    match s.place tk t k r true o r.address ⟨2, false, readOnly⟩ with
    | .error f => ((recallLine f.cause).map fun l => BookRead.stay (s.awaitCopies a t l)).getD (.bad f)
    | .ok (.spad os) => if s.boardStalls tk true os then .busy else more s (os.map tk.spadByte)
    | .ok (.glob _ ks xs) =>
      let s := s.rememberAll tk.ctx xs
      if ks.any isReg then more s (s.regLoad ks)
      else
        (match s.loadKeys a t tk (tk.coreOf t) r.pol ks with
        | .val s bs => more s bs
        | .wait s => .stay s
        | .dead s => .stay s)
    | .ok _ => more s [0, 0]

/-- Tensor ids whose codebooks an outstanding request of a context reads. -/
def State.booksInUse (s : State) (k : Nat) : List Nat :=
  (s.cluster k).table.flatMap fun r =>
    match s.task? r.accn with
    | none => []
    | some tk =>
      if r.isMma then
        [Rec.ofWords r.recA, Rec.ofWords r.recB].filterMap fun x => if x.fmt = fmtC4 then some (bookKey tk.ctx x.tens) else none
      else []

/-- Where a codebook of a key can be written: over the key, in a free entry, or over the oldest that no outstanding
request reads; none while there is no such entry (R262). -/
def State.bookRoom (s : State) (k key : Nat) : Option (KMap Codebook) :=
  let m := (s.cluster k).books
  if (KMap.get? key m).isSome ∨ m.length < 64 then some m
  else
    match sortBy (fun p => p.2.loaded) (m.filter fun p => !(s.booksInUse k).contains p.1) with
    | p :: _ => some (KMap.del p.1 m)
    | [] => none

/-- CBLD (R180, R262). -/
def execCbld (o : CbldOp) (s : State) : Out :=
  mxTask (fun s tk t =>
    let k := o.k.toNat
    let r := tk.record k
    let id := tk.sreg o.b.toNat
    let c := clusterOf tk.core
    if wbits id 8 24 ≠ 0 then MxAct.illegal 0
    else if r.ok = false ∨ r.fmt ≠ fmtBF16 ∨ (r.space ≠ 0 ∧ r.space ≠ 1) then MxAct.illegal (word k)
    else
      match State.readBook tk.rcd.accn t k tk (tk.sreg o.a.toNat).toNat 16 s with
      | .bad f => .fault f.cause f.taddr f.tinfo
      | .busy => .busy
      | .stay s => .stay s
      | .vals s vs =>
        match (List.range 16).find? fun i => bf16.isNan (vs.getD i 0).toNat with
        | some i => MxAct.illegal (word i)
        | none =>
          match s.bookRoom c (bookKey tk.ctx id.toNat) with
          | none => .hold s .codebook
          | some m =>
            .done { s.updCluster c fun x => { x with books := KMap.put (bookKey tk.ctx id.toNat) ⟨vs, s.nextId⟩ m } with
              nextId := s.nextId + 1 }) s

/-- SCLD (R191, R263): it raises no fault, so slots 20 to 31 leave it with no effect, and so does a misaligned element under
BMODE trap (R143). A line that is not cached is read as a load reads it (R106, R394). -/
def execScld (o : ScldOp) (s : State) : Out :=
  mxTask (fun s tk t =>
    let w := tk.recWords o.k.toNat
    let r := Rec.ofWords w
    let e := (tk.sreg o.a.toNat).toNat
    let ok := slotOk o.k && scaleOk (some w) && !(r.bmode == 0 && r.address (r.used e) % 2 == 1)
    let va := r.address (r.used e)
    let cached := (s.scaleByte tk r va).isSome && (s.scaleByte tk r (va + 1)).isSome
    match (if ok && !cached then s.opnd tk r 1 e readOnly else .pad) with
    | .spad _ _ => .done (s.fillScale tk (some w) 0 e)
    | .glob ks _ =>
      if ks.any isReg then .done (s.fillScale tk (some w) 0 e)
      else (match s.loadKeys tk.rcd.accn t tk (tk.coreOf t) 1 ks with
      | .val s _ => .done (s.fillScale tk (some w) 0 e)
      | .wait s => .stay s
      | .dead s => .stay s)
    | .copies l => .stay (s.awaitCopies tk.rcd.accn t l)
    | _ => .done s) s

end Sys2Proof.Machine
end

