-- ==== Sys2Proof/Machine/Barriers.lean ====
section
/-!
DEFINITION. Barriers: cohorts, arrivals, completion and the last arriver (R125, R276, R302, R319 to R321), with BAR, BARA,
BARW and BARRIER_COMPLETE.
-/

namespace Sys2Proof.Machine

/-! ## Cohorts (R44, R319) -/

/-- A member of a cohort: task, thread, rank. -/
structure Member where
  accn : Nat
  tid : Nat
  rank : Nat
  deriving DecidableEq, Repr

/-- COH of a barrier word. -/
def barCoh (w : Word) : Nat := wbits w 0 8
/-- WHOLE. -/
def barWhole (w : Word) : Bool := wbits w 8 1 == 1
/-- A barrier word passes R319 in a thread. -/
def Task.barOk (tk : Task) (w : Word) (t : Nat) : Bool :=
  wbits w 9 23 == 0 && (if barWhole w then barCoh w == 0 else entryHas (tk.entry (barCoh w)) tk.rcd.tidx t)

/-- First and last task index of an entry. -/
def entryFirst (e : BitVec 128) : Nat := cbits e 0 16
/-- TLAST. -/
def entryLast (e : BitVec 128) : Nat := cbits e 16 16
/-- The entry spans tasks. -/
def entrySpans (e : BitVec 128) : Bool := entryFirst e ≠ entryLast e

/-- The members of a cohort that belong to one task. -/
def entryMembers (e : BitVec 128) (a tidx : Nat) : List Member :=
  (List.range (entryCount e)).map fun r =>
    ⟨a, entryBase e + r * entryStride e, (tidx - entryFirst e) * entryCount e + r⟩

/-- The members of the cohort that a task names, in the root tasks of the launch that have not ended (R44, R309): the cohorts of a
child never span tasks. -/
def State.cohort (s : State) (tk : Task) (whole : Bool) (coh : Nat) : List Member :=
  let e := tk.entry coh
  if whole then (List.range tk.rcd.ntid).map fun t => ⟨tk.rcd.accn, t, t⟩
  else if entrySpans e then
    s.tasks.flatMap fun p =>
      if p.2.launch = tk.launch ∧ p.2.rcd.paccn = 0 ∧ p.2.ended.isNone ∧ entryFirst e ≤ p.2.rcd.tidx ∧ p.2.rcd.tidx ≤ entryLast e then
        entryMembers e p.1 p.2.rcd.tidx
      else []
  else entryMembers e tk.rcd.accn tk.rcd.tidx

/-! ## Counts (R320) -/

/-- The count that a thread keeps of a cohort. -/
def Thread.bar (th : Thread) (whole : Bool) (coh : Nat) : BarCount :=
  (th.bars.find? fun b => b.whole == whole && b.coh == coh).getD ⟨coh, whole, 0, false, 0, false, false⟩
/-- Write the count of a cohort. -/
def Thread.setBar (th : Thread) (b : BarCount) : Thread :=
  { th with bars := th.bars.filter (fun x => !(x.whole == b.whole && x.coh == b.coh)) ++ [b] }

/-- A member has arrived for the `n`-th time or has exited (R302). -/
def State.hasArrived (s : State) (whole : Bool) (coh n : Nat) (m : Member) : Bool :=
  match s.thread? m.accn m.tid with
  | none => false
  | some th => !th.live || n ≤ (th.bar whole coh).count

/-- A member is live and has arrived for the `n`-th time. -/
def State.isArriver (s : State) (whole : Bool) (coh n : Nat) (m : Member) : Bool :=
  match s.thread? m.accn m.tid with
  | none => false
  | some th => th.live && (th.bar whole coh).count == n

/-- The tick of a member's latest arrival. -/
def State.arrivalTick (s : State) (whole : Bool) (coh : Nat) (m : Member) : Nat :=
  ((s.thread? m.accn m.tid).map fun th => (th.bar whole coh).tick).getD 0

/-- The last arriver among the members that arrived (R302, R321): the latest arrival, ties to the lowest rank; in a
deterministic launch the highest rank (R276). -/
def State.lastArriver (s : State) (det whole : Bool) (coh : Nat) : List Member → Option Member
  | [] => none
  | m :: ms =>
    some (ms.foldl (fun b x =>
      if det then (if b.rank < x.rank then x else b)
      else
        let tb := s.arrivalTick whole coh b
        let tx := s.arrivalTick whole coh x
        if tb < tx ∨ (tb = tx ∧ x.rank < b.rank) then x else b) m)

/-- Record the completion of a barrier in its arrivers. -/
def State.markBarrier (s : State) (tk : Task) (whole : Bool) (coh n : Nat) : State :=
  let ms := s.cohort tk whole coh
  if ms.all (s.hasArrived whole coh n) then
    let arr := ms.filter (s.isArriver whole coh n)
    let last := s.lastArriver (s.isDet tk) whole coh arr
    arr.foldl (fun s m => s.updThread m.accn m.tid fun th =>
      th.setBar { th.bar whole coh with done := true, last := some m == last }) s
  else s

/-- Record every completion of a barrier of a task's threads. -/
def State.markBarriers (s : State) (a : Nat) : State :=
  match s.task? a with
  | none => s
  | some tk =>
    (tk.threads.flatMap fun p => p.2.bars.filterMap fun b => if b.unwaited && !b.done then some (b.whole, b.coh, b.count) else none).eraseDups.foldl
      (fun s b => s.markBarrier tk b.1 b.2.1 b.2.2) s

/-! ## The words -/

/-- The scope of a barrier (R125): TASK, which counts as CLUSTER on two cores, or DEVICE for a cohort that spans tasks. -/
def Task.barScope (tk : Task) (w : Word) : Nat := if !barWhole w && entrySpans (tk.entry (barCoh w)) then 4 else 1

/-- Arrive in one lane (R320): a release, then the count rises; `then'` goes on. -/
def arrive (b : Nat) (s : State) (t : Nat) (tk : Task) (th : Thread) (then' : State → State) : State :=
  let a := s.issue.accn
  let tk := tk.seen th
  let w := tk.sreg b
  if !tk.barOk w t || (th.bar (barWhole w) (barCoh w)).unwaited then s.raise a t causeIllegalOperand 0 (word b)
  else
    match s.release a t (tk.barScope w) with
    | .wait s => s
    | .go s =>
      let now := s.dtime
      then' (s.updThread a t fun th =>
        let c := th.bar (barWhole w) (barCoh w)
        th.setBar { c with count := c.count + 1, unwaited := true, tick := now, done := false, last := false })

/-- Wait in one lane for the barrier of the latest arrival (R320, R321). -/
def awaitBar (d b : Nat) (s : State) (t : Nat) (tk : Task) : State :=
  let a := s.issue.accn
  match s.thread? a t with
  | none => s
  | some th =>
    let tk := tk.seen th
    let w := tk.sreg b
    let c := th.bar (barWhole w) (barCoh w)
    if !tk.barOk w t || !c.unwaited then s.raise a t causeIllegalOperand 0 (word b)
    else if c.done then
      (s.updThread a t fun th => ((th.setBar { c with unwaited := false }).setPred d c.last).next).acquire a (tk.barScope w)
    else s.holdThread a t .barrier

/-- BARA (R320). -/
def execBara (b : BitVec 6) (s : State) : Out :=
  .next (s.perLane 0 [] fun s t tk th => arrive b.toNat s t tk th fun s => s.updThread s.issue.accn t Thread.next)

/-- BARW (R320). Its threads stand at a stop point (R212). -/
def execBarw (o : Db) (s : State) : Out :=
  .next ((s.meetings s.issue.accn s.carried).perLane 0 [] fun s t tk _ => awaitBar o.d.toNat o.b.toNat s t tk)

/-- BAR (R320): it arrives, once, and waits. -/
def execBar (o : Db) (s : State) : Out :=
  .next (((s.meetings s.issue.accn s.carried).perLane 0 [] fun s t tk th =>
    if th.outcome.isSome then awaitBar o.d.toNat o.b.toNat s t tk
    else arrive o.b.toNat s t tk th fun s =>
      let s := s.updThread s.issue.accn t fun th => { th with outcome := some 0 }
      s.holdThread s.issue.accn t .barrier))

/-- The barrier that a thread waits for has completed. -/
def Thread.barDone (th : Thread) (whole : Bool) (coh : Nat) : Bool :=
  th.cond == .held .barrier && (th.bar whole coh).unwaited && (th.bar whole coh).done

/-- BARRIER_COMPLETE (R302): the members that wait for a completed barrier go on. `coh` is 256 for the whole task. -/
def execBarrierComplete (a t coh : Nat) (s : State) : Out :=
  let whole := coh == 256
  let coh := coh % 256
  match s.task? a with
  | none => .next s
  | some tk =>
    if ((KMap.get? t tk.threads).map fun th => th.barDone whole coh).getD false then
      .next ((s.cohort tk whole coh).foldl (fun s m => s.updThread m.accn m.tid fun th =>
        if th.barDone whole coh then th.wake else th) s)
    else .next s

end Sys2Proof.Machine
end

