-- ==== Sys2Proof/Machine/Ending.lean ====
section
/-!
DEFINITION. How an attempt ends (R39 to R42, R128, R170, R171, R266, R289, R301, R309, R352, R381, R387, R391, R392):
reports to the supervisor (R390), completion events (R40, R41, R293), relaunch, EXIT (R83, R136, R162), and the events
CANCELLATION, WOUND, TASK_COMMIT, DETERMINISTIC_TURN, REMOVAL_BY_THE_SUPERVISOR.
-/

namespace Sys2Proof.Machine

/-! ## Tasks that do not run -/

/-- A task as its record stands in a queue (R37, R291): `seq` orders what was queued, `cat` is its catalogue. -/
def Task.fresh (rcd : TaskRec) (ctx launch cluster seq : Nat) (cat : List (BitVec 128)) : Task :=
  { rcd := rcd, ctx := ctx, launch := launch, phase := .queued, cluster := cluster, queued := seq, passed := none, holdTo := 0
    eligible := rcd.depev == 0, core := 0, irrevocable := false, commitT := none, bnd := rcd.bound
    bsel := BitVec.ofNat 6 rcd.bselw.toNat, s := Vector.replicate 160 0, rngkey := 0, dtimeHi := none, chunks := 0, tiles := []
    pages := 0, spots := [], ebPages := 0, spad := [], ebuf := [], parts := [], cat := cat, charge := 0, reach := [], wants := []
    offers := [], stop := none, stopping := false, matFault := none, ended := none, threads := [] }

/-! ## Writes of the module itself -/

/-- The greatest WCT of the writes that hold bytes or partials of a task. -/
def State.lastWctOf (s : State) (a : Nat) : Nat := s.writes.foldl (fun m w => if w.owners.contains a then max m w.wct else m) 0

/-- Every dirty byte that a task has written outside its effect buffer, and every partial that it holds in an ordinary line, goes home
(R118), also from a core on which an earlier attempt ran. -/
def State.sendAll (s : State) (a : Nat) : State :=
  (KMap.keys s.cores).foldl (fun s c => (s.writeBackTask c a).flushParts c fun p => p.accn = a) s

/-- A 4-byte word of the report area as it stands. -/
def State.reportWord (s : State) (off : Nat) : Nat := (s.lastWord (s.regs.rqbase + off)).toNat

/-- The 64 bytes of a report (R390). -/
def reportBytes (tk : Task) (kind cause : Nat) (st : Stop) (flags img now : Nat) : List Byte :=
  let core := (st.tid.map tk.coreOf).getD tk.core
  leBytes 1 kind ++ leBytes 1 tk.ctx ++ leBytes 2 cause ++ leBytes 4 tk.rcd.tidx ++ leBytes 8 tk.rcd.accn ++
    leBytes 2 (st.tid.getD 0xFFFF) ++ leBytes 1 st.wait ++ leBytes 1 flags ++ leBytes 4 st.tinfo.toNat ++ leBytes 8 st.tepc ++
    leBytes 8 st.taddr ++ leBytes 2 tk.rcd.rlcnt ++ leBytes 2 (clusterOf core + core % 4 * 2 ^ 8) ++ leBytes 4 0 ++ leBytes 8 img ++
    leBytes 8 now

/-- Send a report (R390, R413): entry and producer word are written as one, with release order at DEVICE scope, so after what the
task has to send home (R119, R121), and the header is read with its update-only copies combined (R106); a full queue drops it and
counts it. `again` says the task is being relaunched. -/
def State.report (s : State) (tk : Task) (kind cause : Nat) (st : Stop) (again : Bool) (img : Nat) : State :=
  let s := s.sendAll tk.rcd.accn
  let base := s.regs.rqbase
  let s := (s.recall (lineOf base)).1
  let prod := s.reportWord 0
  let least := s.lastWctOf tk.rcd.accn + 1
  let put (bs : KMap Byte) : State := (s.acceptAll (byLine bs) least tk.core [tk.rcd.accn]).1
  if 4096 ≤ (prod + 2 ^ 32 - s.reportWord 4) % 2 ^ 32 then put (bytesAt (base + 8) (leBytes 4 (s.reportWord 8 + 1)))
  else
    let flags := bit st.nest + 2 * bit tk.irrevocable + 4 * bit again
    put (bytesAt base (leBytes 4 (prod + 1)) ++
      bytesAt (base + 128 + 64 * (prod % 4096)) (reportBytes tk kind cause st flags img (s.dtime % 2 ^ 64)))

/-- KIND codes of R390. -/
def kindFault : Nat := 0
def kindMcheck : Nat := 1
def kindHealed : Nat := 2
def kindWatchdog : Nat := 3
def kindStop : Nat := 4
def kindMatrix : Nat := 5

/-- A stop that belongs to no thread. -/
def Stop.plain (k : StopKind) (tinfo : Word) (taddr : Nat) : Stop := ⟨k, none, 0, tinfo, 0, taddr, false⟩

/-! ## The completion event (R40, R41, R293) -/

/-- CYC: half the charge, saturating at 48 bits (R40, R305). -/
def Task.cyc (tk : Task) : Nat := min (tk.charge / 2) (2 ^ 48 - 1)

/-- The 16 bytes of an event. -/
def eventBytes (status cause accn cyc : Nat) : List Byte :=
  leBytes 1 status ++ leBytes 1 1 ++ leBytes 2 cause ++ leBytes 6 accn ++ leBytes 6 cyc

/-- Write the completion event of a task, after all its writes, under the rights of its context; where they fail, only a
report (R293). -/
def State.writeEvent (s : State) (tk : Task) (status cause : Nat) : State :=
  let bs := eventBytes status cause tk.rcd.accn tk.cyc
  let bad (c : Nat) : State :=
    s.report tk kindFault c (Stop.plain (.program c) (word status) tk.rcd.donev) false 0
  if tk.rcd.donev / 2 ^ 56 ≠ 0 then bad causePermission
  else
    match s.keysOf tk.ctx ⟨false, true, false⟩ tk.rcd.donev 16 with
    | .error e => bad e.1
    | .ok (ks, xs) =>
      let s := s.rememberAll tk.ctx xs
      if ks.any isReg then s.regStoreBytes ks bs
      else ((s.acceptAll (byLine (ks.zip bs)) (s.lastWctOf tk.rcd.accn + 1) tk.core [tk.rcd.accn]).1).touchAll ks

/-! ## The end of an attempt -/

/-- Every lock of a task is let go, and its requests are dropped (R352). -/
def State.dropLocks (s : State) (a : Nat) : State := { s with locks := s.locks.filter fun e => e.accn ≠ a }

/-- The requests of a task that ends DONE are dropped; what it holds is let go at the end of its commit (R352). -/
def State.dropRequests (s : State) (a : Nat) : State :=
  { s with locks := s.locks.filterMap fun e =>
      if e.accn ≠ a then some e else if e.mode = 0 then none else some { e with wait := none } }

/-- The locks of tasks that have ended are let go, once every write of theirs, the event among them, has been performed (R352). -/
def State.settleLocks (s : State) : State :=
  { s with locks := s.locks.filter fun e =>
      (s.task? e.accn).isSome || s.writes.any fun w => w.owners.contains e.accn && s.dtime < w.wct }

/-- What an attempt leaves behind is let go (R309): matrix requests, engine operations, outstanding requests but posted
ones, scoreboard entries, squads. When the task ends, its plain dirty bytes and ordinary partials go home
(R118, R171), with the partials that an irrevocable task of a deterministic launch holds (R273), whose staged offers stay to be
applied (R275); where the time of its commit has still to pass, its partials wait for it (R128). -/
def State.closeAttempt (s : State) (a : Nat) (tk : Task) (ends : Bool) : State :=
  let s := s.dropMatrix a tk
  let s := { s with
    engs := s.engs.filter fun e => e.accn ≠ a
    outs := KMap.keep (fun _ o => o.accn ≠ a || o.posted) s.outs }
  let s := tk.cores.foldl (fun s c => s.updCore c fun x =>
    { x with board := x.board.filter (fun e => e.accn ≠ a), squads := KMap.keep (fun _ q => q.accn ≠ a) x.squads }) s
  let s := if ends then s.sendAll a else s
  let late := ends && tk.irrevocable && tk.commitT.any fun tm => s.dtime ≤ tm
  let s := if ends && tk.irrevocable && !late then s.commitParts tk.core tk.parts else s
  s.updTask a fun tk =>
    { tk with
      ebuf := [], parts := if late then tk.parts else [], commitT := if late then tk.commitT else none, spad := [], tiles := [], chunks := 0, pages := 0, spots := [], ebPages := 0, wants := []
      reach := [], offers := if ends && tk.irrevocable then tk.offers else [], stop := none, stopping := false, threads := [] }

/-- Posted remote operations of a task that are not acknowledged. -/
def State.postedLeft (s : State) (a : Nat) : Bool := (KMap.vals s.outs).any fun o => o.posted && o.accn == a

/-- The event of a task that has ended may be written: every effect has its WCT (R41); in a deterministic launch it is the task's
turn (R278), and every effect has been performed, so that no higher index commits before (R271, R272). -/
def State.mayFinish (s : State) (a : Nat) : Bool :=
  match s.task? a with
  | some tk =>
    tk.ended.isSome && tk.commitT.isNone && !s.postedLeft a && s.hasTurn tk && !(s.isDet tk && s.writes.any fun w => w.owners.contains a)
  | none => false

/-- The bytes of a task's private areas are freed (R170). -/
def State.dropPriv (s : State) (a : Nat) : State :=
  let keepLine (l : Nat) : Bool := !isPrivOf a (l * 128)
  { s with
    mem := KMap.keep (fun k _ => !isPrivOf a k) s.mem
    writes := s.writes.filter fun w => keepLine w.line
    homes := KMap.keep (fun l _ => keepLine l) s.homes
    cores := KMap.mapAll (fun c => { c with l1 := KMap.keep (fun l _ => keepLine l) c.l1 }) s.cores }

/-- A task is gone, and its private areas with it; with the last task of a launch the launch is gone, its cached scales (R191) and its near copies (R108). -/
def State.removeTask (s : State) (a : Nat) (tk : Task) : State :=
  let s := { s.dropPriv a with tasks := KMap.del a s.tasks }
  if (KMap.vals s.tasks).any fun x => x.launch == tk.launch then s
  else
    { s.dropNear tk.launch with
      launches := KMap.del tk.launch s.launches
      clusters := KMap.mapAll (fun c => { c with scales := KMap.keep (fun k _ => k / 2 ^ 58 ≠ tk.launch) c.scales }) s.clusters }

/-! ### Offers of a deterministic launch (R274, R275, R306) -/

/-- A federated incumbent (R307). -/
def Ctx.federated (c : Ctx) (i : Nat) : Bool := c.inccfg.getLsbD (16 + i)
/-- FGRP. -/
def Ctx.fgrp (c : Ctx) : Nat := wbits c.incdir 16 16

/-- An offer of the module's own at an incumbent's home (R306): a value that is performed at a federated one is sent to
the peers (R307). -/
def State.offerHome (s : State) (n i : Nat) (v : DWord) : State :=
  match s.ctx? n with
  | none => s
  | some c =>
    let better' := ((KMap.get? i c.incs).map fun h => better (c.isMax i) v h.value).getD false
    let s := s.updCtx n fun c => c.offer i v s.dtime
    if better' && c.federated i then s.onFabric (.federation c.fgrp i (c.isMax i) v) else s

/-- Offer staged values at the context's incumbents, in program order, and to the launch incumbent (R274, R275). -/
def State.applyOffers (s : State) (tk : Task) : State :=
  tk.offers.foldl (fun s o =>
    let s := s.offerHome tk.ctx o.1 o.2
    match s.ctx? tk.ctx with
    | none => s
    | some c => s.updLaunch tk.launch fun l => { l with inc := KMap.put o.1 (best (c.isMax o.1) o.2 (KMap.getD o.1 0 l.inc)) l.inc }) s

/-- A line whose update-only copies have to be combined before the address of a task's event can be found (R106). -/
def State.eventCopies (s : State) (tk : Task) : Option Nat :=
  if tk.rcd.donev / 2 ^ 56 ≠ 0 then none
  else
    match s.keysOf tk.ctx ⟨false, true, false⟩ tk.rcd.donev 16 with
    | .error e => recallLine e.1
    | .ok _ => none

/-- Write the event of a task that has ended, after its effects and the offers that it has staged (R41, R275). -/
def State.finishTask (s : State) (a : Nat) : State :=
  match s.task? a with
  | none => s
  | some tk =>
    match tk.ended, s.eventCopies tk with
    | some _, some l => (s.recall l).1
    | some (status, cause), none => ((s.applyOffers tk).writeEvent tk status cause).removeTask a tk
    | none, _ => s

/-- Status codes (R9). -/
def statusDone : Nat := 0
def statusCancelled : Nat := 1
def statusFaulted : Nat := 2
def statusAborted : Nat := 3

/-- A task ends with a status and a cause (R289): its event is written at once, or when it may be. -/
def State.endTask (s : State) (a status cause : Nat) : State :=
  match s.task? a with
  | none => s
  | some tk =>
    let s := if status = statusDone then s.dropRequests a else s.dropLocks a
    let s := if tk.resident then s.closeAttempt a tk true else s.sendAll a
    let s := if status = statusCancelled then s.updCtx tk.ctx fun c => { c with cancelled := KMap.put a 0 c.cancelled } else s
    let s := s.updTask a fun tk => { tk with phase := .waitTurn, ended := some (status, cause) }
    let s := if tk.resident then tk.cores.foldl State.resplit s else s
    if s.mayFinish a then s.finishTask a else s

/-- The record of a relaunch (R39). -/
def Task.again (tk : Task) : TaskRec :=
  { tk.rcd with rlcnt := tk.rcd.rlcnt + 1, bound := tk.bnd, bselw := word tk.bsel.toNat }

/-- Run a task again from its record (R39, R391 to R393); at the limit it ends FAULTED instead. -/
def State.relaunch (s : State) (a hold : Nat) (keepFault : Bool) : State :=
  match s.task? a with
  | none => s
  | some tk =>
    if 65535 ≤ tk.rcd.rlcnt then
      (s.report tk kindFault causeRelaunchLimit (Stop.plain (.program causeRelaunchLimit) 0 0) false 0).endTask a statusFaulted
        causeRelaunchLimit
    else
      let s := (s.dropLocks a).closeAttempt a tk false
      let t := Task.fresh tk.again tk.ctx tk.launch (clusterOf tk.core) s.nextId tk.cat
      let s := { s with nextId := s.nextId + 1 }
      let s := s.updTask a fun _ =>
        { t with
          eligible := true, holdTo := if hold = 0 then 0 else s.dtime + hold, charge := tk.charge
          matFault := if keepFault then tk.matFault else none }
      tk.cores.foldl State.resplit s

/-! ## Stops (R171, R301, R381, R387, R391) -/

/-- The task is in the commit at its end, by which a cooperative launch does not become irrevocable as a group. -/
def State.committing (s : State) (tk : Task) : Bool :=
  tk.irrevocable && !((s.launch? tk.launch).map Launch.irrevocable).getD false

/-- The tasks that a stop of one applies to: all of a cooperative launch (R301) but those that have ended or are in the commit at their
end, which nothing undoes (DEDUCED, log entry 113). -/
def State.group (s : State) (a : Nat) (tk : Task) : List Nat :=
  if s.isCoop tk && !s.committing tk then
    s.tasks.filterMap fun p => if p.2.launch = tk.launch ∧ p.2.ended.isNone ∧ s.committing p.2 = false then some p.1 else none
  else [a]

/-- A cancellation is pending that applies to a task (R290, R301). -/
def State.cancelDue (s : State) (a : Nat) (tk : Task) : Bool :=
  (s.group a tk).any fun x => (((s.task? x).bind Task.stop).map fun st => st.kind == .cancel).getD false

/-- A machine check in a task (R381). -/
def State.machineCheck (s : State) (a : Nat) (st : Stop) : State :=
  match s.task? a with
  | some tk => (s.report tk kindMcheck causeMachineCheck st false 0).endTask a statusFaulted causeMachineCheck
  | none => s

/-- A cause that would relaunch the task (R391): every task of its group is run again; where the task is immune it is a
machine check in every task of the group (R289, R301). -/
def State.relaunchStop (s : State) (a : Nat) (tk : Task) (st : Stop) (cause hold : Nat) : State :=
  if s.immune tk then (s.group a tk).foldl (fun s x => s.machineCheck x st) s
  else
    let mat := cause = causeTranslation ∨ cause = causePermission
    let s :=
      if mat then s.report tk kindMatrix cause st true 0
      else if cause = causeSoftError then s.report tk kindHealed cause st true 0
      else s
    (s.group a tk).foldl (fun s x => s.relaunch x hold (mat ∧ x = a)) s

/-- Carry out a stop. -/
def State.endStop (s : State) (a : Nat) (tk : Task) (st : Stop) : State :=
  match st.kind with
  | .program c => (if c = causeWatchdog then s else s.report tk kindFault c st false 0).endTask a statusFaulted c
  | .aborted n => (s.group a tk).foldl (fun s x => s.endTask x statusAborted (0x100 + n)) s
  | .retry _ => s.relaunchStop a tk st 0 0
  | .cancel => (s.group a tk).foldl (fun s x => s.endTask x statusCancelled 0) s
  | .wound => s.relaunchStop a tk st 0 0
  | .relaunch c h => s.relaunchStop a tk st c h
  | .machineCheck => s.machineCheck a st
  | .removal => (s.group a tk).foldl (fun s x => s.endTask x statusAborted causeRemoval) s

/-- A stop that waits for its own event: CANCELLATION or WOUND. -/
def StopKind.waits (k : StopKind) : Bool := k = .cancel || k = .wound

/-- A stop of the task has to wait for the end of a chain, its own or of a task that the stop applies to as well (R53, R301). -/
def State.midGroup (s : State) (a : Nat) (tk : Task) : Bool :=
  (s.group a tk).any fun x => ((s.task? x).map Task.midChain).getD false

/-- The stop of a task is carried out, but one that waits for its event, and none but a machine check within a chain (R53). -/
def State.settleStop (s : State) (a : Nat) : State :=
  match s.task? a with
  | none => s
  | some tk =>
    match tk.stop with
    | some st => if st.kind.waits || (st.kind ≠ .machineCheck && s.midGroup a tk) then s else s.endStop a tk st
    | none => s

/-- At an instruction boundary: commits whose time has passed let go their locks, and so do tasks that have ended, stops are carried out, barriers that
are complete are recorded (R302), meetings that are complete act (R212). -/
def State.settle (s : State) : State :=
  let s := s.settleCommits.settleLocks
  let s := (KMap.keys s.tasks).foldl State.settleStop s
  let s := (KMap.keys s.tasks).foldl State.markBarriers s
  (KMap.keys s.tasks).foldl (fun s a => s.meetings a []) s

/-- CANCELLATION or WOUND: a pending stop is taken, a wound only where no cancellation is pending that applies to the task; a task that
has become immune goes on (R290, R301). -/
def State.takeStop (s : State) (a : Nat) (k : StopKind) : State :=
  match s.task? a with
  | none => s
  | some tk =>
    match tk.stop with
    | some st =>
      if st.kind ≠ k || s.midGroup a tk || (k == .wound && s.cancelDue a tk) then s
      else if s.immune tk then s.updTask a fun tk => { tk with stop := none }
      else s.endStop a tk st
    | none => s

/-- CANCELLATION (R309). -/
def execCancellation (a : Nat) (s : State) : Out := .next (s.takeStop a .cancel)
/-- WOUND (R30). -/
def execWound (a : Nat) (s : State) : Out := .next (s.takeStop a .wound)

/-- REMOVAL_BY_THE_SUPERVISOR (R381): a resident task stops at its next boundary; a record in a queue ends at once. -/
def execRemovalByTheSupervisor (a : Nat) (s : State) : Out :=
  match s.task? a with
  | none => .next s
  | some tk =>
    if tk.ended.isSome then .next s
    else if s.midGroup a tk then .next (s.updTask a fun tk => { tk with stop := some (Stop.plain .removal 0 0) })
    else .next (s.endStop a tk (Stop.plain .removal 0 0))

/-! ## EXIT (R83, R136, R162) -/

/-- The engine fault of the lowest class that a thread has. -/
def Thread.firstEng (th : Thread) : Option (Nat × EngFault) :=
  (List.range 4).findSome? fun n => (th.eflt.getD n none).map fun f => (n, f)

/-- EXIT in one lane: it waits for the acknowledgement of posted operations, and unreported faults are taken at it: that of a posted
store first (log entry 107), then those of engines by class. -/
def exitLane (s : State) (t : Nat) (_ : Task) (th : Thread) : State :=
  let a := s.issue.accn
  if s.unacked a t then s.interlock a t
  else
    match th.posted, th.firstEng with
    | some p, _ => s.reportPosted a t p
    | none, some (n, f) => s.reportEng a t n f
    | none, none => s.putThread a t { th.clear with cond := .exited, rep := none }

/-- A task whose last thread has exited is ENDING (R289). -/
def State.lastExit (s : State) (a : Nat) : State :=
  s.updTask a fun tk =>
    if tk.phase = .running ∧ tk.threads.all (fun p => !p.2.live) then { tk with phase := .ending } else tk

/-- EXIT (R83): its threads stand at a stop point (R212), and requests that it completes act (R233). -/
def execExit (g : BitVec 3) (s : State) : Out :=
  let a := s.issue.accn
  .next ((((s.meetings a (s.present g)).perLane g.toNat [] exitLane).formAll a).lastExit a)

/-! ## TASK_COMMIT and DETERMINISTIC_TURN (R128, R271 to R275, R310) -/

/-- Every operation of a task has retired. -/
def State.allRetired (s : State) (a : Nat) (tk : Task) : Bool :=
  !(s.engs.any fun e => e.accn == a) && !((KMap.vals s.outs).any fun o => o.accn == a) &&
    !((s.cluster (clusterOf tk.core)).table.any fun r => r.accn == a)

/-- The commit point of an ENDING task (R310): dominated, it is cancelled; else it commits, and ends once the time of the
commit has passed. -/
def State.commitPoint (s : State) (a : Nat) (tk : Task) : State :=
  if !tk.irrevocable && s.dominatedNow tk then (s.haltTask a .cancel).takeStop a .cancel
  else
    let s := if tk.irrevocable then s else s.commitTask a tk
    match (s.task? a).bind Task.commitT with
    | some tm => if tm < s.dtime then s.endTask a statusDone 0 else s
    | none => s.endTask a statusDone 0

/-- TASK_COMMIT may act on a task: ENDING, all retired, its turn, and the time of a commit under way has passed; or it has
ended and its event may be written. -/
def State.commitReady (s : State) (a : Nat) (tk : Task) : Bool :=
  if tk.ended.isSome then s.mayFinish a
  else
    tk.phase == .ending && tk.stop.isNone && s.allRetired a tk && s.hasTurn tk &&
      (match tk.commitT with
       | some tm => tm < s.dtime
       | none => true)

/-- TASK_COMMIT (R128, R310). -/
def execTaskCommit (a : Nat) (s : State) : Out :=
  match s.task? a with
  | none => .next s
  | some tk =>
    if !s.commitReady a tk then .next s
    else if tk.ended.isSome then .next (s.finishTask a)
    else .next (s.commitPoint a tk)

/-- The task of a launch that has an index. -/
def State.taskOf (s : State) (l tidx : Nat) : Option (Nat × Task) :=
  s.tasks.find? fun p => p.2.launch = l && p.2.rcd.tidx = tidx

/-- DETERMINISTIC_TURN may act: the task of the turn has ended, or has ended but for its event. -/
def State.turnReady (s : State) (l : Nat) (x : Launch) : Bool :=
  x.det &&
    match s.taskOf l x.turn with
    | some p => s.mayFinish p.1
    | none => x.turn < x.roots

/-- DETERMINISTIC_TURN (R271, R272, R278): the event of the task that has ended is written, the turn passes on, and the
task that has it goes on. -/
def execDeterministicTurn (l : Nat) (s : State) : Out :=
  match s.launch? l with
  | none => .next s
  | some x =>
    if !s.turnReady l x then .next s
    else
      let s := match s.taskOf l x.turn with
        | some p => s.finishTask p.1
        | none => s
      if (s.taskOf l x.turn).isSome then .next s else
      let s := s.updLaunch l fun x => { x with turn := x.turn + 1 }
      match s.taskOf l (x.turn + 1) with
      | some p => .next (s.wakeTask p.1 [.turn])
      | none => .next s

end Sys2Proof.Machine
end

