-- ==== Sys2Proof/Machine/Sync.lean ====
section
/-!
DEFINITION. REFORM and YIELD with the drawers (R299, R318), WAITLN and WAITEV (R166, R322), BOUND (R323), the incumbents
(R274, R306 to R308, R324, R325), COMMIT (R330), and the events DRAWER_AGING, RESIDENT_DOMINATION_TEST,
INCUMBENT_PROPAGATE and FEDERATION_VALUE.
-/

namespace Sys2Proof.Machine

/-! ## Drawers (R299) -/

/-- The key of the drawer in which a filed thread stands (R299): the packet after its REFORM's. The thread itself goes on
at the word after REFORM. -/
def Thread.drawerKey (th : Thread) : Nat := retAddr (th.pc - 4)

/-- The threads of a task on a core that stand in the drawer of a program counter: tick filed, thread. -/
def Task.drawer (tk : Task) (core pc : Nat) : List (Nat × Nat) :=
  tk.threads.filterMap fun p =>
    match p.2.cond with
    | .filed u => if tk.coreOf p.1 = core ∧ p.2.drawerKey = pc then some (u, p.1) else none
    | _ => none

/-- The keys of the drawers of a core that are in use: task and program counter. -/
def State.drawers (s : State) (core : Nat) : List (Nat × Nat) :=
  (s.tasks.flatMap fun p => p.2.threads.filterMap fun q =>
    match q.2.cond with
    | .filed _ => if p.2.coreOf q.1 = core then some (p.1, q.2.drawerKey) else none
    | _ => none).eraseDups

/-- REFORM in one lane (R299, R318): the thread is filed under the packet after the word, or, with no drawer for it, goes
on. Either way the word after REFORM comes next, so drawers change nothing that it computes (R300). -/
def reformLane (s : State) (t : Nat) (tk : Task) (th : Thread) : State :=
  let a := s.issue.accn
  let pc := retAddr th.pc
  let ds := s.drawers (tk.coreOf t)
  if ds.contains (a, pc) || ds.length < 64 then s.putThread a t { th.next with cond := .filed s.dtime }
  else s.putThread a t th.next

/-- REFORM (R318). -/
def execReform (s : State) : Out := .next (s.perLane 0 [] reformLane)

/-- YIELD (R318): the squads of its threads leave the active set. -/
def execYield (s : State) : Out :=
  .next (s.perLane 0 [] fun s t tk th =>
    (s.updCore (tk.coreOf t) fun c => { c with squads := KMap.upd th.squad (fun q => { q with active := false }) c.squads }).putThread
      s.issue.accn t th.next)

/-- A drawer gives a squad: 32 threads, an oldest thread past the threshold, or every live thread of the task (R299). -/
def State.drawReady (s : State) (core a pc : Nat) : Bool :=
  match s.task? a with
  | none => false
  | some tk =>
    let ts := tk.drawer core pc
    let aging := ((s.ctx? tk.ctx).map Ctx.aging).getD 0
    !ts.isEmpty && tk.stop.isNone &&
      (32 ≤ ts.length || ts.any (fun p => p.1 + aging < s.dtime) || ts.length == (tk.threads.filter fun p => p.2.live).length)

/-- The threads that a drawer gives (R299): its oldest 32, by the tick they were filed, then by TID; in a deterministic
launch by TID (R270). -/
def State.drawn (s : State) (core pc : Nat) (tk : Task) : List Nat :=
  let ts := tk.drawer core pc
  ((sortBy (fun p => if s.isDet tk then p.2 else p.1 * 2048 + p.2) ts).take 32).map Prod.snd

/-- DRAWER_AGING (R299): a drawer gives a squad, which joins the pending set. The spec is silent on a core that has 48 squads with live
threads already; a further squad is formed there too (DESIGN CHOICE, log entry 86). -/
def execDrawerAging (core a pc : Nat) (s : State) : Out :=
  match s.task? a with
  | none => .next s
  | some tk =>
    if !s.drawReady core a pc then .next s
    else
      let n := (s.core core).nextSquad
      let now := s.dtime
      let s1 := s.updCore core fun c =>
        { c with squads := KMap.put n ⟨a, now, false⟩ c.squads, nextSquad := n + 1 }
      .next ((s.drawn core pc tk).foldl (fun s t => s.updThread a t fun th => { th with cond := .running, squad := n }) s1)

/-! ## WAITLN and WAITEV (R166, R322) -/

/-- WAITLN (R166): returns when the word differs from V(D), otherwise holds the thread. Its threads
stand at a stop point (R212). -/
def execWaitln (o : WaitLn) (s : State) : Out :=
  .next ((s.meetings s.issue.accn (s.present o.g)).perLane o.g.toNat [o.d.toNat, o.off.toNat] fun s t tk th =>
    let a := s.issue.accn
    let r := tk.record o.k.toNat
    let ord : BitVec 2 := if o.acq then 1 else 0
    let back (v : Word) (s : State) : State := s.finish a t ord r.orderScope fun th => th.setReg o.d.toNat v
    match s.place tk t o.k.toNat r (r.space = 0 && fmtBits r.fmt == 32) (th.reg o.off.toNat).toNat r.address
        ⟨4, true, ⟨true, false, false⟩⟩ with
    | .error f => s.raiseAcc a t f
    | .ok (.glob _ ks xs) =>
      let s := s.rememberAll tk.ctx xs
      if ks.any isReg then
        let v := word (leNat (s.regLoad ks))
        if v = th.reg o.d.toNat then s.holdThread a t .line else back v s
      else
        (match s.loadKeys a t tk (tk.coreOf t) r.pol ks with
        | .val s bs =>
          let v := word (leNat bs)
          if v = th.reg o.d.toNat then s.holdThread a t .line else back v s
        | .wait s => s
        | .dead s => s)
    | .ok _ => back 0 s)

/-- WAITEV in one lane (R322): the event is read as one; while it is not valid the thread is held. -/
def waitevLane (d x : Nat) (s : State) (t : Nat) (tk : Task) (th : Thread) : State :=
  let a := s.issue.accn
  let e := th.addr2 x
  let use (bs : List Byte) (s : State) : State :=
    if (bs.getD 1 0) = 1 then s.finish a t 1 4 fun th => th.setReg d (word (leNat (bs.take 4)))
    else s.holdThread a t .event
  if e / 2 ^ 56 % 2 = 1 then s.raise a t causePermission e 0
  else if e % 16 ≠ 0 then s.raise a t causeMisaligned e 0
  else
    match s.keysOf tk.ctx readOnly e 16 with
    | .error f => s.raiseAcc a t ⟨f.1, f.2, 0⟩
    | .ok (ks, xs) =>
      let s := s.rememberAll tk.ctx xs
      if ks.any isReg then use (s.regLoad ks) s
      else
        match s.loadKeys a t tk (tk.coreOf t) 0 ks with
        | .val s bs => use bs s
        | .wait s => s
        | .dead s => s

/-- WAITEV (R322). Its threads stand at a stop point (R212). -/
def execWaitev (o : Da) (s : State) : Out :=
  .next ((s.meetings s.issue.accn s.carried).perLane 0 [o.d.toNat, o.a.toNat, o.a.toNat + 1]
    (waitevLane o.d.toNat o.a.toNat))

/-! ## BOUND (R323) -/

/-- What BOUND makes of a task's bound: the new task and the status. -/
def Task.tighten (tk : Task) (isMax : Bool) (v : DWord) (w : Word) : Task × Nat :=
  if !tk.bounded then ({ tk with bnd := v, bsel := BitVec.ofNat 6 w.toNat }, 0)
  else if wbits w 5 1 = 0 ∨ wbits w 0 4 ≠ tk.boundInc ∨ (tk.bsel.getLsbD 4 = true ∧ wbits w 4 1 = 0) then (tk, 2)
  else
    let tighter : Bool := if isMax then v.toNat < tk.bnd.toNat else tk.bnd.toNat < v.toNat
    let loose := wbits w 4 1 == 1 && !tk.bsel.getLsbD 4
    ({ tk with
        bnd := if tighter then v else tk.bnd
        bsel := if loose then tk.bsel ||| 16 else tk.bsel },
      if tighter || loose then 0 else 1)

/-- BOUND (R323). -/
def execBound (o : Dab) (s : State) : Out :=
  taskWord (some o.d.toNat) (fun s tk _ =>
    let w := tk.sreg o.b.toNat
    match s.ctx? tk.ctx with
    | none => .later s
    | some c =>
      if wbits w 6 26 ≠ 0 ∨ (wbits w 5 1 = 1 ∧ c.hasInc (wbits w 0 4) = false) then
        .fault causeIllegalOperand 0 (word o.b.toNat)
      else
        let r := tk.tighten (c.isMax tk.boundInc) (tk.sreg2 o.a.toNat) w
        .done (s.updTask tk.rcd.accn fun tk => { tk with bnd := r.1.bnd, bsel := r.1.bsel }) r.2) s

/-! ## Incumbents (R274, R306, R324, R325) -/

/-- The incumbent word in S(B) names an incumbent that is set up (R324). -/
def Ctx.incOk (c : Ctx) (w : Word) : Bool := wbits w 4 28 == 0 && c.hasInc (wbits w 0 4)

/-- The snapshot of an incumbent that a deterministic launch took (R274). -/
def State.snapshot (s : State) (tk : Task) (i : Nat) : DWord :=
  (((s.launch? tk.launch).bind Launch.snap).map fun m => KMap.getD i 0 m).getD 0
/-- The better of the snapshot and every staged offer of the task (R274). -/
def State.staged (s : State) (c : Ctx) (tk : Task) (i : Nat) : DWord :=
  tk.offers.foldl (fun u o => if o.1 = i then best (c.isMax i) o.2 u else u) (s.snapshot tk i)

/-- The value at an incumbent's home. -/
def Ctx.home (c : Ctx) (i : Nat) : DWord := ((KMap.get? i c.incs).map Incumbent.value).getD 0

/-- Raise a core's copy of an incumbent (R324). -/
def State.raiseCopy (s : State) (core n i : Nat) (isMax : Bool) (v : DWord) : State :=
  let u := s.incCopy core n i
  s.updCore core fun x => { x with incs := KMap.put (n * 16 + i) (best isMax v u) x.incs }

/-- INCSET in one lane (R324): an offer at the home, or one that is staged (R274). -/
def incsetLane (o : Dab) (s : State) (t : Nat) (tk : Task) (th : Thread) : State :=
  let a := s.issue.accn
  let w := tk.sreg o.b.toNat
  let i := wbits w 0 4
  let v := th.reg2 o.a.toNat
  match s.ctx? tk.ctx with
  | none => s
  | some c =>
    if !c.incOk w then s.raise a t causeIllegalOperand 0 (word o.b.toNat)
    else if s.isDet tk then
      let tk1 := { tk with offers := tk.offers ++ [(i, v)] }
      (s.updTask a fun tk => { tk with offers := tk1.offers }).updThread a t fun th => (th.setReg2 o.d.toNat (s.staged c tk1 i)).next
    else
      let s := s.offerHome tk.ctx i v
      let u := ((s.ctx? tk.ctx).map fun c => c.home i).getD 0
      (s.raiseCopy (tk.coreOf t) tk.ctx i (c.isMax i) u).updThread a t fun th => (th.setReg2 o.d.toNat u).next

/-- INCSET (R324): in a deterministic launch the offers are staged in ascending TID, also where a lane has to wait (R270, R274). -/
def execIncset (o : Dab) (s : State) : Out :=
  .next (s.perLaneFreeIn 0 [o.d.toNat, o.d.toNat + 1, o.a.toNat, o.a.toNat + 1] (fun s _ _ _ => .go s) (incsetLane o))

/-- INCGET (R325): the issuing core's copy, or the snapshot with the staged offers (R274). -/
def execIncget (o : Db) (s : State) : Out :=
  .next (s.perLane 0 [o.d.toNat, o.d.toNat + 1] fun s t tk th =>
    let w := tk.sreg o.b.toNat
    let i := wbits w 0 4
    match s.ctx? tk.ctx with
    | none => s
    | some c =>
      if !c.incOk w then s.raise s.issue.accn t causeIllegalOperand 0 (word o.b.toNat)
      else
        let v := if s.isDet tk then s.staged c tk i else s.incCopy (tk.coreOf t) tk.ctx i
        s.putThread s.issue.accn t (th.setReg2 o.d.toNat v).next)

/-- RESIDENT_DOMINATION_TEST (R308): every resident revocable task that is dominated by its core's copy stops at its next
boundary; not in a deterministic launch (R274). -/
def execResidentDominationTest (s : State) : Out :=
  .next ((KMap.keys s.tasks).foldl (fun s a =>
    match s.task? a with
    | none => s
    | some tk =>
      if tk.resident && !s.isDet tk && s.dominatedNow tk then s.haltTask a .cancel else s) s)

/-- INCUMBENT_PROPAGATE (R306): the value at the home reaches a core's copy. -/
def execIncumbentPropagate (n i core : Nat) (s : State) : Out :=
  match s.ctx? n with
  | none => .next s
  | some c => .next (s.raiseCopy core n i (c.isMax i) (c.home i))

/-- A federated incumbent of a context has the group and the index of a value that was received. -/
def Ctx.joins (c : Ctx) (fgrp i : Nat) : Bool := c.federated i && c.fgrp == fgrp

/-- FEDERATION_VALUE (R307): a value of a peer is offered at every incumbent that is the same, and not sent on. One whose group and
index match an incumbent of the other direction is not offered there, and is counted. A module that has failed takes none (R414). -/
def execFederationValue (fgrp i : Nat) (isMax : Bool) (v : DWord) (s : State) : Out :=
  let cs := (KMap.vals s.ctxs).filter fun c => c.joins fgrp i
  let miss := cs.any fun c => c.isMax i != isMax
  if !s.regs.serves then .next s else
  .next { s with
    ctxs := KMap.mapAll (fun c => if c.joins fgrp i && c.isMax i == isMax then c.offer i v s.dtime else c) s.ctxs
    regs := { s.regs with mismatches := s.regs.mismatches + bit miss } }

/-! ## COMMIT (R330) -/

/-- COMMIT (R330). -/
def execCommit (s : State) : Out :=
  taskWord none (fun s tk t =>
    let a := tk.rcd.accn
    if !tk.irrevocable && !s.isDet tk && s.dominatedNow tk then .later (s.haltTask a .cancel)
    else
      match s.enter a t with
      | .go s => .done s 0
      | .wait s => .later s) s

end Sys2Proof.Machine
end

