-- ==== Sys2Proof/Machine/Spawn.lean ====
section
/-!
DEFINITION. Task records and their checks, room on a core, and SPAWN (R37, R38, R43, R44, R268, R291, R293, R294, R314 to
R317).
-/

namespace Sys2Proof.Machine

/-! ## Regions (R14, R364, R431) -/

/-- The cluster at a stop of the grid. -/
def clusterAt (r c : Nat) : Nat := 36 * (2 * (r / 6) + c / 6) + 6 * (r % 6) + c % 6
/-- The clusters of a context's region, row-major from its upper left stop. -/
def Ctx.region (x : Ctx) : List Nat :=
  (List.range x.rows).flatMap fun i => (List.range x.cols).map fun j => clusterAt (x.row + i) (x.col + j)
/-- The clusters of a context. -/
def State.region (s : State) (n : Nat) : List Nat := ((s.ctx? n).map Ctx.region).getD []
/-- The lowest-indexed cluster of a region (R298). -/
def State.lowestCluster (s : State) (n : Nat) : Nat :=
  (s.region n).foldl min ((s.region n).headD 0)

/-! ## Records (R37) -/

/-- Little-endian field of a record. -/
def field (bs : List Byte) (off n : Nat) : Nat := leNat ((bs.drop off).take n)

/-- The record in 128 bytes, as the Jenhal copies it (R317): `accn` and `paccn` are written in. -/
def recordOf (bs : List Byte) (accn paccn : Nat) : TaskRec :=
  { entry := field bs 0x00 8, accn := accn, paccn := paccn, bound := dword (field bs 0x18 8), flags := word (field bs 0x20 4)
    bselw := word (field bs 0x24 4), ntid := field bs 0x28 2, rlcnt := 0, rreq := word (field bs 0x2C 4)
    args := dword (field bs 0x30 8), depev := field bs 0x38 8, donev := field bs 0x40 8, cata := field bs 0x48 8
    tidx := field bs 0x50 4 }

/-- FLAGS bit 4. -/
def TaskRec.det (r : TaskRec) : Bool := wbits r.flags 4 1 == 1
/-- FLAGS bit 5. -/
def TaskRec.single (r : TaskRec) : Bool := wbits r.flags 5 1 == 1
/-- FLAGS bit 6. -/
def TaskRec.coop (r : TaskRec) : Bool := wbits r.flags 6 1 == 1
/-- Chunks of RREQ. -/
def TaskRec.chunks (r : TaskRec) : Nat := wbits r.rreq 0 3
/-- Scratchpad pages of RREQ. -/
def TaskRec.pages (r : TaskRec) : Nat := wbits r.rreq 3 7
/-- Effect-buffer pages of RREQ. -/
def TaskRec.ebPages (r : TaskRec) : Nat := wbits r.rreq 10 6

/-- Check RECORD of R316, against the context that the record is to run in. -/
def recordOk (c : Ctx) (child : Bool) (bs : List Byte) : Bool :=
  let r := recordOf bs 0 0
  r.entry < 2 ^ 57 && r.entry % 12 == 0 && wbits r.flags 7 25 == 0 && wbits r.flags 0 2 ≤ 1 && wbits r.bselw 6 26 == 0 &&
    1 ≤ r.ntid && r.ntid ≤ 2048 && r.chunks ≤ 4 && r.pages ≤ 112 && r.depev % 16 == 0 && r.donev ≠ 0 && r.donev % 16 == 0 &&
    r.cata % 4096 == 0 && field bs 0x54 44 == 0 && (wbits r.bselw 5 1 == 0 || c.hasInc (wbits r.bselw 0 4)) &&
    !(child && (r.det || r.coop))

/-! ## Catalogues (R43, R44) -/

/-- The 256 entries in 4,096 bytes. -/
def catalogueOf (bs : List Byte) : List (BitVec 128) := (List.range 256).map fun e => BitVec.ofNat 128 (field bs (16 * e) 16)

/-- A valid entry has its reserved fields 0 and its fields in range. -/
def entryOk (e : BitVec 128) : Bool :=
  cbits e 107 20 == 0 && cbits e 76 20 == 0 && cbits e 43 21 == 0 && 1 ≤ entryStride e && 1 ≤ entryCount e && entryCount e ≤ 2048

/-- The memberships of a thread, in ascending entry index (R45). -/
def memberships (cat : List (BitVec 128)) (tidx t : Nat) : List Nat :=
  (cat.zipIdx.filter fun p => entryHas p.1 tidx t).map Prod.snd

/-- CMEM (R45). -/
def cmemOf (cat : List (BitVec 128)) (tidx t : Nat) : DWord :=
  dword (((memberships cat tidx t).zipIdx).foldl (fun n p => n + p.1 * 2 ^ (8 * p.2) + 2 ^ (32 + p.2)) 0)

/-- The catalogue of a record passes R44 among the records of its SPAWN. -/
def catalogueOk (rs : List TaskRec) (r : TaskRec) (cat : List (BitVec 128)) : Bool :=
  (List.range r.ntid).all (fun t => (memberships cat r.tidx t).length ≤ 4) &&
    (cat.filter entryValid).all fun e =>
      entryOk e && (r.coop || !entrySpans e) &&
        rs.all fun x => !(entryFirst e ≤ x.tidx && x.tidx ≤ entryLast e) || entryBase e + (entryCount e - 1) * entryStride e < x.ntid

/-! ## Room on a core (R12, R98, R99, R294) -/

/-- What stands on a core: squads of slots, the scratchpad pages in use, effect-buffer pages. -/
structure Use where
  squads : Nat
  spots : List Nat
  ebuf : Nat
  deriving DecidableEq, Repr

/-- Nothing. -/
def Use.empty : Use := ⟨0, [], 0⟩
/-- Room given on a core over what stands there. -/
def Use.add (u : Use) (v : Room) : Use := ⟨u.squads + v.squads, u.spots ++ freeSpots u.spots v.spad, u.ebuf + v.ebuf⟩
/-- It fits the 48 squads and the SRAM of a core (R13, R29, R99). -/
def Use.fits (u : Use) : Bool := u.squads ≤ 48 && splitOf u.spots ≤ 7 && 64 * splitOf u.spots + 4 * u.ebuf ≤ 496

/-- A record needs two cores (R12). -/
def TaskRec.twoCore (r : TaskRec) : Bool := 1536 < r.ntid
/-- What a record needs on its lower core and on the partner (R98, R294). -/
def TaskRec.need (r : TaskRec) : Room × Room :=
  if r.twoCore then (⟨48, (r.pages + 1) / 2, r.ebPages⟩, ⟨(r.ntid - 1536 + 31) / 32, r.pages / 2, 0⟩)
  else (⟨(r.ntid + 31) / 32, r.pages, r.ebPages⟩, ⟨0, 0, 0⟩)
/-- Bytes of the private area (R93). -/
def TaskRec.privBytes (r : TaskRec) : Nat := wbits r.rreq 16 16 * ((r.ntid + 31) / 32 * 32) * 4
/-- The private area can be given beside others. -/
def privFits (used need : Nat) : Bool := need == 0 || used + need ≤ Config.privateReserve
/-- The record fits on core `c` over what stands there. -/
def TaskRec.fitsOn (r : TaskRec) (u : Nat → Use) (c : Nat) : Bool :=
  ((u c).add r.need.1).fits && (!r.twoCore || ((u (c + 1)).add r.need.2).fits)
/-- The lower cores of a cluster that a record may have (R12, R298). -/
def TaskRec.coresIn (r : TaskRec) (single : Bool) (k : Nat) : List Nat :=
  if single then [4 * k] else if r.twoCore then [4 * k, 4 * k + 2] else [4 * k, 4 * k + 1, 4 * k + 2, 4 * k + 3]
/-- The record fits an empty core or pair (R294). -/
def TaskRec.everFits (r : TaskRec) : Bool := r.fitsOn (fun _ => Use.empty) 0 && privFits 0 r.privBytes
/-- A record put on core `c`. -/
def TaskRec.put (r : TaskRec) (u : Nat → Use) (c x : Nat) : Use :=
  if x = c then (u x).add r.need.1 else if r.twoCore ∧ x = c + 1 then (u x).add r.need.2 else u x

/-- Cores of a list for records that all stand at once (R301), the lowest first (R295); none where they do not fit together. -/
def planGroup (cores : TaskRec → List Nat) : (Nat → Use) → Nat → List TaskRec → Option (List Nat)
  | _, _, [] => some []
  | u, priv, r :: rs =>
    if privFits priv r.privBytes then
      (cores r).findSome? fun c =>
        if r.fitsOn u c then (planGroup cores (r.put u c) (priv + r.privBytes) rs).map (c :: ·) else none
    else none

/-- The cores that records of a launch may have in a list of clusters: of a single-file launch, whose tasks run one at a time, those
of one record alone (R298). -/
def launchCores (single : Bool) (clusters : List Nat) (r : TaskRec) : List Nat :=
  (if single then clusters.take 1 else clusters).flatMap (r.coresIn single)

/-- The records of a cooperative launch fit the empty region at once (R301). -/
def coopFits (single : Bool) (clusters : List Nat) (rs : List TaskRec) : Bool :=
  !(single && 1 < rs.length) && (planGroup (launchCores single clusters) (fun _ => Use.empty) 0 rs).isSome

/-! ## The checks of R316 -/

/-- Record `i` breaks the LAUNCH check (R268, R301, R316): of a cooperative launch, the one with which those before it do not fit the
empty region. -/
def breaksLaunch (clusters : List Nat) (rs : List TaskRec) (r0 r : TaskRec) (i : Nat) : Bool :=
  let f (r : TaskRec) : Nat := wbits r.flags 4 3
  f r ≠ f r0 ||
    if r0.det then wbits r.flags 0 2 ≠ 0 || r.coop || rs.length ≤ r.tidx || (rs.take i).any fun x => x.tidx == r.tidx
    else r0.coop && !coopFits r0.single clusters (rs.take (i + 1))

/-- The first record that breaks the LAUNCH check (R316). -/
def launchBad (clusters : List Nat) (rs : List TaskRec) : Option Nat :=
  rs.head?.bind fun r0 => rs.zipIdx.findIdx? fun p => breaksLaunch clusters rs r0 p.1 p.2

/-- Records of a context in a cluster's queue. -/
def State.queueLen (s : State) (k n : Nat) : Nat :=
  (s.tasks.filter fun p => p.2.phase = .queued ∧ p.2.cluster = k ∧ p.2.ctx = n).length

/-- The first record that would overfill its queue: `ks` the queues of the records. -/
def State.queueBad (s : State) (n : Nat) (ks : List Nat) : Option Nat :=
  ks.zipIdx.findIdx? fun p => 4096 < s.queueLen p.1 n + ((ks.take (p.2 + 1)).filter (· = p.1)).length

/-- What a SPAWN is about: target context, launch or not, single-file, and the spawning task. -/
structure SpawnFor where
  ctx : Nat
  launch : Bool
  single : Bool
  parent : Nat
  home : Nat
  deriving DecidableEq, Repr

/-- The queue of a record (R291, R298). -/
def State.queueOf (s : State) (f : SpawnFor) (r : TaskRec) : Nat :=
  if f.single then s.lowestCluster f.ctx
  else if f.launch then (s.region f.ctx).getD (r.tidx % (s.region f.ctx).length) 0
  else f.home

/-- The first record that fails the RECORD check of R316, if one does: it comes before any catalogue is read. -/
def State.recordBad (s : State) (f : SpawnFor) (bss : List (List Byte)) : Option Nat :=
  match s.ctx? f.ctx with
  | none => some 0
  | some c => bss.findIdx? fun bs => !recordOk c (!f.launch) bs

/-- The status and index of the first failed check of R316 after it, or (0, 0): `bss` the records, `cats` their catalogues where
they can be read. -/
def State.spawnCheck (s : State) (f : SpawnFor) (bss : List (List Byte)) (cats : List (Option (List (BitVec 128)))) : Nat × Nat :=
  let rs := bss.map fun bs => recordOf bs 0 0
  let clusters := s.region f.ctx
  match (rs.zip cats).findIdx? (fun p => !((p.2.map (catalogueOk rs p.1)).getD false)) with
  | some i => (5, i)
  | none =>
    match (if f.launch then launchBad (if f.single then [s.lowestCluster f.ctx] else clusters) rs else none) with
    | some i => (6, i)
    | none =>
      match rs.findIdx? (fun r => !r.everFits) with
      | some i => (3, i)
      | none =>
        match s.queueBad f.ctx (rs.map (s.queueOf f)) with
        | some i => (1, i)
        | none =>
          match (List.range rs.length).find? fun i => 2 ^ 48 - 1 < s.accn + i with
          | some i => (7, i)
          | none => (0, 0)

/-! ## SPAWN (R314 to R317) -/

/-- Bytes that SPAWN reads: found, or what stands in the way. -/
inductive SpawnRead where
  | got (s : State) (bs : List Byte)
  | stay (s : State)
  | bad (cause addr : Nat)
  deriving DecidableEq, Repr

/-- Read `n` bytes in a context through the spawning thread's core. -/
def State.spawnRead (s : State) (a t : Nat) (tk : Task) (ctx va n : Nat) : SpawnRead :=
  if va / 2 ^ 56 % 2 = 1 then .bad causePermission va
  else
    match s.keysOf ctx readOnly va n with
    | .error e => ((recallLine e.1).map fun l => SpawnRead.stay (s.awaitCopies a t l)).getD (.bad e.1 e.2)
    | .ok (ks, xs) =>
      let s := s.rememberAll ctx xs
      if ks.any isReg then .got s (s.regLoad ks)
      else
        match s.loadKeys a t tk (tk.coreOf t) 0 ks with
        | .val s bs => .got s bs
        | .wait s => .stay s
        | .dead s => .stay s

/-- The records of a SPAWN as read so far. -/
inductive SpawnGot where
  | got (s : State) (bss : List (List Byte))
  | stay (s : State)
  | bad (cause addr : Nat)
  deriving DecidableEq, Repr

/-- Read `n` records from an address (R315). -/
def State.spawnRecords (a t : Nat) (tk : Task) : Nat → State → Nat → SpawnGot
  | 0, s, _ => .got s []
  | n + 1, s, va =>
    match s.spawnRead a t tk tk.ctx va 128 with
    | .stay s => .stay s
    | .bad c x => .bad c x
    | .got s bs =>
      match State.spawnRecords a t tk n s (va + 128) with
      | .got s bss => .got s (bs :: bss)
      | x => x

/-- The catalogues of records, none where one cannot be read (R315); a read that must wait is `none` of the outer
option. -/
def State.spawnCats (a t : Nat) (tk : Task) (ctx : Nat) :
    List (List Byte) → State → State × Option (List (Option (List (BitVec 128))))
  | [], s => (s, some [])
  | bs :: bss, s =>
    let cata := (recordOf bs 0 0).cata
    let more (s : State) (c : Option (List (BitVec 128))) : State × Option (List (Option (List (BitVec 128)))) :=
      let r := State.spawnCats a t tk ctx bss s
      (r.1, r.2.map (c :: ·))
    if cata = 0 then more s (some [])
    else
      match s.spawnRead a t tk ctx cata 4096 with
      | .got s cs => more s (some (catalogueOf cs))
      | .bad _ _ => more s none
      | .stay s => (s, none)

/-- Queue one record (R291, R317). -/
def State.enqueue (s : State) (f : SpawnFor) (launch : Nat) (bs : List Byte) (cat : List (BitVec 128)) : State :=
  let r := recordOf bs s.accn (if f.launch then 0 else f.parent)
  let flags := r.flags.toNat - wbits r.flags 5 1 * 32 + bit f.single * 32
  let r := if f.launch then r else { r with flags := word flags }
  let tk := Task.fresh r f.ctx launch (s.queueOf f r) s.nextId cat
  { s with tasks := KMap.put s.accn tk s.tasks, accn := s.accn + 1, nextId := s.nextId + 1 }

/-- The launch that roots make (R268, R298, R301). -/
def launchOf (ctx : Nat) (rs : List TaskRec) : Launch :=
  let r0 : Option TaskRec := rs.head?
  ⟨ctx, (r0.map TaskRec.det).getD false, (r0.map TaskRec.single).getD false, (r0.map TaskRec.coop).getD false, rs.length, 0,
    none, [], false⟩

/-- Queue every record of a SPAWN that passed its checks (R315, R317). -/
def State.spawnQueue (s : State) (f : SpawnFor) (tk : Task) (bss : List (List Byte)) (cats : List (Option (List (BitVec 128)))) :
    State :=
  let id := if f.launch then s.nextId else tk.launch
  let s :=
    if f.launch then
      { s with launches := KMap.put id (launchOf f.ctx (bss.map fun bs => recordOf bs 0 0)) s.launches, nextId := s.nextId + 1 }
    else s
  (bss.zip cats).foldl (fun s p => s.enqueue f id p.1 (p.2.getD [])) s

/-- SPAWN in one lane (R315): a fault of a lane before it does not stop it (R171), but the cancellation of the task does. -/
def spawnLane (o : Dab) (s : State) (t : Nat) (tk : Task) (th : Thread) : State :=
  let a := s.issue.accn
  let w := tk.sreg o.b.toNat
  let n := wbits w 0 16
  let isLaunch := wbits w 22 1 == 1
  let answer (s : State) (v : Nat) : State := s.updThread a t fun th => (th.setReg o.d.toNat (word v)).next
  if wbits w 23 9 ≠ 0 ∨ n = 0 ∨ (isLaunch = false ∧ wbits w 16 6 ≠ 0) ∨ (isLaunch = true ∧ tk.ctx ≠ 0) then
    s.raise a t causeIllegalOperand 0 (word o.b.toNat)
  else if (tk.stop.map Stop.kind) = some .cancel then s
  else if s.isDet tk then answer s 4
  else if !tk.irrevocable && s.dominatedNow tk then s.haltTask a .cancel
  else
    match (s.enter a t).bind fun s => s.release a t 4 with
    | .wait s => s
    | .go s =>
      let ra := th.addr2 o.a.toNat
      if ra % 128 ≠ 0 then s.raise a t causeMisaligned ra 0
      else
        match State.spawnRecords a t tk n s ra with
        | .stay s => s
        | .bad c x => s.raise a t c x 0
        | .got s bss =>
          let single :=
            if isLaunch then ((bss.head?.map fun bs => (recordOf bs 0 0).single).getD false)
            else ((s.launch? tk.launch).map Launch.single).getD false
          let f : SpawnFor := ⟨if isLaunch then wbits w 16 6 else tk.ctx, isLaunch, single, a, clusterOf tk.core⟩
          match s.recordBad f bss with
          | some i => answer s (2 + i * 2 ^ 16)
          | none =>
            match State.spawnCats a t tk f.ctx bss s with
            | (s, none) => s
            | (s, some cats) =>
              let r := s.spawnCheck f bss cats
              if r.1 ≠ 0 then answer s (r.1 + r.2 * 2 ^ 16) else answer (s.spawnQueue f tk bss cats) 0

/-- A thread of the issue is still at its word. -/
def State.lingers (s : State) (t : Nat) : Bool :=
  ((s.thread? s.issue.accn t).map fun th => th.kept.isSome && th.pc == s.issue.pc).getD false

/-- A thread of lower TID of the squad waits at the word of the issue. -/
def State.follows (s : State) (t : Nat) : Bool :=
  ((s.task? s.issue.accn).bind fun tk => (KMap.get? t tk.threads).map (tk.lowerWaits t)).getD false

/-- SPAWN (R315): each active thread, in ascending TID: where one has to wait, those after it wait with it. -/
def execSpawn (o : Dab) (s : State) : Out :=
  let one := State.lane 0 [o.d.toNat, o.a.toNat, o.a.toNat + 1] (spawnLane o)
  .next (s.issue.lanes.foldl (fun (r : State × Bool) t =>
    if r.2 || r.1.follows t then (if s.carried.contains t then r.1.waitThread s.issue.accn t id else r.1, true)
    else let s := one r.1 t; (s, s.lingers t)) (s, false)).1

end Sys2Proof.Machine
end

