-- ==== Sys2Proof/Machine/Place.lean ====
section
/-!
DEFINITION. Queues and placement (R12, R20, R45, R291 to R298, R301), sharing among contexts (R305), and the events
RECORD_RESERVATION, QUEUE_SCAN, EPOCH_END, MATRIX_HOLD_EXPIRE, RECORD_ELIGIBLE, TASK_PLACEMENT, STEAL_REQUEST.
-/

namespace Sys2Proof.Machine

/-! ## Room (R18, R294) -/

/-- Threads of a task on a core whose squads are there. -/
def Task.slotsOn (tk : Task) (c : Nat) : Nat :=
  (tk.threads.filter fun p => tk.coreOf p.1 = c ∧ p.2.away = false).length

/-- What stands on a core. -/
def State.useOf (s : State) (c : Nat) : Use :=
  ⟨s.sumTasks fun tk => (tk.slotsOn c + 31) / 32, s.spotsUsed c, s.ebufUsed c⟩
/-- Bytes of private areas in use. -/
def State.privUsed (s : State) : Nat := s.sumTasks fun tk => tk.rcd.privBytes

/-- A context may have squads on a core (R18): no other context has, or it stands there already, or it has won room by pre-emption. -/
def State.mixOk (s : State) (ctx c : Nat) : Bool :=
  let there := (KMap.vals s.tasks).filter fun tk => tk.resident && tk.cores.contains c
  (there.all fun tk => tk.ctx == ctx) || (there.any fun tk => tk.ctx == ctx) || (s.core c).invited.contains ctx

/-- The launch of a task is single-file (R298). -/
def State.isSingle (s : State) (tk : Task) : Bool := ((s.launch? tk.launch).map Launch.single).getD false
/-- No task of the launch has an attempt under way, or the launch is not single-file (R298). -/
def State.fileFree (s : State) (tk : Task) : Bool :=
  !s.isSingle tk || !(s.tasks.any fun p => p.2.launch = tk.launch ∧ p.2.resident = true)

/-- A root task of a cooperative launch: it is placed with the others (R301). -/
def State.jointly (s : State) (tk : Task) : Bool := s.isCoop tk && tk.rcd.paccn == 0

/-- The record of a context that is reserved on a cluster (R296), as long as it stands in the cluster's queue. -/
def State.reservedFor (s : State) (k n : Nat) : Option Nat :=
  ((KMap.get? n (s.cluster k).reserved).map Reserve.accn).filter (s.queuedOn k)

/-! ## Candidates (R292, R295) -/

/-- A record of a queue that may be placed or stolen. -/
def Task.ready (tk : Task) : Bool := tk.phase == .queued && tk.eligible && tk.holdTo == 0

/-- The record that is placed before another: reserved first, then priority, then the most recently queued. -/
def placeKey (reserved : Bool) (tk : Task) : Nat × Nat × Nat := (bit reserved, tk.priority, tk.queued)

/-- Lexicographic order, greater first. -/
def keyBefore (x y : Nat × Nat × Nat) : Bool :=
  y.1 < x.1 || (y.1 == x.1 && (y.2.1 < x.2.1 || (y.2.1 == x.2.1 && y.2.2 < x.2.2)))

/-- Insert by a key, greater first. -/
def insertKey (x : (Nat × Nat × Nat) × Nat) : List ((Nat × Nat × Nat) × Nat) → List ((Nat × Nat × Nat) × Nat)
  | [] => [x]
  | y :: ys => if keyBefore x.1 y.1 then x :: y :: ys else y :: insertKey x ys

/-- The eligible records of a cluster, best first (R295). -/
def State.placeOrder (s : State) (k : Nat) : List Nat :=
  ((s.tasks.filterMap fun p =>
    if p.2.ready ∧ p.2.cluster = k then some (placeKey (s.reservedFor k p.2.ctx == some p.1) p.2, p.1) else none).foldr insertKey []).map
    Prod.snd

/-- A core is held for a reserved record of another task (R296); of two reserved records the one that is placed first holds it. Root
tasks of one cooperative launch do not hold cores against each other (R301). -/
def State.heldFor (s : State) (a c : Nat) (tk : Task) : Bool :=
  let key (r : Nat) (x : Task) : Nat × Nat × Nat := placeKey (s.reservedFor (clusterOf c) x.ctx == some r) x
  (s.holdsCore c).any fun r =>
    r.accn ≠ a && ((s.task? r.accn).map fun x =>
      !(s.jointly tk && x.launch == tk.launch) && keyBefore (key r.accn x) (key a tk)).getD false

/-- A core, and for a task of two its partner, is not held for another record and its contexts may be mixed. -/
def State.coreOpen (s : State) (a : Nat) (tk : Task) (c : Nat) : Bool :=
  (if tk.rcd.twoCore then [c, c + 1] else [c]).all fun x => !s.heldFor a x tk && s.mixOk tk.ctx x

/-- An older task that waits has a request in a class of which the record needs units on a core, and that request fits now: it goes
first (R31). -/
def State.olderWaits (s : State) (a : Nat) (tk : Task) (c : Nat) : Bool :=
  s.tasks.any fun p =>
    p.1 < a && p.2.core == c &&
      p.2.waiting.any fun w =>
        ((w.cls == 2 && 0 < tk.rcd.need.1.spad) || (w.cls == 3 && 0 < tk.rcd.need.1.ebuf)) && w.count ≤ s.freeOf p.2 w.cls w.count

/-- A record may be placed on a core now, but for its resources. -/
def State.coreTakes (s : State) (a : Nat) (tk : Task) (c : Nat) : Bool :=
  s.coreOpen a tk c && !s.olderWaits a tk c && !(tk.rcd.twoCore && s.olderWaits a tk (c + 1))

/-- The core that a record gets on a cluster, if it fits: the lowest (R295). -/
def State.coreFor (s : State) (k a : Nat) (tk : Task) : Option Nat :=
  if s.fileFree tk && privFits s.privUsed tk.rcd.privBytes then
    (tk.rcd.coresIn (s.isSingle tk) k).find? fun c =>
      tk.rcd.fitsOn s.useOf c && s.coreTakes a tk c
  else none

/-! ## Queued records that end (R301, R308) -/

/-- A queued record is dominated by the copy of core 0 of its cluster (R308); not in a deterministic launch (R274). -/
def State.queueDominated (s : State) (tk : Task) : Bool :=
  match s.ctx? tk.ctx with
  | none => false
  | some c =>
    !s.isDet tk && !s.immune tk && tk.bounded && tk.dominatedBy (c.isMax tk.boundInc) (s.incCopy (4 * tk.cluster) tk.ctx tk.boundInc)

/-- A queued record is removed: dominated, or a child of a cancelled task (R308). -/
def State.scanHit (s : State) (tk : Task) : Bool :=
  s.queueDominated tk || ((s.ctx? tk.ctx).map fun c => (KMap.get? tk.rcd.paccn c.cancelled).isSome).getD false

/-- A queued record ends CANCELLED, with its cooperative launch (R301, R308). -/
def State.cancelRecord (s : State) (a : Nat) (tk : Task) : State :=
  (s.group a tk).foldl (fun s x => s.endTask x statusCancelled 0) s

/-! ## The start of an attempt (R12, R20, R45, R274, R299) -/

/-- A thread at the start of an attempt. -/
def Thread.start (entry : Nat) (cmem : DWord) (squad : Nat) : Thread :=
  { v := Vector.replicate 64 0, p := 1, oc := Vector.replicate 4 0, pc := dword entry, cond := .running, away := false
    halted := false, squad := squad, rep := none, repFrom := 0, fpmode := 0, fpflags := 0, rngctr := 0, tepc := 0, tcause := 0
    taddr := 0, tinfo := 0, h := false, cmem := cmem, dtimeHi := none, arrival := none, stallTo := none, waited := 0, waitFor := none
    lwct := Vector.replicate 7 0, posted := none, eflt := Vector.replicate 4 none, issued := Vector.replicate 4 0, bars := []
    reached := [], answer := none, outcome := none, image := none, base := none, missed := [], pkt := none, kept := none, chased := none }

/-- Squads `n` to `n + m - 1` of a task (R299). -/
def newSquads (a now n m : Nat) : KMap Squad := (List.range m).map fun i => (n + i, ⟨a, now, false⟩)

/-- The threads of a task: 32 to a squad in ascending TID; `lo` and `hi` the next squad of the lower core and of the
partner. -/
def Task.newThreads (tk : Task) (lo hi : Nat) : KMap Thread :=
  (List.range tk.rcd.ntid).map fun t =>
    (t, Thread.start tk.rcd.entry (cmemOf tk.cat tk.rcd.tidx t) (if t < 1536 then lo + t / 32 else hi + (t - 1536) / 32))

/-- Give a core new squads of a task. -/
def State.addSquads (s : State) (c a m : Nat) : State :=
  s.updCore c fun x =>
    { x with squads := (newSquads a s.dtime x.nextSquad m).foldl (fun q p => KMap.put p.1 p.2 q) x.squads, nextSquad := x.nextSquad + m }

/-- At a deterministic launch's first placement the incumbents are taken down (R274). -/
def State.takeSnapshot (s : State) (tk : Task) : State :=
  match s.ctx? tk.ctx with
  | none => s
  | some c =>
    let m : KMap DWord := c.incs.map fun p => (p.1, p.2.value)
    s.updLaunch tk.launch fun l => if l.det && l.snap.isNone then { l with snap := some m, inc := m } else l

/-- Start an attempt on a core (R20, R289): a task's start is an acquire at DEVICE scope (R317). -/
def State.placeTask (s : State) (a c : Nat) (tk : Task) : State :=
  let lo := (s.core c).nextSquad
  let hi := (s.core (c + 1)).nextSquad
  let s := s.takeSnapshot tk
  let n := tk.rcd.need
  let spots := (freeSpots (s.spotsUsed c) n.1.spad).map (fun i => (c, i)) ++
    (freeSpots (s.spotsUsed (c + 1)) n.2.spad).map fun i => (c + 1, i)
  let s := s.updTask a fun tk =>
    { tk with
      phase := .running, core := c, passed := none, chunks := tk.rcd.chunks, pages := tk.rcd.pages, spots := spots
      ebPages := tk.rcd.ebPages
      s := (tk.s.setIfInBounds 0 (loWord tk.rcd.args)).setIfInBounds 1 (hiWord tk.rcd.args)
      threads := tk.newThreads lo hi }
  let s := s.addSquads c a ((min tk.rcd.ntid 1536 + 31) / 32)
  let s := if tk.rcd.twoCore then s.addSquads (c + 1) a ((tk.rcd.ntid - 1536 + 31) / 32) else s
  let cs := if tk.rcd.twoCore then [c, c + 1] else [c]
  let s := cs.foldl State.resplit s
  let s := cs.foldl State.dropLeases s
  s.updCluster (clusterOf c) fun k => { k with reserved := KMap.keep (fun _ r => r.accn ≠ a) k.reserved }

/-- Where the root tasks of a cooperative launch go, if all are ready and fit at once (R301); of a single-file launch on core 0 of its
cluster, one at a time (R298). -/
def State.groupPlan (s : State) (tk : Task) : Option (List (Nat × Nat)) :=
  let ts := s.tasks.filter fun p => p.2.launch = tk.launch ∧ p.2.rcd.paccn = 0 ∧ p.2.ended.isNone
  let single := s.isSingle tk
  let cs := if single then [s.lowestCluster tk.ctx] else s.region tk.ctx
  if (ts.all fun p => p.2.ready) && s.fileFree tk && !(single && 1 < ts.length) then
    (planGroup (fun r => (launchCores single cs r).filter fun c =>
        ts.all fun p => p.2.rcd ≠ r || s.coreTakes p.1 p.2 c) s.useOf s.privUsed (ts.map fun p => p.2.rcd)).map fun x =>
      (ts.map Prod.fst).zip x
  else none

/-- The placements that a record can have now: itself, or the root tasks of its cooperative launch. -/
def State.placements (s : State) (k a : Nat) : Option (List (Nat × Nat)) :=
  match s.task? a with
  | none => none
  | some tk => if s.jointly tk then s.groupPlan tk else (s.coreFor k a tk).map fun c => [(a, c)]

/-- The first record of a list that can be placed, with those that it passes over. -/
def State.firstPlaced (s : State) (k : Nat) : List Nat → Option (List Nat × Nat × List (Nat × Nat))
  | [] => none
  | a :: as =>
    match s.placements k a with
    | some ps => some ([], a, ps)
    | none => (s.firstPlaced k as).map fun r => (a :: r.1, r.2)

/-- TASK_PLACEMENT (R294 to R296): the best record that fits, with its cooperative launch, is taken from the queue; dominated, or a
child of a cancelled task, it is removed (R301, R308); else its attempt starts. Records passed over start their count. -/
def execTaskPlacement (k : Nat) (s : State) : Out :=
  match s.firstPlaced k (s.placeOrder k) with
  | none => .next s
  | some (ahead, _, ps) =>
    match ps.findSome? fun p => ((s.task? p.1).filter s.scanHit).map fun y => (p.1, y) with
    | some (b, y) => .next (s.cancelRecord b y)
    | none =>
      let s := ahead.foldl (fun s x => s.updTask x fun y => { y with passed := y.passed.orElse fun _ => some s.dtime }) s
      .next (ps.foldl (fun s p => match s.task? p.1 with
        | some y => s.placeTask p.1 p.2 y
        | none => s) s)

/-- A record becomes reserved (R296): passed over for 4,096 ticks, and no other of its context is on the cluster. -/
def State.reserveReady (s : State) (k a : Nat) : Bool :=
  match s.task? a with
  | none => false
  | some tk =>
    tk.phase == .queued && tk.cluster == k && (s.reservedFor k tk.ctx).isNone &&
      (match tk.passed with
       | some u => u + 4096 ≤ s.dtime
       | none => false)

/-- What is free on a core, as room. -/
def State.roomOf (s : State) (c : Nat) : Room := ⟨48 - (s.useOf c).squads, s.spadFree c, s.ebufFree c⟩

/-- The reservation of a record on a cluster: the cores where it could fit once they are freed, with what is free there now. -/
def State.reserveOf (s : State) (k a : Nat) (tk : Task) : Reserve :=
  let cs := (tk.rcd.coresIn (s.isSingle tk) k).flatMap fun c => if tk.rcd.twoCore then [c, c + 1] else [c]
  ⟨a, cs.map fun c => (c, s.roomOf c)⟩

/-- RECORD_RESERVATION (R296). -/
def execRecordReservation (k a : Nat) (s : State) : Out :=
  match s.task? a with
  | some tk =>
    .next (if s.reserveReady k a then
        s.updCluster k fun c => { c with reserved := KMap.put tk.ctx (s.reserveOf k a tk) c.reserved }
      else s)
  | none => .next s

/-! ## Eligibility (R292, R293, R393) -/

/-- The record leaves its queue and ends FAULTED because its dependency event cannot be read (R293). -/
def State.depFault (s : State) (a : Nat) (tk : Task) (cause : Nat) : State :=
  (s.report tk kindFault cause (Stop.plain (.program cause) 0 tk.rcd.depev) false 0).endTask a statusFaulted cause

/-- What a look at a record's dependency event finds: a fault, update-only copies that have to be combined first (R106), a poisoned
line, or whether the event is valid. -/
inductive DepLook where
  | bad (cause : Nat)
  | copies (line : Nat)
  | dead
  | seen (xs : List (Nat × Xlate)) (valid : Bool)
  deriving DecidableEq, Repr

/-- A look at the dependency event (R292, R293). -/
def State.depLook (s : State) (tk : Task) : DepLook :=
  if tk.rcd.depev / 2 ^ 56 ≠ 0 then .bad causePermission
  else
    match s.keysOf tk.ctx readOnly tk.rcd.depev 16 with
    | .error e => ((recallLine e.1).map DepLook.copies).getD (.bad e.1)
    | .ok (ks, xs) =>
      if s.poisoned ks then .dead
      else if ks.any isReg then .seen xs ((s.regLoad ks).getD 1 0 == 1)
      else ((s.copied ((ks.map lineOf).eraseDups)).map DepLook.copies).getD (.seen xs (s.homeByte (ks.getD 1 0) == 1))

/-- RECORD_ELIGIBLE (R292, R293). -/
def execRecordEligible (a : Nat) (s : State) : Out :=
  match s.task? a with
  | none => .next s
  | some tk =>
    if tk.phase ≠ .queued ∨ tk.eligible = true then .next s
    else
      match s.depLook tk with
      | .bad c => .next (s.depFault a tk c)
      | .copies l => .next (s.recall l).1
      | .dead => .next (s.machineCheck a (Stop.plain .machineCheck 0 0))
      | .seen xs ok =>
        let s := s.rememberAll tk.ctx xs
        .next (if ok then s.updTask a fun tk => { tk with eligible := true } else s)

/-- MATRIX_HOLD_EXPIRE (R393). -/
def execMatrixHoldExpire (a : Nat) (s : State) : Out :=
  .next (s.updTask a fun tk => if tk.holdTo ≤ s.dtime then { tk with holdTo := 0 } else tk)

/-! ## QUEUE_SCAN (R308) -/

/-- One more cluster has been scanned since a task of the context was cancelled; once all of the region have, its number
is kept no longer. `m` has a bit for each cluster scanned. -/
def Ctx.scanned (c : Ctx) (k : Nat) : Ctx :=
  { c with cancelled := c.cancelled.filterMap fun p =>
      let m := if p.2 / 2 ^ k % 2 = 1 then p.2 else p.2 + 2 ^ k
      if c.region.all fun j => m / 2 ^ j % 2 = 1 then none else some (p.1, m) }

/-- QUEUE_SCAN (R308). -/
def execQueueScan (k : Nat) (s : State) : Out :=
  let s := (KMap.keys s.tasks).foldl (fun s a =>
    match s.task? a with
    | none => s
    | some tk => if tk.phase == .queued && tk.cluster == k && s.scanHit tk then s.cancelRecord a tk else s) s
  .next ({ s with ctxs := KMap.mapAll (fun c => c.scanned k) s.ctxs }.updCluster k fun c => { c with scanned := s.dtime })

/-! ## STEAL_REQUEST (R297) -/

/-- A record that may be stolen. -/
def State.stealable (s : State) (tk : Task) : Bool := tk.ready && !s.isSingle tk && !s.isCoop tk

/-- The records of a context that may be stolen from a cluster, best first: priority, then the earliest queued. -/
def State.stealOrder (s : State) (k n : Nat) : List Nat :=
  ((s.tasks.filterMap fun p =>
    if s.stealable p.2 ∧ p.2.cluster = k ∧ p.2.ctx = n then some ((p.2.priority, 2 ^ 64 - p.2.queued, 0), p.1) else none).foldr
      insertKey []).map Prod.snd

/-- Hops between two clusters of a context's region along its wiring (R14, R371). -/
def State.hopsIn (s : State) (n j k : Nat) : Nat :=
  ((s.ctx? n).map fun c => c.hops (c.region.idxOf j) (c.region.idxOf k)).getD 0

/-- The victim of a steal (R295): the nearest cluster of the region with such a record, ties to the lower index. -/
def State.victim (s : State) (thief n : Nat) : Option Nat :=
  ((s.region n).filter fun k => k ≠ thief && !(s.stealOrder k n).isEmpty).foldl (fun b k =>
    match b with
    | none => some k
    | some j =>
      let dk := s.hopsIn n thief k
      let dj := s.hopsIn n thief j
      if dk < dj ∨ (dk = dj ∧ k < j) then some k else some j) none

/-- A cluster may steal for a context: in its region, no eligible record of it, room for a squad. -/
def State.maySteal (s : State) (thief n : Nat) : Bool :=
  (s.region n).contains thief && !(s.tasks.any fun p => p.2.ready ∧ p.2.cluster = thief ∧ p.2.ctx = n) &&
    (List.range 4).any fun i => (s.useOf (4 * thief + i)).squads < 48

/-- Near copies of the first 2 KiB of an argument block (R108, R297). -/
def State.nearArgs (s : State) (tk : Task) (thief : Nat) : State :=
  (List.range 17).foldl (fun s i =>
    match s.keysOf tk.ctx readOnly ((tk.rcd.args.toNat + min (128 * i) 2047) % 2 ^ 57) 1 with
    | .ok ([x], _) => if isReg x ∨ 2 ^ 56 ≤ tk.rcd.args.toNat then s else (s.recall (lineOf x)).1.placeNear (lineOf x) thief tk.launch
    | .error e => ((recallLine e.1).map fun l => (s.recall l).1).getD s
    | _ => s) s

/-- STEAL_REQUEST (R297): the victim ships a record; dominated, or a child of a cancelled task, it is removed (R308). -/
def execStealRequest (thief n : Nat) (s : State) : Out :=
  if !s.maySteal thief n then .next s
  else
    match (s.victim thief n).bind fun k => (s.stealOrder k n).head? with
    | none => .next s
    | some a =>
      match s.task? a with
      | none => .next s
      | some tk =>
        if s.scanHit tk then .next (s.cancelRecord a tk)
        else .next ((s.updTask a fun tk => { tk with cluster := thief }).nearArgs tk thief)

/-! ## EPOCH_END (R305) -/

/-- The cores on which a queued record may ever be placed: of its cluster, for the root task of a cooperative launch of the region (R297,
R298, R301). -/
def State.homesOf (s : State) (tk : Task) : List Nat :=
  let cs :=
    if s.jointly tk then (if s.isSingle tk then [s.lowestCluster tk.ctx] else s.region tk.ctx).flatMap (tk.rcd.coresIn (s.isSingle tk))
    else tk.rcd.coresIn (s.isSingle tk) tk.cluster
  if tk.rcd.twoCore then cs.flatMap fun c => [c, c + 1] else cs

/-- The contexts that have work resident or placeable on a core. -/
def State.ctxsOn (s : State) (c : Nat) : List Nat :=
  (s.tasks.filterMap fun p =>
    if (p.2.resident = true ∧ p.2.cores.contains c = true) ∨ (p.2.ready = true ∧ (s.homesOf p.2).contains c = true) then some p.2.ctx
    else none).eraseDups

/-- The weight of a context. -/
def State.weightOf (s : State) (n : Nat) : Nat := ((s.ctx? n).map Ctx.weight).getD 0

/-- A deficit in half core-cycles, clipped to 2^20 core-cycles. -/
def clipDeficit (d : Int) : Int := max (-(2 ^ 21)) (min (2 ^ 21) d)

/-- The deficits of a core at the end of `k` epochs (R305 step 1), in half core-cycles as the charges are: the share of each epoch is
4,096 × w(c) / W core-cycles, truncated. -/
def State.epochDeficits (s : State) (k c : Nat) : KMap Int :=
  let x := s.core c
  let ns := s.ctxsOn c
  let w := (ns.map s.weightOf).sum
  ns.foldl (fun m n =>
    let d := KMap.getD n 0 m
    KMap.put n (clipDeficit (d + (k * (2 * (4096 * s.weightOf n / w)) : Nat) - (KMap.getD n 0 x.used : Nat))) m) x.deficit

/-- The squads of a core that are evicted for a record (R305 step 2): squads of the context's youngest task first, and
within a task the youngest first, until it has the slots. -/
def evictUntil (u : Use) (need : Room) : List Nat → Nat → List Nat
  | [], _ => []
  | q :: qs, out => if u.squads - out + need.squads ≤ 48 then [] else q :: evictUntil u need qs (out + 1)

/-- The least TID in a squad (R295). -/
def Task.leastTid (tk : Task) (core sq : Nat) : Nat :=
  (tk.threads.filter fun p => p.2.squad = sq ∧ tk.coreOf p.1 = core).foldl (fun m p => min m p.1) 4096

/-- The squads of a context on a core, youngest task first, youngest squad first. -/
def State.squadsOf (s : State) (c n : Nat) : List Nat :=
  (((s.core c).squads.filterMap fun p =>
    match s.task? p.2.accn with
    | some tk =>
      if tk.ctx = n ∧ tk.threads.any (fun q => q.2.squad = p.1 ∧ tk.coreOf q.1 = c ∧ q.2.away = false) then
        some ((p.2.accn, p.2.formed, tk.leastTid c p.1), p.1)
      else none
    | none => none).foldr insertKey []).map Prod.snd

/-- The context on a core of least deficit below a bound, ties to the higher index; context 0 is never pre-empted. -/
def State.leastBelow (s : State) (c : Nat) (d : KMap Int) (bound : Int) : Option Nat :=
  ((s.ctxsOn c).filter fun n => n ≠ 0 && KMap.getD n 0 d < bound && !(s.squadsOf c n).isEmpty).foldl (fun b n =>
    match b with
    | none => some n
    | some m =>
      let dn := KMap.getD n 0 d
      let dm := KMap.getD m 0 d
      if dn < dm ∨ (dn = dm ∧ m < n) then some n else some m) none

/-- The squads of a core that have threads away. -/
def State.awaySquads (s : State) (c : Nat) : List Nat :=
  (s.tasks.flatMap fun p => p.2.threads.filterMap fun q =>
    if q.2.away ∧ p.2.coreOf q.1 = c then some q.2.squad else none).eraseDups

/-- What a record needs on a core: on the odd core of a pair what a task of two cores needs of its partner (R12). -/
def TaskRec.needOn (r : TaskRec) (c : Nat) : Room := if r.twoCore && c % 2 == 1 then r.need.2 else r.need.1

/-- What a context lacks on a core: what a placeable record needs that cannot be placed on the cluster, or room for one of
its evicted squads. -/
def State.starved (s : State) (c n : Nat) : Option Room :=
  ((((s.placeOrder (clusterOf c)).filterMap fun a => (s.task? a).map fun tk => (a, tk)).find? fun p =>
    p.2.ctx = n && (s.homesOf p.2).contains c && (s.placements (clusterOf c) p.1).isNone).map fun p => p.2.rcd.needOn c).orElse fun _ =>
    if 48 ≤ (s.useOf c).squads ∧ (s.tasks.any fun p => p.2.ctx = n && p.2.threads.any fun q => q.2.away && p.2.coreOf q.1 == c) then
      some ⟨1, 0, 0⟩ else none

/-- The contexts that win room on a core from another (R305 step 2): the need, and the context that is pre-empted. -/
def State.winners (s : State) (c : Nat) (d : KMap Int) : List (Nat × Room × Nat) :=
  (s.ctxsOn c).filterMap fun n =>
    if KMap.getD n 0 d ≤ 0 then none
    else
      match s.starved c n, s.leastBelow c d (KMap.getD n 0 d) with
      | some need, some r => some (n, need, r)
      | _, _ => none

/-- EPOCH_END (R305): deficits are brought up to date, for every epoch that is over, and pre-emption is decided. -/
def execEpochEnd (s : State) : Out :=
  if s.dtime < 4096 * (s.epoch + 1) then .next s
  else
    let k := s.dtime / 4096 - s.epoch
    let s := { s with epoch := s.dtime / 4096 }
    .next ((KMap.keys s.cores).foldl (fun s c =>
      let d := s.epochDeficits k c
      let ws := s.winners c d
      let es := ws.flatMap fun w => (evictUntil (s.useOf c) w.2.1 (s.squadsOf c w.2.2) 0).map fun q => .squadEvict c q
      { s.updCore c fun x => { x with deficit := d, used := [], invited := ws.map Prod.fst } with agenda := s.agenda ++ es }) s)

end Sys2Proof.Machine
end

