-- ==== Sys2Proof/Machine/Curator.lean ====
section
/-!
DEFINITION. The Curator (R338 to R362): names, modes, the intention rule, granting by wound-wait, upgrades, escalation and
releases; LKREQ, LKTRY, LKUPG, LKREL, LKRELA, LKQRY, CMTX and the event LOCK_GRANT.
-/

namespace Sys2Proof.Machine

/-! ## Names (R338 to R341) -/

/-- SLOT, LEVEL and MODE of a lock word. -/
def lkSlot (w : Word) : Nat := wbits w 9 5
/-- LEVEL. -/
def lkLevel (w : Word) : Nat := wbits w 7 2
/-- MODE. -/
def lkMode (w : Word) : Nat := wbits w 0 3
/-- A lock word passes check 2 of R353; `rel` for LKREL and LKQRY. -/
def lkWordOk (rel : Bool) (w : Word) : Bool :=
  wbits w 14 18 == 0 && wbits w 3 4 == 0 && lkLevel w ≠ 3 && lkSlot w ≤ 19 && (if rel then lkMode w == 0 else lkMode w ≠ 0)

/-- A name: context, tensor, level, tile, line (R338). -/
structure LockName where
  ctx : Nat
  tens : Nat
  level : Nat
  tile : Nat
  line : Nat
  deriving DecidableEq, Repr

/-- The key of a name (R341). -/
def LockName.key (n : LockName) : Nat := n.ctx * 2 ^ 46 + n.tens * 2 ^ 38 + n.level * 2 ^ 36 + n.tile * 2 ^ 12 + n.line
/-- The name of a key. -/
def nameOf (k : Nat) : LockName := ⟨k / 2 ^ 46, k / 2 ^ 38 % 2 ^ 8, k / 2 ^ 36 % 4, k / 2 ^ 12 % 2 ^ 24, k % 2 ^ 12⟩
/-- The home slice of a key (R341). -/
def lockHome (k : Nat) : Nat := k * 0x9E3779B97F4A7C15 % 2 ^ 64 / 2 ^ 32 % 96
/-- Entries of a slice (R341). -/
def homeEntries (slice : Nat) : Nat := if slice < 64 then 2731 else 2730
/-- The ancestors of a name, nearest first (R345). -/
def LockName.ancestors (n : LockName) : List LockName :=
  if n.level = 2 then [{ n with level := 1, line := 0 }, { n with level := 0, tile := 0, line := 0 }]
  else if n.level = 1 then [{ n with level := 0, tile := 0, line := 0 }]
  else []
/-- The name lies below another. -/
def LockName.below (n m : LockName) : Bool := n.ancestors.contains m

/-- Tile and line index of an element (R340), or the fault. -/
def lockIndices (r : Rec) (o : Nat) : Except AccFault (Nat × Nat) :=
  if r.extent ≤ o then .error ⟨causeBounds, o, 0⟩
  else
    let row := if r.rowlen = 0 then 0 else o / r.rowlen
    let col := if r.rowlen = 0 then o else o % r.rowlen
    let ncols := if r.rowlen = 0 then 1 else (r.rowlen + 2 ^ r.tcl - 1) / 2 ^ r.tcl
    let tile := row / 2 ^ r.trl * ncols + col / 2 ^ r.tcl
    let e := row % 2 ^ r.trl * 2 ^ r.tcl + col % 2 ^ r.tcl
    let line := e * fmtBits r.fmt / 1024
    if 2 ^ 24 ≤ tile ∨ 2 ^ 12 ≤ line then .error ⟨causeIllegalOperand, o, 0⟩ else .ok (tile, line)

/-- The name of a lane, checks 1 to 4 of R353. -/
def State.lockName (s : State) (tk : Task) (rel : Bool) (b : Nat) (o : Nat) : Except AccFault LockName :=
  let w := tk.sreg b
  let r := tk.record (lkSlot w)
  if s.isDet tk then .error ⟨causePermission, 0, 0x11⟩
  else if !lkWordOk rel w then .error ⟨causeIllegalOperand, 0, word b⟩
  else if !r.ok then .error ⟨causeIllegalOperand, 0, word (lkSlot w)⟩
  else if lkLevel w = 0 then .ok ⟨tk.ctx, r.tens, 0, 0, 0⟩
  else
    match lockIndices r o with
    | .error f => .error f
    | .ok p => .ok ⟨tk.ctx, r.tens, lkLevel w, p.1, if lkLevel w = 2 then p.2 else 0⟩

/-! ## Modes (R342 to R344) -/

def mNL : Nat := 0
def mIS : Nat := 1
def mIX : Nat := 2
def mS : Nat := 3
def mSIX : Nat := 4
def mINC : Nat := 5
def mX : Nat := 6
def mAUX : Nat := 7

/-- The default matrix (R343). -/
def defaultMatrix : DWord := 0x010125030B271FFF

/-- Two modes are compatible under a matrix (R343). -/
def compat (m : DWord) (i j : Nat) : Bool := m.getLsbD (8 * i + j)

/-- `a` covers `b` (R344). -/
def covers (a b : Nat) : Bool :=
  a == b || b == mNL || (a == mX && b ≠ mNL) || (a == mSIX && (b == mIX || b == mS || b == mIS)) ||
    ((a == mIX || a == mS) && b == mIS)

/-- The join of two modes (R344). -/
def joinMode (a b : Nat) : Nat :=
  if covers a b then a
  else if covers b a then b
  else if (a = mIX ∧ b = mS) ∨ (a = mS ∧ b = mIX) then mSIX
  else mX

/-- A mode that suffices at every ancestor of a name requested in `m` (R345). -/
def intends (m anc : Nat) : Bool :=
  if m = mIS ∨ m = mS then [mIS, mIX, mS, mSIX, mX].contains anc
  else if m = mINC then [mIX, mSIX, mINC, mX].contains anc
  else [mIX, mSIX, mX].contains anc

/-- A mode whose release is deferred to the commit (R351). -/
def defers (m : Nat) : Bool := [mIX, mSIX, mINC, mX, mAUX].contains m

/-! ## Entries -/

/-- A task's entry for a name. -/
def State.lockOf (s : State) (k a : Nat) : Option LockEntry := s.locks.find? fun e => e.name == k && e.accn == a
/-- The mode in which a task holds a name. -/
def State.heldMode (s : State) (k a : Nat) : Nat := ((s.lockOf k a).map LockEntry.mode).getD mNL
/-- Write a task's entry; one that neither holds nor waits is freed. -/
def State.putLock (s : State) (e : LockEntry) : State :=
  let rest := s.locks.filter fun x => !(x.name == e.name && x.accn == e.accn)
  { s with locks := if e.mode = mNL ∧ e.wait.isNone then rest else rest ++ [e] }
/-- Entries in use at the home of a name. -/
def State.homeUsed (s : State) (k : Nat) : Nat := (s.locks.filter fun e => lockHome e.name == lockHome k).length
/-- The matrix of a context. -/
def State.matrixOf (s : State) (n : Nat) : DWord := ((s.ctx? n).map Ctx.cmtx).getD defaultMatrix
/-- A task of a number is immune (R301), or has ended DONE, with locks that it keeps to the end of its commit (R352). -/
def State.immuneAt (s : State) (a : Nat) : Bool := ((s.task? a).map s.immune).getD true

/-- The mode a waiter is counted with: an upgrade with the join it aims at (R349). -/
def LockEntry.wants (e : LockEntry) : Nat :=
  match e.wait with
  | some w => if w.upgrade then joinMode e.mode w.mode else w.mode
  | none => mNL
/-- The mode a holder is counted with against an upgrade (R349). -/
def LockEntry.counts (e : LockEntry) : Nat :=
  match e.wait with
  | some w => if w.upgrade then joinMode e.mode w.mode else e.mode
  | none => e.mode

/-! ## Deciding (R346, R349) -/

/-- A member of C: its task, and whether it holds the name. -/
structure Rival where
  accn : Nat
  holds : Bool
  deriving DecidableEq, Repr

/-- The rivals of a request (R346): holders whose mode is incompatible, and older waiters. -/
def State.rivals (s : State) (k a m : Nat) : List Rival :=
  let mx := s.matrixOf (nameOf k).ctx
  s.locks.flatMap fun e =>
    if e.name ≠ k ∨ e.accn = a then []
    else
      (if e.mode ≠ mNL && !compat mx m e.mode then [⟨e.accn, true⟩] else []) ++
      (if e.wait.isSome && e.accn < a && !compat mx m e.wants then [⟨e.accn, false⟩] else [])

/-- The rivals of an upgrade to `g` (R349): other holders only, each with its own pending upgrade. -/
def State.upRivals (s : State) (k a g : Nat) : List Rival :=
  let mx := s.matrixOf (nameOf k).ctx
  s.locks.flatMap fun e =>
    if e.name ≠ k ∨ e.accn = a then [] else if e.mode ≠ mNL && !compat mx g e.counts then [⟨e.accn, true⟩] else []

/-- What the Curator answers: a status, or to wait. -/
inductive LockAct where
  | status (s : State) (v : Nat)
  | wait (s : State)
  | fault (cause taddr : Nat) (tinfo : Word)
  deriving DecidableEq, Repr

/-- Wound-wait over rivals (R346): `try'` says LKTRY, which neither wounds nor waits. -/
def State.contend (s : State) (a : Nat) (cs : List Rival) (try' : Bool) (queue : State → State) : LockAct :=
  if s.immuneAt a && cs.any (fun c => c.accn < a || !s.immuneAt c.accn) then .status s 1
  else if try' then .status s 4
  else
    let ws := cs.filterMap fun c => if c.holds && a < c.accn && !s.immuneAt c.accn then some c.accn else none
    .wait (queue (s.woundAll ws))

/-- A thread leaves the wait of an entry: with its last thread the wait is over, and an entry that holds nothing is gone. -/
def LockEntry.leave (t : Nat) (e : LockEntry) : Option LockEntry :=
  match e.wait with
  | none => some e
  | some w =>
    let ts := w.tids.filter (· ≠ t)
    if ts = [] ∧ t ∈ w.tids then (if e.mode = mNL then none else some { e with wait := none })
    else some { e with wait := some { w with tids := ts } }

/-- A thread waits on one name only: it is taken from the waits of its task. -/
def State.leaveWaits (s : State) (a t : Nat) : State :=
  { s with locks := s.locks.filterMap fun e => if e.accn = a then e.leave t else some e }

/-- The thread's request is queued: a restored thread, whose word is issued again, just waits on (R352, R397). -/
def State.inWait (s : State) (a t : Nat) : Bool :=
  s.locks.any fun e => e.accn == a && ((e.wait.map LockWait.tids).getD []).contains t

/-- Put a thread into the wait of an entry (R346, R355). -/
def State.queueLock (s : State) (k a t m : Nat) (up : Bool) : State :=
  let s := s.leaveWaits a t
  let e := (s.lockOf k a).getD ⟨k, a, mNL, false, none⟩
  let w := e.wait.getD ⟨m, up, []⟩
  s.putLock { e with wait := some { w with tids := w.tids ++ [t] } }

/-- An upgrade of a held name (R349): a pending release is cancelled first (R351). -/
def State.upgrade (s : State) (k a t m : Nat) (try' : Bool) : LockAct :=
  match s.lockOf k a with
  | none => .status s 6
  | some e =>
    let s := s.putLock { e with pend := false }
    let g := joinMode e.mode m
    if g = e.mode then .status s 3
    else
      match s.upRivals k a g with
      | [] => .status (s.putLock { e with pend := false, mode := g }) 0
      | c :: cs => s.contend a (c :: cs) try' fun s => s.queueLock k a t m true

/-! ## Escalation (R350) -/

/-- The line names under a tile that a task holds, pending ones too. -/
def State.linesUnder (s : State) (tile : LockName) (a : Nat) : List LockEntry :=
  s.locks.filter fun e => e.accn = a ∧ e.mode ≠ mNL ∧ (nameOf e.name).level = 2 ∧ ((nameOf e.name).below tile) = true

/-- The entry is a line of a task under a tile. -/
def LockEntry.lineOf (a : Nat) (tile : LockName) (e : LockEntry) : Bool :=
  e.accn == a && (nameOf e.name).level == 2 && (nameOf e.name).below tile

/-- A thread that waits for a lock decides its request anew. -/
def Thread.askAgain (th : Thread) : Thread := if th.cond = .held .lock then { th with cond := .running } else th

/-- Every line entry of a task under a tile is freed (R350); threads that wait on such a line ask again. -/
def State.freeLines (s : State) (a : Nat) (tile : LockName) : State :=
  let ts := (s.locks.filter (LockEntry.lineOf a tile)).flatMap fun e => (e.wait.map LockWait.tids).getD []
  ts.foldl (fun s t => s.updThread a t Thread.askAgain) { s with locks := s.locks.filter fun e => !LockEntry.lineOf a tile e }

/-- Escalate to the tile instead of taking a 257th line (R350). A release of the tile that was pending is cancelled by it (DESIGN CHOICE,
log entry 114: the spec does not say what becomes of it). -/
def State.escalate (s : State) (n : LockName) (a m : Nat) : LockAct :=
  let tile : LockName := { n with level := 1, line := 0 }
  let mx := s.matrixOf n.ctx
  let c := (s.linesUnder tile a).foldl (fun x e => joinMode x e.mode) m
  let g := joinMode (s.heldMode tile.key a) c
  let others := s.locks.all fun e => e.name ≠ tile.key || e.accn == a || e.mode == mNL || compat mx g e.mode
  let anc := tile.ancestors.all fun x => intends g (s.heldMode x.key a)
  if others && anc then
    let s := s.freeLines a tile
    let e := (s.lockOf tile.key a).getD ⟨tile.key, a, mNL, false, none⟩
    .status (s.putLock { e with mode := g, pend := false }) 7
  else .status s 2

/-! ## Requests (R345, R346, R355, R356) -/

/-- Every ancestor is held in a mode that suffices for `m` (R345). -/
def State.intended (s : State) (n : LockName) (a m : Nat) : Bool :=
  n.ancestors.all fun x => intends m (s.heldMode x.key a)
/-- TINFO of a Curator-protocol fault (R353). -/
def protoInfo (w : Word) (code : Nat) : Word := word (lkMode w + lkLevel w * 8 + code * 32)
/-- An ancestor held in S, SIX, INC, X or AUX covers the mode (R345). -/
def State.coveredAbove (s : State) (n : LockName) (a m : Nat) : Bool :=
  n.ancestors.any fun x =>
    let h := s.heldMode x.key a
    [mS, mSIX, mINC, mX, mAUX].contains h && covers h m

/-- One line more would raise a task's count under a tile above 256 (R350). -/
def State.tileFull (s : State) (n : LockName) (a : Nat) : Bool :=
  n.level == 2 && 256 ≤ (s.linesUnder { n with level := 1, line := 0 } a).length

/-- A new request on a name that the task neither holds nor awaits (R341, R346, R350). -/
def State.newLock (s : State) (n : LockName) (a t m : Nat) (try' : Bool) : LockAct :=
  let k := n.key
  if s.tileFull n a then s.escalate n a m
  else if homeEntries (lockHome k) ≤ s.homeUsed k then .status s 2
  else
    match s.rivals k a m with
    | [] => .status (s.putLock ⟨k, a, m, false, none⟩) 0
    | c :: cs => s.contend a (c :: cs) try' fun s => s.queueLock k a t m false

/-- The mode that a request or an upgrade would leave held. -/
def State.wouldHold (s : State) (k a m : Nat) (up : Bool) : Nat :=
  match s.lockOf k a with
  | some e => if e.mode ≠ mNL ∧ (up = true ∨ e.pend = true) then joinMode e.mode m else m
  | none => m

/-- The release of a name is pending and the mode held covers the request, which cancels it (R351). -/
def LockEntry.revives (e : LockEntry) (m : Nat) : Bool := e.pend && e.wait.isNone && covers e.mode m

/-- LKREQ and LKTRY, check 5 and the request (R345, R346, R351, R355): covered by an ancestor it is legal and adds nothing; on a name
that the task awaits, a request for the mode awaited joins the wait, and cancels a pending release. Where the release of a name is
pending in a mode that does not cover the request but an ancestor's does, HELD is answered by R345, and the release stays pending
(DESIGN CHOICE, log entry 114: R351 would cancel it and upgrade, and the spec does not order the two). -/
def State.request' (s : State) (n : LockName) (w : Word) (a t : Nat) (try' : Bool) : LockAct :=
  let k := n.key
  let m := lkMode w
  match (s.lockOf k a).filter fun e => e.revives m with
  | some e => .status (s.putLock { e with pend := false }) 3
  | none =>
    if s.coveredAbove n a m then .status s 3
    else if !s.intended n a (s.wouldHold k a m false) then .fault causeCurator 0 (protoInfo w 0)
    else
      match s.lockOf k a with
      | none => s.newLock n a t m try'
      | some e =>
        match e.wait with
        | some q =>
          if q.mode ≠ m then .status s 5
          else
            let s := s.putLock { e with pend := false }
            if try' then .status s 4 else .wait (s.queueLock k a t m q.upgrade)
        | none => if e.pend then s.upgrade k a t m try' else if covers e.mode m then .status s 3 else .status s 5

/-- LKUPG, check 5 and the upgrade (R345, R349, R351, R355). A name that is not held is answered NOTHELD before check 5 (DESIGN CHOICE, log
entry 114: the spec does not order the two). -/
def State.lockUpgrade (s : State) (n : LockName) (w : Word) (a t : Nat) : LockAct :=
  let k := n.key
  let m := lkMode w
  if s.heldMode k a = mNL then .status s 6
  else if !s.intended n a (s.wouldHold k a m true) then .fault causeCurator 0 (protoInfo w 0)
  else
    match s.lockOf k a with
    | some e =>
      (match e.wait with
      | some q =>
        if q.upgrade && q.mode == m then .wait ((s.putLock { e with pend := false }).queueLock k a t m true) else .status s 5
      | none => s.upgrade k a t m false)
    | none => s.upgrade k a t m false

/-! ## Releases (R351, R357, R358) -/

/-- Let go a hold; a wait of the same task on the name becomes a plain request. -/
def LockEntry.letGo (e : LockEntry) : LockEntry :=
  { e with mode := mNL, pend := false, wait := e.wait.map fun w => { w with upgrade := false } }

/-- The release of a mode waits for the commit of the task (R351). -/
def Task.defersRelease (tk : Task) (m : Nat) : Bool := tk.buffers && defers m

/-- A descendant of a name is held and its release is not pending (R345). -/
def State.descendantHeld (s : State) (n : LockName) (a : Nat) : Bool :=
  s.locks.any fun e => e.accn == a && e.mode ≠ mNL && !e.pend && (nameOf e.name).below n

/-- The mark, in `Thread.outcome`, of a thread whose LKREL is part of a request that is not decided yet (R353). -/
def lkJoined : Nat := 256

/-- The other threads of a task whose LKREL is one request with that of a thread (R353): those that the same issue carries
and that have still to be served, and those that wait at the word, where they name the same name. -/
def State.relGroup (s : State) (tk : Task) (o : Dab) (k t : Nat) : List Nat :=
  tk.threads.filterMap fun p =>
    if p.1 ≠ t && p.2.pc == s.issue.pc &&
        (p.2.outcome == some lkJoined || (p.2.outcome.isNone && s.issue.lanes.contains p.1 && s.issue.carries p.2)) &&
        ((s.lockName (tk.seen p.2) true o.b.toNat (p.2.reg o.a.toNat).toNat).toOption.map LockName.key) == some k then some p.1
    else none

/-- A thread that waits at its LKREL finds the word complete. -/
def Thread.relDone (th : Thread) : Thread := if th.outcome = some lkJoined then { th.wake with outcome := some 9 } else th

/-- LKREL (R351, R357). A release at once is first a release at DEVICE scope, of every thread of the request: `us` are the
others. -/
def State.lockRelease (s : State) (n : LockName) (w : Word) (a t : Nat) (tk : Task) (us : List Nat) : Option LockAct :=
  let k := n.key
  match s.lockOf k a with
  | none => some (.status s 6)
  | some e =>
    if e.mode = mNL then some (.status s 6)
    else if e.pend then some (.status s 8)
    else if s.descendantHeld n a then some (.fault causeCurator 0 (protoInfo w 1))
    else if tk.defersRelease e.mode then some (.status (s.putLock { e with pend := true }) 8)
    else
      match s.release a t 4 with
      | .go s =>
        if us.all fun u => (s.release a u 4).isGo then
          some (.status (us.foldl (fun s u => s.updThread a u Thread.relDone) (s.putLock e.letGo)) 9)
        else none
      | .wait _ => none

/-! ## The thread words (R353) -/

/-- The word completes with a status (R348): a grant is an acquire at DEVICE scope, and makes a revocable IDEM task
irrevocable. -/
def State.lockDone (s : State) (a t d v : Nat) : State :=
  let put (th : Thread) : Thread := th.setReg d (word v)
  if v = 0 ∨ v = 7 then
    match (if ((s.task? a).map fun tk => !tk.isBuf && !tk.irrevocable).getD false then s.enter a t else .go s) with
    | .go s => s.finish a t 1 4 put
    | .wait s => s.updThread a t fun th => { th with outcome := some v }
  else s.updThread a t fun th => (put th).next

/-- A thread of lower TID waits at the word for a register, so that the word has not come to the thread (R353). -/
def State.lowerAwaits (s : State) (regs : List Nat) (tk : Task) (t : Nat) (th : Thread) : Bool :=
  tk.lowerWaits t th && tk.threads.any fun p => p.1 < t && p.2.pc == th.pc && tk.mates p (t, th) && regs.any (s.awaits tk.rcd.accn p.1)

/-- A request decided earlier in the same word: name and status. -/
abbrev LockMemo := List (Nat × Nat)

/-- One lane of a Curator word, with what earlier lanes of the word were told: `rel` for the words whose MODE is 0, `act`
decides the request. -/
def lockLane (o : Dab) (rel : Bool) (act : State → LockName → Word → Nat → Task → Option LockAct)
    (r : State × LockMemo) (t : Nat) : State × LockMemo :=
  let s := r.1
  let a := s.issue.accn
  match s.task? a, s.thread? a t with
  | some tk, some th =>
    let d := o.d.toNat
    if !s.issue.carries th then r
    else if [d, o.a.toNat].any fun n => !tk.holdsReg n then (s.raise a t causeIllegalOperand 0 0, r.2)
    else if [d, o.a.toNat].any (s.awaits a t) || s.lowerAwaits [d, o.a.toNat] tk t th then (s.interlock a t, r.2)
    else
      match th.outcome.filter (· ≠ lkJoined) with
      | some v => (s.lockDone a t d v, r.2)
      | none =>
        if s.inWait a t then (s.holdThread a t .lock, r.2) else
        let tk := tk.seen th
        match s.lockName tk rel o.b.toNat (th.reg o.a.toNat).toNat with
        | .error f => (s.raiseAcc a t f, r.2)
        | .ok n =>
          match r.2.find? fun p => p.1 = n.key with
          | some p => (s.lockDone a t d p.2, r.2)
          | none =>
            match act s n (tk.sreg o.b.toNat) t tk with
            | some (.status s v) => (s.lockDone a t d v, r.2 ++ [(n.key, v)])
            | some (.wait s) => (s.holdThread a t .lock, r.2)
            | some (.fault c x i) => (s.raise a t c x i, r.2)
            | none => (((s.updThread a t fun th => { th with outcome := some lkJoined }).release a t 4).state, r.2)
  | _, _ => r

/-- A Curator word over its lanes, in ascending TID (R353). -/
def lockWord (o : Dab) (rel : Bool) (act : State → LockName → Word → Nat → Task → Option LockAct) (s : State) : Out :=
  .next (s.issue.lanes.foldl (lockLane o rel act) (s, [])).1

/-- LKREQ (R355). Its threads stand at a stop point (R212). -/
def execLkreq (o : Dab) (s : State) : Out :=
  lockWord o false (fun s n w t tk => some (s.request' n w tk.rcd.accn t false)) (s.meetings s.issue.accn s.carried)
/-- LKTRY (R355). -/
def execLktry (o : Dab) (s : State) : Out :=
  lockWord o false (fun s n w t tk => some (s.request' n w tk.rcd.accn t true)) s
/-- LKUPG (R356). Its threads stand at a stop point (R212). -/
def execLkupg (o : Dab) (s : State) : Out :=
  lockWord o false (fun s n w t tk => some (s.lockUpgrade n w tk.rcd.accn t)) (s.meetings s.issue.accn s.carried)
/-- LKREL (R357). -/
def execLkrel (o : Dab) (s : State) : Out :=
  lockWord o true (fun s n w t tk => s.lockRelease n w tk.rcd.accn t tk (s.relGroup tk o n.key t)) s

/-- The snapshot of LKQRY (R359). -/
def State.lockQuery (s : State) (k a : Nat) : Word :=
  let es := s.locks.filter fun e => e.name = k
  let own := s.lockOf k a
  word (min 255 (es.filter fun e => e.wait.isSome).length * 2 ^ 16 +
    min 255 (es.filter fun e => e.accn ≠ a ∧ e.mode ≠ mNL).length * 2 ^ 8 +
    bit ((own.bind LockEntry.wait).isSome) * 16 + bit ((own.map LockEntry.pend).getD false) * 8 + s.heldMode k a)

/-- LKQRY (R359). -/
def execLkqry (o : Dab) (s : State) : Out :=
  .next (s.perLane 0 [o.d.toNat, o.a.toNat] fun s t tk th =>
    let a := s.issue.accn
    match s.lockName tk true o.b.toNat (th.reg o.a.toNat).toNat with
    | .error f => s.raiseAcc a t f
    | .ok n => s.putThread a t (th.setReg o.d.toNat (s.lockQuery n.key a)).next)

/-! ## The task words -/

/-- The threads of a reaching that the same issue carries, or that stand at the word in a wait, but one (R313). -/
def State.reachGroup (s : State) (tk : Task) (th : Thread) (t : Nat) : List Nat :=
  tk.threads.filterMap fun p =>
    if p.1 ≠ t && p.2.pc == th.pc && p.2.nth th.pc.toNat == th.nth th.pc.toNat &&
        (p.2.kept.isSome || (s.issue.lanes.contains p.1 && s.issue.carries p.2)) then some p.1
    else none

/-- The release at DEVICE scope of a task word is done for all threads of the reaching that stand at it (R121, R351). -/
def State.releaseAll (s : State) (tk : Task) (t : Nat) : Ready :=
  let a := tk.rcd.accn
  match s.thread? a t with
  | none => .go s
  | some th =>
    match s.release a t 4 with
    | .wait s => .wait s
    | .go s => if (s.reachGroup tk th t).all fun u => (s.release a u 4).isGo then .go s else .wait (s.interlock a t)

/-- LKRELA (R358). -/
def execLkrela (d : BitVec 6) (s : State) : Out :=
  taskWord (some d.toNat) (fun s tk t =>
    let a := tk.rcd.accn
    let own := s.locks.filter fun e => e.accn = a ∧ e.mode ≠ mNL ∧ e.pend = false
    if s.isDet tk then .fault causePermission 0 0x11
    else
      match (if own.any fun e => !tk.defersRelease e.mode then s.releaseAll tk t else .go s) with
      | .wait s => .later s
      | .go s =>
        let s := own.foldl (fun s e => s.putLock (if tk.defersRelease e.mode then { e with pend := true } else e.letGo)) s
        .done s (min 255 own.length)) s

/-- A matrix is symmetric with an NL row of ones (R360). -/
def matrixOk (m : DWord) : Bool :=
  (List.range 8).all fun i => compat m 0 i && (List.range 8).all fun j => compat m i j == compat m j i

/-- CMTX (R360). -/
def execCmtx (o : Dab) (s : State) : Out :=
  taskWord (some o.d.toNat) (fun s tk _ =>
    let w := tk.sreg o.b.toNat
    let n := wbits w 0 6
    let m := tk.sreg2 o.a.toNat
    if tk.ctx ≠ 0 then .fault causePermission 0 0x12
    else if wbits w 6 26 ≠ 0 ∨ matrixOk m = false ∨ (s.ctx? n).isNone then .fault causeIllegalOperand 0 0
    else if s.locks.any fun e => (nameOf e.name).ctx == n then .done s 4
    else .done (s.updCtx n fun c => { c with cmtx := m }) 0) s

/-! ## LOCK_GRANT (R347) -/

/-- The waiters of a name, oldest first. -/
def State.lockWaiters (s : State) (k : Nat) : List LockEntry :=
  sortBy LockEntry.accn (s.locks.filter fun e => e.name = k ∧ e.wait.isSome)

/-- A waiter can be granted now: no incompatible holder, and for a request no incompatible older waiter (R347, R349). -/
def State.lockFits (s : State) (e : LockEntry) : Bool :=
  match e.wait with
  | none => false
  | some w =>
    if w.upgrade then (s.upRivals e.name e.accn e.wants).isEmpty else (s.rivals e.name e.accn w.mode).isEmpty

/-- The threads of a wait that is over find their word complete with a status (R348), also one that is evicted, or that was and has
not issued its word again (R352). -/
def State.tellWait (s : State) (a : Nat) (w : LockWait) (v : Nat) : State :=
  w.tids.foldl (fun s t => s.updThread a t fun th =>
    if th.cond = .held .lock ∨ th.cond = .running then { th with cond := .running, outcome := some v } else th) s

/-- Grant a waiter (R348), whose release stays pending where it was deferred after an upgrade had been queued (R351); a line that would be the 257th of its tile is escalated instead, or refused (R350). -/
def State.grantLock (s : State) (e : LockEntry) : State :=
  match e.wait with
  | none => s
  | some w =>
    let n := nameOf e.name
    if e.mode = mNL ∧ s.tileFull n e.accn = true then
      let s := { s with locks := s.locks.filter fun x => !(x.name == e.name && x.accn == e.accn) }
      match s.escalate n e.accn w.mode with
      | .status s v => s.tellWait e.accn w v
      | .wait s => s
      | .fault _ _ _ => s
    else (s.putLock { e with mode := e.wants, wait := none }).tellWait e.accn w 0

/-- LOCK_GRANT (R347): the waiters are scanned in ascending accession number. -/
def execLockGrant (k : Nat) (s : State) : Out :=
  .next ((s.lockWaiters k).foldl (fun s e => if s.lockFits e then s.grantLock e else s) s)

end Sys2Proof.Machine
end

