-- ==== Sys2Proof/Machine/Trap.lean ====
section
/-!
DEFINITION. The trap words TRAP, ERET, ABORT and TSAVE (R385 to R389), and the event ILLEGAL_INSTRUCTION (R54, R62).
Taking a trap and returning from one are `Thread.enterTrap` and `Thread.leaveTrap` in Ops.lean.
-/

namespace Sys2Proof.Machine

/-- TRAP (R385): TEPC is the address of the word after it. -/
def execTrap (b : BitVec 6) (s : State) : Out :=
  .next (s.perLane 0 [] fun s t _ th => s.raiseAt s.issue.accn t causeTrap (th.pc + 4).toNat 0 (word b.toNat))

/-- ERET (R386). -/
def execEret (s : State) : Out :=
  .next (s.perLane 0 [] fun s t _ th =>
    let a := s.issue.accn
    if th.h = false then s.raise a t causeIllegalInstruction 0 0
    else if th.tepc.toNat % 4 ≠ 0 ∨ th.tepc.toNat / 2 ^ 57 ≠ 0 then s.raise a t causeIllegalInstruction th.tepc.toNat 0
    else s.putThread a t th.leaveTrap)

/-- ABORT (R387): the first one decides; ABORT.RETRY in an irrevocable task is an illegal operand, also in one that is
treated as irrevocable only through its cooperative launch (DESIGN CHOICE, log entry 120: R301 makes a cause that would relaunch such a
member a machine check, and the spec does not say which applies). -/
def execAbort (retry : Bool) (b : BitVec 6) (s : State) : Out :=
  .next (s.perLane 0 [] fun s t tk th =>
    let a := s.issue.accn
    if retry && s.immune tk then s.raise a t causeIllegalOperand 0 (word b.toNat)
    else
      let k : StopKind := if retry then .retry b.toNat else .aborted b.toNat
      (s.updTask a fun tk => tk.halt ⟨k, some t, 0, 0, th.pc.toNat, 0, th.h⟩).putThread a t th.next)

/-- The trap registers as TSAVE lays them out (R388). -/
def Thread.trapWords (th : Thread) : List Word :=
  [loWord th.tepc, hiWord th.tepc, loWord th.taddr, hiWord th.taddr, th.tinfo, th.tcause.setWidth 32]

/-- TSAVE (R388): the trap registers go to V(D) to V(D + 5), and H := 0. -/
def Thread.saveTrap (th : Thread) (d : Nat) : Thread := { th.setRegs d th.trapWords with h := false }
/-- TSAVE.LD (R388): they come back, and H := 1. -/
def Thread.loadTrap (th : Thread) (d : Nat) : Thread :=
  { th with
    tepc := th.reg2 d, taddr := th.reg2 (d + 2), tinfo := th.reg (d + 4), tcause := (th.reg (d + 5)).setWidth 16, h := true }

/-- TSAVE (R388). -/
def execTsave (d : BitVec 6) (load : Bool) (s : State) : Out :=
  let d := d.toNat
  .next (s.perLane 0 ((List.range 6).map (d + ·)) fun s t _ th =>
    s.putThread s.issue.accn t (if load then th.loadTrap d else th.saveTrap d).next)

/-- ILLEGAL_INSTRUCTION (R54, R62): the chain at which the threads stand has a decode fault; none of it executes. -/
def execIllegalInstruction (f : DecodeFault) (taddr : Nat) (s : State) : Out :=
  .next (s.perLane 0 [] fun s t _ _ => s.raise s.issue.accn t (DecodeFault.cause f) taddr 0)

end Sys2Proof.Machine
end

