-- ==== Sys2Proof/Machine/Recovery.lean ====
section
/-!
DEFINITION. Thread images, pre-emption and breakpoints (R84, R305, R395 to R399), soft errors (R394) and the watchdog
(R303, R304): BRK, SQUAD_EVICT, SQUAD_RESTORE, STOP_ALL_ON, STOP_ALL_OFF, DEBUG_RESUME, SOFT_ERROR, WATCHDOG.
-/

namespace Sys2Proof.Machine

/-! ## The image (R396) -/

/-- OCW. -/
def packCounters (v : Vector (BitVec 6) 4) : Nat :=
  (v.getD 0 0).toNat + (v.getD 1 0).toNat * 2 ^ 6 + (v.getD 2 0).toNat * 2 ^ 12 + (v.getD 3 0).toNat * 2 ^ 18

/-- One barrier count. -/
def packBar (b : BarCount) : Nat :=
  b.coh % 256 + bit b.whole * 2 ^ 8 + 2 ^ 9 + bit b.unwaited * 2 ^ 15 + b.count % 2 ^ 16 * 2 ^ 16

/-- The 16 bytes of an engine-fault record; zeros for none. -/
def packEng : Option EngFault → List Byte
  | none => List.replicate 16 0
  | some f => leBytes 2 f.cause ++ leBytes 2 f.info ++ leBytes 4 0 ++ leBytes 8 f.addr

/-- The 16 bytes of a posted-store fault record from PFCAUSE; zeros for none. -/
def packPosted : Option PostedFault → List Byte
  | none => List.replicate 16 0
  | some p => leBytes 2 p.cause ++ leBytes 1 p.reason ++ leBytes 1 (min p.count 255) ++ leBytes 4 0 ++ leBytes 8 p.addr

/-- TSTATE. -/
def Thread.tstate (th : Thread) (stopped : Bool) : Nat :=
  bit th.h + bit stopped * 2 + (match th.cond with
    | .held _ => 4
    | _ => 0) + th.cond.code * 16

/-- The first 0x1CC bytes of a thread's image; the rest of its 512 bytes is 0. -/
def imageBytes (tk : Task) (th : Thread) (stopped : Bool) : List Byte :=
  ((List.range 64).flatMap fun n => leBytes 4 (if tk.holdsReg n then (th.reg n).toNat else 0)) ++
    leBytes 8 th.faultPc ++ leBytes 8 th.tepc.toNat ++ leBytes 8 th.taddr.toNat ++ leBytes 4 th.tinfo.toNat ++
    leBytes 2 th.tcause.toNat ++ leBytes 1 (th.p ||| 1).toNat ++ leBytes 1 (th.tstate stopped) ++ leBytes 4 th.fpmode.toNat ++
    leBytes 4 th.fpflags.toNat ++ leBytes 4 th.rngctr.toNat ++ leBytes 4 (packCounters th.oc) ++
    ((List.range 7).flatMap fun i => leBytes 8 (th.lwct.getD i 0)) ++ packPosted th.posted ++
    ((List.range 4).flatMap fun n => packEng (th.eflt.getD n none)) ++
    ((List.range 5).flatMap fun i => leBytes 4 (((th.bars[i]?).map packBar).getD 0))

/-- Addresses of the images in use. -/
def State.imagesInUse (s : State) : List Nat :=
  (KMap.vals s.tasks).flatMap fun tk => (KMap.vals tk.threads).filterMap fun th => th.image.map Image.addr

/-- Images that the save reserve holds (R395, R413). -/
def Regs.imageSlots (r : Regs) : Nat := r.saveSize / 512

/-- The lowest free image of the save reserve. -/
def State.freeImage (s : State) : Option Nat :=
  let used := s.imagesInUse
  let base := s.regs.saveBase
  (((List.range (used.length + 1)).filter fun i => i < s.regs.imageSlots).map fun i => base + 512 * i).find? fun x =>
    !used.contains x

/-- Write a thread's image, in the place it has or in a free one; with no room nothing is written. -/
def State.writeImage (s : State) (a t : Nat) (stopped : Bool) : State :=
  match s.task? a, s.thread? a t with
  | some tk, some th =>
    match (th.image.map Image.addr).orElse fun _ => s.freeImage with
    | none => s
    | some x =>
      let bs := imageBytes tk th stopped ++ List.replicate 52 0
      let s := (s.acceptAll (byLine (bytesAt x bs)) 0 (tk.coreOf t) [a]).1
      (s.updThread a t fun th =>
        { th with image := some ⟨x, dword th.faultPc, th.tepc, th.taddr, th.tinfo, th.tcause, th.oc, th.v, th.lwct, th.posted, th.eflt⟩ }).touchAll [x, x + 511]
  | _, _ => s

/-- The address of a thread's image, 0 for none. -/
def Thread.imageAddr (th : Thread) : Nat := (th.image.map Image.addr).getD 0

/-! ## BRK and stop-all (R84, R398, R399) -/

/-- A thread has been stopped, which is a stop point (R212): its image is written and a STOP report sent. -/
def State.stopThread (s : State) (a t : Nat) : State :=
  let s := ((s.updThread a t fun th => { th with halted := true }).meet a [t]).writeImage a t true
  match s.task? a, s.thread? a t with
  | some tk, some th =>
    s.report tk kindStop causeBrk ⟨.program causeBrk, some t, th.cond.code, th.tinfo, th.tepc.toNat, 0, false⟩ false th.imageAddr
  | _, _ => s

/-- Stop-all is in force for a task (R399). -/
def State.stopAllOn (s : State) (tk : Task) : Bool := ((s.ctx? tk.ctx).map Ctx.stopAll).getD false

/-- BRK in one lane (R84, R398). -/
def brkLane (b : Nat) (s : State) (t : Nat) (tk : Task) (th : Thread) : State :=
  let a := s.issue.accn
  let s := s.putThread a t { th.next with tepc := th.pc + 4, tcause := BitVec.ofNat 16 causeBrk, tinfo := word b }
  let s := s.stopThread a t
  if s.stopAllOn tk then s.updTask a fun tk => { tk with stopping := true } else s

/-- BRK (R84). -/
def execBrk (_c : Bool) (g : BitVec 3) (b : BitVec 6) (s : State) : Out :=
  .next (s.perLane g.toNat [] (brkLane b.toNat))

/-- The squad of a thread is about to be evicted, which goes before stop-all (R290). -/
def State.evictDue (s : State) (tk : Task) (t : Nat) (th : Thread) : Bool :=
  !th.away && s.agenda.contains (.squadEvict (tk.coreOf t) th.squad)

/-- Stop the threads of a task that a STOP report under stop-all stops (R399): each at a boundary (R53), and none while a stop of the
task, which goes first, has still to be carried out (R290). -/
def State.settleStopping (s : State) (a : Nat) : State :=
  match s.task? a with
  | none => s
  | some tk =>
    if tk.stopping && !s.stopDue tk then
      let ts := tk.threads.filter fun p => p.2.live && !p.2.halted
      let now := ts.filter fun p => !s.evictDue tk p.1 p.2 && !p.2.keepsOn
      (now.foldl (fun s p => s.stopThread a p.1) s).updTask a fun tk => { tk with stopping := ts.length ≠ now.length }
    else s

/-- All that takes effect at an instruction boundary: stops, commits, barriers, meetings, then stop-all (R53, R290). -/
def State.boundary (s : State) : State :=
  let s := s.settle
  (KMap.keys s.tasks).foldl State.settleStopping s

/-- STOP_ALL_ON (R399, R413). -/
def execStopAllOn (n : Nat) (s : State) : Out := .next (s.updCtx n fun c => { c with stopAll := true })
/-- STOP_ALL_OFF (R399, R413). -/
def execStopAllOff (n : Nat) (s : State) : Out := .next (s.updCtx n fun c => { c with stopAll := false })

/-! ## Resume (R399) -/

/-- Little-endian number of `n` bytes as the latest accepted write leaves them. -/
def State.lastNat (s : State) (k n : Nat) : Nat := leNat ((List.range n).map fun i => s.lastByte (k + i))

/-- A field of an image (R397, R399): what the debugger has rewritten counts, else what the hardware has made of the field since the
image was written. -/
def fromImage {α : Type} [DecidableEq α] (now saved read : α) : α := if read = saved then now else read

/-- A posted-store fault record as an image has it. -/
def PostedFault.imaged (p : PostedFault) : PostedFault := { p with count := min p.count 255 }

/-- A barrier count read back: as the thread keeps it where the image is unchanged. -/
def unpackBar (old : Option BarCount) (x : Nat) : Option BarCount :=
  if (old.map packBar).getD 0 = x then old
  else if x / 2 ^ 9 % 2 = 0 then none
  else some ⟨x % 256, x / 2 ^ 8 % 2 == 1, x / 2 ^ 16 % 2 ^ 16, x / 2 ^ 15 % 2 == 1, 0, false, false⟩

/-- An engine-fault record read back. -/
def State.readEng (s : State) (k : Nat) (old : Option EngFault) : Option EngFault :=
  if s.lastNat k 2 = 0 then none
  else some ⟨s.lastNat k 2, s.lastNat (k + 2) 2, s.lastNat (k + 8) 8, (old.map EngFault.order).getD 0⟩

/-- A posted-store fault record read back. -/
def State.readPosted (s : State) (k : Nat) (old : Option PostedFault) : Option PostedFault :=
  if s.lastNat k 2 = 0 then none
  else some ⟨s.lastNat k 2, s.lastNat (k + 2) 1, s.lastNat (k + 3) 1, s.lastNat (k + 8) 8, (old.map PostedFault.order).getD 0⟩

/-- The registers, trap registers and records of a stopped thread as its image has them. -/
def State.reload (s : State) (tk : Task) (th : Thread) (m : Image) : Thread :=
  let x := m.addr
  let pc := dword (s.lastNat (x + 0x100) 8)
  let oc : Vector (BitVec 6) 4 := Vector.ofFn fun i =>
    let out := (m.oc.getD i.val 0).toNat - (th.oc.getD i.val 0).toNat
    BitVec.ofNat 6 (s.lastNat (x + 0x12C) 4 / 2 ^ (6 * i.val) % 64 - out)
  let old := th.bars
  let bars := (List.range 5).filterMap fun i => unpackBar old[i]? (s.lastNat (x + 0x1B8 + 4 * i) 4)
  { th with
    v := Vector.ofFn fun i =>
      if tk.holdsReg i.val then fromImage (th.reg i.val) (m.v.getD i.val 0) (word (s.lastNat (x + 4 * i.val) 4)) else th.reg i.val
    tepc := fromImage th.tepc m.tepc (dword (s.lastNat (x + 0x108) 8))
    taddr := fromImage th.taddr m.taddr (dword (s.lastNat (x + 0x110) 8))
    tinfo := fromImage th.tinfo m.tinfo (word (s.lastNat (x + 0x118) 4))
    tcause := fromImage th.tcause m.tcause (BitVec.ofNat 16 (s.lastNat (x + 0x11C) 2))
    p := BitVec.ofNat 8 (s.lastNat (x + 0x11E) 1) ||| 1
    fpmode := word (s.lastNat (x + 0x120) 4)
    fpflags := word (s.lastNat (x + 0x124) 4)
    rngctr := word (s.lastNat (x + 0x128) 4)
    oc := oc
    lwct := Vector.ofFn fun i => fromImage (th.lwct.getD i.val 0) (m.lwct.getD i.val 0) (s.lastNat (x + 0x130 + 8 * i.val) 8)
    posted := fromImage th.posted (m.posted.map PostedFault.imaged) (s.readPosted (x + 0x168) m.posted)
    eflt := Vector.ofFn fun i =>
      fromImage (th.eflt.getD i.val none) (m.eflt.getD i.val none) (s.readEng (x + 0x178 + 16 * i.val) (m.eflt.getD i.val none))
    bars := bars ++ old.drop 5
    pkt := none
    pc := if pc ≠ m.pc then pc else th.pc
    rep := if pc ≠ m.pc then none else th.rep }

/-- A held thread that returns looks at its word again; one held for signing or a meeting stays where it is (R236,
R397). -/
def Thread.relook (th : Thread) : Thread :=
  match th.cond with
  | .held .signing => th
  | .held .meeting => th
  | .held _ => { th with cond := .running }
  | _ => th

/-- An evicted thread is back on its core: it fetches its packet anew, where it is not held in it (R397). -/
def Thread.back (th : Thread) : Thread :=
  { th.relook with
    away := false, pkt := if th.relook.cond = .running then none else th.pkt, image := if th.halted then th.image else none }

/-- The requests for resources at a word are dropped, unless another thread waits there too (R31). -/
def State.dropWants (s : State) (a t addr : Nat) : State :=
  s.updTask a fun tk =>
    if tk.threads.any fun p => p.1 ≠ t && p.2.pc.toNat == addr && p.2.waitFor == some .resource then tk
    else { tk with wants := tk.wants.filter fun w => w.addr ≠ addr }

/-- The word at which a thread waits is a task word (R313). -/
def Thread.atTaskWord (th : Thread) : Bool :=
  th.kept.isSome &&
    match th.atWord with
    | some (.bound _) | some (.xacq _) | some (.xrel _) | some .commit | some (.lkrela _) | some (.cmtx _) => true
    | _ => false

/-- A thread leaves the word at which it is held (R304, R399), where its arrival is over (R313): a stalled remote access is dropped on its return (R167), requests for
resources and locks on which no other thread waits are dropped, and a signature that it has given stays, but nothing more happens to
the thread on its account. A reaching of a task word whose only thread has left is not carried out: the next thread of it carries the
word out, and reads its S registers, anew (DESIGN CHOICE, log entry 95). -/
def State.leaveWord (s : State) (a t : Nat) : State :=
  match s.task? a with
  | none => s
  | some tk =>
    let s := (s.dropWants a t (((KMap.get? t tk.threads).map fun th => th.pc.toNat).getD 0)).leaveWaits a t
    let s := s.updThread a t fun th => if th.atTaskWord then th.arrive else th
    { s with outs := KMap.keep (fun _ o => !(o.accn = a && o.tid = t && !o.posted && o.async.isNone && o.eng.isNone)) s.outs }.updCluster
      (clusterOf tk.core) fun c => { c with
        cvs := KMap.mapAll (fun (b : Binding) => if b.accn = a then
          { b with sigs := KMap.mapAll (fun (g : Sig) => if g.tid = t then { g with left := true } else g) b.sigs } else b) c.cvs
        table := c.table.map fun (r : Request) => if r.accn = a then { r with held := r.held.filter (· ≠ t) } else r }

/-- A stopped thread goes on at its image's PC; moved by the debugger, it leaves what it waited for. -/
def State.resumeThread (s : State) (a t : Nat) : State :=
  match s.task? a, s.thread? a t with
  | some tk, some th =>
    match th.image with
    | none => s.putThread a t { th.relook with halted := false }
    | some m =>
      let th' := s.reload tk th m
      let moved := th'.pc ≠ th.pc
      let th' := if moved then { th'.clear with cond := .running, base := none } else th'.relook
      (if moved then s.leaveWord a t else s).updThread a t fun x =>
        { th' with halted := false, image := if th'.away then th'.image else none, reached := x.reached }
  | _, _ => s

/-- DEBUG_RESUME (R399): every stopped thread of the task goes on. -/
def execDebugResume (n a : Nat) (s : State) : Out :=
  match s.task? a with
  | none => .next s
  | some tk =>
    .next (if tk.ctx = n then tk.threads.foldl (fun s p => if p.2.halted then s.resumeThread a p.1 else s) s else s)

/-! ## Pre-emption (R305, R395, R397) -/

/-- The live threads of a squad on a core that are not evicted. -/
def Task.squadThreads (tk : Task) (core sq : Nat) : List (Nat × Thread) :=
  tk.threads.filter fun p => p.2.squad = sq ∧ tk.coreOf p.1 = core ∧ p.2.away = false ∧ p.2.live = true

/-- A request that may be outstanding when its thread is evicted: an engine's, or a stalled load, which is issued again
(R137, R167). -/
def OutReq.mayLeave (o : OutReq) : Bool :=
  o.eng.isSome || (!o.posted && o.async.isNone &&
    match o.req.op with
    | .load _ => true
    | .ldsum _ => true
    | _ => false)

/-- A thread has begun a SPAWN, which does not wait (R331). -/
def Thread.spawning (th : Thread) : Bool :=
  th.kept.isSome &&
    match th.atWord with
    | some (.spawn _) => true
    | _ => false

/-- A squad may be evicted: it runs, and there is room for the images of its threads. -/
def State.evictReady (s : State) (core sq : Nat) : Bool :=
  match KMap.get? sq (s.core core).squads with
  | none => false
  | some q =>
    match s.task? q.accn with
    | none => false
    | some tk =>
      let ts := tk.squadThreads core sq
      tk.phase == .running && tk.ctx ≠ 0 && !ts.isEmpty && s.imagesInUse.length + ts.length ≤ s.regs.imageSlots

/-- Something of threads of a task has to be awaited before they leave (R53, R137, R331, R395), and a stop of the task goes first
(R290). -/
def State.evictWaits (s : State) (a : Nat) (ts : List (Nat × Thread)) : Bool :=
  ((s.task? a).map s.stopDue).getD false || ts.any (fun p => p.2.spawning || p.2.midChain || p.2.chased.isSome) || (KMap.vals s.outs).any fun o => o.accn == a && !o.mayLeave && ts.any fun p => p.1 == o.tid

/-- SQUAD_EVICT (R305, R395): while requests of its threads have to be awaited, it stays due. -/
def execSquadEvict (core sq : Nat) (s : State) : Out :=
  match KMap.get? sq (s.core core).squads with
  | none => .next s
  | some q =>
    match s.task? q.accn with
    | none => .next s
    | some tk =>
      if !s.evictReady core sq then .next s
      else if s.evictWaits q.accn (tk.squadThreads core sq) then .next (s.due (.squadEvict core sq))
      else
        let a := q.accn
        let ts := tk.squadThreads core sq
        let s := { s with outs := KMap.keep (fun _ o => !(o.accn = a && o.eng.isNone && ts.any fun p => p.1 == o.tid)) s.outs }
        let s := ts.foldl (fun s p => (if p.2.halted && p.2.image.isSome then s else s.writeImage a p.1 p.2.halted).updThread a p.1 fun th =>
          { th with away := true, answer := if th.cond = .held .remote then none else th.answer }) s
        .next (s.updCore core fun c => { c with squads := KMap.upd sq (fun q => { q with active := false }) c.squads })

/-- Another context has won room on a core, and what it won it for still lacks it (R305). -/
def State.promised (s : State) (core n : Nat) : Bool := (s.core core).invited.any fun m => m ≠ n && (s.starved core m).isSome

/-- An evicted squad may return: there is room on its core, which was not made for another context (R305) and is not held for any
reserved record (R296). -/
def State.restoreReady (s : State) (core sq : Nat) : Bool :=
  (s.awaySquads core).contains sq &&
    match KMap.get? sq (s.core core).squads with
    | none => false
    | some q => !s.promised core (((s.task? q.accn).map Task.ctx).getD 0) && 0 < leftBy (s.holdsCore core) core Room.squads (48 - (s.useOf core).squads)

/-- SQUAD_RESTORE (R305, R397): the threads are those of the state, so counters and faults are as they would have been. -/
def execSquadRestore (core sq : Nat) (s : State) : Out :=
  if !s.restoreReady core sq then .next s
  else
    match KMap.get? sq (s.core core).squads with
    | none => .next s
    | some q =>
      .next ((s.spend core fun r => { r with squads := r.squads - 1 }).updTask q.accn fun tk =>
        { tk with threads := tk.threads.map fun p =>
            if p.2.away ∧ p.2.squad = sq ∧ tk.coreOf p.1 = core then
              (p.1, p.2.back)
            else p })

/-! ## SOFT_ERROR (R241, R394) -/

/-- An error in the state of an attempt alone: cause 0x0014. -/
def State.ownError (s : State) (a : Nat) : State :=
  match s.task? a with
  | some tk => if tk.resident then s.haltTask a (.relaunch causeSoftError 0) else s
  | none => s

/-- An error in dirty bytes of L1 (R394): from an irrevocable task a machine check; in another member of a group that has become
irrevocable, an error in its own state, which ends the group (R301). -/
def State.dirtyError (s : State) (a : Nat) (tk : Task) : State :=
  if tk.irrevocable then s.haltTask a .machineCheck else s.ownError a

/-- The arrival of a request. -/
def arrivalOf (r : RemoteReq) (posted : Bool) : Instr := if posted then .remotePostedStore r else .remoteRequestArrival r

/-- The key of a kept result: source and tag. -/
def replayKey (src tag : Nat) : Nat := tag * 1024 + src % 1024
/-- The request has been performed, and its result is kept (R151). -/
def State.resultKept (s : State) (r : RemoteReq) : Bool := (KMap.get? (replayKey r.src r.tag) s.replay).isSome

/-- A request of the module's own whose answer is awaited, and which has still to be performed (R402): its arrival is on the agenda, and
no result of it is kept (R151). -/
def State.ownRequest (s : State) (r : RemoteReq) (posted : Bool) : Bool :=
  (KMap.vals s.outs).any (fun o => o.req.tag == r.tag) && s.agenda.contains (arrivalOf r posted) &&
    !s.resultKept r

/-- The answer that poisons a request of the module's own takes the place of its arrival: it has no effect at the target (R148). -/
def State.poisonOwn (s : State) (r : RemoteReq) (posted : Bool) : State :=
  { s with agenda := s.agenda.filter (· ≠ arrivalOf r posted) }.due
    (if posted then .postedAck r.tag (.poisoned 4) else .remoteResponse r.tag (.poisoned 4) false)

/-- SOFT_ERROR (R241, R394). -/
def execSoftError (site : SoftSite) (s : State) : Out :=
  .next (match site with
  | .own a => s.ownError a
  | .corrected => { s with regs := { s.regs with corrected := s.regs.corrected + 1 } }
  | .line l => { s with poison := (l :: s.poison).eraseDups }
  | .lock k => (s.locks.filter fun e => e.name = k).foldl (fun s e => s.haltTask e.accn .machineCheck) s
  | .dirty a =>
    match s.task? a with
    | some tk => s.dirtyError a tk
    | none => s
  | .pass k =>
    match s.nextPass k with
    | some r =>
      (match s.task? r.accn with
      | some tk => if s.formsProducts tk r then (s.updRequest k r.id fun r => { r with stopped := true }).ownError r.accn else s
      | none => s)
    | none => s
  | .answer r posted =>
    if !s.regs.serves then s
    else if r.src = s.regs.peerid then
      if s.ownRequest r posted then s.poisonOwn r posted else s
    else if s.resultKept r then s
    else s.onFabric (if posted then .ack r.src r.tag (.poisoned 4) else .response r.src r.tag (.poisoned 4) false))

/-! ## WATCHDOG (R303, R304) -/

/-- The watchdog limit of a task in ticks; none when it is off. -/
def State.watchLimit (s : State) (tk : Task) : Option Nat :=
  match s.ctx? tk.ctx with
  | some c => if c.watchdog = 0 then none else some (2 ^ c.watchdog)
  | none => none

/-- The wait of a thread has reached the limit. -/
def State.watchReady (s : State) (tk : Task) (th : Thread) : Bool :=
  match s.watchLimit tk, th.cond with
  | some n, .held _ => tk.phase == .running && tk.stop.isNone && !th.away && !th.halted && n ≤ th.waited
  | _, _ => false

/-- WATCHDOG (R304): a report in every case, then the treatment of a program cause. -/
def execWatchdog (a t : Nat) (s : State) : Out :=
  match s.task? a, s.thread? a t with
  | some tk, some th =>
    if s.watchReady tk th then
      let info := th.withIndex (word th.cond.code)
      let s := s.report tk kindWatchdog causeWatchdog ⟨.program causeWatchdog, some t, th.cond.code, info, th.faultPc, 0, th.h⟩ false 0
      .next ((s.leaveWord a t).raise a t causeWatchdog 0 (word th.cond.code))
    else .next s
  | _, _ => .next s

end Sys2Proof.Machine
end

