-- ==== Sys2Proof/Machine/System.lean ====
section
/-!
DEFINITION. Contexts and the registers of the supervisor (R363 to R366, R369, R370, R376, R413, R414), the host (R406,
R407), attestation (R415), bring-up (R412) and heat (R416).
-/

namespace Sys2Proof.Machine

/-! ## Contexts (R363 to R365, R371) -/

/-- A 4-byte or 8-byte field of physical memory now. -/
def State.phys (s : State) (k n : Nat) : Nat := s.homeNat k n

/-- Two rectangles share a stop. -/
def rectsMeet (c : Ctx) (row col rows cols : Nat) : Bool :=
  c.row < row + rows && row < c.row + c.rows && c.col < col + cols && col < c.col + c.cols

/-- Rows and columns of the stops in service: in reduced service those of die 0 (R412). -/
def State.gridEnd (s : State) : Nat := if s.regs.level = 1 then 6 else 12

/-- The context that a descriptor describes (R364), if R365 does not refuse it. -/
def State.readCtx (s : State) (d : Nat) : Option Ctx :=
  let ptroot := s.phys d 8
  let peert := s.phys (d + 0x08) 8
  let tvec := s.phys (d + 0x10) 8
  let region := word (s.phys (d + 0x18) 4)
  let sched := word (s.phys (d + 0x1C) 4)
  let inccfg := word (s.phys (d + 0x20) 4)
  let incdir := word (s.phys (d + 0x24) 4)
  let row := wbits region 0 4
  let col := wbits region 4 4
  let rows := wbits region 8 4 + 1
  let cols := wbits region 12 4 + 1
  let weight := wbits sched 0 8
  let aging := wbits sched 8 13
  let wd := wbits sched 21 6
  if ptroot / 2 ^ 38 = 0 ∧ ptroot % 4096 = 0 ∧ peert % 8192 = 0 ∧ tvec % 12 = 0 ∧ tvec < 2 ^ 57 ∧ wbits region 18 14 = 0 ∧
      row + rows ≤ s.gridEnd ∧ col + cols ≤ s.gridEnd ∧ weight ≠ 0 ∧ 16 ≤ aging ∧ aging ≤ 4096 ∧ (wd = 0 ∨ (10 ≤ wd ∧ wd ≤ 40)) ∧
      wbits sched 27 5 = 0 ∧ (wbits inccfg 16 16 = 0 ∨ wbits incdir 16 16 ≠ 0) ∧ s.phys (d + 0x28) 88 = 0 ∧
      s.ctxs.all (fun p => !rectsMeet p.2 row col rows cols) then
    let start := fun i => dword (s.phys (d + 0x80 + 8 * i) 8)
    some {
      ptroot := ptroot, peert := peert, tvec := dword tvec, row := row, col := col, rows := rows, cols := cols
      wiring := wbits region 16 2, weight := weight, aging := aging, watchdog := wd, inccfg := inccfg, incdir := incdir
      incs := ((List.range 16).filter fun i => inccfg.getLsbD i).map fun i => (i, ⟨start i, start i, []⟩)
      optab := Vector.replicate 16 0, cmtx := defaultMatrix, gen := 0, tlb := [], cancelled := [], stopAll := false
      revoked := [] }
  else none

/-- Nothing of an earlier context of the number is left: incumbent copies, deficits, codebooks (R180, R306). -/
def State.forget (s : State) (n : Nat) : State :=
  { s with
    cores := KMap.mapAll (fun c => { c with
      incs := KMap.keep (fun k _ => k / 16 ≠ n) c.incs
      deficit := KMap.del n c.deficit
      used := KMap.del n c.used }) s.cores
    clusters := KMap.mapAll (fun c => { c with books := KMap.keep (fun k _ => k / 256 ≠ n) c.books }) s.clusters }

/-- CTXSTS. -/
def State.ctxStatus (s : State) (v : Nat) : State := { s with regs := { s.regs with ctxsts := v } }

/-- The start values of the federated incumbents of a context go to the peers once, at its activation (R307). -/
def State.federate (s : State) (c : Ctx) : State :=
  c.incs.foldl (fun s p => if c.federated p.1 then s.onFabric (.federation c.fgrp p.1 (c.isMax p.1) p.2.start) else s) s

/-- CTX_ACTIVATE (R307, R365): update-only copies of the descriptor's lines are combined first (R106). -/
def execCtxActivate (n desc : Nat) (s : State) : Out :=
  if (s.ctx? n).isSome then .next (s.ctxStatus 2)
  else
    match s.copied (linesOf desc 256), s.readCtx desc with
    | some l, _ => .next ((s.recall l).1.due (.ctxActivate n desc))
    | none, none => .next (s.ctxStatus 2)
    | none, some c => .next (({ s.forget n with ctxs := KMap.put n c s.ctxs }.federate c).ctxStatus 0)

/-- CTX_RETIRE (R365): refused with 3 while a task of the context exists; context 0, or a context that is not active, is
refused with 2. -/
def execCtxRetire (n : Nat) (s : State) : Out :=
  if s.tasks.any fun p => p.2.ctx = n then .next (s.ctxStatus 3)
  else if n = 0 ∨ (s.ctx? n).isNone then .next (s.ctxStatus 2)
  else .next ({ s.forget n with ctxs := KMap.del n s.ctxs }.ctxStatus 0)

/-! ## Invalidation (R369, R370) -/

/-- A page (bits 55:16) lies in the range that an INVCMD names: size 0 64 KiB, 1 2 MiB, 2 1 GiB, 3 the whole context. -/
def inRange (page size x : Nat) : Bool :=
  if size = 0 then x == page
  else if size = 1 then x / 2 ^ 5 == page / 2 ^ 5
  else if size = 2 then x / 2 ^ 14 == page / 2 ^ 14
  else true

/-- A line whose update-only copies have to be combined before the tables show which revoked pages of a range have ROE (R106). -/
def State.roeCopies (s : State) (c : Ctx) (page size : Nat) : Option Nat :=
  (c.revoked.filter (inRange page size)).findSome? fun p =>
    match s.walkPage c p with
    | .copies l => some l
    | _ => none

/-- Tasks of a context. -/
def State.ctxTasks (s : State) (n : Nat) : List Nat := s.tasks.filterMap fun p => if p.2.ctx = n then some p.1 else none

/-- Remote requests or engine commands of the context that were translated under an older generation (R369 step 2). -/
def State.underOld (s : State) (n gen : Nat) : Bool :=
  let ts := s.ctxTasks n
  ((KMap.vals s.outs).any fun o => ts.contains o.accn && o.gen < gen && o.back.isNone) ||
    s.engs.any fun e => ts.contains e.accn && e.plan.isSome && e.gen < gen

/-- Some request of the context is under way: dirty bytes, ordinary partials, a write not yet performed, also of a task that has ended,
or what stands at an engine or a port under a generation older than the next. -/
def State.inFlight (s : State) (n gen : Nat) : Bool :=
  let ts := s.ctxTasks n
  (KMap.vals s.cores).any (fun c =>
    ((KMap.vals c.l1).any fun l => (KMap.vals l.dirty).any fun d => d.writers.any fun w => ts.contains w.1) || c.parts.any fun p => ts.contains p.accn) ||
    (s.writes.any fun w => s.dtime < w.wct && w.ctxs.contains n) || s.underOld n gen

/-- Every queued request of a context under an older generation is delivered under the old translation (R369 step 2), also from a core
on which an earlier attempt of its task ran. -/
def State.deliver (s : State) (n gen : Nat) : State :=
  (s.ctxTasks n).foldl (fun s a =>
    match s.task? a with
    | none => s
    | some _ => (KMap.keys s.cores).foldl (fun s c =>
        ((KMap.keys (s.core c).l1).foldl (fun s l => s.writeBack c l fun d => d.ofTask a && d.gen < gen) s).flushParts c fun p =>
          p.accn = a ∧ p.gen < gen) s) s

/-- A task that is revocable itself holds bytes or partials that it has buffered under an older generation on the range (R369 step
3). -/
def Task.holdsRange (tk : Task) (gen page size : Nat) : Bool :=
  !tk.irrevocable && ((tk.ebuf.any fun p => p.2.gen < gen && inRange page size p.2.page) ||
    tk.parts.any fun p => p.gen < gen && inRange page size p.page)

/-- Revocable tasks of the context with buffered effects of the range run again (R369 step 3); in a cooperative launch that has become
irrevocable as a group that is a machine check of the group (R301). -/
def State.dropRange (s : State) (n gen page size : Nat) : State :=
  (s.ctxTasks n).foldl (fun s a =>
    match s.task? a with
    | none => s
    | some tk => if tk.holdsRange gen page size then s.haltTask a (.relaunch 0 0) else s) s

/-- INVSTS when the invalidation is over. -/
def State.invDone (s : State) (gen : Nat) : State := { s with regs := { s.regs with invsts := dword (gen % 2 ^ 16) } }

/-- TRANSLATION_INVALIDATE (R369): the generation is raised, cached translations are dropped, what is under way is delivered,
revocable tasks with buffered effects of the range run again. Until everything delivered has been performed, and engines and ports
have nothing left under the old generation, the command stays busy: a `size` of 4 and more carries the tick to wait for above its
low two bits (log entry 36). -/
def execTranslationInvalidate (n page size : Nat) (s : State) : Out :=
  match s.ctx? n with
  | none => .next { s with regs := { s.regs with invsts := s.regs.invsts &&& dword (2 ^ 63 - 1) } }
  | some c =>
    if 4 ≤ size then
      .next (if s.dtime ≤ size / 4 ∨ s.underOld n c.gen = true then s.due (.translationInvalidate n page size)
        else (s.dropRange n c.gen page (size % 4)).invDone c.gen)
    else if let some l := s.roeCopies c page size then .next ((s.recall l).1.due (.translationInvalidate n page size))
    else
      let gen := c.gen + 1
      let busy := s.inFlight n gen
      let s := s.updCtx n fun c => { c with
        gen := gen
        tlb := KMap.keep (fun k _ => !inRange page size k) c.tlb
        revoked := c.revoked.filter fun p => !inRange page size p || s.isRoe c p }
      let s := if busy then s.deliver n gen else s
      let s := s.dropRange n gen page size
      .next (if busy then s.due (.translationInvalidate n page (4 * s.writes.foldl (fun m w => max m w.wct) 1 + size))
        else s.invDone gen)

/-! ## Shoot-downs (R376) -/

/-- SHDSTS with `k` peers that have not answered. -/
def shdWord (k : Nat) : DWord := if k = 0 then 0 else dword (2 ^ 63 + k)

/-- The line that a look at a page's tables has to find combined (R106). -/
def State.pageCopies (s : State) (n page : Nat) : Option Nat :=
  (s.ctx? n).bind fun c =>
    match s.walkPage c page with
    | .copies l => some l
    | _ => none

/-- SHOOT_DOWN (R376). -/
def execShootDown (n page : Nat) (s : State) : Out :=
  match s.pageCopies n page with
  | some l => .next ((s.recall l).1.due (.shootDown n page))
  | none =>
    .next { (s.revoke n page).onFabric (.shootDown page) with regs := { s.regs with shdsts := shdWord (Config.peers % 1024) } }

/-- SHOOTDOWN_ANSWER (R376). -/
def execShootdownAnswer (_src : Nat) (s : State) : Out :=
  .next { s with regs := { s.regs with shdsts := shdWord (dbits s.regs.shdsts 0 10 - 1) } }

/-- SHOOTDOWN_RECEIVE (R376): the module holds no copy of a peer's lines beyond the loads already performed (R375), so it
only answers. -/
def execShootdownReceive (src _page : Nat) (s : State) : Out :=
  .next (if s.regs.serves then s.onFabric (.shootAnswer src) else s)

/-! ## Registers (R366, R413) -/

/-- REGISTER_WRITE (R366, R413). -/
def execRegisterWrite (r : CtlReg) (v : DWord) (s : State) : Out := .next { s with regs := s.regs.write r v }

/-- SERVICE_FULL (R414). -/
def execServiceFull (s : State) : Out :=
  if s.regs.level = 1 ∧ s.regs.train ∧ s.regs.stest ∧ s.ctxs.all (fun p => p.1 = 0) then
    .next { s with
      regs := { s.regs with level := 2, clk := 50, dies := 15 }
      homes := KMap.mapAll (fun h => { h with near := [] }) s.homes }
  else .next s

/-! ## The host (R166, R406, R407) -/

/-- HOST_STORE (R407): an access outside usable memory has no effect. -/
def execHostStore (addr : Nat) (data : List Byte) (s : State) : Out :=
  if s.regs.serves && s.regs.hostUp && addr + data.length ≤ s.usable then
    .next ((byLine (bytesAt addr data)).foldl (fun s l => (s.homeStore l.1 l.2 Config.cores []).1) s)
  else .next s

/-- Recall the update-only copies of lines for a reader at the home; whether the reader must wait for them. -/
def State.recallFor (s : State) (ls : List Nat) : State × Bool :=
  let r := s.recallLines ls
  (r.1, s.dtime < r.2)

/-- A host load of BAR0, whose one readable register is BSTAT at offset 0, is written as a load at the management page's address (R413,
log entry 90); it is served at every LEVEL while the host link is up (R414). -/
def barOffset (addr n : Nat) : Option Nat := if tcbBase + 0x1000 ≤ addr ∧ addr + n ≤ tcbBase + 0x1008 then some (addr - tcbBase - 0x1000) else none

/-- HOST_LOAD (R407): the value at its performance time, after update-only copies have been recalled (R106) and every accepted write to
its lines has taken effect; or of BAR0. -/
def execHostLoad (addr n : Nat) (s : State) : Out :=
  if (barOffset addr n).isSome then
    .next (if s.regs.hostUp then s.emit (.hostData addr (s.regLoad ((List.range n).map (addr + ·)))) else s)
  else if s.regs.serves && s.regs.hostUp && addr + n ≤ s.usable then
    let ls := linesOf addr n
    let r := s.recallFor ls
    if r.2 || r.1.writes.any (fun w => ls.contains w.line) then .next (r.1.due (.hostLoad addr n))
    else
      .next { r.1.emit (.hostData addr ((List.range n).map fun i => r.1.homeByte (addr + i))) with
        hostLines := (ls ++ r.1.hostLines).eraseDups }
  else .next s

/-- HOST_LINE_INVALIDATE (R166, R407): a host write to a line of host memory; the device's copies of the line are gone, near ones
too, which takes a free time (R108), and waiters on it look again once it is performed. -/
def execHostLineInvalidate (line : Nat) (data : KMap Byte) (s : State) : Out :=
  if !s.regs.serves then .next s else
  let l := Config.hostBase / 128 + line
  let bs : KMap Byte := (data.filter fun p => p.1 < 128).map fun p => (l * 128 + p.1, p.2)
  let s := (s.recall l).1
  let s := { s with cores := KMap.mapAll (fun c => { c with l1 := KMap.upd l (fun x => { x with lease := none }) c.l1 }) s.cores }
  let s := s.updHome l fun h => { h with lease := 0 }
  .next (s.acceptAt l (s.minWct l + s.nearTime l) bs Config.cores []).drew

/-- ATTESTATION_REQUEST (R415). -/
def execAttestationRequest (s : State) : Out :=
  .next (if s.regs.hostUp then (s.emit (.attestation (Config.attestation s.free))).drew else s)

/-! ## Bring-up, training and heat (R412, R414, R416) -/

/-- Bytes of a context's memory by virtual address; none where they cannot be read. -/
def State.virtBytes (s : State) (n va len : Nat) : Option (List Byte) :=
  match s.keysOf n readOnly va len with
  | .ok (ks, _) => some (ks.map s.homeByte)
  | .error _ => none

/-- Start a root record of context 0 (R412): Zellor. -/
def State.startRoot (s : State) (bs : List Byte) : State :=
  let f : SpawnFor := ⟨0, true, (recordOf bs 0 0).single, 0, 0⟩
  let cata := (recordOf bs 0 0).cata
  let cat := if cata = 0 then some [] else (s.virtBytes 0 cata 4096).map catalogueOf
  if (s.spawnCheck f [bs] [cat]).1 = 0 then
    let id := s.nextId
    let s := { s with launches := KMap.put id (launchOf 0 [recordOf bs 0 0]) s.launches, nextId := id + 1 }
    s.enqueue f id bs (cat.getD [])
  else s

/-- The rectangle of die 0 (R412, R431). -/
def Ctx.onDie0 (c : Ctx) : Ctx := { c with row := 0, col := 0, rows := 6, cols := 6 }

/-- POWER_ON (R412): the images are verified or the module fails; `image` is what the management controller has put into
device memory, `desc` the descriptor of context 0 there, `record` Zellor's task record. -/
def execPowerOn (failed : Bool) (image : KMap Byte) (desc : Nat) (record : List Byte) (s : State) : Out :=
  if s.regs.level ≠ 0 then .next s
  else if failed then .next { s with regs := { s.regs with level := 3, fail := 1 } }
  else
    let s := { s with mem := memWriteAll s.mem (image.filter fun p => p.1 < Config.reducedBytes) }
    match s.readCtx desc with
    | none => .next s
    | some c =>
      let s := { s with
        regs := { s.regs with level := 1, dies := 1, clk := 25, rqbase := 4096 * (Config.reportPage s.free % (2 ^ 24 - 65)) }
        ctxs := KMap.put 0 c.onDie0 s.ctxs }
      .next ((s.federate c).startRoot record).drew

/-- TRAINING_COMPLETE (R412, R414): the other dies pass; or, at any LEVEL, the module fails with a code. -/
def execTrainingComplete (fail : Nat) (s : State) : Out :=
  if fail % 256 ≠ 0 ∧ s.regs.level ≠ 3 then .next { s with regs := { s.regs with level := 3, fail := fail % 256 } }
  else if fail % 256 = 0 ∧ s.regs.level = 1 then .next { s with regs := { s.regs with train := true, stest := true } }
  else .next s

/-- What has reached every copy of a context's incumbents stays there (R306), whatever Δdev becomes. -/
def Ctx.landed (c : Ctx) (now d : Nat) : Ctx :=
  { c with incs := KMap.mapAll (fun (h : Incumbent) =>
      { h with log := h.log.map fun e => if arrivedBy now d e then (0, e.2) else e }) c.incs }

/-- THERMAL_THROTTLE (R416): one step of 25 MHz, to 625 MHz at least. -/
def execThermalThrottle (s : State) : Out :=
  .next { s with
    ctxs := KMap.mapAll (fun c => c.landed s.dtime (s.deltaDev c)) s.ctxs
    regs := { s.regs with clk := max 25 (s.regs.clk - 1) } }

/-- THERMAL_SHUTDOWN (R416). -/
def execThermalShutdown (s : State) : Out := .next { s with regs := { s.regs with level := 3, hostUp := false } }

end Sys2Proof.Machine
end

