-- ==== Sys2Proof/Machine/Fabric.lean ====
section
/-!
DEFINITION. The fabric: requests of peers at the conservator (R104, R151, R374, R375, R377), responses and
acknowledgements at the source (R131, R133 to R136, R148, R149, R151), and the Sniut ports (R378 to R380).
-/

namespace Sys2Proof.Machine

/-! ## The export check (R374) -/

/-- The greatest address of an access in a request of `n` bytes at `t`: a request for a line is the accesses of 32 threads to its
words (R126), and each is checked (R374). -/
def lastAccess (t n : Nat) : Nat := if n = 128 then t + 124 else t

/-- The target's address `t` in an export of a source: context and virtual address there, or the reason of R148, or a line to recall
first (R106); `last` is the greatest address of an access of the request. -/
def State.exportAt (s : State) (src exp : Nat) (rd wr : Bool) (t last : Nat) : Except Nat (Nat × Nat) :=
  let k := dbits s.regs.exptb 0 57 + 1024 * src + 16 * exp
  let e := s.homeNat k 16
  let n := e / 2 ^ 116 % 2 ^ 6
  if let some l := (s.copied (linesOf k 16)).filter fun _ => s.regs.exptb.getLsbD 63 then .error (recallCode l)
  else if s.regs.exptb.getLsbD 63 = false ∨ e / 2 ^ 127 = 0 ∨ e / 2 ^ 122 % 2 ^ 3 ≠ 0 ∨ e / 2 ^ 104 % 2 ^ 12 ≠ 0 ∨
      e / 2 ^ 56 % 2 ^ 8 ≠ 0 ∨ (s.ctx? n).isNone ∨ e / 2 ^ 64 % 2 ^ 40 ≤ last then
    .error 2
  else if (rd && e / 2 ^ 126 % 2 == 0) || (wr && e / 2 ^ 125 % 2 == 0) then .error 1
  else .ok (n, e % 2 ^ 56 + t)

/-- Every page used is one of a group of replicas here (R377). -/
def allRepl (xs : List (Nat × Xlate)) : Bool := xs.all fun x => dbits x.2.pte 6 1 == 1

/-- The keys of bytes that a request reaches, with their translations: reason 3 where R368 refuses them, or a summing read a page
that is no replica (R377), reason 4 where a line is poisoned (R394); or a line to recall first (R106). -/
def State.farKeys (s : State) (r : RemoteReq) (rd wr : Bool) (t n : Nat) (sum : Bool := false) :
    Except Nat (Nat × List Nat × List (Nat × Xlate)) :=
  match s.exportAt r.src r.exp rd wr t (lastAccess t n) with
  | .error e => .error e
  | .ok (c, va) =>
    if 2 ^ 56 < va + n then .error 3
    else
      match s.keysOf c ⟨rd && !wr, wr, false⟩ va n with
      | .error e => .error (if (recallLine e.1).isSome then e.1 else 3)
      | .ok (ks, xs) => if sum && !allRepl xs then .error 3 else if s.poisoned ks then .error 4 else .ok (c, ks, xs)

/-- The place of element `i` of a record in the export (R35), whose address wraps at 2^57; none outside the source's window (R373). -/
def shapeAt (sh : Shape) (i : Nat) : Option Nat :=
  let row : Int := if sh.rowlen = 0 then 0 else (i / sh.rowlen : Nat) * sh.str1
  let col : Int := ((if sh.rowlen = 0 then i else i % sh.rowlen : Nat) : Int) * sh.str0
  let x : Nat := ((sh.base + row + col) % (2 ^ 57 : Int)).toNat
  if sh.win ≤ x ∧ x - sh.win < sh.hi - sh.lo then some (sh.lo + (x - sh.win)) else none

/-! ## Performing a request (R104, R135, R152 to R159) -/

/-- What performing a request gives: the result and the tick at which it is performed; or a request with which the conservator goes on
in a later step: the same, once update-only copies that it has recalled have been combined (R106), or a CHASE at its next link. -/
inductive Served where
  | done (s : State) (res : RemoteRes) (at' : Nat) (roe : Bool)
  | again (s : State) (r : RemoteReq)
  deriving DecidableEq, Repr

/-- A request is refused with a reason, or has a line recalled first. -/
def State.farBad (s : State) (r : RemoteReq) (e : Nat) : Served :=
  match recallLine e with
  | some l => .again (s.recall l).1 r
  | none => .done s (.poisoned e) s.dtime false

/-- The writer that the home sees for an operation of the conservator. -/
def conservator : Nat := Config.cores + 1

/-- The ROE mark of a response (R375, R376): every page is ROE and none is revoked. -/
def State.roeMark (s : State) (c : Nat) (xs : List (Nat × Xlate)) : Bool :=
  !xs.isEmpty && xs.all fun x => dbits x.2.pte 5 1 == 1 &&
    !(((s.ctx? c).map fun y => y.isRevoked x.2 x.1).getD false)

/-- A read of a peer (R135, R157): a summing read needs REPL (R377). -/
def State.serveLoad (s : State) (r : RemoteReq) (n : Nat) (sum : Bool) : Served :=
  match s.farKeys r true false r.off n sum with
  | .error e => s.farBad r e
  | .ok (c, ks, xs) =>
    let s := s.rememberAll c xs
    if ks.any isReg then .done s (.data (wordsOfBytes (s.regLoad ks))) s.dtime false
    else
      let q := s.recallFor ((ks.map lineOf).eraseDups)
      if q.2 then .again q.1 r
      else .done q.1 (.data (wordsOfBytes (ks.map q.1.homeByte))) s.dtime (s.roeMark c xs)

/-- An LDSUM (R157, R377): the module's own request gets the sum over the group, of which it reads its own element; what the other
replicas hold is free, and whether one of them refuses its part, which is then the response as a whole. -/
def State.serveSum (s : State) (r : RemoteReq) : Served :=
  match s.serveLoad r 4 true with
  | .done s (.data [w]) tick roe =>
    if r.src = s.regs.peerid then
      (if Config.replicaRefusal s.free % 5 = 0 then .done s.drew (.data [Config.replicaSum s.free w]) tick roe
       else .done s.drew (.poisoned (Config.replicaRefusal s.free % 5)) tick false)
    else .done s (.data [w]) tick roe
  | x => x

/-- One read of a CHASE of a peer's list (R159), at node `i` after `c` links with at most `k` to come; `roe` says that every page read so
far carries the ROE mark (R375). The next read comes in a step of its own. -/
def State.serveChase (s : State) (r : RemoteReq) (sh : Shape) (i k c : Nat) (roe : Bool) : Served :=
  match shapeAt sh i with
  | none => .done s (.outside i) s.dtime false
  | some t =>
    match s.farKeys r true false t 4 with
    | .error e => s.farBad r e
    | .ok (x, ks, xs) =>
      if ks.headD 0 % 4 ≠ 0 then .done s (.misaligned i) s.dtime false
      else
        let s1 := s.rememberAll x xs
        let q := if ks.any isReg then (s1, false) else s1.recallFor ((ks.map lineOf).eraseDups)
        let roe := roe && s.roeMark x xs
        if q.2 then .again q.1 r
        else
          let nx := leNat (if ks.any isReg then s.regLoad ks else ks.map q.1.homeByte)
          if nx = 0 then .done q.1 (.data [word i, word c]) s.dtime roe
          else if sh.extent ≤ nx then .done q.1 (.bounds nx) s.dtime false
          else if k ≤ 1 then .done q.1 (.data [word nx, word (c + 1)]) s.dtime roe
          else .again q.1 { r with op := .chase sh nx (k - 1) (c + 1) roe }

/-- The reason that counts of those that the words of a request meet: the checks of R374 are made in their order, each on every word; a
recall goes before the checks that need it. -/
def firstReason (es : List Nat) : Option Nat :=
  if es.contains 2 then some 2
  else if es.contains 1 then some 1
  else (es.find? fun e => (recallLine e).isSome).orElse fun _ =>
    if es.contains 3 then some 3 else es.head?

/-- The keys of words at offsets of the export, each the first of its four bytes. -/
def State.farWords (s : State) (r : RemoteReq) (rd : Bool) (ts : List Nat) :
    Except Nat (List Nat × List (Nat × List (Nat × Xlate))) :=
  let xs := ts.map fun t => s.farKeys r rd true t 4
  match firstReason (xs.filterMap fun x => match x with
    | .error e => some e
    | .ok _ => none) with
  | some e => .error e
  | none =>
    let ys := xs.filterMap Except.toOption
    .ok (ys.map fun y => y.2.1.headD 0, ys.map fun y => (y.1, y.2.2))

/-- An indivisible operation on words of an export (R104). A device register is read and not changed (log entry 5). -/
def State.serveWords (s : State) (r : RemoteReq) (rd : Bool) (ts : List Nat) (f : List Word → Option (List Word)) : Served :=
  match s.farWords r rd ts with
  | .error e => s.farBad r e
  | .ok (ks, xs) =>
    let s := xs.foldl (fun s x => s.rememberAll x.1 x.2) s
    if ks.any isReg then .done s (.data (ks.map fun k => word (leNat (s.regLoad [k, k + 1, k + 2, k + 3])))) s.dtime false
    else
      let q := s.atHome conservator 0 ks f
      .done q.s (.data q.old) q.at' false

/-- A posted store at its target (R133). -/
def State.serveStore (s : State) (r : RemoteReq) (bs : List Byte) : Served :=
  match s.farKeys r false true r.off bs.length with
  | .error e => s.farBad r e
  | .ok (c, ks, xs) =>
    let s := s.rememberAll c xs
    if ks.any isReg then .done (s.regStoreBytes ks bs) (.data []) s.dtime false
    else
      let q := (byLine (ks.zip bs)).foldl (fun (q : State × Nat) l =>
        let z := q.1.homeStore l.1 l.2 conservator []
        (z.1, max q.2 z.2)) (s, s.dtime)
      .done (q.1.touchAll ks) (.data []) q.2 false

/-- The keys of elements of a list as an ENQ finds them, with their translations, or what it answers. -/
def State.listWords (s : State) (r : RemoteReq) (sh : Shape) (is : List Nat) :
    Except Served (List Nat × List (Nat × List (Nat × Xlate))) :=
  match is.find? fun i => (shapeAt sh i).isNone with
  | some i => .error (.done s (.outside i) s.dtime false)
  | none =>
    match s.farWords r true (is.filterMap (shapeAt sh)) with
    | .error e => .error (s.farBad r e)
    | .ok (ks, xs) =>
      match (is.zip ks).find? fun p => p.2 % 4 ≠ 0 with
      | some p => .error (.done s (.misaligned p.1) s.dtime false)
      | none => .ok (ks, xs)

/-- ENQ at its target (R158). A device register is read and not changed (log entry 5). -/
def State.serveEnq (s : State) (r : RemoteReq) (sh : Shape) (h n : Nat) : Served :=
  match s.listWords r sh [h, h + 1, n] with
  | .error e => e
  | .ok (ks, xs) =>
      let s := xs.foldl (fun s x => s.rememberAll x.1 x.2) s
      let s := (s.recallLines ((ks.map lineOf).eraseDups)).1
      let kh := ks.getD 0 0
      let kt := ks.getD 1 0
      let kn := ks.getD 2 0
      let tail := (s.wordAtHome kt).toNat
      if sh.extent ≤ tail then .done s (.bounds tail) s.dtime false
      else if tail = 0 then
        let q := s.writeHome conservator 0 (enqWords kn kh kt n)
        .done q.s (.data [0]) q.at' false
      else
        match s.listWords r sh [tail] with
        | .error e => e
        | .ok (ls, ys) =>
          let s := ys.foldl (fun s x => s.rememberAll x.1 x.2) s
          let q := s.writeHome conservator 0 (enqWords kn (ls.headD 0) kt n)
          .done q.s (.data [word tail]) q.at' false

/-- Perform a request at the conservator. -/
def State.serve (s : State) (r : RemoteReq) : Served :=
  match r.op with
  | .load n => s.serveLoad r n false
  | .ldsum _ => s.serveSum r
  | .store bs => s.serveStore r bs
  | .red op f v => s.serveWords r false [r.off] fun old => some (old.map fun x => atomOp op f x v)
  | .atom op f v => s.serveWords r true [r.off] fun old => some (old.map fun x => atomOp op f x v)
  | .cas c n => s.serveWords r true [r.off] (casWrite [c] [n])
  | .cas2 c0 c1 n0 n1 => s.serveWords r true [r.off, r.off + 4] (casWrite [c0, c1] [n0, n1])
  | .mcas ts c n => s.serveWords r true ts (casWrite c n)
  | .enq sh h n => s.serveEnq r sh h n
  | .chase sh i k c roe => s.serveChase r sh i k c roe

/-- A read may be performed again (R151). -/
def opRepeatable : RemoteOp → Bool
  | .load _ => true
  | .ldsum _ => true
  | .chase _ _ _ _ _ => true
  | _ => false

/-! ## At the target (R133, R151) -/

/-- Answer a request (R402: to the module itself, if it is its own). -/
def State.respond (s : State) (r : RemoteReq) (res : RemoteRes) (roe : Bool) : State :=
  if r.src = s.regs.peerid then s.due (.remoteResponse r.tag res roe) else s.onFabric (.response r.src r.tag res roe)
/-- Acknowledge a posted operation. -/
def State.acknowledge (s : State) (r : RemoteReq) (res : RemoteRes) : State :=
  if r.src = s.regs.peerid then s.due (.postedAck r.tag res) else s.onFabric (.ack r.src r.tag res)
/-- Keep a result. -/
def State.keep (s : State) (src tag : Nat) (x : Replay) : State := { s with replay := KMap.put (replayKey src tag) x s.replay }
/-- A result that poisons or reports a check has had no effect. -/
def resPerformed : RemoteRes → Bool
  | .data _ => true
  | _ => false

/-- A kept result has passed the 4,096 ns, which are 5,120 ticks, for which it is kept, and its first answer has been sent (R151). -/
def State.outlived (s : State) (x : Replay) : Bool := !x.owed && x.tick + 5120 ≤ s.dtime

/-- REMOTE_REQUEST_ARRIVAL (R151, R374): a repeated atomic is answered from its kept result, or as unknown once that has been
dropped; an answer is sent when DTIME exceeds the WCT. -/
def execRemoteRequestArrival (r : RemoteReq) (s : State) : Out :=
  if !s.regs.serves then .next s
  else if opRepeatable r.op then
    match s.serve r with
    | .again s r => .next (s.due (.remoteRequestArrival r))
    | .done s res _ roe => .next (s.respond r res roe)
  else
    match KMap.get? (replayKey r.src r.tag) s.replay with
    | some ⟨none, _, _⟩ => .next (s.respond r .unknown false)
    | some ⟨some res, tick, owed⟩ =>
      .next (if s.outlived ⟨some res, tick, owed⟩ then s.respond r .unknown false
        else if tick < s.dtime then (s.keep r.src r.tag ⟨some res, tick, false⟩).respond r res false
        else s.due (.remoteRequestArrival r))
    | none =>
      match s.serve r with
      | .again s r => .next (s.due (.remoteRequestArrival r))
      | .done s res tick _ =>
        if resPerformed res then .next ((s.keep r.src r.tag ⟨some res, tick, true⟩).due (.remoteRequestArrival r))
        else .next (s.respond r res false)

/-- REMOTE_POSTED_STORE (R133): performed, and acknowledged when DTIME exceeds its WCT. -/
def execRemotePostedStore (r : RemoteReq) (s : State) : Out :=
  if !s.regs.serves then .next s
  else
    match KMap.get? (replayKey r.src r.tag) s.replay with
    | some ⟨some res, tick, _⟩ =>
      .next (if tick < s.dtime then { s with replay := KMap.del (replayKey r.src r.tag) s.replay }.acknowledge r res
        else s.due (.remotePostedStore r))
    | _ =>
      match s.serve r with
      | .again s r => .next (s.due (.remotePostedStore r))
      | .done s res tick _ =>
        if resPerformed res then .next ((s.keep r.src r.tag ⟨some res, tick, true⟩).due (.remotePostedStore r))
        else .next (s.acknowledge r res)

/-- REPLAY_RESULT_EXPIRE (R151). -/
def execReplayResultExpire (src tag : Nat) (s : State) : Out :=
  match KMap.get? (replayKey src tag) s.replay with
  | some x => .next (if s.outlived x then s.keep src tag { x with res := none } else s)
  | none => .next s

/-! ## At the source (R131, R135, R136, R148, R149) -/

/-- The request that a thread stalls on. -/
def OutReq.stalls (o : OutReq) (a t : Nat) : Bool := o.accn == a && o.tid == t && !o.posted && o.async.isNone && o.eng.isNone

/-- A thread held for the fabric looks at its word again, unless it stalls on a request of its own. -/
def State.wakeRemote (s : State) (a t : Nat) : State :=
  if (KMap.vals s.outs).any fun o => o.stalls a t then s else s.wakeThread a t .remote

/-- Retire the .ASYNC operations of a thread that have been answered, in issue order (R131, R149). -/
def State.retireAsync (a t : Nat) : Nat → State → State
  | 0, s => s
  | n + 1, s =>
    match s.outs.find? fun p => p.2.accn = a && p.2.tid = t && p.2.async.isSome with
    | none => s
    | some (tag, o) =>
      match o.back with
      | none => s
      | some res =>
        let s := { s with outs := KMap.del tag s.outs }
        let order := ((s.thread? a t).map fun th => th.issued.getD 3 0 - th.counter 3 + 1).getD 0
        let s := match resFault res with
          | some (c, rs) => s.recordEng a t 3 c o.va rs order
          | none => s
        State.retireAsync a t n (s.retired a t 3)

/-- The words that an .ASYNC response writes. -/
def asyncValue (f n : Nat) (ws : List Word) : List Word :=
  let bs := bytesOfWords n ws
  if f = 16 + fmtN32 then [word (leNat bs)] else fmtLoad (f % 32) (f / 32) bs

/-- An operation with acquire order is over (R122): what comes after it in its thread sees nothing older. -/
def State.acquired (s : State) (o : OutReq) : State := if o.acq then s.acquire o.accn 5 else s

/-- A response has come for an outstanding request (R148, R149). -/
def State.answerReq (s : State) (tag : Nat) (o : OutReq) (res : RemoteRes) : State :=
  match o.eng, o.async with
  | some (id, key), _ => { s.updEng id (fun e => { e with got := KMap.put key res e.got }) with outs := KMap.del tag s.outs }
  | none, some (d, wide, f) =>
    if o.back.isSome then s
    else
      let s := { s with outs := KMap.put tag { o with back := some res } s.outs }
      let s := match res with
        | .data ws => s.updThread o.accn o.tid fun th => th.setRegs d ((asyncValue f o.bytes ws).take wide)
        | _ => s
      ((State.retireAsync o.accn o.tid s.outs.length s).acquired o).wakeRemote o.accn o.tid
  | none, none =>
    let s := { s with outs := KMap.del tag s.outs }
    s.updThread o.accn o.tid fun th => { th.wake with answer := some res }

/-- The operations that one request serves, posted or not. -/
def State.served (s : State) (tag : Nat) (posted : Bool) : List (Nat × OutReq) :=
  s.outs.filter fun p => p.2.req.tag == tag && p.2.posted == posted
/-- The part of a response that an operation has asked for (R126). -/
def OutReq.share (o : OutReq) (res : RemoteRes) : RemoteRes :=
  match res with
  | .data ws => .data (ws.drop (o.part / 4))
  | r => r

/-- A request has had no response, or a posted operation no acknowledgement, for 8,192 ns, which are 10,240 ticks (R151). -/
def State.lateReq (s : State) (posted : Bool) (o : OutReq) : Bool := o.posted == posted && o.back.isNone && o.sent + 10240 ≤ s.dtime

/-- REMOTE_RESPONSE (R148); one that comes 8,192 ns after the send comes too late (R151). Lines of an ROE page are not kept (R375
allows it). -/
def execRemoteResponse (tag : Nat) (res : RemoteRes) (_roe : Bool) (s : State) : Out :=
  .next ((s.served tag false).foldl (fun s p => s.answerReq p.1 p.2 (if s.lateReq false p.2 then .unknown else p.2.share res)) s)

/-- A faulting posted operation in its thread's record (R136). -/
def Thread.notePosted (th : Thread) (cause reason va order : Nat) : Thread :=
  match th.posted with
  | none => { th with posted := some ⟨cause, reason, 0, va, order⟩ }
  | some p =>
    if order < p.order then { th with posted := some ⟨cause, reason, p.count + 1, va, order⟩ }
    else { th with posted := some { p with count := p.count + 1 } }

/-- A posted operation is over (R133, R136). -/
def State.acked (s : State) (tag : Nat) (o : OutReq) (res : RemoteRes) : State :=
  let s := { s with outs := KMap.del tag s.outs }
  let s := match o.eng, resFault res with
    | some (id, key), _ => s.updEng id fun e => { e with got := KMap.put key res e.got }
    | none, some (c, rs) => s.updThread o.accn o.tid fun th => th.notePosted c rs o.va o.order
    | none, none => s
  (s.acquired o).wakeRemote o.accn o.tid

/-- POSTED_ACK (R133); one that comes 8,192 ns after the send comes too late (R151). -/
def execPostedAck (tag : Nat) (res : RemoteRes) (s : State) : Out :=
  .next ((s.served tag true).foldl (fun s p => s.acked p.1 p.2 (if s.lateReq true p.2 then .unknown else res)) s)

/-- A request is due to be sent again (R151): 1,000 ns are 1,250 ticks. -/
def State.retryReady (s : State) (o : OutReq) : Bool :=
  !o.posted && o.back.isNone && o.resends < 3 && o.sent + 1250 * (o.resends + 1) ≤ s.dtime

/-- REMOTE_RETRY (R151): the request is sent again for all the threads that it serves. -/
def execRemoteRetry (tag : Nat) (s : State) : Out :=
  match KMap.get? tag s.outs with
  | some o =>
    if s.retryReady o then
      .next ({ s with outs := KMap.mapAll (fun (x : OutReq) =>
          if x.req.tag = o.req.tag ∧ x.posted = false then { x with resends := o.resends + 1 } else x) s.outs }.transmit o.peer false o.path o.req)
    else .next s
  | none => .next s

/-- REMOTE_TIMEOUT (R151). -/
def execRemoteTimeout (tag : Nat) (s : State) : Out :=
  match KMap.get? tag s.outs with
  | some o => .next (if s.lateReq false o then s.answerReq tag o .unknown else s)
  | none => .next s

/-- POSTED_STORE_TIMEOUT (R151). -/
def execPostedStoreTimeout (tag : Nat) (s : State) : Out :=
  match KMap.get? tag s.outs with
  | some o => .next (if s.lateReq true o then s.acked tag o .unknown else s)
  | none => .next s

/-! ## Ports (R378 to R380) -/

/-- Change a port. -/
def State.updPort (s : State) (p : Nat) (f : Port → Port) : State :=
  { s with ports := KMap.put p (f (KMap.getD p Port.empty s.ports)) s.ports }

/-- Channels that run in integrity-only mode (R380): asked for at both ends in one enclosure; never channel 7. -/
def State.modesAt (s : State) (p : Nat) : Nat :=
  if s.regs.encl = 0 then 0 else s.regs.vcmode.toNat % 128 &&& Config.farModes s.free p % 128

/-- KEY_SWITCH_MARKER (R378, R380): a marker that port `p` receives changes the slot of the receiver; `24 + p` is the marker that port
`p` sends, which goes under the old slot, and what follows under the other (log entry 96). Mode changes take effect. -/
def execKeySwitchMarker (p : Nat) (s : State) : Out :=
  if p < 24 then .next (s.updPort p fun x => { x with rslot := 1 - x.rslot, modes := s.modesAt p }).drew
  else
    let q := p - 24
    .next (s.updPort q fun x => { x.sends 1 with slot := 1 - x.slot, modes := s.modesAt q }).drew

/-- KEY_SLOT_LOAD (R378): a new key, with a count of its own. -/
def execKeySlotLoad (p slot key : Nat) (s : State) : Out :=
  .next (s.updPort p fun x =>
    if slot = 0 then { x with key0 := some key, count0 := 0 } else { x with key1 := some key, count1 := 0 })

/-- FLIT_AUTH_FAILURE (R379): the flit is sent again; after its third failure the link is down. Whether it is the flit that
failed last is free. -/
def execFlitAuthFailure (p : Nat) (s : State) : Out :=
  .next (s.updPort p fun x =>
    let n := if Config.sameFlit s.free then x.failures + 1 else 1
    if 3 ≤ n then { x with up := false, failures := 0 } else { x with failures := n }).drew

/-- The flits of a slot have reached 2^48, by the marker under the old one as well. -/
def Port.exhausted (x : Port) : Bool := x.up && (2 ^ 48 ≤ x.count0 || 2 ^ 48 ≤ x.count1)

/-- NONCE_COUNT_EXHAUSTED (R378): a slot whose count reaches 2^48 takes the link down. -/
def execNonceCountExhausted (p : Nat) (s : State) : Out :=
  .next (s.updPort p fun x => if x.exhausted then { x with up := false } else x)

end Sys2Proof.Machine
end

