-- ==== Sys2Proof/Machine/Packet.lean ====
section
/-!
DEFINITION. Packets, chains and the prefix (R47 to R54, R59 to R62): what the words of a chain read and write, the decode
faults of a chain, and the word of a repeat.
-/

namespace Sys2Proof.Machine

/-! ## What a word names (R51 case 3) -/

/-- V(n), P(n) and S(n) as one kind of number. Tiles and convergence registers are named by matrix words only, which
share a pipe, so case 2 catches what they would. -/
def uV (n : Nat) : List Nat := [n]
/-- P(n). -/
def uP (n : Nat) : List Nat := [100 + n]
/-- S(n). -/
def uS (n : Nat) : List Nat := [200 + n]
/-- A scalar source code; a constant names no register. -/
def uC (c : BitVec 8) : List Nat := if c.toNat ≤ 159 then [200 + c.toNat] else []
/-- The eight registers of a record slot. -/
def uR (k : BitVec 5) : List Nat := (List.range 8).map fun i => 200 + 8 * k.toNat + i
/-- B of an SB word. -/
def uB (sb : Bool) (b : BitVec 6) : List Nat := if sb then uS b.toNat else uV b.toNat
/-- Consecutive V registers. -/
def uVs (d n : Nat) : List Nat := (List.range n).map (d + ·)
/-- A, B of an SB word. -/
def uBin (o : Bin) : List Nat := uV o.a.toNat ++ uB o.sb o.b

/-- The data registers of a load or store: a pair where the record slot holds an 8-byte format (R140), as the S registers
stand before the chain. -/
def uData (sr : Nat → Word) (k : BitVec 5) (d : Nat) (u : Bool) : List Nat :=
  uVs d (if fmtPair (wbits (sr (200 + 8 * k.toNat + 6)) 0 4) && !u then 2 else 1)
/-- The result predicate that the lane-control word in S(B) names (R213). -/
def uRp (sr : Nat → Word) (b : BitVec 6) : List Nat := uP (laneRp (sr (200 + b.toNat)))

/-- The eight registers of a record slot that a descriptor names; a number above 19 names none. -/
def uSlot (k : Nat) : List Nat := if k ≤ 19 then (List.range 8).map fun i => 200 + 8 * k + i else []
/-- The record slots that the descriptor in V(D + 1) of an engine word names (R160). -/
def uDesc (sr : Nat → Word) (d : Nat) (lst : Bool) : List Nat :=
  uSlot (descSrc (sr (d + 1))) ++ if lst then uSlot (descLst (sr (d + 1))) else []
/-- A record slot that MBIND copies, and the slot of its scale record, where it has one (R249). -/
def uBound (sr : Nat → Word) (k : Nat) : List Nat :=
  let w := sr (200 + 8 * k + 6)
  uSlot k ++ if k ≤ 19 ∧ wbits w 29 1 = 1 then uSlot (wbits w 24 5) else []

/-- Registers that a word reads, without its guard; a destination that it also reads counts as written. `sr` gives the V and S
registers, numbered as here, as they stand before the chain. -/
def reads (sr : Nat → Word) : Instr → List Nat
  | .ret _ a | .brx _ a => uVs a.toNat 2
  | .iadd o | .isub o | .imul o | .imulhS32 o | .imulhN32 o | .imad o | .lea o | .and o | .or o | .xor o | .andn o | .shl o
  | .shr o | .sar o | .rotl o | .bfi o | .fmin o | .fmax o | .badd2 o | .bmul2 o | .bfma2 o => uBin o
  | .imin o | .imax o | .bfx o => uV o.a.toNat ++ uB o.sb o.b
  | .fadd o | .fsub o | .fmul o | .ffma o | .fdiv o => uV o.a.toNat ++ uB o.sb o.b
  | .iabs o | .ineg o | .mov o | .not o | .popc o | .clz o | .brev o | .fex2 o | .flg2 o | .fsin o | .fcos o => uV o.a.toNat
  | .pnot o | .pmov o => uP o.a.toNat
  | .fsqrt o | .frcp o | .frsq o | .frnd o => uV o.a.toNat
  | .iaddImm o | .andImm o | .orImm o | .xorImm o => uV o.a.toNat
  | .shlImm o | .shrImm o | .sarImm o | .rotlImm o => uV o.a.toNat
  | .icmp o | .fcmp o => uV o.a.toNat ++ uV o.b.toNat
  | .sel o => uV o.a.toNat ++ uB o.sb o.b ++ uP o.p.toNat
  | .pand o | .por o | .pxor o => uP o.a.toNat ++ uP o.b.toNat
  | .sadd o | .ssub o | .smul o | .scmp o | .smin o | .smax o | .sand o | .sor o | .sxor o | .sshl o | .sshr o | .ssar o =>
    uC o.a ++ uC o.b
  | .fcvt o => uVs o.a.toNat (if cvtPairSrc o.p.toNat then 2 else 1)
  | .perm o => uV o.a.toNat ++ uS o.b.toNat
  | .bcast o => uV o.a.toNat ++ uS o.b.toNat ++ (if o.f = 2 then uS (o.b.toNat + 1) else [])
  | .laneq o => uS o.b.toNat
  | .vote o => uP o.a.toNat ++ uS o.b.toNat
  | .lred o | .lscan o => uV o.a.toNat ++ uS o.b.toNat
  | .ld o | .ldp o => uR o.k ++ uV o.off.toNat
  | .st o | .stp o => uR o.k ++ uV o.off.toNat ++ uData sr o.k o.d.toNat o.u
  | .lds o => uR o.k ++ uV o.off.toNat
  | .sts o => uR o.k ++ uV o.off.toNat ++ uData sr o.k o.d.toNat o.u
  | .atom o | .red o => uR o.k ++ uV o.off.toNat ++ uV o.d.toNat
  | .cas o => uR o.k ++ uV o.off.toNat ++ uVs o.d.toNat 2
  | .cas2 o => uR o.k ++ uV o.off.toNat ++ uVs o.d.toNat 4
  | .mcas o => uR o.k ++ uVs o.off.toNat 4 ++ uVs o.d.toNat 8
  | .ldsum o => uR o.k ++ uV o.off.toNat
  | .enq o => uR o.k ++ uV o.off.toNat ++ uV o.d.toNat
  | .chase o => uR o.k ++ uV o.off.toNat ++ uVs o.d.toNat 2
  | .cpy o => uR o.k ++ uV o.off.toNat ++ uVs o.d.toNat 2 ++ uDesc sr o.d.toNat false
  | .gath o | .scat o => uR o.k ++ uV o.off.toNat ++ uVs o.d.toNat 2 ++ uDesc sr o.d.toNat true
  | .flush o | .invl o => uR o.k ++ uV o.off.toNat
  | .pf o => uR o.k ++ uV o.off.toNat
  | .waitln o => uR o.k ++ uV o.off.toNat ++ uV o.d.toNat
  | .mma o | .mrp o | .mld o | .mst o => uV o.i.toNat ++ uV o.f.toNat
  | .mxp o | .mrr o | .madd o => uV o.f.toNat
  | .mbind o =>
    let w := sr (200 + o.a.toNat)
    ((List.range 3).map fun i => 200 + o.a.toNat + i) ++
      (if wbits w 31 1 = 1 then [] else uBound sr (wbits w 8 5) ++ uBound sr (wbits w 13 5))
  | .mfill o => if o.k = 2 then uS (2 * o.m.toNat) ++ uS (2 * o.m.toNat + 1) else []
  | .optab o => uS o.a.toNat
  | .cbld o => uR o.k ++ uS o.a.toNat ++ uS o.b.toNat
  | .scld o => uR o.k ++ uS o.a.toNat
  | _ => []

/-- Registers that a word writes; a write to P0 is discarded (R21). -/
def writes (sr : Nat → Word) : Instr → List Nat
  | .sysrd o => if o.k then uS o.d.toNat else uV o.d.toNat
  | .call _ _ => uVs 30 2
  | .iadd o | .isub o | .imul o | .imulhS32 o | .imulhN32 o | .imad o | .lea o | .and o | .or o | .xor o | .andn o | .shl o
  | .shr o | .sar o | .rotl o | .bfi o | .fmin o | .fmax o | .badd2 o | .bmul2 o | .bfma2 o => uV o.d.toNat
  | .imin o | .imax o | .bfx o => uV o.d.toNat
  | .fadd o | .fsub o | .fmul o | .ffma o | .fdiv o => uV o.d.toNat
  | .iabs o | .ineg o | .mov o | .not o | .popc o | .clz o | .brev o | .fex2 o | .flg2 o | .fsin o | .fcos o => uV o.d.toNat
  | .pnot o | .pmov o => uP o.d.toNat
  | .fsqrt o | .frcp o | .frsq o | .frnd o => uV o.d.toNat
  | .iaddImm o | .andImm o | .orImm o | .xorImm o => uV o.d.toNat
  | .shlImm o | .shrImm o | .sarImm o | .rotlImm o => uV o.d.toNat
  | .movi o => uV o.d.toNat
  | .icmp o | .fcmp o => uP o.t.toNat ++ uP o.f.toNat
  | .sel o => uV o.d.toNat
  | .pand o | .por o | .pxor o => uP o.d.toNat
  | .sadd o | .ssub o | .smul o | .scmp o | .smin o | .smax o | .sand o | .sor o | .sxor o | .sshl o | .sshr o | .ssar o => uC o.d
  | .smovi o | .smovh o => uC o.d
  | .fcvt o => uVs o.d.toNat (if cvtPairDst o.p.toNat then 2 else 1)
  | .perm o | .bcast o | .vote o => uV o.d.toNat ++ uRp sr o.b
  | .laneq o => uV o.d.toNat ++ uRp sr o.b
  | .rng o => uVs o.d.toNat (if o.f = 2 then 2 else 1)
  | .lred o | .lscan o => uV o.d.toNat ++ uRp sr o.b
  | .ld o | .ldp o => uData sr o.k o.d.toNat o.u
  | .lds o => uData sr o.k o.d.toNat o.u
  | .atom o => uV o.d.toNat
  | .cas o => uV o.d.toNat ++ uP o.x.toNat
  | .cas2 o => uVs o.d.toNat 2
  | .mcas o => uVs o.d.toNat 4
  | .ldsum o => uV o.d.toNat
  | .enq o => uV o.d.toNat
  | .chase o => uVs o.d.toNat 2
  | .waitln o => uV o.d.toNat
  | .mbind o => uS o.b.toNat
  | .mqry o => uS o.d.toNat
  | _ => []

/-- The pipes of R62: V 0, SF 1, M 2, SC 3, MX 4; REP has none. -/
def pipeOf (maj : Nat) : Option Nat :=
  if maj ≤ 0x02 ∨ (0x11 ≤ maj ∧ maj ≤ 0x18) ∨ maj = 0x3A ∨ maj = 0x3C then some 3
  else if maj = 0x03 then none
  else if maj = 0x1D ∨ maj = 0x1F ∨ maj = 0x23 then some 1
  else if maj ≤ 0x26 then some 0
  else if maj ≤ 0x34 ∨ maj = 0x3B then some 2
  else if maj ≤ 0x39 then some 4
  else none

/-- The major has a G field (R55). -/
def hasGuard (maj : Nat) : Bool := maj ≤ 0x10 && maj ≠ 0x03 || (0x19 ≤ maj && maj ≤ 0x34) || (0x39 ≤ maj && maj ≤ 0x3C)

/-- Registers that a word reads, with its guard. -/
def readsOf (sr : Nat → Word) (w : Word) : List Nat :=
  ((decodeForm w).map (reads sr)).getD [] ++ (if hasGuard (fMaj w) && fG w ≠ 0 then uP (fG w).toNat else [])
/-- Registers that a word writes. -/
def writesOf (sr : Nat → Word) (w : Word) : List Nat := (((decodeForm w).map (writes sr)).getD []).filter (· ≠ 100)

/-- An earlier and a later word of one chain break case 2 or 3 of R51. -/
def clash (sr : Nat → Word) (e l : Word) : Bool :=
  (pipeOf (fMaj e)).isSome && pipeOf (fMaj e) == pipeOf (fMaj l) ||
    (writesOf sr e).any fun x => (readsOf sr l).contains x || (writesOf sr l).contains x

/-! ## The prefix (R59) -/

/-- Majors whose REP column reads "yes" (R62). -/
def repMajor (maj : Nat) : Bool := (0x04 ≤ maj && maj ≤ 0x23) || (0x27 ≤ maj && maj ≤ 0x2C)

/-- A field that a prefix may step: its lowest bit, its width, and the greatest legal code (R57). -/
structure StepField where
  lo : Nat
  width : Nat
  top : Nat
  deriving DecidableEq, Repr

/-- The fields D, A and B of a major's format; none where the format has no such field (R55). -/
def stepFields (maj : Nat) : Option StepField × Option StepField × Option StepField :=
  if 0x06 ≤ maj ∧ maj ≤ 0x0B then (some ⟨16, 6, 63⟩, some ⟨10, 6, 63⟩, none)
  else if 0x11 ≤ maj ∧ maj ≤ 0x16 then (some ⟨17, 8, 159⟩, some ⟨9, 8, 159⟩, some ⟨1, 8, 159⟩)
  else if maj = 0x17 ∨ maj = 0x18 then (some ⟨17, 8, 159⟩, none, none)
  else if 0x27 ≤ maj then (some ⟨16, 6, 63⟩, some ⟨10, 6, 63⟩, some ⟨5, 5, 19⟩)
  else (some ⟨16, 6, 63⟩, some ⟨10, 6, 63⟩, some ⟨4, 6, 63⟩)

/-- The word uses no A: MOVI (R72). -/
def lacksA (w : Word) : Bool := fMaj w == 0x0B
/-- The word of a VR major uses no B: the one-source words (R71, R74, R78). A function code that stands in B is a field that may be
stepped (R55, R60). -/
def lacksB (w : Word) : Bool :=
  (fMaj w == 0x05 && 4 ≤ bitsOf w 0 3 && bitsOf w 0 3 ≤ 6) || (fMaj w == 0x0C && 4 ≤ bitsOf w 0 3) ||
    (fMaj w == 0x10 && 3 ≤ bitsOf w 0 4 && bitsOf w 0 4 ≤ 4)

/-- A field may be stepped: it is there, and holds no scalar constant code. -/
def mayStep (w : Word) : Option StepField → Bool
  | none => false
  | some f => !(f.width == 8 && 192 ≤ bitsOf w f.lo f.width)

/-- SSEL of a REP word selects D, A, B. -/
def repD (r : Word) : Bool := bitsOf r 18 1 == 1
/-- SSEL bit 17. -/
def repA (r : Word) : Bool := bitsOf r 17 1 == 1
/-- SSEL bit 16. -/
def repB (r : Word) : Bool := bitsOf r 16 1 == 1

/-- A REP word and the word after it break R59. -/
def prefixBad (r : Word) : Option Word → Bool
  | none => true
  | some w =>
    let f := stepFields (fMaj w)
    !repMajor (fMaj w) || (repD r && !mayStep w f.1) || (repA r && (!mayStep w f.2.1 || lacksA w)) ||
      (repB r && (!mayStep w f.2.2 || lacksB w))

/-- Step one field by `n`; none where it leaves its legal range. -/
def stepField (w : Word) (n : Nat) : Option StepField → Option Word
  | none => some w
  | some f => if n = 0 then some w else if bitsOf w f.lo f.width + n ≤ f.top then some (w + BitVec.ofNat 32 (n * 2 ^ f.lo)) else none

/-- Step D: both predicate subfields of ICMP and FCMP (R70); a predicate code of major 0x10 ends at 7. -/
def stepD (w : Word) (n : Nat) : Option Word :=
  let m := fMaj w
  if m = 0x0E ∨ m = 0x20 then
    if n ≠ 0 ∧ (7 < bitsOf w 16 3 + n ∨ 7 < bitsOf w 19 3 + n) then none else some (w + BitVec.ofNat 32 (n * 2 ^ 16 + n * 2 ^ 19))
  else stepField w n (stepFields m).1

/-- The word of a repeat (R60); none where a field leaves its range. -/
def repWord (w : Word) (r : Rep) : Option Word :=
  let f := stepFields (fMaj w)
  ((stepD w (r.idx * r.sd)).bind fun w => stepField w (r.idx * r.sa) f.2.1).bind fun w => stepField w (r.idx * r.sb) f.2.2

/-! ## Decode faults of a chain (R54) -/

/-- A decode fault: what, and the address of the faulting word. -/
structure BadWord where
  f : DecodeFault
  addr : Nat
  deriving DecidableEq, Repr

/-- The place of a check in the order of R54. -/
def faultRank : DecodeFault → Nat
  | .illegalInstruction => 1
  | .illegalPrefix => 2
  | .illegalChain => 3
  | .guardMisuse => 4
  | .illegalOperand => 5

/-- The fault of a word by itself. -/
def ownFault (w : Word) : Option DecodeFault :=
  match decode w with
  | .ok _ => none
  | .error f => some f

/-- The first of two faults in the order of R54. -/
def firstFault : Option DecodeFault → Option DecodeFault → Option DecodeFault
  | none, g => g
  | f, none => f
  | some f, some g => if faultRank f ≤ faultRank g then some f else some g

/-- A fault if a condition holds. -/
def faultIf (b : Bool) (f : DecodeFault) : Option DecodeFault := if b then some f else none

/-- Words that may not be chained from the word before them (R51 cases 5 and 6). -/
def noChainIn (w : Word) : Bool := (fMaj w == 0x00 && fX w == 5) || fMaj w == 0x03 || (0x3A ≤ fMaj w && fMaj w ≤ 0x3C)

/-- The fault of one word of a chain: `early` the words of the chain before it, `next` the word after it in its packet,
`slot` its slot. An illegal prefix of R59 is a fault of the REP word (DEDUCED, log entry 15). -/
def wordFault (sr : Nat → Word) (early : List Word) (w : Word) (next : Option Word) (slot : Nat) : Option DecodeFault :=
  let own := ownFault w
  let pre := faultIf (fMaj w == 0x03 && prefixBad w next) .illegalPrefix
  let chain := faultIf ((slot == 2 && fC w) || (!early.isEmpty && noChainIn w) || early.any fun e => clash sr e w) .illegalChain
  firstFault own (firstFault pre chain)

/-- The first fault of the chain that starts with a word: `ws` the words of the packet from there on, `pc` the address of the
first of them. A prefixed word belongs to its prefix and is chained to nothing (R51 case 6). -/
def chainFault (sr : Nat → Word) (early : List Word) (slot pc : Nat) : List Word → Option BadWord
  | [] => none
  | w :: ws =>
    match wordFault sr early w ws.head? slot with
    | some f => some ⟨f, pc⟩
    | none =>
      if fMaj w = 0x03 then
        match ws with
        | [] => none
        | v :: _ => (firstFault (ownFault v) (faultIf (fC v) .illegalChain)).map fun f => ⟨f, pc + 4⟩
      else if fC w then chainFault sr (early ++ [w]) (slot + 1) (pc + 4) ws
      else none

/-- The decode fault of a thread that stands at a word of a packet and is not in a repeat: entering a prefixed word (R61), or
a fault of the rest of its chain. -/
def enterFault (sr : Nat → Word) (pkt : List Word) (slot pc : Nat) : Option BadWord :=
  if slot ≠ 0 ∧ ((pkt[slot - 1]?).map fMaj = some 0x03) then
    match ownFault (pkt.getD slot 0) with
    | some .illegalInstruction => some ⟨.illegalInstruction, pc⟩
    | _ => some ⟨.illegalPrefix, pc⟩
  else chainFault sr [] slot pc (pkt.drop slot)

/-- The V and S registers of a thread by the numbers of `reads`. -/
def Task.chainRegs (tk : Task) (th : Thread) (n : Nat) : Word := if n < 200 then th.reg n else tk.sreg (n - 200)

end Sys2Proof.Machine
end

