-- ==== Sys2Proof/Machine/Sched.lean ====
section
/-!
DEFINITION. What moves next: the events that the hardware may carry out, the threads of a squad that may issue (R68, R69,
R295, R300), the fetch of a packet (R47, R48), and what happens when a word or an event is over: the rest of its chain, or
the instruction boundary (R50 to R53), the passing of time and the waits of the watchdog (R304).
-/

namespace Sys2Proof.Machine

/-! ## Events that may happen -/

/-- One entry of a list for each key of a condition that holds. -/
def forEach {α : Type} (xs : List α) (p : α → Bool) (f : α → Instr) : List Instr := (xs.filter p).map f

/-- Some resident revocable task is dominated and not yet told to stop, or is to be wounded, which cancellation goes before (R290,
R308); not in a deterministic launch (R274). -/
def State.anyDominated (s : State) : Bool :=
  s.tasks.any fun p => p.2.resident && (p.2.stop.all fun st => st.kind == .wound) && !s.isDet p.2 && s.dominatedNow p.2

/-- A scan of a cluster's queues would remove a record, or has still to be made after a cancellation (R308). -/
def State.scanUseful (s : State) (k : Nat) : Bool :=
  (s.tasks.any fun p => p.2.phase == .queued && p.2.cluster == k && s.scanHit p.2) ||
    s.ctxs.any fun c => c.2.region.contains k && c.2.cancelled.any fun x => x.2 / 2 ^ k % 2 == 0

/-- The clusters whose queues hold a record. -/
def State.queues (s : State) : List Nat :=
  (s.tasks.filterMap fun p => if p.2.phase = .queued then some p.2.cluster else none).eraseDups
/-- The clusters of a context that has cancelled a task lately, and those with a queue. -/
def State.scanned' (s : State) : List Nat :=
  (s.queues ++ s.ctxs.flatMap fun c => if c.2.cancelled.isEmpty then [] else c.2.region).eraseDups

/-- Every thread of every task: task, thread. -/
def State.allThreads (s : State) : List (Nat × Nat × Task × Thread) :=
  s.tasks.flatMap fun p => p.2.threads.map fun q => (p.1, q.1, p.2, q.2)

/-- The drawer of a core that gives a squad next: the eligible one whose oldest thread was filed first (R295); of two whose oldest threads
were filed in one tick, the first by task and TID (DESIGN CHOICE, log entry 117). -/
def State.nextDrawer (s : State) (c : Nat) : Option (Nat × Nat) :=
  let age (d : Nat × Nat) : Nat := ((s.task? d.1).map fun tk => (tk.drawer c d.2).foldl (fun m p => min m p.1) s.dtime).getD 0
  ((s.drawers c).filter fun d => s.drawReady c d.1 d.2).foldl (fun b d =>
    match b with
    | none => some d
    | some e => if age d < age e then some d else some e) none

/-- Events of the fabric that have a tick of their own (R151, R378). -/
def State.farUrgent (s : State) : List Instr :=
  forEach s.outs (fun p => s.retryReady p.2) (fun p => .remoteRetry p.1) ++
  forEach s.outs (fun p => s.lateReq false p.2) (fun p => .remoteTimeout p.1) ++
  forEach s.outs (fun p => s.lateReq true p.2) (fun p => .postedStoreTimeout p.1) ++
  forEach s.replay (fun p => p.2.res.isSome && s.outlived p.2) (fun p => .replayResultExpire (p.1 % 1024) (p.1 / 1024)) ++
  forEach s.ports (fun p => p.2.exhausted) (fun p => .nonceCountExhausted p.1)

/-- Events that the spec gives a tick of their own: they go before everything else, and before them the writes whose WCT has come
(R113). -/
def State.urgent (s : State) : List Instr :=
  (if s.nextWrite.isSome then [.homeWritePerform] else []) ++
  (if s.anyDominated then [.residentDominationTest] else []) ++
  (if 4096 * (s.epoch + 1) ≤ s.dtime then [.epochEnd] else []) ++
  forEach s.scanned' (fun k => (s.cluster k).scanned + 4096 ≤ s.dtime && s.scanUseful k) .queueScan ++
  forEach s.allThreads (fun x => s.watchReady x.2.2.1 x.2.2.2) (fun x => .watchdog x.1 x.2.1) ++
  forEach s.tasks (fun p => s.reserveReady p.2.cluster p.1) (fun p => .recordReservation p.2.cluster p.1) ++
  (s.cores.flatMap fun c => (s.nextDrawer c.1).toList.map fun d => .drawerAging c.1 d.1 d.2) ++
  s.farUrgent

/-- Lines of a core that may be evicted with an effect: dirty bytes, or update-only partials (R100, R106). -/
def Core.busyLines (c : Core) : List Nat :=
  (KMap.keys (KMap.keep (fun _ l => !l.dirty.isEmpty) c.l1) ++ c.parts.map fun p => lineOf p.key).eraseDups

/-- Events of the memory side. -/
def State.memEvents (s : State) : List Instr :=
  (s.cores.flatMap fun c => c.2.busyLines.map fun l => .l1Eviction c.1 l) ++
  (s.ctxs.flatMap fun x => x.2.incs.flatMap fun i =>
    forEach s.cores (fun c => s.incCopy c.1 x.1 i.1 ≠ i.2.value) fun c => .incumbentPropagate x.1 i.1 c.1)

/-- The barriers of a thread that have completed while it waits. -/
def Thread.barsDone (th : Thread) : List Nat :=
  (th.bars.filter fun b => th.barDone b.whole b.coh).map fun b => if b.whole then 256 else b.coh

/-- Events of waiters and engines. -/
def State.waitEvents (s : State) : List Instr :=
  forEach ((s.locks.filter s.lockFits).map LockEntry.name).eraseDups (fun _ => true) .lockGrant ++
  forEach s.tasks (fun p => (s.grantable p.2).isSome || (s.redecides p.2).isSome) (fun p => .resourceGrant p.1) ++
  forEach s.engs (fun e => ((s.task? e.accn).map fun tk => s.engReady tk e).getD false) (fun e => .engineRetire e.id) ++
  (s.clusters.flatMap fun k =>
    (if (s.nextPass k.1).isSome || !(s.unformed k.1).isEmpty then [.matrixPass k.1] else []) ++
      forEach k.2.table (s.retireReady k.1) fun r => .matrixRetire k.1 r.id) ++
  (s.allThreads.flatMap fun x => x.2.2.2.barsDone.map fun c => .barrierComplete x.1 x.2.1 c)

/-- The record is eligible now, or its event cannot be read (R292, R293), or has to be found combined first (R106). -/
def State.eligibleNow (s : State) (tk : Task) : Bool :=
  tk.phase == .queued && !tk.eligible &&
    match s.depLook tk with
    | .seen _ ok => ok
    | .copies l => !s.combining l
    | _ => true

/-- The queued record's hold is over (R393). -/
def State.holdOver (s : State) (tk : Task) : Bool := tk.holdTo ≠ 0 && tk.holdTo ≤ s.dtime

/-- The contexts that have a record to steal. -/
def State.stealContexts (s : State) : List Nat :=
  (s.tasks.filterMap fun p => if s.stealable p.2 then some p.2.ctx else none).eraseDups

/-- Steal requests that would be served (R297). -/
def State.steals (s : State) : List Instr :=
  s.stealContexts.flatMap fun n => forEach (s.region n) (fun k => s.maySteal k n && (s.victim k n).isSome) fun k => .stealRequest k n

/-- The stop that waits for an event of its own. -/
def State.stopEvent (s : State) (a : Nat) (tk : Task) : List Instr :=
  match tk.stop with
  | none => []
  | some st => if s.midGroup a tk then [] else if st.kind = .cancel then [.cancellation a] else if st.kind = .wound then [.wound a] else []

/-- Events of scheduling and of the ends of tasks. -/
def State.schedEvents (s : State) : List Instr :=
  (s.cores.flatMap fun c => forEach (s.awaySquads c.1) (s.restoreReady c.1) (.squadRestore c.1)) ++
  forEach s.scanned' s.scanUseful .queueScan ++
  forEach s.tasks (fun p => s.holdOver p.2) (fun p => .matrixHoldExpire p.1) ++
  forEach s.tasks (fun p => s.eligibleNow p.2) (fun p => .recordEligible p.1) ++
  forEach s.queues (fun k => (s.firstPlaced k (s.placeOrder k)).isSome) .taskPlacement ++
  s.steals ++
  (s.tasks.flatMap fun p => s.stopEvent p.1 p.2) ++
  forEach s.tasks (fun p => s.commitReady p.1 p.2) (fun p => .taskCommit p.1) ++
  forEach s.launches (fun l => s.turnReady l.1 l.2) (fun l => .deterministicTurn l.1)

/-- Every event that may happen now. -/
def State.events (s : State) : List Instr := s.memEvents ++ s.waitEvents ++ s.schedEvents

/-! ## Issues that may happen (R68, R69, R295, R300) -/

/-- The thread goes on only once a remote operation of it with acquire order is over (R122). -/
def State.acquires (s : State) (a t : Nat) : Bool :=
  (KMap.vals s.outs).any fun o => o.acq && o.back.isNone && o.accn == a && o.tid == t

/-- The thread may issue. -/
def State.canIssue (s : State) (a t : Nat) (th : Thread) : Bool :=
  th.cond == .running && !th.away && !th.halted && th.stallTo.all (· < s.dtime) && !s.acquires a t

/-- The thread stalls at its word for what the memory side, an engine, the fabric or its turn owes it: until then the threads of its
squad issue nothing, so that they stay together (R126, R270). -/
def State.stalled (s : State) (a t : Nat) (th : Thread) : Bool :=
  !th.away && !th.halted &&
    match th.cond with
    | .running => !s.canIssue a t th
    | .held .remote => true
    | .held .engine => true
    | .held .turn => true
    | _ => false

/-- The squad of a thread stands in its core's active set. -/
def State.isActive (s : State) (tk : Task) (t : Nat) (th : Thread) : Bool :=
  ((KMap.get? th.squad (s.core (tk.coreOf t)).squads).map Squad.active).getD false

/-- The path that a thread is on. -/
def Task.pathOf (tk : Task) (t : Nat) (th : Thread) : Path := ⟨tk.coreOf t, th.squad, th.stand⟩

/-- The thread may go on: while a stop of its task is to be carried out, it ends its chain and does no more (R53). -/
def State.mayGo (s : State) (tk : Task) (th : Thread) : Bool := !s.stopDue tk || th.midChain

/-- The threads of a task that may issue now: none of a squad with a thread that stalls, and first those that have begun their
word. -/
def State.ready (s : State) (tk : Task) : KMap Thread :=
  if tk.phase = .running then
    let a := tk.rcd.accn
    let on := tk.threads.filter fun p => s.mayGo tk p.2
    let slow := on.filter fun p => s.stalled a p.1 p.2
    let ts := on.filter fun p => s.canIssue a p.1 p.2 && s.isActive tk p.1 p.2 && !slow.any (tk.mates p)
    ts.filter fun p => p.2.kept.isSome || !ts.any fun q => q.2.kept.isSome && tk.mates p q
  else []

/-- The paths of a task: all of them, or in a deterministic launch that of the lowest thread of each squad (R270). -/
def State.paths (s : State) (tk : Task) : List Path :=
  let ps := ((s.ready tk).map fun p => tk.pathOf p.1 p.2).eraseDups
  if s.isDet tk then ps.filter fun p => (ps.find? fun q => q.core == p.core && q.squad == p.squad) == some p else ps

/-- The key of a squad in the order of R295: its task, its age, and the least TID in it, which tells squads of one tick apart. -/
def State.squadAge (s : State) (core sq : Nat) (q : Squad) : Nat × Nat × Nat :=
  (q.accn, q.formed, ((s.task? q.accn).map fun tk => tk.leastTid core sq).getD 4096)

/-- The least of two keys goes first. -/
def keyLess (x y : Nat × Nat × Nat) : Bool :=
  x.1 < y.1 || (x.1 == y.1 && (x.2.1 < y.2.1 || (x.2.1 == y.2.1 && x.2.2 < y.2.2)))

/-- The first of a list of squads of a core by the order of R295. -/
def State.firstSquad (s : State) (core : Nat) : List (Nat × Squad) → Option (Nat × Squad)
  | [] => none
  | p :: ps => some (ps.foldl (fun b q => if keyLess (s.squadAge core q.1 q.2) (s.squadAge core b.1 b.2) then q else b) p)

/-- Every path on which threads may issue, with its task. -/
def State.allPaths (s : State) : List (Nat × Path) := s.tasks.flatMap fun p => (s.paths p.2).map fun q => (p.1, q)

/-- The choice that is made now is one that is made in turn (R311). -/
def State.inTurn (s : State) : Bool := s.turn % (Config.fairSpan + 1) == Config.fairSpan

/-- The squad of a core that has the issue slot (R295): the oldest of those that are ready for one. Whether a squad is, when several
have threads that may issue, is free (log entry 91). -/
def State.slotSquad (s : State) (core : Nat) (xs : List (Nat × Path)) : Option Nat :=
  let qs := (s.core core).squads.filter fun q => xs.any fun x => x.2.core == core && x.2.squad == q.1
  let rs := if qs.length ≤ 1 then qs else qs.filter fun q => Config.slotReady s.free core q.1
  (s.firstSquad core (if rs.isEmpty then qs else rs)).map Prod.fst

/-- The issues that may happen: on each core those of the squad that has the slot. -/
def State.issues (s : State) : List (Nat × Path) :=
  let xs := s.allPaths
  if xs.length ≤ 1 || s.inTurn then xs
  else ((xs.map fun x => x.2.core).eraseDups).flatMap fun c =>
    xs.filter fun x => x.2.core == c && s.slotSquad c xs == some x.2.squad

/-- What stands first on the agenda. -/
def State.agendaTurn (s : State) : List Turn := s.agenda.head?.toList.map .due

/-- Something due that takes effect at this boundary: a command to which no status belongs (R366, R413), or the eviction of a squad
for whose threads nothing has to be awaited (R53). -/
def State.atOnce (s : State) : Instr → Bool
  | .serviceFull => true
  | .stopAllOn _ => true
  | .stopAllOff _ => true
  | .debugResume _ _ => true
  | .squadEvict core sq =>
    match KMap.get? sq (s.core core).squads with
    | none => true
    | some q => ((s.task? q.accn).map fun tk => !s.evictWaits q.accn (tk.squadThreads core sq)).getD true
  | _ => false

/-- What may move next: an urgent event, then what takes effect at this boundary, so that a cancellation goes before a pre-emption
(R290); else the agenda, the other events, and the issues; before bring-up and after a shutdown only the agenda (R412, R414, R416). -/
def State.turns (s : State) : List Turn :=
  if !s.regs.serves then s.agendaTurn
  else
    match s.urgent, s.agenda.find? s.atOnce with
    | e :: _, _ => [.event e]
    | [], some e => [.due e]
    | [], none => s.agendaTurn ++ s.events.map .event ++ s.issues.map fun x => .issue x.1 x.2

/-- Threads issue. -/
def Turn.isIssue : Turn → Bool
  | .issue _ _ => true
  | _ => false

/-- What waits to move, the longest first: what waited at the last choice, and what is new; a choice that is made in turn sees all that
may move, and forgets the rest. -/
def State.waiting' (s : State) (xs : List Turn) : List Turn :=
  let old := if s.inTurn then s.asked.filter xs.contains else s.asked
  old ++ xs.filter fun x => !old.contains x

/-- Which of them moves is free, where there is a choice; one choice in every so many goes to what has waited longest, so that nothing
that stays enabled waits for ever (R311, log entry 92). An issue waits on until all its threads have gone. -/
def State.choose (s : State) : List Turn → Option Turn × State
  | [] => (none, s)
  | [x] =>
    (some x, if x.isIssue then { s with turn := s.turn + 1, asked := if s.asked.contains x then s.asked else s.asked ++ [x] } else s)
  | x :: xs =>
    let ws := s.waiting' (x :: xs)
    let y := if s.inTurn then ws.headD x else (x :: xs).getD (Config.nextTurn s.turn % (xs.length + 1)) x
    (some y, { s with turn := s.turn + 1, asked := if y.isIssue then ws else ws.erase y })

/-! ## The fetch (R47, R48) -/

/-- What a fetch gives: a packet, a line whose update-only copies have to be combined first (R106), or a fault (cause, address). -/
inductive Fetch where
  | got (s : State) (p : Packet)
  | copies (s : State) (line : Nat)
  | bad (cause addr : Nat)
  | dead (s : State)
  deriving DecidableEq, Repr

/-- Fetch the packet at an address for a task: with the X right (R368), from the homes of its bytes, where update-only copies are
found combined (R106); an address in the remote half is not mapped. -/
def State.fetch (s : State) (tk : Task) (p : Nat) : Fetch :=
  if 2 ^ 56 < p + 12 then .bad causeTranslation (max p (2 ^ 56))
  else
    match s.keysOf tk.ctx ⟨false, false, true⟩ p 12 with
    | .error e => ((recallLine e.1).map (Fetch.copies s)).getD (.bad e.1 e.2)
    | .ok (ks, xs) =>
      let s := (s.rememberAll tk.ctx xs).touchAll ks
      if s.poisoned ks then .dead (s.haltTask tk.rcd.accn .machineCheck)
      else if ks.any isReg then .got s ⟨p, wordsOfBytes (s.regLoad ks)⟩
      else ((s.copied ((ks.map lineOf).eraseDups)).map (Fetch.copies s)).getD (.got s ⟨p, wordsOfBytes (ks.map s.homeByte)⟩)

/-! ## The word that issues (R50 to R54, R60) -/

/-- Change the threads of an issue. -/
def State.updLanes (s : State) (a : Nat) (ts : List Nat) (f : Thread → Thread) : State :=
  ts.foldl (fun s t => s.updThread a t f) s

/-- What a thread of an issue is about to do, and whether a word of the same chain follows. -/
structure Chosen where
  i : Instr
  more : Bool
  deriving DecidableEq, Repr

/-- The instruction of a word, or the event of its decode fault. -/
def instrAt (w : Word) (pc : Nat) : Instr :=
  match decode w with
  | .ok i => i
  | .error f => .illegalInstruction f pc

/-- The word at which threads stand in a packet; `enter` says that a chain begins there, `sr` gives the S registers. -/
def chosenAt (sr : Nat → Word) (p : Packet) (st : Stand) (enter : Bool) : Chosen :=
  let pc := st.pc.toNat
  let w := p.ws.getD (slotOf pc) 0
  match st.rep with
  | some r =>
    (match repWord w r with
     | none => ⟨.illegalInstruction .illegalOperand pc, false⟩
     | some v => ⟨instrAt v pc, false⟩)
  | none =>
    match (if enter then enterFault sr p.ws (slotOf pc) pc else none) with
    | some b => ⟨.illegalInstruction b.f b.addr, false⟩
    | none => ⟨instrAt w pc, chains w⟩

/-- What stands before the first word of a chain is kept (R52). -/
def Thread.mark (tk : Task) (now : Nat) (th : Thread) : Thread :=
  { th with
    base := th.base.orElse fun _ =>
      some ⟨th.fpflags, th.rngctr, th.issued, tk.irrevocable, now, tk.s, tk.rngkey, tk.bnd, tk.bsel⟩ }

/-- Begin an issue (R305): an issue slot is charged to the task and, on its core, to the context. -/
def State.charge (s : State) (a core : Nat) : State :=
  match s.task? a with
  | none => s
  | some tk =>
    (s.updTask a fun tk => { tk with charge := tk.charge + 1 }).updCore core fun c =>
      { c with used := KMap.put tk.ctx (KMap.getD tk.ctx 0 c.used + 1) c.used }

/-- The threads of a task that are ready on a path. -/
def State.onPath (s : State) (tk : Task) (p : Path) : List Nat :=
  ((s.ready tk).filter fun q => tk.pathOf q.1 q.2 = p).map Prod.fst

/-- A choice has just been made in turn (R311). -/
def State.wasInTurn (s : State) : Bool := s.turn % (Config.fairSpan + 1) == 0

/-- The threads that issue together: in a deterministic launch all that are ready on the path, threads 32k to 32k + 31 where
they are all of them (R126), those that look again at a word that they have begun, and all where the choice was made in turn; else a free
part of them, not empty (R69). -/
def State.together (s : State) (tk : Task) (ts : List Nat) : List Nat :=
  let begun (t : Nat) : Bool := ((KMap.get? t tk.threads).map fun th => th.kept.isSome).getD false
  if s.isDet tk || ts.length ≤ 1 || fullGroup ts || ts.all begun || s.wasInTurn then ts
  else
    match ts.filter (Config.joins s.free) with
    | [] => ts
    | us => us

/-- Threads of an issue take a fault of the fetch: TEPC is the packet address (R47). -/
def State.fetchFault (s : State) (a : Nat) (ts : List Nat) (p cause addr : Nat) : State :=
  ts.foldl (fun s t => s.raiseAt a t cause p addr 0) s

/-- A thread that stands at its word for the first time: it has not waited there. -/
def Thread.fresh (th : Thread) : Bool := th.kept.isNone && th.waitFor.isNone

/-- The word uses an issue slot: a prefix is consumed at decode, and a chain with a decode fault does not issue. -/
def usesSlot : Instr → Bool
  | .rep _ => false
  | .illegalInstruction _ _ => false
  | _ => true

/-- What a thread that stands at a word of its packet does there: whether its chain has a decode fault rests on registers of its own
(R51, R160). -/
def Task.choice (tk : Task) (p : Packet) (st : Stand) (t : Nat) : Option Chosen :=
  (KMap.get? t tk.threads).map fun th => chosenAt ((tk.seen th).chainRegs th) p st true

/-- Threads on a core that have their packet issue its word at which they stand, those that do the same as the first of them; threads
that have waited there only look again, and use no further issue slot (R305, log entry 8). -/
def State.begin' (s : State) (a core : Nat) (tk : Task) (ts : List Nat) (st : Stand) (p : Packet) : Option Instr × State :=
  match ts.head?.bind (tk.choice p st) with
  | none => (none, s)
  | some c =>
    let us := ts.filter fun t => tk.choice p st t == some c
    let s := if usesSlot c.i && us.any fun t => ((s.thread? a t).map Thread.fresh).getD false then s.charge a core else s
    let s := s.updLanes a us fun th => { (if c.more then th.mark tk s.dtime else th) with pkt := some p, stallTo := none }
    (some c.i, { s with issue := ⟨a, us, st.pc, c.more⟩ })

/-- The threads wait for the packet until update-only copies of a line are combined (R106). -/
def State.awaitFetch (s : State) (a : Nat) (ts : List Nat) (line : Nat) : State :=
  let q := s.recall line
  q.1.updLanes a ts fun th => { th with stallTo := some (q.2.getD s.dtime) }

/-- Where the fetch of a word begins: at its packet; a target in the remote half, which may be no packet address (R56), is not
mapped at all, and the fetch fails at the target itself (log entry 72). -/
def fetchAt (pc : Nat) : Nat := if 2 ^ 56 ≤ pc then pc else packetOf pc

/-- A path issues: its packet is fetched where it has not been. It waits no more where all its threads go. -/
def State.issuePath (s : State) (a : Nat) (pa : Path) : Option Instr × State :=
  match s.task? a with
  | none => (none, s)
  | some tk =>
    let all := s.onPath tk pa
    let ts := s.together tk all
    let s := { s with asked := if ts = all then s.asked.erase (.issue a pa) else s.asked }.drew
    match pa.at'.pkt with
    | some p => s.begin' a pa.core tk ts pa.at' p
    | none =>
      let x := fetchAt pa.at'.pc.toNat
      match s.fetch tk x with
      | .bad c v => (none, s.fetchFault a ts x c v)
      | .copies s l => (none, s.awaitFetch a ts l)
      | .dead s => (none, s)
      | .got s p => s.begin' a pa.core tk ts pa.at' p

/-- The next word of a chain that is under way (R51, R53). -/
def State.goOn (s : State) : Option Instr × State :=
  match s.issue.lanes with
  | [] => (none, s)
  | t :: _ =>
    match (s.thread? s.issue.accn t).bind fun th => th.stand.pkt.map fun p => chosenAt (fun _ => 0) p th.stand false with
    | none => (none, { s with issue := Issue.none })
    | some c => (some c.i, { s with issue := { s.issue with more := c.more } })

/-- What the machine does next. -/
def State.pick (s : State) : Option Instr × State :=
  if !s.issue.lanes.isEmpty then s.goOn
  else
    match s.choose s.turns with
    | (none, s) => (none, s)
    | (some (.due e), s) => (some e, { s with agenda := s.agenda.erase e })
    | (some (.event e), s) => (some e, s)
    | (some (.issue a p), s) => s.issuePath a p

/-! ## After a word or an event -/

/-! ### The watchdog's count (R304) -/

/-- An agent that does not count as one that makes progress: evicted, in a handler, or stopped (R304, R398). -/
def Thread.idle (th : Thread) : Bool := th.live && (th.away || th.h || th.halted)
/-- Some thread of a task is such an agent. -/
def Task.idle (tk : Task) : Bool := tk.threads.any fun p => p.2.idle

/-- Some member is such an agent. -/
def State.memberIdle (s : State) (m : Member) : Bool := ((s.thread? m.accn m.tid).map Thread.idle).getD false

/-- An agent that the wait of a thread depends on is idle: another member of its barrier, a holder of the lock or the
resource, the task whose event it awaits, another thread of its subgroup. -/
def State.waitIdle (s : State) (a t : Nat) (tk : Task) (th : Thread) : Bool :=
  let cohort (b : BitVec 6) : Bool :=
    let w := (tk.seen th).sreg b.toNat
    (s.cohort tk (barWhole w) (barCoh w)).any fun m => !(m.accn == a && m.tid == t) && s.memberIdle m
  match th.cond, th.atWord with
  | .held .barrier, some (.bar o) => cohort o.b
  | .held .barrier, some (.barw o) => cohort o.b
  | .held .event, some (.waitev o) => s.tasks.any fun p => p.2.ctx == tk.ctx && p.2.rcd.donev == th.addr2 o.a.toNat && p.2.idle
  | .held .lock, _ =>
    s.locks.any fun e => e.accn == a && ((e.wait.map LockWait.tids).getD []).contains t &&
      s.locks.any fun x => x.name == e.name && x.accn ≠ a && x.mode ≠ mNL && ((s.task? x.accn).map Task.idle).getD false
  | .held .resource, _ =>
    tk.wants.any fun w => w.addr == th.pc.toNat &&
      (s.holders tk w.cls w.count).any fun h => ((s.task? h.accn).map Task.idle).getD false
  | .held .meeting, _ =>
    match th.arrival with
    | some ar =>
      let g := tk.group ar.lane t
      tk.threads.any fun p => p.1 ≠ t && g.has p.1 && p.2.idle
    | none => false
  | _, _ => false

/-- Ticks pass: a held thread of a resident task counts them, on its core or away, unless its wait depends on an idle agent. -/
def State.countWait (s : State) (n a t : Nat) (tk : Task) (th : Thread) : Thread :=
  match th.cond with
  | .held _ => if tk.phase = .running ∧ (s.waitIdle a t tk th) = false then { th with waited := th.waited + n } else th
  | _ => th

/-- Every wait of a context with a watchdog, after `n` ticks. -/
def State.countWaits (s : State) (n : Nat) : State :=
  { s with tasks := s.tasks.map fun p =>
      if (s.watchLimit p.2).isSome then
        (p.1, { p.2 with threads := p.2.threads.map fun q => (q.1, s.countWait n p.1 q.1 p.2 q.2) })
      else p }

/-- The ticks that pass with a step: how many is free (R15), but no more than so many steps go by without one (R311, log entry 43). -/
def State.ticks (s : State) : Nat := if Config.fairSpan ≤ s.still then max 1 (Config.stepTicks s.free) else Config.stepTicks s.free

/-- Time passes. -/
def State.tick (s : State) : State :=
  { s.countWaits s.ticks with dtime := s.dtime + s.ticks, still := if s.ticks = 0 then s.still + 1 else 0 }.drew

/-! ### The active set (R13, R295) -/

/-- A squad has a thread that may issue, now or when a stall is over (R53). -/
def State.squadReady (s : State) (core sq a : Nat) : Bool :=
  match s.task? a with
  | none => false
  | some tk =>
    tk.phase == .running && tk.threads.any fun p =>
      p.2.squad == sq && tk.coreOf p.1 == core && p.2.cond == .running && !p.2.away && !p.2.halted && s.mayGo tk p.2

/-- Fill free places of a core's active set with ready squads, by the order of R295. -/
def State.fillActive (s : State) (core : Nat) (ready : Nat × Squad → Bool) : Nat → KMap Squad → KMap Squad
  | 0, m => m
  | n + 1, m =>
    match s.firstSquad core (m.filter fun p => !p.2.active && ready p) with
    | none => m
    | some p => s.fillActive core ready n (KMap.upd p.1 (fun q => { q with active := true }) m)

/-- The active set of a core, at most 8 squads: one with nothing to issue leaves it, ready squads enter. -/
def State.refill (s : State) (c : Nat) : State :=
  let ready (p : Nat × Squad) : Bool := s.squadReady c p.1 p.2.accn
  s.updCore c fun x =>
    let m := x.squads.map fun p => (p.1, { p.2 with active := p.2.active && ready p })
    { x with squads := s.fillActive c ready (8 - (m.filter fun p => p.2.active).length) m }

/-- Every active set. -/
def State.refillAll (s : State) : State := (KMap.keys s.cores).foldl State.refill s

/-- The instruction boundary after a word or an event (R53), and the passing of time. -/
def State.rest (s : State) : State :=
  ({ s with issue := Issue.none }.boundary).refillAll.tick

/-- The threads that go on to the next word of their chain: those of the issue, and with them those of its squad that wait there in
the same chain; none as long as one of the issue waits at its word. -/
def State.followers (s : State) : List Nat :=
  let a := s.issue.accn
  match s.task? a with
  | none => []
  | some tk =>
    let own := tk.threads.filter fun p => s.issue.lanes.contains p.1
    if own.any fun p => p.2.pc == s.issue.pc && p.2.kept.isSome then []
    else
      (tk.threads.filter fun p =>
        s.canIssue a p.1 p.2 && p.2.pc == s.issue.pc + 4 && p.2.rep.isNone &&
          (s.issue.lanes.contains p.1 || (p.2.base.isSome && own.any (tk.mates p)))).map Prod.fst

/-- A word or an event is over: the next word of its chain follows at once (R51), or the instruction boundary. -/
def State.close (s : State) : State :=
  if s.issue.more then
    match s.followers with
    | [] => s.rest
    | ts => { s with issue := ⟨s.issue.accn, ts, s.issue.pc + 4, false⟩ }
  else s.rest

end Sys2Proof.Machine
end

