-- ==== Sys2Proof/Machine/Program.lean ====
section
/-!
DEFINITION. A program of one word, loaded from outside the machine (log entry 6): memory that holds the word and the tables
that map it, an active context, and one task with one thread that stands at the word.
-/

namespace Sys2Proof.Machine

/-- The virtual and physical address of the word. -/
def loadAddr : Nat := 0x30000

/-- The packet of the word: it stands in slot 0; what follows makes no chain or prefix with it illegal by itself. -/
def loadPacket (nbits w : Nat) : List Byte :=
  let x := BitVec.ofNat 32 (w % 2 ^ nbits)
  let filler : Word := if fMaj x = 0x03 ∨ pipeOf (fMaj x) = some 3 then (encode (.iadd ⟨false, 0, 62, 62, 62, false⟩)).getD 0 else 0
  leBytes 4 x.toNat ++ leBytes 4 filler.toNat ++ leBytes 4 filler.toNat

/-- The tables of R367 that map the page of the word, one level to a page of 4 KiB from 0x1000, and the packet. -/
def loadMemory (nbits w : Nat) (m : Memory) : Memory :=
  let entry (k v : Nat) : KMap Byte := bytesAt k (leBytes 8 v)
  memWriteAll m (entry 0x1000 0x2001 ++ entry 0x2000 0x3001 ++ entry 0x3000 0x4001 ++ entry 0x4000 0x5001 ++
    entry (0x5000 + 8 * (loadAddr / 2 ^ 16 % 32)) (loadAddr + 0x1F) ++ bytesAt loadAddr (loadPacket nbits w))

/-- Context 0 over die 0, with those tables and nothing else. -/
def loadCtx : Ctx :=
  { ptroot := 0x1000, peert := 0, tvec := 0, row := 0, col := 0, rows := 6, cols := 6, wiring := 0, weight := 1, aging := 16
    watchdog := 0, inccfg := 0, incdir := 0, incs := [], optab := Vector.replicate 16 0, cmtx := defaultMatrix, gen := 0
    tlb := [], cancelled := [], stopAll := false, revoked := [] }

/-- A root record of one thread. -/
def loadRec : TaskRec :=
  { entry := loadAddr, accn := 1, paccn := 0, bound := 0, flags := 0, bselw := 0, ntid := 1, rlcnt := 0, rreq := 0, args := 0
    depev := 0, donev := 0, cata := 0, tidx := 0 }

/-- The task: running on core 0 with one thread at the word. -/
def loadTask : Task :=
  { Task.fresh loadRec 0 0 0 0 [] with
    phase := .running, threads := [(0, Thread.start loadAddr 0 0)] }

/-- The machine in full service with that one task; everything that could move before it is taken away. -/
def State.placeWord (s : State) (nbits w : Nat) : State :=
  { s with
    regs := { s.regs with level := 2, latch := [] }
    mem := loadMemory nbits w s.mem
    homes := [], writes := [], poison := [], hostLines := []
    tasks := [(1, loadTask)], ctxs := [(0, loadCtx)], launches := [(0, ⟨0, false, false, false, 1, 0, none, [], false⟩)]
    cores := [(0, { Core.empty with squads := [(0, ⟨1, 0, true⟩)], nextSquad := 1 })], clusters := []
    locks := [], engs := [], outs := [], replay := [], epoch := s.dtime / 4096, accn := max s.accn 2
    issue := Issue.none, agenda := [], hole := none }

end Sys2Proof.Machine
end

