-- ==== Sys2Proof/Machine/Scalar.lean ====
section
/-!
DEFINITION. Scalar words (R69, R79, R80): each is carried out once for each issue by a squad, on the task's scalar
registers.
-/

namespace Sys2Proof.Machine

/-- SADD (R79). -/
def execSadd (o : Sr) (s : State) : Out := srWord o (fun a b => a + b) s
/-- SSUB (R79). -/
def execSsub (o : Sr) (s : State) : Out := srWord o (fun a b => a - b) s
/-- SMUL (R79). -/
def execSmul (o : Sr) (s : State) : Out := srWord o (fun a b => a * b) s
/-- SCMP: minus 1, 0 or 1, read signed (R79). -/
def execScmp (o : Sr) (s : State) : Out :=
  srWord o (fun a b => if a.toInt < b.toInt then 0xFFFFFFFF else if a = b then 0 else 1) s
/-- SMIN (R79). -/
def execSmin (o : Sr) (s : State) : Out := srWord o minS s
/-- SMAX (R79). -/
def execSmax (o : Sr) (s : State) : Out := srWord o maxS s
/-- SAND (R79). -/
def execSand (o : Sr) (s : State) : Out := srWord o (fun a b => a &&& b) s
/-- SOR (R79). -/
def execSor (o : Sr) (s : State) : Out := srWord o (fun a b => a ||| b) s
/-- SXOR (R79). -/
def execSxor (o : Sr) (s : State) : Out := srWord o (fun a b => a ^^^ b) s
/-- SSHL (R74, R79). -/
def execSshl (o : Sr) (s : State) : Out := srWord o (fun a b => shlW a b.toNat) s
/-- SSHR (R74, R79). -/
def execSshr (o : Sr) (s : State) : Out := srWord o (fun a b => shrW a b.toNat) s
/-- SSAR (R74, R79). -/
def execSsar (o : Sr) (s : State) : Out := srWord o (fun a b => sarW a b.toNat) s
/-- SMOVI: the immediate, sign-extended (R80). -/
def execSmovi (o : Si) (s : State) : Out := scalarWord (fun _ tk => tk.setS o.d.toNat (o.i.signExtend 32)) s
/-- SMOVH: bits 31:15 replaced, bits 14:0 kept (R80). -/
def execSmovh (o : Si) (s : State) : Out :=
  scalarWord (fun own tk => tk.setS o.d.toNat (word (o.i.toNat * 2 ^ 15) ||| word (wbits (own.sreg o.d.toNat) 0 15))) s

end Sys2Proof.Machine
end

