-- ==== Sys2Proof/Machine/Dispatch.lean ====
section
/-!
DEFINITION. The meaning of each instruction and event: one arm for each constructor.
-/

namespace Sys2Proof.Machine

def exec (i : Instr) (s : State) : Host.Outcome State Fault Refusal :=
  match i with
  | .nop c => Sys2Proof.Machine.execNop c s
  | .exit g => Sys2Proof.Machine.execExit g s
  | .ret g a => Sys2Proof.Machine.execRet g a s
  | .brk c g b => Sys2Proof.Machine.execBrk c g b s
  | .sysrd o => Sys2Proof.Machine.execSysrd o s
  | .syswr o => Sys2Proof.Machine.execSyswr o s
  | .brx g a => Sys2Proof.Machine.execBrx g a s
  | .bra g d => Sys2Proof.Machine.execBra g d s
  | .call g d => Sys2Proof.Machine.execCall g d s
  | .rep o => Sys2Proof.Machine.execRep o s
  | .iadd o => Sys2Proof.Machine.execIadd o s
  | .isub o => Sys2Proof.Machine.execIsub o s
  | .imul o => Sys2Proof.Machine.execImul o s
  | .imulhS32 o => Sys2Proof.Machine.execImulhS32 o s
  | .imulhN32 o => Sys2Proof.Machine.execImulhN32 o s
  | .imad o => Sys2Proof.Machine.execImad o s
  | .lea o => Sys2Proof.Machine.execLea o s
  | .imin o => Sys2Proof.Machine.execImin o s
  | .imax o => Sys2Proof.Machine.execImax o s
  | .iabs o => Sys2Proof.Machine.execIabs o s
  | .ineg o => Sys2Proof.Machine.execIneg o s
  | .mov o => Sys2Proof.Machine.execMov o s
  | .iaddImm o => Sys2Proof.Machine.execIaddImm o s
  | .andImm o => Sys2Proof.Machine.execAndImm o s
  | .orImm o => Sys2Proof.Machine.execOrImm o s
  | .xorImm o => Sys2Proof.Machine.execXorImm o s
  | .shlImm o => Sys2Proof.Machine.execShlImm o s
  | .shrImm o => Sys2Proof.Machine.execShrImm o s
  | .sarImm o => Sys2Proof.Machine.execSarImm o s
  | .rotlImm o => Sys2Proof.Machine.execRotlImm o s
  | .movi o => Sys2Proof.Machine.execMovi o s
  | .and o => Sys2Proof.Machine.execAnd o s
  | .or o => Sys2Proof.Machine.execOr o s
  | .xor o => Sys2Proof.Machine.execXor o s
  | .andn o => Sys2Proof.Machine.execAndn o s
  | .not o => Sys2Proof.Machine.execNot o s
  | .popc o => Sys2Proof.Machine.execPopc o s
  | .clz o => Sys2Proof.Machine.execClz o s
  | .brev o => Sys2Proof.Machine.execBrev o s
  | .shl o => Sys2Proof.Machine.execShl o s
  | .shr o => Sys2Proof.Machine.execShr o s
  | .sar o => Sys2Proof.Machine.execSar o s
  | .rotl o => Sys2Proof.Machine.execRotl o s
  | .bfx o => Sys2Proof.Machine.execBfx o s
  | .bfi o => Sys2Proof.Machine.execBfi o s
  | .icmp o => Sys2Proof.Machine.execIcmp o s
  | .sel o => Sys2Proof.Machine.execSel o s
  | .pand o => Sys2Proof.Machine.execPand o s
  | .por o => Sys2Proof.Machine.execPor o s
  | .pxor o => Sys2Proof.Machine.execPxor o s
  | .pnot o => Sys2Proof.Machine.execPnot o s
  | .pmov o => Sys2Proof.Machine.execPmov o s
  | .sadd o => Sys2Proof.Machine.execSadd o s
  | .ssub o => Sys2Proof.Machine.execSsub o s
  | .smul o => Sys2Proof.Machine.execSmul o s
  | .scmp o => Sys2Proof.Machine.execScmp o s
  | .smin o => Sys2Proof.Machine.execSmin o s
  | .smax o => Sys2Proof.Machine.execSmax o s
  | .sand o => Sys2Proof.Machine.execSand o s
  | .sor o => Sys2Proof.Machine.execSor o s
  | .sxor o => Sys2Proof.Machine.execSxor o s
  | .sshl o => Sys2Proof.Machine.execSshl o s
  | .sshr o => Sys2Proof.Machine.execSshr o s
  | .ssar o => Sys2Proof.Machine.execSsar o s
  | .smovi o => Sys2Proof.Machine.execSmovi o s
  | .smovh o => Sys2Proof.Machine.execSmovh o s
  | .fadd o => Sys2Proof.Machine.execFadd o s
  | .fsub o => Sys2Proof.Machine.execFsub o s
  | .fmul o => Sys2Proof.Machine.execFmul o s
  | .ffma o => Sys2Proof.Machine.execFfma o s
  | .fdiv o => Sys2Proof.Machine.execFdiv o s
  | .fmin o => Sys2Proof.Machine.execFmin o s
  | .fmax o => Sys2Proof.Machine.execFmax o s
  | .fsqrt o => Sys2Proof.Machine.execFsqrt o s
  | .frcp o => Sys2Proof.Machine.execFrcp o s
  | .frsq o => Sys2Proof.Machine.execFrsq o s
  | .frnd o => Sys2Proof.Machine.execFrnd o s
  | .fcmp o => Sys2Proof.Machine.execFcmp o s
  | .fcvt o => Sys2Proof.Machine.execFcvt o s
  | .badd2 o => Sys2Proof.Machine.execBadd2 o s
  | .bmul2 o => Sys2Proof.Machine.execBmul2 o s
  | .bfma2 o => Sys2Proof.Machine.execBfma2 o s
  | .fex2 o => Sys2Proof.Machine.execFex2 o s
  | .flg2 o => Sys2Proof.Machine.execFlg2 o s
  | .fsin o => Sys2Proof.Machine.execFsin o s
  | .fcos o => Sys2Proof.Machine.execFcos o s
  | .perm o => Sys2Proof.Machine.execPerm o s
  | .bcast o => Sys2Proof.Machine.execBcast o s
  | .laneq o => Sys2Proof.Machine.execLaneq o s
  | .vote o => Sys2Proof.Machine.execVote o s
  | .rng o => Sys2Proof.Machine.execRng o s
  | .lred o => Sys2Proof.Machine.execLred o s
  | .lscan o => Sys2Proof.Machine.execLscan o s
  | .ld o => Sys2Proof.Machine.execLd o s
  | .st o => Sys2Proof.Machine.execSt o s
  | .lds o => Sys2Proof.Machine.execLds o s
  | .sts o => Sys2Proof.Machine.execSts o s
  | .ldp o => Sys2Proof.Machine.execLdp o s
  | .stp o => Sys2Proof.Machine.execStp o s
  | .atom o => Sys2Proof.Machine.execAtom o s
  | .cas o => Sys2Proof.Machine.execCas o s
  | .cas2 o => Sys2Proof.Machine.execCas2 o s
  | .mcas o => Sys2Proof.Machine.execMcas o s
  | .red o => Sys2Proof.Machine.execRed o s
  | .ldsum o => Sys2Proof.Machine.execLdsum o s
  | .enq o => Sys2Proof.Machine.execEnq o s
  | .chase o => Sys2Proof.Machine.execChase o s
  | .cpy o => Sys2Proof.Machine.execCpy o s
  | .gath o => Sys2Proof.Machine.execGath o s
  | .scat o => Sys2Proof.Machine.execScat o s
  | .waitc o => Sys2Proof.Machine.execWaitc o s
  | .fence o => Sys2Proof.Machine.execFence o s
  | .flush o => Sys2Proof.Machine.execFlush o s
  | .invl o => Sys2Proof.Machine.execInvl o s
  | .pf o => Sys2Proof.Machine.execPf o s
  | .waitln o => Sys2Proof.Machine.execWaitln o s
  | .mma o => Sys2Proof.Machine.execMma o s
  | .mxp o => Sys2Proof.Machine.execMxp o s
  | .mrp o => Sys2Proof.Machine.execMrp o s
  | .mrr o => Sys2Proof.Machine.execMrr o s
  | .madd o => Sys2Proof.Machine.execMadd o s
  | .mld o => Sys2Proof.Machine.execMld o s
  | .mst o => Sys2Proof.Machine.execMst o s
  | .mbind o => Sys2Proof.Machine.execMbind o s
  | .mfill o => Sys2Proof.Machine.execMfill o s
  | .optab o => Sys2Proof.Machine.execOptab o s
  | .cbld o => Sys2Proof.Machine.execCbld o s
  | .scld o => Sys2Proof.Machine.execScld o s
  | .mqry o => Sys2Proof.Machine.execMqry o s
  | .spawn o => Sys2Proof.Machine.execSpawn o s
  | .reform => Sys2Proof.Machine.execReform s
  | .yield => Sys2Proof.Machine.execYield s
  | .bar o => Sys2Proof.Machine.execBar o s
  | .bara b => Sys2Proof.Machine.execBara b s
  | .barw o => Sys2Proof.Machine.execBarw o s
  | .waitev o => Sys2Proof.Machine.execWaitev o s
  | .bound o => Sys2Proof.Machine.execBound o s
  | .incset o => Sys2Proof.Machine.execIncset o s
  | .incget o => Sys2Proof.Machine.execIncget o s
  | .xacq o => Sys2Proof.Machine.execXacq o s
  | .xrel o => Sys2Proof.Machine.execXrel o s
  | .commit => Sys2Proof.Machine.execCommit s
  | .lkreq o => Sys2Proof.Machine.execLkreq o s
  | .lktry o => Sys2Proof.Machine.execLktry o s
  | .lkupg o => Sys2Proof.Machine.execLkupg o s
  | .lkrel o => Sys2Proof.Machine.execLkrel o s
  | .lkrela d => Sys2Proof.Machine.execLkrela d s
  | .lkqry o => Sys2Proof.Machine.execLkqry o s
  | .cmtx o => Sys2Proof.Machine.execCmtx o s
  | .trap b => Sys2Proof.Machine.execTrap b s
  | .eret => Sys2Proof.Machine.execEret s
  | .abort retry b => Sys2Proof.Machine.execAbort retry b s
  | .tsave d load => Sys2Proof.Machine.execTsave d load s
  | .ctxActivate ctx desc => Sys2Proof.Machine.execCtxActivate ctx desc s
  | .ctxRetire ctx => Sys2Proof.Machine.execCtxRetire ctx s
  | .translationInvalidate ctx page size => Sys2Proof.Machine.execTranslationInvalidate ctx page size s
  | .shootDown ctx page => Sys2Proof.Machine.execShootDown ctx page s
  | .serviceFull => Sys2Proof.Machine.execServiceFull s
  | .stopAllOn ctx => Sys2Proof.Machine.execStopAllOn ctx s
  | .stopAllOff ctx => Sys2Proof.Machine.execStopAllOff ctx s
  | .debugResume ctx accn => Sys2Proof.Machine.execDebugResume ctx accn s
  | .registerWrite r v => Sys2Proof.Machine.execRegisterWrite r v s
  | .hostStore addr data => Sys2Proof.Machine.execHostStore addr data s
  | .hostLoad addr n => Sys2Proof.Machine.execHostLoad addr n s
  | .hostLineInvalidate line data => Sys2Proof.Machine.execHostLineInvalidate line data s
  | .attestationRequest => Sys2Proof.Machine.execAttestationRequest s
  | .remoteRequestArrival r => Sys2Proof.Machine.execRemoteRequestArrival r s
  | .remotePostedStore r => Sys2Proof.Machine.execRemotePostedStore r s
  | .remoteResponse tag res roe => Sys2Proof.Machine.execRemoteResponse tag res roe s
  | .postedAck tag res => Sys2Proof.Machine.execPostedAck tag res s
  | .shootdownReceive src page => Sys2Proof.Machine.execShootdownReceive src page s
  | .shootdownAnswer src => Sys2Proof.Machine.execShootdownAnswer src s
  | .federationValue fgrp n max v => Sys2Proof.Machine.execFederationValue fgrp n max v s
  | .keySwitchMarker port => Sys2Proof.Machine.execKeySwitchMarker port s
  | .keySlotLoad port slot key => Sys2Proof.Machine.execKeySlotLoad port slot key s
  | .flitAuthFailure port => Sys2Proof.Machine.execFlitAuthFailure port s
  | .nonceCountExhausted port => Sys2Proof.Machine.execNonceCountExhausted port s
  | .remoteRetry tag => Sys2Proof.Machine.execRemoteRetry tag s
  | .remoteTimeout tag => Sys2Proof.Machine.execRemoteTimeout tag s
  | .postedStoreTimeout tag => Sys2Proof.Machine.execPostedStoreTimeout tag s
  | .replayResultExpire src tag => Sys2Proof.Machine.execReplayResultExpire src tag s
  | .watchdog accn tid => Sys2Proof.Machine.execWatchdog accn tid s
  | .drawerAging core accn pc => Sys2Proof.Machine.execDrawerAging core accn pc s
  | .recordReservation cluster accn => Sys2Proof.Machine.execRecordReservation cluster accn s
  | .queueScan cluster => Sys2Proof.Machine.execQueueScan cluster s
  | .epochEnd => Sys2Proof.Machine.execEpochEnd s
  | .residentDominationTest => Sys2Proof.Machine.execResidentDominationTest s
  | .matrixHoldExpire accn => Sys2Proof.Machine.execMatrixHoldExpire accn s
  | .recordEligible accn => Sys2Proof.Machine.execRecordEligible accn s
  | .taskPlacement cluster => Sys2Proof.Machine.execTaskPlacement cluster s
  | .stealRequest thief ctx => Sys2Proof.Machine.execStealRequest thief ctx s
  | .squadEvict core squad => Sys2Proof.Machine.execSquadEvict core squad s
  | .squadRestore core squad => Sys2Proof.Machine.execSquadRestore core squad s
  | .cancellation accn => Sys2Proof.Machine.execCancellation accn s
  | .wound accn => Sys2Proof.Machine.execWound accn s
  | .taskCommit accn => Sys2Proof.Machine.execTaskCommit accn s
  | .deterministicTurn launch => Sys2Proof.Machine.execDeterministicTurn launch s
  | .homeWritePerform => Sys2Proof.Machine.execHomeWritePerform s
  | .l1Eviction core line => Sys2Proof.Machine.execL1Eviction core line s
  | .incumbentPropagate ctx n core => Sys2Proof.Machine.execIncumbentPropagate ctx n core s
  | .lockGrant key => Sys2Proof.Machine.execLockGrant key s
  | .resourceGrant accn => Sys2Proof.Machine.execResourceGrant accn s
  | .engineRetire op => Sys2Proof.Machine.execEngineRetire op s
  | .matrixPass cluster => Sys2Proof.Machine.execMatrixPass cluster s
  | .matrixRetire cluster req => Sys2Proof.Machine.execMatrixRetire cluster req s
  | .barrierComplete accn tid coh => Sys2Proof.Machine.execBarrierComplete accn tid coh s
  | .waitlnWake accn tid => Sys2Proof.Machine.execWaitlnWake accn tid s
  | .waitevWake accn tid => Sys2Proof.Machine.execWaitevWake accn tid s
  | .softError site => Sys2Proof.Machine.execSoftError site s
  | .powerOn failed image desc record => Sys2Proof.Machine.execPowerOn failed image desc record s
  | .thermalThrottle => Sys2Proof.Machine.execThermalThrottle s
  | .thermalShutdown => Sys2Proof.Machine.execThermalShutdown s
  | .illegalInstruction f taddr => Sys2Proof.Machine.execIllegalInstruction f taddr s
  | .removalByTheSupervisor accn => Sys2Proof.Machine.execRemovalByTheSupervisor accn s
  | .trainingComplete fail => Sys2Proof.Machine.execTrainingComplete fail s

end Sys2Proof.Machine
end

