-- ==== Sys2Proof/Machine/Step.lean ====
section
/-!
DEFINITION. One step of the machine: what moves next is picked and fetched (Sched.lean), its meaning is run, and its chain
goes on or its instruction boundary is reached.
-/

namespace Sys2Proof.Machine

/-- A word or an event is over; an access to an address that does not exist stops the machine. -/
def State.closed (s : State) : Out :=
  match s.close.hole with
  | some k => .fault (.noSuchAddress k)
  | none => .next s.close

/-- What an outcome of a meaning makes of the step. -/
def afterExec : Out → Out
  | .next s => s.closed
  | .fault f => .fault f
  | .refused r => .refused r

/-- One step. -/
def step (s : State) : Host.Outcome State Fault Refusal :=
  match s.pick with
  | (none, t) => t.closed
  | (some i, t) => afterExec (exec i t)

/-- The state with one instruction stored where `step` fetches next (log entry 6). -/
def State.withFetchWord (s : State) (nbits w : Nat) : State := s.placeWord nbits w

end Sys2Proof.Machine
end

