-- ==== Sys2Proof/Safety.lean ====
section
/-!
DEFINITION. The terms in which claims are stated: what a word leaves alone, what it does in each thread that stands at it, an
issue of one thread, and the invariant of memory.
-/

namespace Sys2Proof.Machine

/-- A task without its threads. -/
def Task.shell (tk : Task) : Task := { tk with threads := [] }

/-- From `s` to `s'` nothing but threads has changed: every task is what it was but for its threads, every other part of
the state is what it was, and every byte of memory reads as before. -/
structure OnlyThreads (s s' : State) : Prop where
  shells : ∀ a, (s'.task? a).map Task.shell = (s.task? a).map Task.shell
  rest : { s' with tasks := s.tasks } = s
  bytes : ∀ k, memRead s'.mem k = memRead s.mem k

/-- A word that acts separately in each thread (R68): every thread that stands at it becomes `f`, of the task as its word sees it
(R52), or, where its guard fails, moves past it; no other thread changes, and nothing else does. -/
structure PerThread (s s' : State) (g : BitVec 3) (f : Nat → Task → Thread → Thread) : Prop where
  moved : ∀ t ∈ s.carried, ∀ tk th, s.task? s.issue.accn = some tk → KMap.get? t tk.threads = some th →
    s'.thread? s.issue.accn t = some (if th.pred g.toNat then f t (tk.seen th) th else th.next)
  still : ∀ a t, (a = s.issue.accn → t ∉ s.carried) → s'.thread? a t = s.thread? a t
  only : OnlyThreads s s'

/-- Only one thread has changed: it is `th'` now. -/
structure OnlyThread (s s' : State) (a t : Nat) (th' : Thread) : Prop where
  self : s'.thread? a t = some th'
  still : ∀ b u, ¬ (b = a ∧ u = t) → s'.thread? b u = s.thread? b u
  only : OnlyThreads s s'

/-- But for thread `t` of task `a`, no thread has changed, no task but for its threads, and every byte of memory reads as
before. -/
structure KeepsRest (s s' : State) (a t : Nat) : Prop where
  still : ∀ b u, ¬ (b = a ∧ u = t) → s'.thread? b u = s.thread? b u
  shells : ∀ b, (s'.task? b).map Task.shell = (s.task? b).map Task.shell
  bytes : ∀ k, memRead s'.mem k = memRead s.mem k

/-- Only the issuing task has changed: but for its threads it is `tk'` now, and of the threads only `t` has changed. -/
structure InTask (s s' : State) (a t : Nat) (tk' : Task) (th' : Thread) : Prop where
  own : (s'.task? a).map Task.shell = some tk'.shell
  self : s'.thread? a t = some th'
  still : ∀ b u, ¬ (b = a ∧ u = t) → s'.thread? b u = s.thread? b u
  shells : ∀ b, b ≠ a → (s'.task? b).map Task.shell = (s.task? b).map Task.shell
  bytes : ∀ k, memRead s'.mem k = memRead s.mem k

/-- The task as the word of the issue sees it (R52). -/
def State.reader (s : State) (tk : Task) : Task :=
  match s.carried with
  | t :: _ => ((KMap.get? t tk.threads).map tk.seen).getD tk
  | [] => tk

/-- A scalar word (R69): carried out once for the issue, it makes the task `f` of the task as it sees it and of the task as it
stands, and every thread that stands at it moves past it; nothing else changes. -/
structure OncePerIssue (s s' : State) (f : Task → Task → Task) : Prop where
  self : ∀ tk, s.task? s.issue.accn = some tk → (s'.task? s.issue.accn).map Task.shell = some (f (s.reader tk) tk).shell
  moved : ∀ t ∈ s.carried, s'.thread? s.issue.accn t = (s.thread? s.issue.accn t).map Thread.next
  still : ∀ a t, (a = s.issue.accn → t ∉ s.carried) → s'.thread? a t = s.thread? a t
  shells : ∀ a, a ≠ s.issue.accn → (s'.task? a).map Task.shell = (s.task? a).map Task.shell
  rest : { s' with tasks := s.tasks } = s
  bytes : ∀ k, memRead s'.mem k = memRead s.mem k

/-- As `OncePerIssue`, for a word that acts outside its task as well: the threads that stand at the word move past it, the
task becomes `f` of it, and no other task, no other thread and no byte of memory changes. -/
structure Once (s s' : State) (f : Task → Task) : Prop where
  self : ∀ tk, s.task? s.issue.accn = some tk → (s'.task? s.issue.accn).map Task.shell = some (f tk).shell
  moved : ∀ t ∈ s.carried, s'.thread? s.issue.accn t = (s.thread? s.issue.accn t).map Thread.next
  still : ∀ a t, (a = s.issue.accn → t ∉ s.carried) → s'.thread? a t = s.thread? a t
  shells : ∀ a, a ≠ s.issue.accn → (s'.task? a).map Task.shell = (s.task? a).map Task.shell
  bytes : ∀ k, memRead s'.mem k = memRead s.mem k

/-- The registers a word names are held by the task, and no response still to come writes one of them. -/
abbrev State.free? (s : State) (tk : Task) (t : Nat) (regs : List Nat) : Prop :=
  ∀ n ∈ regs, tk.holdsReg n = true ∧ s.awaits s.issue.accn t n = false

/-- In a thread whose guard holds, the registers a word names are free. -/
def State.clearIn (s : State) (g : BitVec 3) (regs : List Nat) (t : Nat) : Bool :=
  match s.task? s.issue.accn, s.thread? s.issue.accn t with
  | some tk, some th => !th.pred g.toNat || regs.all fun n => tk.holdsReg n && !s.awaits s.issue.accn t n
  | _, _ => true

/-- The word can act in every thread that stands at it: no thread is carried twice, and where the guard holds its registers
are free. -/
abbrev Clear (s : State) (g : BitVec 3) (regs : List Nat) : Prop :=
  s.issue.lanes.Nodup ∧ ∀ t ∈ s.carried, s.clearIn g regs t = true

/-- The word answers a next state, and does in each thread what `f` says. -/
def Does (i : Instr) (s : State) (g : BitVec 3) (f : Nat → Task → Thread → Thread) : Prop :=
  ∃ s', exec i s = .next s' ∧ PerThread s s' g f

/-- The word answers a next state, and is carried out once for the issue as `f` says. -/
def DoesOnce (i : Instr) (s : State) (f : Task → Task → Task) : Prop := ∃ s', exec i s = .next s' ∧ OncePerIssue s s' f

/-- The issue is one thread, which stands at the word with its guard true and the registers of the word free; `tk` is the task as the
word sees it (R52). -/
abbrev Alone (s : State) (g : BitVec 3) (regs : List Nat) (t : Nat) (tk : Task) (th : Thread) : Prop :=
  s.issue.lanes = [t] ∧ (s.task? s.issue.accn).map (·.seen th) = some tk ∧ KMap.get? t tk.threads = some th ∧
    s.issue.carries th = true ∧ th.pred g.toNat = true ∧ s.free? tk t regs

/-- The issue is one thread, which stands at a task word whose reaching has not been carried out; no meeting acts first. -/
abbrev Reaches (s : State) (t : Nat) (tk : Task) (th : Thread) : Prop :=
  s.issue.lanes = [t] ∧ s.task? s.issue.accn = some tk ∧ KMap.get? t tk.threads = some th ∧ s.issue.carries th = true ∧
    tk.rcd.accn = s.issue.accn ∧ tk.stop = none ∧ s.meetings s.issue.accn s.carried = s ∧
    (tk.reach.find? fun r => r.addr == th.pc.toNat && r.nth == th.nth th.pc.toNat) = none

/-- The task once a thread's reaching of a task word has its status, which goes to S(D) where the word has one (R313). -/
def Task.told (tk : Task) (th : Thread) (d : Option Nat) (v : Nat) : Task :=
  { (match d with
     | some d => tk.setS d (BitVec.ofNat 32 v)
     | none => tk) with
    reach := tk.reach.filter (fun r => !(r.addr == th.pc.toNat && r.nth == th.nth th.pc.toNat)) ++
      [⟨th.pc.toNat, th.nth th.pc.toNat, v, true, none⟩] }

/-- The registers that an SB word names: D, A, and B unless it is a scalar one (R58). -/
def binRegs (d a b : BitVec 6) (sb : Bool) : List Nat := [d.toNat, a.toNat] ++ bReg sb b

/-- A thread writes V(D) and moves past the word. -/
def writesV (d : BitVec 6) (v : Task → Thread → Word) : Nat → Task → Thread → Thread := fun _ tk th =>
  (th.setReg d.toNat (v tk th)).next

/-- A thread writes a predicate pair (R76) and moves past the word. -/
def writesPair (t f : BitVec 3) (c : Thread → Bool) : Nat → Task → Thread → Thread := fun _ _ th =>
  ((if f = 0 then id else fun x : Thread => x.setPred f.toNat (!c th)) (if t = 0 then th else th.setPred t.toNat (c th))).next

/-- A thread writes P(D) and moves past the word. -/
def writesP (d : BitVec 6) (v : Thread → Bool) : Nat → Task → Thread → Thread := fun _ _ th =>
  (if d = 0 then th else th.setPred d.toNat (v th)).next

/-- `k` is an integer nearest to `x`, of two the even one (R206, R208). -/
def NearestTo (x : ℝ) (k : Int) : Prop := |x - k| ≤ 1 / 2 ∧ (|x - k| = 1 / 2 → k % 2 = 0)

/-- `q` is the magnitude `y` of a value of sign `neg`, rounded to an integer in a mode (R183). -/
def RoundsTo (rm : Nat) (neg : Bool) (y : ℝ) (q : Nat) : Prop :=
  if rm = 0 then NearestTo y q
  else if (rm = 2 ∧ neg = true) ∨ (rm = 3 ∧ neg = false) then y ≤ q ∧ (q : ℝ) < y + 1
  else q ≤ y ∧ y < q + 1

/-- `r` is `x`, which is not 0, rounded once to a format in a mode, with the flags of R186. With an unbounded exponent `x` rounds to
`free` units of `2^(e - fb)`. Past the greatest finite value that is an overflow (R184), below the smallest normal it is tiny, and
flushed where the mode says so (R185); otherwise the result is `x` rounded to the units that the format has at its magnitude. -/
def Rounds (f : FFmt) (md : FMode) (x : ℝ) (r : Nat × FFlags) : Prop :=
  ∀ (neg : Bool) (e : Int) (free q : Nat), (neg = true ↔ x < 0) → (2 : ℝ) ^ e ≤ |x| → |x| < (2 : ℝ) ^ (e + 1) →
    let emin : Int := 2 - 2 ^ (f.eb - 1)
    let bound : ℝ := free * (2 : ℝ) ^ (e - f.fb)
    let unit : ℝ := (2 : ℝ) ^ (max e emin - f.fb)
    RoundsTo md.rm neg (|x| / (2 : ℝ) ^ (e - f.fb)) free → RoundsTo md.rm neg (|x| / unit) q →
    let high : Prop := (2 ^ (f.fb + 1) - 1 : ℝ) * (2 : ℝ) ^ (1 - emin - f.fb) < bound
    let tiny : Prop := bound < (2 : ℝ) ^ emin
    let up : Bool := md.rm == 0 || (md.rm == 2 && neg) || (md.rm == 3 && !neg)
    (high → r = (if up then f.inf neg else f.inf neg - 1, ⟨false, false, true, false, true⟩)) ∧
    (tiny → md.flush = true → r = (f.zero neg, ⟨false, false, false, true, true⟩)) ∧
    (¬ high → ¬ (tiny ∧ md.flush = true) →
      (∃ m k, f.value r.1 = .fin neg m k ∧ (m : ℝ) * (2 : ℝ) ^ k = q * unit) ∧ r.1 < 2 * f.signW ∧
      r.2.invalid = false ∧ r.2.divZero = false ∧ r.2.overflow = false ∧
      (r.2.inexact = true ↔ q * unit ≠ |x|) ∧ (r.2.underflow = true ↔ tiny ∧ q * unit ≠ |x|))

/-- Memory is in canonical form (R110). -/
def Inv (s : State) : Prop := Memory.wf s.mem = true

end Sys2Proof.Machine
end

