-- ==== Sys2Proof/Certificates/Slice0/Obligations.lean ====
section
/-!
DEFINITION. The statements for the provers. `Does` and `DoesOnce` (Safety.lean) say that a word answers a next state and what
that state holds, its frame included; the hypotheses are on the state and the operands alone.
-/

open Sys2Proof Sys2Proof.Machine

/-! ## Register words -/

/-- R71: the vector integer words of majors 0x04 and 0x05. -/
def Obligations.IntegerWords : Prop :=
  (∀ (o : Bin) (s : State), Clear s o.g (binRegs o.d o.a o.b o.sb) →
    let a := fun th : Thread => th.reg o.a.toNat
    let b := fun (tk : Task) (th : Thread) => if o.sb then tk.sreg o.b.toNat else th.reg o.b.toNat
    let d := fun th : Thread => th.reg o.d.toNat
    Does (.iadd o) s o.g (writesV o.d fun tk th => a th + b tk th) ∧
    Does (.isub o) s o.g (writesV o.d fun tk th => a th - b tk th) ∧
    Does (.imul o) s o.g (writesV o.d fun tk th => a th * b tk th) ∧
    Does (.imulhS32 o) s o.g (writesV o.d fun tk th => BitVec.ofInt 32 ((a th).toInt * (b tk th).toInt / 4294967296)) ∧
    Does (.imulhN32 o) s o.g
      (writesV o.d fun tk th => (((a th).setWidth 64 * (b tk th).setWidth 64) >>> 32).setWidth 32) ∧
    Does (.imad o) s o.g (writesV o.d fun tk th => a th * b tk th + d th) ∧
    Does (.lea o) s o.g (writesV o.d fun tk th => a th + 4 * b tk th)) ∧
  (∀ (o : BinU) (s : State), Clear s o.g (binRegs o.d o.a o.b o.sb) →
    let a := fun th : Thread => th.reg o.a.toNat
    let b := fun (tk : Task) (th : Thread) => if o.sb then tk.sreg o.b.toNat else th.reg o.b.toNat
    Does (.imin o) s o.g (writesV o.d fun tk th =>
      if o.u then (if a th ≤ b tk th then a th else b tk th)
      else if (a th).toInt ≤ (b tk th).toInt then a th else b tk th) ∧
    Does (.imax o) s o.g (writesV o.d fun tk th =>
      if o.u then (if a th ≤ b tk th then b tk th else a th)
      else if (a th).toInt ≤ (b tk th).toInt then b tk th else a th)) ∧
  (∀ (o : Un) (s : State), Clear s o.g [o.d.toNat, o.a.toNat] →
    Does (.iabs o) s o.g (writesV o.d fun _ th => if (th.reg o.a.toNat).msb then -(th.reg o.a.toNat) else th.reg o.a.toNat) ∧
    Does (.ineg o) s o.g (writesV o.d fun _ th => -(th.reg o.a.toNat)) ∧
    Does (.mov o) s o.g (writesV o.d fun _ th => th.reg o.a.toNat))

/-- R72: the words with an immediate. -/
def Obligations.ImmediateWords : Prop :=
  (∀ (o : Imm) (s : State), Clear s o.g [o.d.toNat, o.a.toNat] →
    Does (.iaddImm o) s o.g (writesV o.d fun _ th => th.reg o.a.toNat + o.i.signExtend 32) ∧
    Does (.andImm o) s o.g (writesV o.d fun _ th => th.reg o.a.toNat &&& o.i.signExtend 32) ∧
    Does (.orImm o) s o.g (writesV o.d fun _ th => th.reg o.a.toNat ||| o.i.signExtend 32) ∧
    Does (.xorImm o) s o.g (writesV o.d fun _ th => th.reg o.a.toNat ^^^ o.i.signExtend 32)) ∧
  (∀ (o : ShImm) (s : State), Clear s o.g [o.d.toNat, o.a.toNat] →
    Does (.shlImm o) s o.g (writesV o.d fun _ th => th.reg o.a.toNat <<< o.n.toNat) ∧
    Does (.shrImm o) s o.g (writesV o.d fun _ th => th.reg o.a.toNat >>> o.n.toNat) ∧
    Does (.sarImm o) s o.g (writesV o.d fun _ th => (th.reg o.a.toNat).sshiftRight o.n.toNat) ∧
    Does (.rotlImm o) s o.g (writesV o.d fun _ th => (th.reg o.a.toNat).rotateLeft o.n.toNat)) ∧
  (∀ (o : MovImm) (s : State), Clear s o.g [o.d.toNat] →
    Does (.movi o) s o.g (writesV o.d fun _ _ => o.i.signExtend 32))

/-- R73: the logic words of major 0x0C and their codes; a unary one takes no B and no scalar bit. -/
def Obligations.LogicWords : Prop :=
  (∀ (o : Bin) (s : State), Clear s o.g (binRegs o.d o.a o.b o.sb) →
    let a := fun th : Thread => th.reg o.a.toNat
    let b := fun (tk : Task) (th : Thread) => if o.sb then tk.sreg o.b.toNat else th.reg o.b.toNat
    Does (.and o) s o.g (writesV o.d fun tk th => a th &&& b tk th) ∧
    Does (.or o) s o.g (writesV o.d fun tk th => a th ||| b tk th) ∧
    Does (.xor o) s o.g (writesV o.d fun tk th => a th ^^^ b tk th) ∧
    Does (.andn o) s o.g (writesV o.d fun tk th => a th &&& ~~~(b tk th))) ∧
  (∀ (o : Un) (s : State), Clear s o.g [o.d.toNat, o.a.toNat] →
    let a := fun th : Thread => th.reg o.a.toNat
    Does (.not o) s o.g (writesV o.d fun _ th => ~~~(a th)) ∧
    Does (.popc o) s o.g (writesV o.d fun _ th => BitVec.ofNat 32 (((List.range 32).filter (a th).getLsbD).length)) ∧
    Does (.clz o) s o.g
      (writesV o.d fun _ th => BitVec.ofNat 32 (((List.range 32).find? fun i => (a th).getMsbD i).getD 32)) ∧
    Does (.brev o) s o.g (writesV o.d fun _ th => (a th).reverse)) ∧
  (∀ w : Word, fMaj w = 0x0C →
    (fX w % 8 = 0 → decode w = .ok (.and (binOf w))) ∧ (fX w % 8 = 1 → decode w = .ok (.or (binOf w))) ∧
    (fX w % 8 = 2 → decode w = .ok (.xor (binOf w))) ∧ (fX w % 8 = 3 → decode w = .ok (.andn (binOf w))) ∧
    (4 ≤ fX w % 8 → (fB w ≠ 0 ∨ 8 ≤ fX w) → decode w = .error .illegalInstruction) ∧
    (fB w = 0 →
      (fX w = 4 → decode w = .ok (.not (unOf w))) ∧ (fX w = 5 → decode w = .ok (.popc (unOf w))) ∧
      (fX w = 6 → decode w = .ok (.clz (unOf w))) ∧ (fX w = 7 → decode w = .ok (.brev (unOf w)))))

/-- R74: shifts by any unsigned amount. -/
def Obligations.ShiftWords : Prop :=
  ∀ (o : Bin) (s : State), Clear s o.g (binRegs o.d o.a o.b o.sb) →
    let a := fun th : Thread => th.reg o.a.toNat
    let n := fun (tk : Task) (th : Thread) => (if o.sb then tk.sreg o.b.toNat else th.reg o.b.toNat).toNat
    Does (.shl o) s o.g (writesV o.d fun tk th => a th <<< n tk th) ∧
    Does (.shr o) s o.g (writesV o.d fun tk th => a th >>> n tk th) ∧
    Does (.sar o) s o.g (writesV o.d fun tk th => (a th).sshiftRight (n tk th)) ∧
    Does (.rotl o) s o.g (writesV o.d fun tk th => (a th).rotateLeft (n tk th))

/-- R75: bit fields, cut at bit 31: BFX.N32, BFX.S32 and BFI, with their codes. -/
def Obligations.FieldWords : Prop :=
  (∀ (o : BinU) (s : State), Clear s o.g (binRegs o.d o.a o.b o.sb) →
    Does (.bfx o) s o.g (writesV o.d fun tk th =>
      let b := if o.sb then tk.sreg o.b.toNat else th.reg o.b.toNat
      let pos := b.toNat % 32
      let w := min (b.toNat / 32 % 32 + 1) (32 - pos)
      let x := (th.reg o.a.toNat).extractLsb' pos w
      if o.u then x.signExtend 32 else x.setWidth 32)) ∧
  (∀ (o : Bin) (s : State), Clear s o.g (binRegs o.d o.a o.b o.sb) →
    Does (.bfi o) s o.g (writesV o.d fun tk th =>
      let b := if o.sb then tk.sreg o.b.toNat else th.reg o.b.toNat
      let pos := b.toNat % 32
      let w := min (b.toNat / 32 % 32 + 1) (32 - pos)
      let mask : Word := BitVec.ofNat 32 ((2 ^ w - 1) * 2 ^ pos)
      (th.reg o.d.toNat &&& ~~~mask) ||| ((th.reg o.a.toNat <<< pos) &&& mask))) ∧
  (∀ w : Word, fMaj w = 0x0D →
    (fX w % 8 = 4 → decode w = .ok (.bfx ⟨fC w, fG w, fD w, fA w, fB w, fSb w, false⟩)) ∧
    (fX w % 8 = 5 → decode w = .ok (.bfx ⟨fC w, fG w, fD w, fA w, fB w, fSb w, true⟩)) ∧
    (fX w % 8 = 6 → decode w = .ok (.bfi (binOf w))))

/-- R76, R77, R78: compares, SEL, and the words that combine predicates; a write to P0 is discarded (R21). -/
def Obligations.PredicateWords : Prop :=
  (∀ (o : Cmp) (s : State), o.x.toNat ≤ 5 → Clear s o.g [o.a.toNat, o.b.toNat] →
    Does (.icmp o) s o.g (writesPair o.t o.f fun th =>
      let a := th.reg o.a.toNat
      let b := th.reg o.b.toNat
      if o.x = 0 then a == b else if o.x = 1 then a != b else if o.x = 2 then a.slt b else if o.x = 3 then a.sle b
      else if o.x = 4 then a.ult b else a.ule b)) ∧
  (∀ (o : SelOp) (s : State), Clear s o.g (binRegs o.d o.a o.b o.sb) →
    Does (.sel o) s o.g (writesV o.d fun tk th =>
      if th.pred o.p.toNat then th.reg o.a.toNat else if o.sb then tk.sreg o.b.toNat else th.reg o.b.toNat)) ∧
  (∀ (o : Pbin) (s : State), Clear s o.g [] →
    Does (.pand o) s o.g (writesP o.d fun th => th.pred o.a.toNat && th.pred o.b.toNat) ∧
    Does (.por o) s o.g (writesP o.d fun th => th.pred o.a.toNat || th.pred o.b.toNat) ∧
    Does (.pxor o) s o.g (writesP o.d fun th => th.pred o.a.toNat ^^ th.pred o.b.toNat)) ∧
  (∀ (o : Un) (s : State), Clear s o.g [] →
    Does (.pnot o) s o.g (writesP o.d fun th => !th.pred o.a.toNat) ∧
    Does (.pmov o) s o.g (writesP o.d fun th => th.pred o.a.toNat))

/-- R79, R80: the scalar words, carried out once for each issue; they read the S registers as they stood before their chain (R52). -/
def Obligations.ScalarWords : Prop :=
  (∀ (o : Sr) (s : State), s.issue.lanes.Nodup → s.carried ≠ [] →
    let src := fun (tk : Task) (c : BitVec 8) => if 192 ≤ c.toNat then BitVec.ofNat 32 (c.toNat - 192) else tk.sreg c.toNat
    let put := fun (v : Word → Word → Word) (own tk : Task) => tk.setS o.d.toNat (v (src own o.a) (src own o.b))
    DoesOnce (.sadd o) s (put fun a b => a + b) ∧
    DoesOnce (.ssub o) s (put fun a b => a - b) ∧
    DoesOnce (.smul o) s (put fun a b => a * b) ∧
    DoesOnce (.scmp o) s (put fun a b => if a.slt b then 0xFFFFFFFF else if a = b then 0 else 1) ∧
    DoesOnce (.smin o) s (put fun a b => if a.sle b then a else b) ∧
    DoesOnce (.smax o) s (put fun a b => if a.sle b then b else a) ∧
    DoesOnce (.sand o) s (put fun a b => a &&& b) ∧
    DoesOnce (.sor o) s (put fun a b => a ||| b) ∧
    DoesOnce (.sxor o) s (put fun a b => a ^^^ b) ∧
    DoesOnce (.sshl o) s (put fun a b => a <<< b.toNat) ∧
    DoesOnce (.sshr o) s (put fun a b => a >>> b.toNat) ∧
    DoesOnce (.ssar o) s (put fun a b => a.sshiftRight b.toNat)) ∧
  (∀ (o : Si) (s : State), s.issue.lanes.Nodup → s.carried ≠ [] →
    DoesOnce (.smovi o) s (fun _ tk => tk.setS o.d.toNat (o.i.signExtend 32)) ∧
    DoesOnce (.smovh o) s (fun own tk => tk.setS o.d.toNat
      ((o.i.setWidth 32 <<< 15) ||| (own.sreg o.d.toNat &&& 0x00007FFF))))

/-- R49, R50, R68: what a register word leaves alone in a thread that writes V(D): every other register, the predicates, the
counters, and every special, trap and wait register; the program counter moves on. -/
def Obligations.RegisterFrame : Prop :=
  ∀ (th : Thread) (d : BitVec 6) (v : Word),
    let th' := (th.setReg d.toNat v).next
    th'.reg d.toNat = v ∧ (∀ n, n ≠ d.toNat → th'.reg n = th.reg n) ∧ th'.p = th.p ∧ th'.oc = th.oc ∧
    th'.fpmode = th.fpmode ∧ th'.fpflags = th.fpflags ∧ th'.rngctr = th.rngctr ∧ th'.tepc = th.tepc ∧
    th'.tcause = th.tcause ∧ th'.taddr = th.taddr ∧ th'.tinfo = th.tinfo ∧ th'.h = th.h ∧ th'.cmem = th.cmem ∧
    th'.dtimeHi = th.dtimeHi ∧ th'.cond = th.cond ∧ th'.lwct = th.lwct ∧ th'.posted = th.posted ∧ th'.eflt = th.eflt ∧
    th'.bars = th.bars ∧ th'.reached = th.reached ∧ (th.rep = none → th'.pc = th.pc + 4 ∧ th'.rep = none)

/-- R23: an SB word that names a V register of a chunk the task does not hold takes an illegal-operand fault in each thread of
the issue that it acts in, before any state changes, under a repeat with TEPC the REP word and the index in TINFO (R61): with a
vector and outside a handler, a trap.
That bits of TADDR and TINFO which no rule names are 0 is the model's reading (log entry 54). -/
def Obligations.ChunkNotHeld : Prop :=
  ∀ (o : Bin) (u : Bool) (r p : BitVec 3) (s : State) (tk : Task), r.toNat ≤ 4 → s.task? s.issue.accn = some tk → s.issue.lanes.Nodup → s.tvec tk ≠ 0 →
    (∀ t ∈ s.carried, ∀ th, KMap.get? t tk.threads = some th → th.pred o.g.toNat = true → th.h = false) →
    (32 + 8 * tk.chunks ≤ o.d.toNat ∨ 32 + 8 * tk.chunks ≤ o.a.toNat ∨
      (o.sb = false ∧ 32 + 8 * tk.chunks ≤ o.b.toNat)) →
    let trap := fun (_ : Nat) (tk : Task) (th : Thread) =>
      match th.rep with
      | none => th.enterTrap (s.tvec tk) 0x0004 th.pc.toNat 0 0
      | some r => th.enterTrap (s.tvec tk) 0x0004 (th.pc - 4).toNat 0 (BitVec.ofNat 32 (r.idx * 67108864))
    let ou : BinU := ⟨o.c, o.g, o.d, o.a, o.b, o.sb, u⟩
    let or : BinR := ⟨o.c, o.g, o.d, o.a, o.b, o.sb, r⟩
    ∀ i ∈ [Instr.iadd o, .isub o, .imul o, .imulhS32 o, .imulhN32 o, .imad o, .lea o, .imin ou, .imax ou, .and o, .or o, .xor o,
      .andn o, .shl o, .shr o, .sar o, .rotl o, .bfx ou, .bfi o, .sel ⟨o.c, o.g, o.d, o.a, o.b, o.sb, p⟩, .fadd or, .fsub or, .fmul or,
      .ffma or, .fdiv or, .fmin o, .fmax o, .badd2 o, .bmul2 o, .bfma2 o], Does i s o.g trap

/-! ## Floating-point words -/

/-- R197, R198: a float word acts once in each lane: it rounds its exact result in the mode of its suffix, or of FPMODE
without one, writes V(D) and adds its flags to FPFLAGS; nothing else changes. The results are those of FloatRounding,
FloatSpecials, SpecialConstants and SpecialFunctions. -/
def Obligations.FloatWords : Prop :=
  (∀ (o : BinR) (s : State), o.r.toNat ≤ 4 → Clear s o.g (binRegs o.d o.a o.b o.sb) →
    let mode := fun th : Thread =>
      FMode.mk (if o.r = 0 then th.fpmode.toNat % 4 else o.r.toNat - 1) (th.fpmode.getLsbD 2)
    let a := fun th : Thread => (th.reg o.a.toNat).toNat
    let b := fun (tk : Task) (th : Thread) => (if o.sb then tk.sreg o.b.toNat else th.reg o.b.toNat).toNat
    let d := fun th : Thread => (th.reg o.d.toNat).toNat
    let put := fun (r : Task → Thread → Nat × FFlags) (_ : Nat) (tk : Task) (th : Thread) =>
      Thread.next { th.setReg o.d.toNat (BitVec.ofNat 32 (r tk th).1) with fpflags := th.fpflags ||| (r tk th).2.bits }
    Does (.fadd o) s o.g (put fun tk th => f32.add (mode th) (a th) (b tk th)) ∧
    Does (.fsub o) s o.g (put fun tk th => f32.sub (mode th) (a th) (b tk th)) ∧
    Does (.fmul o) s o.g (put fun tk th => f32.mul (mode th) (a th) (b tk th)) ∧
    Does (.ffma o) s o.g (put fun tk th => f32.fma (mode th) (a th) (b tk th) (d th)) ∧
    Does (.fdiv o) s o.g (put fun tk th => f32.div (mode th) (a th) (b tk th))) ∧
  (∀ (o : UnR) (s : State), o.r.toNat ≤ 4 → Clear s o.g [o.d.toNat, o.a.toNat] →
    let mode := fun th : Thread =>
      FMode.mk (if o.r = 0 then th.fpmode.toNat % 4 else o.r.toNat - 1) (th.fpmode.getLsbD 2)
    let put := fun (r : FMode → Nat → Nat × FFlags) (_ : Nat) (_ : Task) (th : Thread) =>
      let x := r (mode th) (th.reg o.a.toNat).toNat
      Thread.next { th.setReg o.d.toNat (BitVec.ofNat 32 x.1) with fpflags := th.fpflags ||| x.2.bits }
    Does (.fsqrt o) s o.g (put f32.sqrt) ∧ Does (.frcp o) s o.g (put f32.rcp) ∧
    Does (.frsq o) s o.g (put f32.rsq) ∧ Does (.frnd o) s o.g (put f32.rnd)) ∧
  (∀ (o : Un) (s : State), Clear s o.g [o.d.toNat, o.a.toNat] →
    let put := fun (r : Bool → Nat → Nat × FFlags) (_ : Nat) (_ : Task) (th : Thread) =>
      let x := r (th.fpmode.getLsbD 2) (th.reg o.a.toNat).toNat
      Thread.next { th.setReg o.d.toNat (BitVec.ofNat 32 x.1) with fpflags := th.fpflags ||| x.2.bits }
    Does (.fex2 o) s o.g (put fex2) ∧ Does (.flg2 o) s o.g (put flg2) ∧
    Does (.fsin o) s o.g (put (fsincos false)) ∧ Does (.fcos o) s o.g (put (fsincos true)))

/-- R182, R186, R198, R200: what the rounded operations make of NaNs, infinities and exact zeros, whatever the mode: a NaN
result is the canonical NaN, a signalling operand raises invalid, infinity minus infinity and zero times infinity are
invalid, another sum, difference or product with an infinity is that infinity without a flag, FFMA included, and an exact zero
sum of opposite values is −0 in RD alone.
R199: the special operands of the division and root words, and FRND, which rounds a finite value to the integral value of its
mode and never raises inexact. -/
def Obligations.FloatSpecials : Prop :=
  (∀ (md : FMode) (a b d : Nat),
    ((f32.isNan a = true ∨ f32.isNan b = true) →
      (f32.add md a b).1 = 0x7FC00000 ∧ (f32.sub md a b).1 = 0x7FC00000 ∧ (f32.mul md a b).1 = 0x7FC00000 ∧
      (f32.div md a b).1 = 0x7FC00000 ∧
      (f32.add md a b).2 = (if f32.isSig a || f32.isSig b then FFlags.inv else FFlags.none) ∧
      (f32.sub md a b).2 = (if f32.isSig a || f32.isSig b then FFlags.inv else FFlags.none) ∧
      (f32.mul md a b).2 = (if f32.isSig a || f32.isSig b then FFlags.inv else FFlags.none) ∧
      (f32.div md a b).2 = (if f32.isSig a || f32.isSig b then FFlags.inv else FFlags.none)) ∧
    (let inf := fun neg : Bool => ((if neg then 0xFF800000 else 0x7F800000, FFlags.none) : Nat × FFlags)
     let bad : Nat × FFlags := (0x7FC00000, FFlags.inv)
     -- zero times infinity, in this order or the other
     let zi := fun x y : FVal => match x, y with
      | .fin _ m _, .inf _ => m = 0
      | .inf _, .fin _ m _ => m = 0
      | _, _ => False
     let x := f32.read md a
     let y := f32.read md b
     ((f32.isNan a = true ∨ f32.isNan b = true ∨ f32.isNan d = true ∨ zi x y) →
       (f32.fma md a b d).1 = 0x7FC00000 ∧
       ((f32.fma md a b d).2 = FFlags.inv ↔ f32.isSig a = true ∨ f32.isSig b = true ∨ f32.isSig d = true ∨ zi x y) ∧
       ((f32.fma md a b d).2 = FFlags.inv ∨ (f32.fma md a b d).2 = FFlags.none)) ∧
     (zi x y → f32.mul md a b = bad) ∧
     (∀ n k, x = .inf n → y = .inf k →
       f32.add md a b = (if n = k then inf n else bad) ∧ f32.sub md a b = (if n = k then bad else inf n) ∧
       f32.mul md a b = inf (n != k)) ∧
     (∀ n k m e, x = .inf n → y = .fin k m e →
       f32.add md a b = inf n ∧ f32.add md b a = inf n ∧ f32.sub md a b = inf n ∧ f32.sub md b a = inf (!n) ∧
       f32.div md a b = inf (n != k) ∧ (m ≠ 0 → f32.mul md a b = inf (n != k) ∧ f32.mul md b a = inf (n != k))) ∧
     (∀ n, mulVal x y = .inf n →
       (∀ k m e, f32.read md d = .fin k m e → f32.fma md a b d = inf n) ∧
       (∀ k, f32.read md d = .inf k → f32.fma md a b d = if n = k then inf n else bad)) ∧
     (∀ n k m1 e1 m2 e2 z, x = .fin n m1 e1 → y = .fin k m2 e2 → f32.read md d = .inf z → f32.fma md a b d = inf z)) ∧
    (a < 0x7F800000 → md.flush = false →
      f32.add md a (a + 0x80000000) =
        (if md.rm = 2 then 0x80000000 else 0, FFlags.none))) ∧
  (∀ (md : FMode) (x : Nat),
    (0 < x → x < 0x7F800000 → (md.flush = true → 0x00800000 ≤ x) →
      f32.div md x 0 = (0x7F800000, ⟨false, true, false, false, false⟩) ∧
      f32.div md (x + 0x80000000) 0 = (0xFF800000, ⟨false, true, false, false, false⟩) ∧
      f32.div md x 0x80000000 = (0xFF800000, ⟨false, true, false, false, false⟩) ∧
      f32.div md (x + 0x80000000) 0x80000000 = (0x7F800000, ⟨false, true, false, false, false⟩) ∧
      f32.sqrt md (x + 0x80000000) = (0x7FC00000, FFlags.inv) ∧
      f32.rsq md (x + 0x80000000) = (0x7FC00000, FFlags.inv) ∧
      f32.div md 0 x = (0, FFlags.none) ∧ f32.div md 0 (x + 0x80000000) = (0x80000000, FFlags.none) ∧
      f32.div md 0x80000000 x = (0x80000000, FFlags.none) ∧ f32.div md 0x80000000 (x + 0x80000000) = (0, FFlags.none)) ∧
    (x < 0x7F800000 →
      f32.div md 0x7F800000 x = (0x7F800000, FFlags.none) ∧ f32.div md 0x7F800000 (x + 0x80000000) = (0xFF800000, FFlags.none) ∧
      f32.div md 0xFF800000 x = (0xFF800000, FFlags.none) ∧ f32.div md 0xFF800000 (x + 0x80000000) = (0x7F800000, FFlags.none) ∧
      f32.div md x 0x7F800000 = (0, FFlags.none) ∧ f32.div md (x + 0x80000000) 0x7F800000 = (0x80000000, FFlags.none) ∧
      f32.div md x 0xFF800000 = (0x80000000, FFlags.none) ∧ f32.div md (x + 0x80000000) 0xFF800000 = (0, FFlags.none)) ∧
    (f32.div md 0 0 = (0x7FC00000, FFlags.inv) ∧ f32.div md 0x80000000 0 = (0x7FC00000, FFlags.inv) ∧
      f32.div md 0 0x80000000 = (0x7FC00000, FFlags.inv) ∧ f32.div md 0x80000000 0x80000000 = (0x7FC00000, FFlags.inv) ∧
      f32.div md 0x7F800000 0x7F800000 = (0x7FC00000, FFlags.inv) ∧
      f32.div md 0xFF800000 0x7F800000 = (0x7FC00000, FFlags.inv) ∧
      f32.div md 0x7F800000 0xFF800000 = (0x7FC00000, FFlags.inv) ∧
      f32.div md 0xFF800000 0xFF800000 = (0x7FC00000, FFlags.inv)) ∧
    (f32.sqrt md 0 = (0, FFlags.none) ∧ f32.sqrt md 0x80000000 = (0x80000000, FFlags.none) ∧ f32.sqrt md 0x7F800000 = (0x7F800000, FFlags.none) ∧
      f32.sqrt md 0xFF800000 = (0x7FC00000, FFlags.inv) ∧
      f32.rcp md 0 = (0x7F800000, ⟨false, true, false, false, false⟩) ∧
      f32.rcp md 0x80000000 = (0xFF800000, ⟨false, true, false, false, false⟩) ∧
      f32.rcp md 0x7F800000 = (0, FFlags.none) ∧ f32.rcp md 0xFF800000 = (0x80000000, FFlags.none) ∧
      f32.rsq md 0 = (0x7F800000, ⟨false, true, false, false, false⟩) ∧
      f32.rsq md 0x80000000 = (0xFF800000, ⟨false, true, false, false, false⟩) ∧
      f32.rsq md 0x7F800000 = (0, FFlags.none) ∧ f32.rsq md 0xFF800000 = (0x7FC00000, FFlags.inv)) ∧
    (f32.rnd md 0x7F800000 = (0x7F800000, FFlags.none) ∧ f32.rnd md 0xFF800000 = (0xFF800000, FFlags.none) ∧
      f32.rnd md 0 = (0, FFlags.none) ∧ f32.rnd md 0x80000000 = (0x80000000, FFlags.none)) ∧
    (∀ y : Nat, (f32.rnd md y).2.inexact = false ∧ (f32.rnd md y).2.invalid = f32.isSig y) ∧
    (∀ y neg m e q, md.rm ≤ 3 → f32.read md y = .fin neg m e → RoundsTo md.rm neg ((m : ℝ) * (2 : ℝ) ^ e) q →
      (∃ m' e', f32.value (f32.rnd md y).1 = .fin neg m' e' ∧ (m' : ℝ) * (2 : ℝ) ^ e' = q) ∧ (f32.rnd md y).1 < 4294967296 ∧
        (f32.rnd md y).2 = FFlags.none) ∧
    (∀ y : Nat, f32.isNan y = true →
      let r : Nat × FFlags := (0x7FC00000, if f32.isSig y then FFlags.inv else FFlags.none)
      f32.div md y x = (0x7FC00000, if f32.isSig y || f32.isSig x then FFlags.inv else FFlags.none) ∧
      f32.sqrt md y = r ∧ f32.rcp md y = r ∧ f32.rsq md y = r ∧ f32.rnd md y = r))

/-- R200: FMIN and FMAX give the lesser and the greater operand, −0 below +0; a NaN gives way to a number, two give the
canonical NaN, and a signalling one raises invalid. Operands are read under flush (R185). The same of `f32.minmax`, which the words and
R153, R218 use. -/
def Obligations.MinMaxWords : Prop :=
  (∀ (o : Bin) (s : State), Clear s o.g (binRegs o.d o.a o.b o.sb) →
    let read := fun (th : Thread) (x : Word) =>
      if th.fpmode.getLsbD 2 && x.toNat % 0x80000000 < 0x00800000 then x &&& 0x80000000 else x
    let nan := fun x : Word => 0x7F800000 < x.toNat % 0x80000000
    let sig := fun x : Word => 0x7F800000 < x.toNat % 0x80000000 ∧ x.getLsbD 22 = false
    let a := fun th : Thread => read th (th.reg o.a.toNat)
    let b := fun (tk : Task) (th : Thread) => read th (if o.sb then tk.sreg o.b.toNat else th.reg o.b.toNat)
    -- the values that are not NaNs in order, −0 below +0
    let below := fun x y : Word =>
      if x.msb then (y.msb = false ∨ y.toNat ≤ x.toNat) else y.msb = false ∧ x.toNat ≤ y.toNat
    let put := fun (pick : Word → Word → Word) (_ : Nat) (tk : Task) (th : Thread) =>
      let x := a th
      let y := b tk th
      Thread.next { th.setReg o.d.toNat (if nan x ∧ nan y then 0x7FC00000 else if nan x then y else if nan y then x else pick x y) with
        fpflags := th.fpflags ||| (if sig x ∨ sig y then 1 else 0) }
    Does (.fmin o) s o.g (put fun x y => if below x y then x else y) ∧
    Does (.fmax o) s o.g (put fun x y => if below y x then x else y)) ∧
  (∀ (md : FMode) (x y : Word),
    let read := fun x : Word => if md.flush && x.toNat % 0x80000000 < 0x00800000 then x &&& 0x80000000 else x
    let nan := fun x : Word => 0x7F800000 < x.toNat % 0x80000000
    let sig := fun x : Word => 0x7F800000 < x.toNat % 0x80000000 ∧ x.getLsbD 22 = false
    let a := read x
    let b := read y
    let below := fun x y : Word =>
      if x.msb then (y.msb = false ∨ y.toNat ≤ x.toNat) else y.msb = false ∧ x.toNat ≤ y.toNat
    let gives := fun pick : Word =>
      ((if nan a ∧ nan b then (0x7FC00000 : Word) else if nan a then b else if nan b then a else pick).toNat,
        if sig a ∨ sig b then FFlags.inv else FFlags.none)
    f32.minmax md false x.toNat y.toNat = gives (if below a b then a else b) ∧
    f32.minmax md true x.toNat y.toNat = gives (if below b a then a else b)) ∧
  (∀ w : Word, fMaj w = 0x1E →
    (fX w % 8 = 0 → decode w = .ok (.fmin (binOf w))) ∧ (fX w % 8 = 1 → decode w = .ok (.fmax (binOf w))) ∧
    (2 ≤ fX w % 8 → decode w = .error .illegalInstruction))

/-- R201: FCMP writes a predicate pair and raises invalid as its table says; +0 equals −0. -/
def Obligations.FloatCompare : Prop :=
  (∀ (o : Cmp) (s : State), o.x.toNat ≤ 4 → Clear s o.g [o.a.toNat, o.b.toNat] →
    Does (.fcmp o) s o.g fun _ _ th =>
      let read := fun (x : Word) =>
        if th.fpmode.getLsbD 2 && x.toNat % 0x80000000 < 0x00800000 then x &&& 0x80000000 else x
      let a := read (th.reg o.a.toNat)
      let b := read (th.reg o.b.toNat)
      let nan := fun x : Word => decide (0x7F800000 < x.toNat % 0x80000000)
      let sig := fun x : Word => nan x && !x.getLsbD 22
      let num := fun x : Word => if x.msb then -((x.toNat % 0x80000000 : Nat) : Int) else x.toNat
      let c : Bool :=
        if o.x = 0 then !(nan a || nan b) && decide (num a = num b)
        else if o.x = 1 then nan a || nan b || decide (num a ≠ num b)
        else if o.x = 2 then !(nan a || nan b) && decide (num a < num b)
        else if o.x = 3 then !(nan a || nan b) && decide (num a ≤ num b)
        else nan a || nan b
      let invalid : Bool := if o.x = 2 ∨ o.x = 3 then nan a || nan b else sig a || sig b
      let th1 := (if o.f = 0 then id else fun x : Thread => x.setPred o.f.toNat (!c))
        (if o.t = 0 then th else th.setPred o.t.toNat c)
      Thread.next { th1 with fpflags := th.fpflags ||| (if invalid then 1 else 0) }) ∧
  (∀ w : Word, fMaj w = 0x20 →
    let pt := w.toNat / 65536 % 8
    let pf := w.toNat / 524288 % 8
    (5 ≤ fX w → decode w = .error .illegalInstruction) ∧
    (fX w ≤ 4 → pt = pf → pt ≠ 0 → decode w = .error .illegalOperand) ∧
    (fX w ≤ 4 → (pt ≠ pf ∨ pt = 0) → decode w = .ok (.fcmp
      ⟨fC w, fG w, BitVec.ofNat 3 pf, BitVec.ofNat 3 pt, fA w, fB w, BitVec.ofNat 3 (fX w)⟩)))

/-- R188, R202, R203: FCVT converts by its pair, each pair written out: a float result is the operand's value rounded once to the
target (FloatRounding says how), with flush on F32 and BF16 alone; the integer results saturate (IntegerConversion says how) and
are sign- or zero-extended; BF16 is read from and written to the low half, and FA40 and INT40 stand in register pairs (R177),
which must be even.
That a saturating conversion to INT40.S32 raises invalid alone is the model's reading (log entry 118). -/
def Obligations.ConversionWord : Prop :=
  (∀ (o : Cvt) (s : State), o.p.toNat ≤ 28 → o.r.toNat ≤ 4 → Clear s o.g (cvtRegs o.p.toNat o.d.toNat o.a.toNat) →
    let mode := fun th : Thread =>
      FMode.mk (if o.r = 0 then th.fpmode.toNat % 4 else o.r.toNat - 1) (th.fpmode.getLsbD 2)
    Does (.fcvt o) s o.g (fun _ _ th => (th.convert o.p.toNat o.d.toNat o.a.toNat (mode th)).next)) ∧
  (∀ (th : Thread) (d a : Nat) (md : FMode),
    let low := (th.reg a).toNat
    let half := low % 65536
    let acc := low + (th.reg (a + 1)).toNat % 256 * 4294967296
    let acc40 := (BitVec.ofNat 40 acc).toInt
    -- under flush in F32 and BF16 alone (R185)
    let in' := fun f : FFmt => FMode.mk md.rm (md.flush && f != fa40)
    let float := fun (f g : FFmt) (n : Nat) =>
      match f.read (in' f) n with
      | .nan sig => (g.nan, if sig then FFlags.inv else FFlags.none)
      | .inf neg => (g.inf neg, FFlags.none)
      | .fin neg m e => g.round (in' g) neg m e
    let ofInt := fun (g : FFmt) (x : Int) => g.round (in' g) (decide (x < 0)) x.natAbs 0
    let one := fun r : Nat × FFlags => { th.setReg d (BitVec.ofNat 32 r.1) with fpflags := th.fpflags ||| r.2.bits }
    let two := fun r : Nat × FFlags =>
      { (th.setReg d (BitVec.ofNat 32 r.1)).setReg (d + 1) (BitVec.ofNat 32 (r.1 / 4294967296)) with
        fpflags := th.fpflags ||| r.2.bits }
    let int := fun r : Int × FFlags => { th.setReg d (BitVec.ofInt 32 r.1) with fpflags := th.fpflags ||| r.2.bits }
    let int40 := fun r : Int × FFlags =>
      { (th.setReg d (BitVec.ofInt 32 r.1)).setReg (d + 1) (BitVec.ofInt 32 (r.1 / 4294967296)) with
        fpflags := th.fpflags ||| r.2.bits }
    let cvt := fun p => th.convert p d a md
    cvt 0 = one (float f32 bf16 low) ∧ cvt 1 = one (float bf16 f32 half) ∧
    cvt 2 = two (float f32 fa40 low) ∧ cvt 3 = two (float bf16 fa40 half) ∧
    cvt 4 = one (float fa40 f32 acc) ∧ cvt 5 = one (float fa40 bf16 acc) ∧
    cvt 6 = int (cvtToInt f32 md (-2147483648) 2147483647 low) ∧ cvt 7 = int (cvtToInt f32 md 0 4294967295 low) ∧
    cvt 8 = int (cvtToInt f32 md (-32768) 32767 low) ∧ cvt 9 = int (cvtToInt f32 md 0 65535 low) ∧
    cvt 10 = int (cvtToInt f32 md (-128) 127 low) ∧ cvt 11 = int (cvtToInt f32 md 0 255 low) ∧
    cvt 12 = int (cvtToInt fa40 md (-2147483648) 2147483647 acc) ∧ cvt 13 = int (cvtToInt fa40 md 0 4294967295 acc) ∧
    cvt 14 = int (cvtToInt fa40 md (-32768) 32767 acc) ∧ cvt 15 = int (cvtToInt fa40 md 0 65535 acc) ∧
    cvt 16 = int (cvtToInt fa40 md (-128) 127 acc) ∧ cvt 17 = int (cvtToInt fa40 md 0 255 acc) ∧
    cvt 18 = int40 (cvtToInt fa40 md (-549755813888) 549755813887 acc) ∧
    cvt 19 = one (ofInt f32 (th.reg a).toInt) ∧ cvt 20 = one (ofInt f32 low) ∧
    cvt 21 = one (ofInt bf16 (th.reg a).toInt) ∧ cvt 22 = one (ofInt bf16 low) ∧
    cvt 23 = two (ofInt fa40 (th.reg a).toInt) ∧ cvt 24 = two (ofInt fa40 low) ∧
    cvt 25 = two (ofInt fa40 acc40) ∧ cvt 26 = one (ofInt f32 acc40) ∧
    cvt 27 = int (if acc40 < -2147483648 then (-2147483648, FFlags.inv) else if 2147483647 < acc40 then (2147483647, FFlags.inv)
      else (acc40, FFlags.none)) ∧
    cvt 28 = int40 ((th.reg a).toInt, FFlags.none)) ∧
  (∀ w : Word, fMaj w = 0x21 → fX w ≤ 4 →
    let p := (fB w).toNat
    let pairA := p = 4 ∨ p = 5 ∨ (12 ≤ p ∧ p ≤ 18) ∨ (25 ≤ p ∧ p ≤ 27)
    let pairD := p = 2 ∨ p = 3 ∨ p = 18 ∨ (23 ≤ p ∧ p ≤ 25) ∨ p = 28
    (29 ≤ p → decode w = .error .illegalInstruction) ∧
    (p ≤ 28 → (pairA ∧ (fA w).toNat % 2 = 1 ∨ pairD ∧ (fD w).toNat % 2 = 1) → decode w = .error .illegalOperand) ∧
    (p ≤ 28 → ¬ (pairA ∧ (fA w).toNat % 2 = 1 ∨ pairD ∧ (fD w).toNat % 2 = 1) →
      decode w = .ok (.fcvt ⟨fC w, fG w, fD w, fA w, fB w, BitVec.ofNat 3 (fX w)⟩)))

/-- R189: a float-to-integer conversion saturates: a NaN gives 0, a value above the range its maximum, below it its minimum,
each with invalid alone; otherwise the rounded integer, inexact where rounding changed it. -/
def Obligations.IntegerConversion : Prop :=
  ∀ (f : FFmt) (md : FMode) (lo hi : Int) (n : Nat), lo ≤ 0 → 0 ≤ hi →
    let r := cvtToInt f md lo hi n
    lo ≤ r.1 ∧ r.1 ≤ hi ∧
    (match f.read ⟨md.rm, md.flush && f.sig⟩ n with
     | .nan _ => r = (0, FFlags.inv)
     | .inf neg => r = (if neg then lo else hi, FFlags.inv)
     | .fin neg m e =>
       let q := roundUnits md.rm neg m e 0
       let x : Int := if neg then -(q.1 : Int) else q.1
       r = if x < lo then (lo, FFlags.inv) else if hi < x then (hi, FFlags.inv) else (x, ⟨false, false, false, false, q.2⟩))

/-- R183: the one rounding function: an exact multiple of the unit is unchanged in every mode; otherwise the result is one of
the two neighbours, toward zero in RZ, away from zero in RD for a negative value and in RU for a positive one, and in RN
the nearer one, of two equally near the even one. -/
def Obligations.RoundingModes : Prop :=
  ∀ (rm : Nat) (neg : Bool) (m k : Nat), rm ≤ 3 →
    let d := 2 ^ k
    let r := roundUnits rm neg m 0 k
    (m % d = 0 → r = (m / d, false)) ∧
    (m % d ≠ 0 → r.2 = true ∧
      (rm = 1 → r.1 = m / d) ∧
      (rm = 2 → r.1 = if neg then m / d + 1 else m / d) ∧
      (rm = 3 → r.1 = if neg then m / d else m / d + 1) ∧
      (rm = 0 → (2 * (m % d) < d → r.1 = m / d) ∧ (d < 2 * (m % d) → r.1 = m / d + 1) ∧
        (2 * (m % d) = d → r.1 % 2 = 0 ∧ (r.1 = m / d ∨ r.1 = m / d + 1))))

/-- R174 to R176, R183 to R186, R197, R198: the values of F32 and BF16 patterns, and that the sum, difference, product, fused
multiply-add, quotient, root and reciprocals of finite operands, read under flush, are the exact result rounded once in the mode:
overflow, underflow, flush and inexact as `Rounds` says; an exact zero has its sign and no flag. -/
def Obligations.FloatRounding : Prop :=
  (∀ (neg : Bool) (e m : Nat), e < 256 →
    (m < 8388608 →
      let n := (if neg then 2147483648 else 0) + e * 8388608 + m
      f32.value n = if e = 255 then (if m = 0 then .inf neg else .nan (decide (m < 4194304)))
        else if e = 0 then .fin neg m (-149) else .fin neg (m + 8388608) (e - 150)) ∧
    (m < 128 →
      let n := (if neg then 32768 else 0) + e * 128 + m
      bf16.value n = if e = 255 then (if m = 0 then .inf neg else .nan (decide (m < 64)))
        else if e = 0 then .fin neg m (-133) else .fin neg (m + 128) (e - 134))) ∧
  (∀ (neg : Bool) (e m : Nat), e < 512 → m < 1073741824 →
    fa40.value ((if neg then 549755813888 else 0) + e * 1073741824 + m) =
      if e = 511 then (if m = 0 then .inf neg else .nan false)
      else if e = 0 then .fin neg m (-284) else .fin neg (m + 1073741824) (e - 285)) ∧
  (∀ f ∈ [f32, bf16, fa40], ∀ md : FMode, md.rm ≤ 3 →
    let realOf := fun (neg : Bool) (m : Nat) (e : Int) => (if neg then -(m : ℝ) else m) * (2 : ℝ) ^ e
    (∀ (neg : Bool) (m : Nat) (e : Int), m ≠ 0 → Rounds f md (realOf neg m e) (f.round md neg m e)) ∧
    (∀ a b d : Nat, ∀ na ma ea nb mb eb nd md' ed,
      f.read md a = .fin na ma ea → f.read md b = .fin nb mb eb → f.read md d = .fin nd md' ed →
      let x := realOf na ma ea
      let y := realOf nb mb eb
      let z := realOf nd md' ed
      let zero := fun neg : Bool => (f.zero neg, FFlags.none)
      (x + y ≠ 0 → Rounds f md (x + y) (f.add md a b)) ∧
      (x + y = 0 → f.add md a b = zero (if x = 0 ∧ na = nb then na else md.rm == 2)) ∧
      (x - y ≠ 0 → Rounds f md (x - y) (f.sub md a b)) ∧
      (x - y = 0 → f.sub md a b = zero (if x = 0 ∧ na ≠ nb then na else md.rm == 2)) ∧
      (x * y ≠ 0 → Rounds f md (x * y) (f.mul md a b)) ∧
      (x * y = 0 → f.mul md a b = zero (na != nb)) ∧
      (x * y + z ≠ 0 → Rounds f md (x * y + z) (f.fma md a b d)) ∧
      (x * y + z = 0 → f.fma md a b d = zero (if z = 0 ∧ (na != nb) = nd then nd else md.rm == 2)) ∧
      (x ≠ 0 → y ≠ 0 → Rounds f md (x / y) (f.div md a b)) ∧
      (x ≠ 0 → Rounds f md (1 / x) (f.rcp md a)) ∧
      (0 < x → Rounds f md (Real.sqrt x) (f.sqrt md a)) ∧
      (0 < x → Rounds f md (1 / Real.sqrt x) (f.rsq md a))))

/-- R205: the tables and constants of the special functions are the nearest integers to their values. -/
def Obligations.SpecialConstants : Prop :=
  let near := fun (c : Int) (x : ℝ) => |x * 2 ^ 30 - c| < 1 / 2
  (∀ j : Nat, j < 64 →
    near (tab tabET j) ((2 : ℝ) ^ ((j : ℝ) / 64)) ∧ near (tab tabLR j) (64 / (64 + j)) ∧
    near (tab tabLL j) (-Real.logb 2 (tab tabLR j / 2 ^ 30)) ∧
    near (tab tabSN j) (Real.sin (2 * Real.pi * j / 256)) ∧ near (tab tabCS j) (Real.cos (2 * Real.pi * j / 256))) ∧
  near conEC1 (Real.log 2) ∧ near conEC2 (Real.log 2 ^ 2 / 2) ∧ near conEC3 (Real.log 2 ^ 3 / 6) ∧
  near conK3 (1 / 3) ∧ near conKL (1 / Real.log 2) ∧ near conTP (2 * Real.pi) ∧ near conK6 (1 / 6) ∧ near conK24 (1 / 24)

/-- R205 to R208: FEX2, FLG2, FSIN and FCOS of a NaN, an infinity and a zero, and the bits they deliver for every other operand: the
computations on integers, whose last step is the rounding of FloatRounding, with the constants of SpecialConstants. -/
def Obligations.SpecialFunctions : Prop :=
  (∀ (fl : Bool) (a : Nat), a < 4294967296 →
    let hi := fun x y : Int => x * y / 1073741824
    let rnd := fun (v : Int) (e : Int) => (f32.round ⟨0, fl⟩ (decide (v < 0)) v.natAbs e).1
    match f32.read ⟨0, fl⟩ a with
    | .nan sig => ∀ r ∈ [fex2 fl a, flg2 fl a, fsincos false fl a, fsincos true fl a],
        r = (0x7FC00000, if sig then FFlags.inv else FFlags.none)
    | .inf neg =>
      fex2 fl a = (if neg then 0 else 0x7F800000, FFlags.none) ∧
      flg2 fl a = (if neg then (0x7FC00000, FFlags.inv) else (0x7F800000, FFlags.none)) ∧
      fsincos false fl a = (0x7FC00000, FFlags.inv) ∧ fsincos true fl a = (0x7FC00000, FFlags.inv)
    | .fin neg m e =>
      let x := (if neg then -(m : ℝ) else m) * (2 : ℝ) ^ e
      (128 ≤ x → fex2 fl a = (0x7F800000, ⟨false, false, true, false, true⟩)) ∧
      (x < -150 → fex2 fl a = (0, ⟨false, false, false, true, true⟩)) ∧
      (-150 ≤ x → x < 128 → ∀ k : Int, NearestTo (x * 2 ^ 24) k →
        let f := k % 16777216
        let g := f % 262144 * 64
        let q := 1073741824 + hi g (conEC1 + hi g (conEC2 + hi g conEC3))
        (fex2 fl a).1 = rnd (hi (tab tabET (f / 262144)) q) (k / 16777216 - 30)) ∧
      (m = 0 → flg2 fl a = (0xFF800000, ⟨false, true, false, false, false⟩)) ∧
      (m ≠ 0 → neg = true → flg2 fl a = (0x7FC00000, FFlags.inv)) ∧
      (∀ (mm : Nat) (ex : Int), 8388608 ≤ mm → mm < 16777216 → x = (mm : ℝ) * (2 : ℝ) ^ (ex - 23) →
        let j : Int := mm / 131072 % 64
        let u := hi (mm * 128) (tab tabLR j) - 1073741824
        let u2 := hi u u
        let u3 := hi u2 u
        let u4 := hi u2 u2
        let h := u - u2 / 2 + hi u3 conK3 - u4 / 4
        (flg2 fl a).1 = rnd (ex * 1073741824 + tab tabLL j + hi h conKL) (-30)) ∧
      (|x| < 1 / 65536 → (fsincos false fl a).1 = (f32.round ⟨0, fl⟩ neg (m * 0xC90FDB) (e - 21)).1) ∧
      (∀ (cosine : Bool) (k : Int), cosine = true ∨ 1 / 65536 ≤ |x| → NearestTo (x * 2 ^ 32) k →
        let w := (if cosine then k + 1073741824 else k) % 4294967296
        let t := w % 1073741824
        let j := t / 16777216
        let b := (t % 16777216) * conTP / 4294967296
        let b2 := hi b b
        let sb := b - hi b (hi b2 conK6)
        let cb := 1073741824 - b2 / 2 + hi (hi b2 b2) conK24
        let sn := hi (tab tabSN j) cb + hi (tab tabCS j) sb
        let cs := hi (tab tabCS j) cb - hi (tab tabSN j) sb
        let v := if w / 1073741824 = 0 then sn else if w / 1073741824 = 1 then cs else if w / 1073741824 = 2 then -sn else -cs
        (fsincos cosine fl a).1 = rnd v (-30)))

/-- R204: the BF16 pair words round each half once to BF16 (FloatRounding says how); the flags are the OR of both halves'. -/
def Obligations.PairWords : Prop :=
  ∀ (o : Bin) (s : State), Clear s o.g (binRegs o.d o.a o.b o.sb) →
    let mode := fun th : Thread => FMode.mk (th.fpmode.toNat % 4) (th.fpmode.getLsbD 2)
    let put := fun (r : FMode → Nat → Nat → Nat → Nat × FFlags) (_ : Nat) (tk : Task) (th : Thread) =>
      let a := th.reg o.a.toNat
      let b := if o.sb then tk.sreg o.b.toNat else th.reg o.b.toNat
      let d := th.reg o.d.toNat
      let lo := r (mode th) (a.toNat % 65536) (b.toNat % 65536) (d.toNat % 65536)
      let hi := r (mode th) (a.toNat / 65536) (b.toNat / 65536) (d.toNat / 65536)
      Thread.next { th.setReg o.d.toNat (BitVec.ofNat 32 (lo.1 + hi.1 * 65536)) with
        fpflags := th.fpflags ||| (lo.2.bits ||| hi.2.bits) }
    Does (.badd2 o) s o.g (put fun m a b _ => bf16.add m a b) ∧
    Does (.bmul2 o) s o.g (put fun m a b _ => bf16.mul m a b) ∧
    Does (.bfma2 o) s o.g (put fun m a b d => bf16.fma m a b d)

/-! ## Special registers and draws -/

/-- R27, R52, R85, R86: SYSRD to V(D) reads each special register, either half; DTIME keeps its high half for a high read that
follows. What a word of the chain or another squad may change reads as it stood before the chain.
R52, R69, R85, R86: SYSRD to S(D) is a scalar word, on a register that no thread owns.
R28, R87: SYSWR writes a thread-owned register, or one half of a 64-bit one; a reserved bit of FPMODE or FPFLAGS is an
illegal-operand fault that leaves the register; RNGKEY is written once for the issue.
That bits of TADDR and TINFO which no rule names are 0 is the model's reading (log entry 54). -/
def Obligations.SpecialRegisters : Prop :=
  (∀ (o : SysOp) (s : State), o.k = false → o.a.toNat ≤ 0x12 → Clear s o.g [o.d.toNat] →
    Does (.sysrd o) s o.g fun t tk th =>
      let x : Nat := match o.a.toNat with
        | 0x00 => t
        | 0x01 => tk.rcd.ntid
        | 0x02 => tk.rcd.tidx
        | 0x03 => tk.rcd.accn
        | 0x04 => tk.bnd.toNat
        | 0x05 => tk.bsel.toNat
        | 0x06 => th.cmem.toNat
        | 0x07 => (match th.base with | some b => b.dtime | none => s.dtime) % 18446744073709551616
        | 0x08 => th.fpmode.toNat
        | 0x09 => (match th.base with | some b => b.fpflags | none => th.fpflags).toNat
        | 0x0A => tk.rcd.rreq.toNat / 65536
        | 0x0B => tk.rngkey.toNat
        | 0x0C => (match th.base with | some b => b.rngctr | none => th.rngctr).toNat
        | 0x0D => s.regs.peerid
        | 0x0E => th.tepc.toNat
        | 0x0F => th.tcause.toNat
        | 0x10 => th.taddr.toNat
        | 0x11 => th.tinfo.toNat
        | _ => tk.rcd.flags.toNat % 128 + (if (match th.base with | some b => b.irrevocable | none => tk.irrevocable) then 128 else 0)
      let half := BitVec.ofNat 32 (if o.h then x / 4294967296 else x)
      if o.a = 0x07 then
        Thread.next { th.setReg o.d.toNat (if o.h then th.dtimeHi.getD half else half) with
          dtimeHi := if o.h then none else some (BitVec.ofNat 32 (x / 4294967296)) }
      else (th.setReg o.d.toNat half).next) ∧
  (∀ (o : SysOp) (s : State), o.k = true → o.a.toNat ≤ 0x12 → sysThreadOwned o.a.toNat = false →
    s.issue.lanes.Nodup → s.carried ≠ [] →
    let base := (s.carried.head?.bind (s.thread? s.issue.accn)).bind Thread.base
    DoesOnce (.sysrd o) s fun own tk =>
      let x : Nat := match o.a.toNat with
        | 0x01 => own.rcd.ntid
        | 0x02 => own.rcd.tidx
        | 0x03 => own.rcd.accn
        | 0x04 => own.bnd.toNat
        | 0x05 => own.bsel.toNat
        | 0x07 => (match base with | some b => b.dtime | none => s.dtime) % 18446744073709551616
        | 0x0A => own.rcd.rreq.toNat / 65536
        | 0x0B => own.rngkey.toNat
        | 0x0D => s.regs.peerid
        | _ => own.rcd.flags.toNat % 128 + (if (match base with | some b => b.irrevocable | none => own.irrevocable) then 128 else 0)
      let half := BitVec.ofNat 32 (if o.h then x / 4294967296 else x)
      if o.a = 0x07 then
        { tk.setS o.d.toNat (if o.h then tk.dtimeHi.getD half else half) with
          dtimeHi := if o.h then none else some (BitVec.ofNat 32 (x / 4294967296)) }
      else tk.setS o.d.toNat half) ∧
  ((∀ (o : SysOp) (s : State), sysWritable o.d.toNat = true → o.d ≠ 0x0B → (o.h = true → sysWide o.d.toNat = true) →
    Clear s o.g (if o.k then [] else [o.a.toNat]) →
    let v := fun (tk : Task) (th : Thread) => if o.k then tk.sreg o.a.toNat else th.reg o.a.toNat
    let bad := fun x : Word => (o.d = 0x08 ∧ 8 ≤ x.toNat) ∨ (o.d = 0x09 ∧ 32 ≤ x.toNat)
    (∀ t ∈ s.carried, ∀ tk th, s.task? s.issue.accn = some tk → KMap.get? t tk.threads = some th →
      ¬ bad (v (tk.seen th) th)) →
    Does (.syswr o) s o.g fun _ tk th =>
      let x := v tk th
      let put := fun old : DWord => if o.h then pair (loWord old) x else pair x (hiWord old)
      Thread.next (match o.d.toNat with
        | 0x08 => { th with fpmode := x }
        | 0x09 => { th with fpflags := x }
        | 0x0C => { th with rngctr := x }
        | 0x0E => { th with tepc := put th.tepc }
        | 0x0F => { th with tcause := x.setWidth 16 }
        | 0x10 => { th with taddr := put th.taddr }
        | _ => { th with tinfo := x })) ∧
  (∀ (o : SysOp) (s : State), o.d = 0x0B → o.k = true → s.issue.lanes.Nodup → s.carried ≠ [] →
    DoesOnce (.syswr o) s fun own tk =>
      { tk with rngkey := if o.h then pair (loWord tk.rngkey) (own.sreg o.a.toNat) else pair (own.sreg o.a.toNat) (hiWord tk.rngkey) }) ∧
  (∀ (o : SysOp) (s : State) (t : Nat) (tk : Task) (th : Thread), (o.d = 0x08 ∨ o.d = 0x09) → o.h = false →
    Alone s o.g (if o.k then [] else [o.a.toNat]) t tk th → th.rep = none →
    (if o.d = 0x08 then 8 else 32) ≤ (if o.k then tk.sreg o.a.toNat else th.reg o.a.toNat).toNat →
    s.tvec tk ≠ 0 → th.h = false →
    ∃ s', exec (.syswr o) s = .next s' ∧ OnlyThread s s' s.issue.accn t (th.enterTrap (s.tvec tk) 0x0004 th.pc.toNat 0 0)))

/-- R219: RNG draws from the thread's own counter under the task's key; its F32 form gives the upper 24 bits of the draw times 2^−24,
exact. -/
def Obligations.RandomDraw : Prop :=
  (∀ x : Word, ∃ m e, f32.value (drawF32 x).toNat = .fin false m e ∧
    (m : ℝ) * (2 : ℝ) ^ e = (x.toNat / 256 : Nat) * (2 : ℝ) ^ (-24 : Int)) ∧
  ∀ (o : RngOp) (s : State), o.f ≠ 3 →
    Clear s o.g (if o.f = 2 then [o.d.toNat, o.d.toNat + 1] else [o.d.toNat]) →
    let rnd := fun (z : DWord) =>
      let z := (z ^^^ (z >>> 31)) * 0xC3A59B17E46D2F8B
      let z := (z ^^^ (z >>> 29)) * 0x8F1B6E29D54CA3E7
      z ^^^ (z >>> 32)
    let draw := fun (tk : Task) (t : Nat) (c : Word) =>
      (rnd (rnd (rnd (tk.rngkey ^^^ BitVec.ofNat 64 (t % 4294967296 * 4294967296 + c.toNat))))).setWidth 32
    Does (.rng o) s o.g fun t tk th =>
      let c := th.rngctr
      Thread.next (
        if o.f = 0 then { th.setReg o.d.toNat (draw tk t c) with rngctr := c + 1 }
        else if o.f = 1 then { th.setReg o.d.toNat (drawF32 (draw tk t c)) with rngctr := c + 1 }
        else { (th.setReg o.d.toNat (draw tk t c)).setReg (o.d.toNat + 1) (draw tk t (c + 1)) with rngctr := c + 2 })

/-! ## Control transfer -/

/-- R50, R56, R64, R81: NOP only occupies its slot; BRA goes to P + 12 × DISP modulo 2^57; CALL does too, and writes the address
of the packet after its own to V30 and V31.
R48, R82: RET and BRX go to the address in V(A), V(A + 1)[24:0] where it is a packet address; elsewhere they transfer
nothing and take an illegal-instruction fault with TADDR the address.
That bits of TADDR and TINFO which no rule names are 0 is the model's reading (log entry 54). -/
def Obligations.JumpWords : Prop :=
  (∀ (s : State), s.issue.lanes.Nodup →
    let packet := fun th : Thread => th.pc.toNat / 12 * 12
    let target := fun (th : Thread) (d : BitVec 22) => (((packet th : Nat) + 12 * d.toInt : Int) % 144115188075855872).toNat
    (∀ c, Does (.nop c) s 0 fun _ _ th => th.next) ∧
    (∀ g d, Does (.bra g d) s g fun _ _ th => th.jump (target th d)) ∧
    (∀ g d, Clear s g [30, 31] → Does (.call g d) s g fun _ _ th =>
      let r := (packet th + 12) % 144115188075855872
      ((th.setReg 30 (BitVec.ofNat 32 r)).setReg 31 (BitVec.ofNat 32 (r / 4294967296))).jump (target th d))) ∧
  (∀ (g : BitVec 3) (a : BitVec 6) (s : State),
    let target := fun th : Thread => (th.reg a.toNat).toNat + (th.reg (a.toNat + 1)).toNat % 33554432 * 4294967296
    (Clear s g [a.toNat, a.toNat + 1] →
      (∀ t ∈ s.carried, ∀ th, s.thread? s.issue.accn t = some th → target th % 12 = 0) →
      Does (.ret g a) s g (fun _ _ th => th.jump (target th)) ∧ Does (.brx g a) s g fun _ _ th => th.jump (target th)) ∧
    (∀ t tk th, Alone s g [a.toNat, a.toNat + 1] t tk th → th.rep = none → target th % 12 ≠ 0 → s.tvec tk ≠ 0 →
      th.h = false →
      ∃ s', exec (.ret g a) s = .next s' ∧ exec (.brx g a) s = .next s' ∧
        OnlyThread s s' s.issue.accn t
          (th.enterTrap (s.tvec tk) 0x0001 th.pc.toNat (target th) 0)))

/-- R60, R61: REP starts at repeat 0, or at the repeat that an ERET resumes; past CNT no repeat runs.
R60: a repeat that has completed leads to the next one, with the same word, and the last to the word after it; the word of
repeat i of a VR word of majors 0x04 and 0x0C has i steps added to D, A and B, and a field that would pass 63 ends the
repeats. -/
def Obligations.Repeats : Prop :=
  (∀ (o : RepOp) (s : State), s.issue.lanes.Nodup →
    Does (.rep o) s 0 fun _ _ th =>
      if o.n.toNat < th.repFrom then { th.clear with pc := th.pc + 8 }
      else
        { th.clear with
          pc := th.pc + 4
          rep := some ⟨o.n.toNat, if o.s.getLsbD 2 then 2 ^ o.d.toNat else 0, if o.s.getLsbD 1 then 2 ^ o.a.toNat else 0,
            if o.s.getLsbD 0 then 2 ^ o.b.toNat else 0, th.repFrom⟩ }) ∧
  ((∀ (th : Thread) (r : Rep), th.rep = some r →
    (r.idx < r.cnt → th.next.pc = th.pc ∧ th.next.rep = some { r with idx := r.idx + 1 }) ∧
    (r.cnt ≤ r.idx → th.next.pc = th.pc + 4 ∧ th.next.rep = none)) ∧
  (∀ (c : Bool) (g : BitVec 3) (d a b : BitVec 6) (x : BitVec 4) (maj : Nat) (r : Rep), maj = 0x04 ∨ maj = 0x0C →
    let w : Word := BitVec.ofNat 32 ((if c then 2147483648 else 0) + maj * 33554432 + g.toNat * 4194304 + d.toNat * 65536 +
      a.toNat * 1024 + b.toNat * 16 + x.toNat)
    let ok := fun (f : BitVec 6) (st : Nat) => r.idx * st = 0 ∨ f.toNat + r.idx * st ≤ 63
    repWord w r =
      if ok d r.sd ∧ ok a r.sa ∧ ok b r.sb then
        some (w + BitVec.ofNat 32 (r.idx * r.sd * 65536 + r.idx * r.sa * 1024 + r.idx * r.sb * 16))
      else none))

/-- R83, R212, R233: EXIT ends the thread, when no fault is unreported and no posted operation is unacknowledged, where no meeting is
completed by it; the requests that the
exit completes at the convergence registers of its cluster are formed (`formAll`), and where none is bound nothing else happens. With
the last live thread the task is ENDING.
R387: the first ABORT of an attempt decides how the task stops at its next boundary; ABORT.RETRY in an irrevocable task is an
illegal operand with TINFO n.
R84, R398: BRK stops the thread with TEPC the word after it, TCAUSE 0x0011 and TINFO its code, its registers kept; its image
takes the first free place of the save reserve (the bytes of the image and of the STOP report are not stated here). Under
stop-all the whole task stops.
That BRK leaves TADDR and H, that a thread which finds the save reserve full stops without an image, that unnamed bits of TADDR
and TINFO are 0, and that a posted-store fault comes first at EXIT, is the model's reading or choice, and so is the illegal
operand of ABORT.RETRY in a member immune through its launch (log entries 120, 16, 18, 54, 107). -/
def Obligations.EndingWords : Prop :=
  (∀ (g : BitVec 3) (s : State) (t : Nat) (tk : Task) (th : Thread), Alone s g [] t tk th →
    th.posted = none → (∀ n, th.eflt.getD n none = none) → s.unacked s.issue.accn t = false →
    s.meetings s.issue.accn (s.present g) = s →
    (∃ s1, OnlyThread s s1 s.issue.accn t { th.clear with cond := .exited, rep := none } ∧
      exec (.exit g) s = .next ((s1.formAll s.issue.accn).lastExit s.issue.accn)) ∧
    ((s.cluster (clusterOf tk.core)).cvs = [] → ∃ s', exec (.exit g) s = .next s' ∧
      s'.thread? s.issue.accn t = some { th.clear with cond := .exited, rep := none } ∧
      (∀ b u, ¬ (b = s.issue.accn ∧ u = t) → s'.thread? b u = s.thread? b u) ∧
      { s' with tasks := s.tasks } = s ∧ (∀ k, memRead s'.mem k = memRead s.mem k) ∧
      (∀ tk', s'.task? s.issue.accn = some tk' →
        tk'.phase = if tk.phase = .running ∧ tk'.threads.all (fun p => p.2.cond == .exited) then .ending else tk.phase))) ∧
  (∀ (b : BitVec 6) (s : State) (t : Nat) (tk : Task) (th : Thread), Alone s 0 [] t tk th →
    (tk.stop = none →
      ∃ s', exec (.abort false b) s = .next s' ∧ s'.thread? s.issue.accn t = some th.next ∧
        (s'.task? s.issue.accn).map Task.stop = some (some ⟨.aborted b.toNat, some t, 0, 0, th.pc.toNat, 0, th.h⟩) ∧
        (∀ c u, ¬ (c = s.issue.accn ∧ u = t) → s'.thread? c u = s.thread? c u) ∧ { s' with tasks := s.tasks } = s) ∧
    (tk.stop = none → s.immune tk = false →
      ∃ s', exec (.abort true b) s = .next s' ∧ s'.thread? s.issue.accn t = some th.next ∧
        (s'.task? s.issue.accn).map Task.stop = some (some ⟨.retry b.toNat, some t, 0, 0, th.pc.toNat, 0, th.h⟩) ∧
        (∀ c u, ¬ (c = s.issue.accn ∧ u = t) → s'.thread? c u = s.thread? c u) ∧ { s' with tasks := s.tasks } = s) ∧
    (s.immune tk = true → s.tvec tk ≠ 0 → th.h = false → th.rep = none →
      ∃ s', exec (.abort true b) s = .next s' ∧
        OnlyThread s s' s.issue.accn t (th.enterTrap (s.tvec tk) 0x0004 th.pc.toNat 0 (b.setWidth 32)))) ∧
  (∀ (c : Bool) (g : BitVec 3) (b : BitVec 6) (s : State) (t : Nat) (tk : Task) (th : Thread), Alone s g [] t tk th →
    ∃ s' th', exec (.brk c g b) s = .next s' ∧ s'.thread? s.issue.accn t = some th' ∧
      th'.halted = true ∧ th'.pc = th.next.pc ∧ th'.tepc = th.pc + 4 ∧ th'.tcause = 0x0011 ∧ th'.tinfo = b.setWidth 32 ∧
      th'.taddr = th.taddr ∧ th'.h = th.h ∧ th'.v = th.v ∧ th'.p = th.p ∧ th'.oc = th.oc ∧ th'.fpmode = th.fpmode ∧
      th'.fpflags = th.fpflags ∧ th'.rngctr = th.rngctr ∧ (th.image = none → th'.image.map Image.addr = s.freeImage) ∧
      (∀ a u th0, ¬ (a = s.issue.accn ∧ u = t) → s.thread? a u = some th0 →
        ∃ th1, s'.thread? a u = some th1 ∧ th1.v = th0.v ∧ th1.p = th0.p ∧ th1.pc = th0.pc ∧ th1.cond = th0.cond ∧
          th1.halted = th0.halted) ∧
      (s'.task? s.issue.accn).map Task.stopping = some (tk.stopping || s.stopAllOn tk) ∧
      (∀ k, memRead s'.mem k = memRead s.mem k))

/-! ## Traps -/

/-- R382: taking a trap writes TEPC, TCAUSE, TADDR and TINFO, sets H, and goes to TVEC; nothing else that a program sees
changes, in the thread or outside it.
R171, R383: with no vector, or in a handler, the cause ends the task instead: the thread stops at its word, and the task's stop
records cause, thread, trap values and NEST; the first such stop counts, and of two in one issue that of the lower TID (`yields`: both
are causes of threads of the issue and the new one has the lower TID), which then stands in place of the other. -/
def Obligations.CauseTaken : Prop :=
  (∀ (s : State) (a t cause tepc taddr : Nat) (tinfo : Word) (tk : Task) (th : Thread),
    s.task? a = some tk → s.thread? a t = some th → s.tvec tk ≠ 0 → th.h = false →
    ∃ th', OnlyThread s (s.raiseAt a t cause tepc taddr tinfo) a t th' ∧
      th'.tepc = BitVec.ofNat 64 tepc ∧ th'.tcause = BitVec.ofNat 16 cause ∧ th'.taddr = BitVec.ofNat 64 taddr ∧
      th'.tinfo = tinfo ∧ th'.h = true ∧ th'.pc = s.tvec tk ∧
      th'.v = th.v ∧ th'.p = th.p ∧ th'.oc = th.oc ∧ th'.fpmode = th.fpmode ∧ th'.fpflags = th.fpflags ∧
      th'.rngctr = th.rngctr ∧ th'.cmem = th.cmem ∧ th'.dtimeHi = th.dtimeHi ∧ th'.lwct = th.lwct ∧
      th'.posted = th.posted ∧ th'.eflt = th.eflt ∧ th'.bars = th.bars ∧ th'.reached = th.reached) ∧
  (∀ (s : State) (a t cause tepc taddr : Nat) (tinfo : Word) (tk : Task) (th : Thread),
    s.task? a = some tk → s.thread? a t = some th → (s.tvec tk = 0 ∨ th.h = true) →
    let s' := s.raiseAt a t cause tepc taddr tinfo
    let stopped : State := s.updThread a t fun th => { th with kept := none, base := none }
    (∀ b u, s'.thread? b u = stopped.thread? b u) ∧ (∀ b, b ≠ a → s'.task? b = s.task? b) ∧ { s' with tasks := s.tasks } = s ∧
    (tk.stop = none →
      (s'.task? a).map Task.shell =
        some { tk.shell with stop := some ⟨.program cause, some t, th.cond.code, tinfo, tepc, taddr, th.h⟩ }) ∧
    (∀ st, tk.stop = some st →
      let new : Stop := ⟨.program cause, some t, th.cond.code, tinfo, tepc, taddr, th.h⟩
      (st.yields s.issue.lanes new = true ↔
        (∃ c u, st.kind = .program c ∧ st.tid = some u ∧ u ∈ s.issue.lanes ∧ t ∈ s.issue.lanes ∧ t < u)) ∧
      (st.yields s.issue.lanes new = true → (s'.task? a).map Task.shell = some { tk.shell with stop := some new }) ∧
      (st.yields s.issue.lanes new = false → (s'.task? a).map Task.shell = some tk.shell)))

/-- R385, R54: TRAP n traps with cause 0x0012, TINFO n and TEPC the word after it; a decode fault of a chain (R54, R62) traps with
its cause, TEPC at the chain's first word and TADDR at the faulting one.
That bits of TADDR and TINFO which no rule names are 0 is the model's reading (log entry 54). -/
def Obligations.TrapWords : Prop :=
  ∀ (s : State), s.issue.lanes.Nodup →
    (∀ t ∈ s.carried, ∀ tk th, s.task? s.issue.accn = some tk → s.thread? s.issue.accn t = some th →
      s.tvec tk ≠ 0 ∧ th.h = false ∧ th.rep = none) →
    (∀ b : BitVec 6, Does (.trap b) s 0 fun _ tk th =>
      th.enterTrap (s.tvec tk) 0x0012 (th.pc + 4).toNat 0 (b.setWidth 32)) ∧
    (∀ (f : DecodeFault) (taddr : Nat), Does (.illegalInstruction f taddr) s 0 fun _ tk th =>
      th.enterTrap (s.tvec tk) (match f with
        | .illegalInstruction => 0x0001
        | .illegalChain => 0x0002
        | .illegalPrefix => 0x0003
        | .illegalOperand => 0x0004
        | .guardMisuse => 0x0005) th.pc.toNat taddr 0)

/-- R386, R388: ERET clears H and goes to TEPC, resuming a repeat at TINFO[31:26]; outside a handler it is an illegal
instruction, and to an address where no instruction stands it ends the task with an illegal-instruction fault at that address, R383.
TSAVE and TSAVE.LD move the trap registers to and from V(D) to V(D + 5).
That bits of TADDR and TINFO which no rule names are 0 is the model's reading (log entry 54). -/
def Obligations.ReturnAndSave : Prop :=
  (∀ (s : State), s.issue.lanes.Nodup →
    (∀ t ∈ s.carried, ∀ th, s.thread? s.issue.accn t = some th →
      th.h = true ∧ th.tepc.toNat % 4 = 0 ∧ th.tepc.toNat < 144115188075855872) →
    Does .eret s 0 fun _ _ th =>
      { th.clear with h := false, pc := th.tepc, rep := none, base := none, pkt := none, repFrom := th.tinfo.toNat / 67108864 }) ∧
  (∀ (s : State) (t : Nat) (tk : Task) (th : Thread), Alone s 0 [] t tk th → th.rep = none → th.h = false →
    s.tvec tk ≠ 0 →
    ∃ s', exec .eret s = .next s' ∧ OnlyThread s s' s.issue.accn t (th.enterTrap (s.tvec tk) 0x0001 th.pc.toNat 0 0)) ∧
  (∀ (s : State) (t : Nat) (tk : Task) (th : Thread), Alone s 0 [] t tk th → th.rep = none → th.h = true → tk.stop = none →
    (th.tepc.toNat % 4 ≠ 0 ∨ 144115188075855872 ≤ th.tepc.toNat) →
    ∃ s', exec .eret s = .next s' ∧ s'.thread? s.issue.accn t = some { th with kept := none, base := none } ∧
      (s'.task? s.issue.accn).map Task.stop = some (some ⟨.program 0x0001, some t, 0, 0, th.pc.toNat, th.tepc.toNat, true⟩) ∧
      (∀ b u, ¬ (b = s.issue.accn ∧ u = t) → s'.thread? b u = s.thread? b u)) ∧
  (∀ (d : BitVec 6) (s : State), d.toNat % 8 = 0 → Clear s 0 ((List.range 6).map (d.toNat + ·)) →
    Does (.tsave d false) s 0 (fun _ _ th =>
      Thread.next { (((((th.setReg d.toNat (loWord th.tepc)).setReg (d.toNat + 1) (hiWord th.tepc)).setReg (d.toNat + 2)
        (loWord th.taddr)).setReg (d.toNat + 3) (hiWord th.taddr)).setReg (d.toNat + 4) th.tinfo).setReg (d.toNat + 5)
        (th.tcause.setWidth 32) with h := false }) ∧
    Does (.tsave d true) s 0 (fun _ _ th =>
      Thread.next { th with
        tepc := pair (th.reg d.toNat) (th.reg (d.toNat + 1)), taddr := pair (th.reg (d.toNat + 2)) (th.reg (d.toNat + 3))
        tinfo := th.reg (d.toNat + 4), tcause := (th.reg (d.toNat + 5)).setWidth 16, h := true }))

/-! ## Loads and stores -/

/-- R140, R145, R146: a load of scratchpad, private or dropped elements: LDS, LDP and LD write the value of the bytes at the place that the
checks of R144 give, a register pair for the 8-byte formats; a dropped element loads zero (R142); private bytes come from L1 or the home
as LoadSources says, once what must come first has been performed. The record is the one that the word read at its first issue. The
format says how many bytes an element has, what a load makes of them and what a store writes. -/
def Obligations.LoadWords : Prop :=
  (∀ (m : MemWord) (r : Rec) (o : Nat) (bs : List Byte) (th : Thread), r.fmt ≤ 11 →
    let n := bs.foldr (fun b x => b.toNat + 256 * x) 0
    let col := if r.rowlen = 0 then o else o % r.rowlen
    let x := th.reg m.d
    let y := th.reg (m.d + 1)
    let pair := m.u = false ∧ (r.fmt = 2 ∨ r.fmt = 11)
    let bytes := fun v : Nat => (List.range (m.bytes r)).map fun i => BitVec.ofNat 8 (v / 256 ^ i)
    m.bytes r = (if m.u then 4 else [4, 2, 8, 1, 1, 2, 4, 1, 2, 4, 1, 8].getD r.fmt 0) ∧ (m.pair r = true ↔ pair) ∧
    (bs.length = m.bytes r → m.value r o bs =
      if m.u then [BitVec.ofNat 32 n]
      else if r.fmt = 2 ∨ r.fmt = 11 then [BitVec.ofNat 32 n, BitVec.ofNat 32 (n / 4294967296)]
      else if r.fmt = 3 then [BitVec.ofNat 32 (if col % 2 = 0 then n % 16 else n / 16)]
      else if r.fmt = 4 then [(BitVec.ofNat 8 n).signExtend 32]
      else if r.fmt = 5 then [(BitVec.ofNat 16 n).signExtend 32]
      else if r.fmt = 10 then [BitVec.ofNat 32 (if n.testBit (col % 8) then 1 else 0)]
      else [BitVec.ofNat 32 n]) ∧
    (m.data r th =
      if pair then bytes (let v := BitVec.ofNat 40 (x.toNat + y.toNat % 256 * 4294967296)
        if r.fmt = 2 then v.toNat else (v.signExtend 64).toNat)
      else bytes x.toNat) ∧
    (m.pol r = let p := if m.p = 0 then r.pol else m.p
      if r.space = 2 ∧ p = 2 then 0 else p)) ∧
  ∀ (m : MemWord) (i : Instr) (g : BitVec 3) (s : State) (t : Nat) (tk : Task) (th : Thread) (p : Place),
    ((∃ o : MemP, i = .ld o ∧ m = MemP.word o [0, 3] ∧ g = o.g) ∨ (∃ o : MemP, i = .ldp o ∧ m = MemP.word o [2] ∧ g = o.g) ∨
      (∃ o : MemU, i = .lds o ∧ m = MemU.word o ∧ g = o.g)) →
    Alone s g [m.d, m.off] t tk th → th.answer = none →
    let r := tk.record m.k
    let o := (th.reg m.off).toNat
    s.place tk t m.k r (m.loadForm r) o (m.addr r) ⟨m.bytes r, false, ⟨true, false, false⟩⟩ = .ok p →
    (m.pair r = true → tk.holdsReg (m.d + 1) = true ∧ s.awaits s.issue.accn t (m.d + 1) = false) →
    s.ordBefore s.issue.accn t m.ord r.orderScope = .go s →
    let gives := fun ws : List Word => ∃ s', exec i s = .next s' ∧
      s'.thread? s.issue.accn t = some (th.setRegs m.d ws).next ∧ KeepsRest s s' s.issue.accn t
    (p = .dropped → gives (List.replicate (if m.pair r then 2 else 1) 0)) ∧
    (∀ offs, p = .spad offs → s.boardStalls tk true offs = false → gives (m.value r (r.used o) (offs.map tk.spadByte))) ∧
    (∀ offs s2 bs, p = .priv offs →
      s.loadKeys s.issue.accn t tk (tk.coreOf t) (m.pol r) (offs.map (tk.rcd.privBase + ·)) = .val s2 bs →
      ∃ s', exec i s = .next s' ∧
        s'.thread? s.issue.accn t =
          (s2.thread? s.issue.accn t).map (fun x => (x.setRegs m.d (m.value r (r.used o) bs)).next) ∧
        KeepsRest s2 s' s.issue.accn t)

/-- R113, R146: a load of global memory, once what must come first has been performed, writes the value of the bytes that
`loadKeys` answers; LD alone reaches it.
R113: the sources of a loaded byte, in order: the effect buffer of the task, the dirty bytes of its core, the home; where no
line is poisoned, no update-only copy has to be recalled and no write of the core or task is on its way.
R113, R116, R128: at its home a byte is that of the accepted write of greatest WCT at or before DTIME, of commits at one time that of
the greatest accession number, or, with none, the byte of memory; a write that is still to be performed is not seen. -/
def Obligations.LoadGlobal : Prop :=
  (∀ (o : MemP) (s s2 : State) (t : Nat) (tk : Task) (th : Thread) (va : Nat) (ks : List Nat) (xs : List (Nat × Xlate))
    (bs : List Byte),
    let m := MemP.word o [0, 3]
    let r := tk.record m.k
    Alone s o.g [m.d, m.off] t tk th → th.answer = none →
    s.place tk t m.k r (m.loadForm r) (th.reg m.off).toNat (m.addr r) ⟨m.bytes r, false, ⟨true, false, false⟩⟩ =
      .ok (.glob va ks xs) →
    (m.pair r = true → tk.holdsReg (m.d + 1) = true ∧ s.awaits s.issue.accn t (m.d + 1) = false) → ks.any isReg = false → ordRel o.ord = false →
    (s.rememberAll tk.ctx xs).loadKeys s.issue.accn t tk (tk.coreOf t) (m.pol r) ks = .val s2 bs →
    ∃ s', exec (.ld o) s = .next s' ∧
      s'.thread? s.issue.accn t =
        (s2.thread? s.issue.accn t).map (fun x => (x.setRegs m.d (m.value r (r.used (th.reg m.off).toNat) bs)).next) ∧
      KeepsRest s2 s' s.issue.accn t) ∧
  (∀ (s : State) (a t core pol : Nat) (tk : Task) (ks : List Nat),
    s.poisoned ks = false → (∀ k ∈ ks, s.lineParts (Machine.lineOf k) = []) → s.ownPending core a ks = 0 →
    ∃ s2, s.loadKeys a t tk core pol ks = .val s2 (ks.map fun k =>
        match KMap.get? k tk.ebuf with
        | some e => e.byte
        | none =>
          match KMap.get? (k % 128) (s.l1 core (Machine.lineOf k)).dirty with
          | some d => d.byte
          | none => s.homeByte k) ∧
      s2.tasks = s.tasks ∧ s2.mem = s.mem ∧ s2.writes = s.writes) ∧
  ((∀ (s : State) (k : Nat), (∀ w ∈ s.writes, s.dtime < w.wct ∨ KMap.get? k w.bytes = none) →
    s.homeByte k = memRead s.mem k) ∧
  (∀ (s : State) (k : Nat) (ws vs : List HomeWrite) (w : HomeWrite) (b : Byte), s.writes = ws ++ w :: vs →
    KMap.get? k w.bytes = some b → w.wct ≤ s.dtime →
    let rank := fun v : HomeWrite => v.wct * 18446744073709551616 + (if v.commit then v.owners.headD 0 else 0)
    (∀ v ∈ ws, s.dtime < v.wct ∨ rank v ≤ rank w ∨ KMap.get? k v.bytes = none) →
    (∀ v ∈ vs, s.dtime < v.wct ∨ rank v < rank w ∨ KMap.get? k v.bytes = none) →
    s.homeByte k = b))

/-- R140, R146, R170: STS and STP write the bytes of the element at the place that the checks give and nowhere else, private bytes as
dirty bytes of the core's L1; a dropped store writes nothing.
R101, R118, R146: ST to global memory: in a task that buffers, the bytes go to its effect buffer and every other byte there stays;
otherwise they are dirty in the core's L1, written by the thread and by all that wrote them since they were clean. No byte of memory
changes at the word itself.
That a buffered store with acquire order completes at once, and which of two lanes that write one byte stays, is the model's
reading or choice (log entries 78, 109). -/
def Obligations.StoreWords : Prop :=
  (∀ (m : MemWord) (i : Instr) (g : BitVec 3) (s : State) (t : Nat) (live tk : Task) (th : Thread) (p : Place),
    ((∃ o : MemP, i = .stp o ∧ m = MemP.word o [2] ∧ g = o.g) ∨ (∃ o : MemU, i = .sts o ∧ m = MemU.word o ∧ g = o.g)) →
    Alone s g [m.d, m.off] t tk th → s.task? s.issue.accn = some live → (s.isDet tk = true → tk.lowerWaits t th = false) →
    let r := tk.record m.k
    let bs := m.data r th
    s.place tk t m.k r (m.storeForm r) (th.reg m.off).toNat (m.addr r) ⟨m.bytes r, false, ⟨false, true, false⟩⟩ = .ok p →
    (m.pair r = true → tk.holdsReg (m.d + 1) = true ∧ s.awaits s.issue.accn t (m.d + 1) = false) →
    s.ordBefore s.issue.accn t m.ord r.orderScope = .go s →
    let stores := fun f : Task → Task => ∃ s' tk', exec i s = .next s' ∧ s'.task? s.issue.accn = some tk' ∧
      tk'.shell = (f live).shell ∧ s'.thread? s.issue.accn t = some th.next ∧
      (∀ b u, ¬ (b = s.issue.accn ∧ u = t) → s'.thread? b u = s.thread? b u) ∧
      (∀ b, b ≠ s.issue.accn → s'.task? b = s.task? b) ∧ (∀ k, memRead s'.mem k = memRead s.mem k)
    (p = .dropped → stores id) ∧
    (∀ offs, p = .spad offs → offs.Nodup → s.boardStalls tk false offs = false →
      stores (fun tk => { tk with spad := (tk.spadWrite (offs.zip bs)).spad }) ∧
      (∀ x, x ∉ offs → (tk.spadWrite (offs.zip bs)).spadByte x = tk.spadByte x) ∧
      ((offs.zip bs).map fun q => (tk.spadWrite (offs.zip bs)).spadByte q.1) = (offs.zip bs).map Prod.snd) ∧
    (∀ offs, p = .priv offs → offs.Nodup →
      let core := tk.coreOf t
      let ks := offs.map (tk.rcd.privBase + ·)
      ∃ s', exec i s = .next s' ∧ s'.thread? s.issue.accn t = some th.next ∧
        (∀ q ∈ ks.zip bs, ∃ d, KMap.get? (q.1 % 128) (s'.l1 core (Machine.lineOf q.1)).dirty = some d ∧ d.byte = q.2 ∧
          (s.issue.accn, t) ∈ d.writers) ∧
        (∀ k, k ∉ ks → KMap.get? (k % 128) (s'.l1 core (Machine.lineOf k)).dirty =
          KMap.get? (k % 128) (s.l1 core (Machine.lineOf k)).dirty) ∧
        KeepsRest s s' s.issue.accn t ∧ s'.writes = s.writes)) ∧
  (∀ (o : MemP) (s : State) (t : Nat) (live tk : Task) (th : Thread) (va : Nat) (ks : List Nat) (xs : List (Nat × Xlate)),
    let m := MemP.word o [0, 3]
    let r := tk.record m.k
    let bs := m.data r th
    Alone s o.g [m.d, m.off] t tk th → s.task? s.issue.accn = some live → r.space = 0 →
    (s.isDet tk = true → tk.lowerWaits t th = false) →
    s.place tk t m.k r (m.storeForm r) (th.reg m.off).toNat (m.addr r) ⟨m.bytes r, false, ⟨false, true, false⟩⟩ =
      .ok (.glob va ks xs) →
    (m.pair r = true → tk.holdsReg (m.d + 1) = true ∧ s.awaits s.issue.accn t (m.d + 1) = false) → ks.any isReg = false → ks.Nodup → ordRel o.ord = false →
    (∀ k ∈ ks, (s.core (tk.coreOf t)).parts.any (fun q => Machine.lineOf q.key == Machine.lineOf k) = false) →
    (tk.buffers = true →
      (m.pol r = 1 ∨ m.pol r = 3 → ∀ c ∈ tk.cores, ∀ l, ∀ q ∈ (s.l1 c l).dirty, (s.issue.accn, t) ∉ q.2.writers) →
      ebufLines (tk.buffer (s.genOf tk) va (ks.zip bs)).ebuf tk.parts ≤ 32 * tk.ebPages →
      ∃ s' tk', exec (.st o) s = .next s' ∧ s'.task? s.issue.accn = some tk' ∧ s'.thread? s.issue.accn t = some th.next ∧
        (∀ i k b, ks[i]? = some k → bs[i]? = some b → KMap.get? k tk'.ebuf = some ⟨b, s.genOf tk, (va + i) / 65536⟩) ∧
        (∀ k, k ∉ ks → KMap.get? k tk'.ebuf = KMap.get? k tk.ebuf) ∧
        { tk'.shell with ebuf := [] } = { live.shell with ebuf := [] } ∧
        (∀ b u, ¬ (b = s.issue.accn ∧ u = t) → s'.thread? b u = s.thread? b u) ∧
        (∀ k, memRead s'.mem k = memRead s.mem k) ∧ s'.writes = s.writes) ∧
    (tk.buffers = false → tk.commitT = none → m.pol r ≠ 1 → m.pol r ≠ 3 → ordAcq o.ord = false →
      ∃ s', exec (.st o) s = .next s' ∧ s'.thread? s.issue.accn t = some th.next ∧
        (∀ q ∈ ks.zip bs, ∃ d, KMap.get? (q.1 % 128) (s'.l1 (tk.coreOf t) (Machine.lineOf q.1)).dirty = some d ∧ d.byte = q.2 ∧
          ∀ w, w ∈ d.writers ↔ w = (s.issue.accn, t) ∨
            ∃ e, KMap.get? (q.1 % 128) (s.l1 (tk.coreOf t) (Machine.lineOf q.1)).dirty = some e ∧ w ∈ e.writers) ∧
        (∀ k, k ∉ ks → KMap.get? (k % 128) (s'.l1 (tk.coreOf t) (Machine.lineOf k)).dirty =
          KMap.get? (k % 128) (s.l1 (tk.coreOf t) (Machine.lineOf k)).dirty) ∧
        KeepsRest s s' s.issue.accn t ∧ s'.writes = s.writes))

/-- R133, R135, R147, R148: through a remote record a load sends a request and holds its thread until the response, which it then
writes; a store is posted once its task is irrevocable, and the thread goes on. -/
def Obligations.RemoteAccess : Prop :=
  ∀ (o : MemP) (s : State) (t : Nat) (tk : Task) (th : Thread) (va peer exp off : Nat) (repl : Bool),
    let m := MemP.word o [0, 3]
    let r := tk.record m.k
    Alone s o.g [m.d, m.off] t tk th → o.ord = 0 → (m.pair r = true → tk.holdsReg (m.d + 1) = true ∧ s.awaits s.issue.accn t (m.d + 1) = false) → r.space = 3 →
    (s.place tk t m.k r (m.loadForm r) (th.reg m.off).toNat (m.addr r) ⟨m.bytes r, false, ⟨true, false, false⟩⟩ =
        .ok (.remote va peer exp off repl) → m.p ≠ 2 → th.answer = none → peer ≠ s.regs.peerid → s.trails s.issue.accn t peer exp off (m.bytes r) = false →
      ∃ s', exec (.ld o) s = .next s' ∧ s'.thread? s.issue.accn t = some ((tk.keep th).hold .remote) ∧
          (KMap.get? s.nextId s'.outs).map (fun q => (q.req, q.peer, q.accn, q.tid, q.posted)) =
            some (⟨s.regs.peerid, s.nextId, exp, off, .load (m.bytes r)⟩, peer, s.issue.accn, t, false) ∧
          s'.nextId = s.nextId + 1 ∧ KeepsRest s s' s.issue.accn t) ∧
    (∀ ws, th.answer = some (.data ws) →
      ∃ s', exec (.ld o) s = .next s' ∧
        s'.thread? s.issue.accn t =
          some (th.setRegs m.d (m.value r (r.used (th.reg m.off).toNat) (bytesOfWords (m.bytes r) ws))).next ∧
        KeepsRest s s' s.issue.accn t) ∧
    (s.place tk t m.k r (m.storeForm r) (th.reg m.off).toNat (m.addr r) ⟨m.bytes r, false, ⟨false, true, false⟩⟩ =
        .ok (.remote va peer exp off repl) → tk.irrevocable = true → tk.commitT = none → peer ≠ s.regs.peerid →
      (s.isDet tk = true → tk.lowerWaits t th = false) →
      s.postWaits s.issue.accn t ⟨va, peer, exp, off⟩ (m.data r th).length (m.p == 1) = false →
      ∃ s', exec (.st o) s = .next s' ∧ s'.thread? s.issue.accn t = some th.next ∧
        (KMap.get? s.nextId s'.outs).map (fun q => (q.req, q.peer, q.accn, q.tid, q.posted)) =
          some (⟨s.regs.peerid, s.nextId, exp, off, .store (m.data r th)⟩, peer, s.issue.accn, t, true) ∧
        s'.nextId = s.nextId + 1 ∧ KeepsRest s s' s.issue.accn t)

/-- R36, R91, R92, R95, R139 to R142, R144, R368: the checks of an access in their order: an illegal record or form (which the space,
X and pairing decide), bounds by BMODE, alignment, then the window, the private limit, or the space bit, translation and rights; and
what a walk makes of an entry of a table, and a translation of the rights.
R54, R144: a failed check of a load or store is a fault in its lane: the thread traps with the cause, address and detail of the
check, where no table line has first to be found combined (R106) and no irrevocable entry comes first (R147).
That bits of TADDR and TINFO which no rule names are 0 is the model's reading (log entry 54). -/
def Obligations.AccessChecks : Prop :=
  ((∀ (m : MemWord) (r : Rec),
    (m.loadForm r = true ↔
      r.space ∈ m.spaces ∧ (r.space = 3 → m.p = 0 ∨ m.p = 2) ∧ (m.u = false → r.fmt = 2 ∨ r.fmt = 11 → m.d % 2 = 0)) ∧
    (m.storeForm r = true ↔
      r.space ∈ m.spaces ∧ (r.space = 3 → m.p ≤ 1) ∧ (m.u = false → r.fmt = 2 ∨ r.fmt = 11 → m.d % 2 = 0) ∧
        (m.u = false → r.fmt ≠ 3 ∧ r.fmt ≠ 10))) ∧
  (∀ (s : State) (n va : Nat) (rt : Rights) (c : Ctx), s.ctx? n = some c →
    (s.lookup c va = .missing → s.translate n va rt = .error 0x0009) ∧
    (∀ x, s.lookup c va = .page x →
      (x.guarded s.regs = true → n ≠ 0 → s.translate n va rt = .error 0x0009) ∧
      (x.guarded s.regs = false ∨ n = 0 →
        let lacks := (rt.rd = true ∧ x.pte.getLsbD 2 = false) ∨ (rt.ex = true ∧ x.pte.getLsbD 4 = false) ∨
          (rt.wr = true ∧ (x.pte.getLsbD 3 = false ∨ x.pte.getLsbD 5 = true ∨ c.isRevoked x va = true))
        (lacks → s.translate n va rt = .error 0x000A) ∧ (¬ lacks → s.translate n va rt = .ok x)))) ∧
  (∀ (s : State) (va l lo n base : Nat) (rest : List (Nat × Nat)),
    let k := base + 8 * (va / 2 ^ lo % 2 ^ n)
    let e := BitVec.ofNat 64 (s.homeNat k 8)
    let pa := e.toNat / 4096 % 17592186044416 * 4096
    let bad := e.getLsbD 0 = false ∨ e.toNat / 72057594037927936 ≠ 0 ∨ e.toNat / 256 % 16 ≠ 0
    s.walkFrom va l [] base = .missing ∧
    (s.copied [Machine.lineOf k] = none →
      (bad ∨ (e.getLsbD 1 = true ∧ (l ≤ 1 ∨ pa % 2 ^ lo ≠ 0)) → s.walkFrom va l ((lo, n) :: rest) base = .missing) ∧
      (¬ bad → e.getLsbD 1 = true → 2 ≤ l → pa % 2 ^ lo = 0 → s.walkFrom va l ((lo, n) :: rest) base = .page ⟨e, l⟩) ∧
      (¬ bad → e.getLsbD 1 = false → s.walkFrom va l ((lo, n) :: rest) base =
        s.walkFrom va (l + 1) rest (if e.getLsbD 7 then Config.hostBase + pa else pa)))) ∧
  ∀ (s : State) (tk : Task) (t slot o : Nat) (r : Rec) (form : Bool) (w : Want),
    let a := r.address
    let p := s.place tk t slot r form o a w
    ((r.ok = false ∨ form = false) → p = .error ⟨0x0004, 0, BitVec.ofNat 32 slot⟩) ∧
    (r.ok = true → form = true → r.extent ≤ o → r.bmode = 0 ∨ (r.bmode = 1 ∧ r.extent = 0) → p = .error ⟨0x0007, o, 0⟩) ∧
    (r.ok = true → form = true → r.extent ≤ o → r.bmode = 2 → p = .ok .dropped) ∧
    (r.ok = true → form = true → r.extent ≤ o → r.bmode = 1 → 0 < r.extent →
      p = s.placeAt tk t r (a (r.extent - 1)) w) ∧
    (r.ok = true → form = true → o < r.extent →
      (a o % w.bytes ≠ 0 → (w.strict = true ∨ r.bmode = 0 ∨ r.space = 2) → p = .error ⟨0x0008, a o, 0⟩) ∧
      (a o % w.bytes = 0 → r.space = 1 → 0 < w.bytes →
        (a o + w.bytes ≤ 4096 * tk.pages → p = .ok (.spad ((List.range w.bytes).map (a o + ·)))) ∧
        (4096 * tk.pages < a o + w.bytes → p = .error ⟨0x0007, a o, 0⟩)) ∧
      (a o % w.bytes = 0 → r.space = 2 → 0 < w.bytes →
        (a o + w.bytes ≤ 4 * tk.privLim → p = .ok (.priv ((List.range w.bytes).map fun i => tk.privOff t (a o + i)))) ∧
        (4 * tk.privLim < a o + w.bytes → p = .error ⟨0x0006, a o / 4 * 4, 0⟩)) ∧
      ((a o % w.bytes = 0 ∨ (w.strict = false ∧ r.bmode ≠ 0)) →
        (r.space = 0 → a o / 2 ^ 56 % 2 = 1 → p = .error ⟨0x000A, a o, 0⟩) ∧
        (r.space = 3 → a o / 2 ^ 56 % 2 = 0 → p = .error ⟨0x000A, a o, 0⟩) ∧
        (r.space = 0 → a o / 2 ^ 56 % 2 = 0 → 0 < w.bytes →
          (∀ c, (∀ i < w.bytes, s.translate tk.ctx (a o + i) w.rights = .error c) → p = .error ⟨c, a o, 0⟩) ∧
          (∀ x : Nat → Xlate, (∀ i < w.bytes, s.translate tk.ctx (a o + i) w.rights = .ok (x i)) →
            ∃ xs, p = .ok (.glob (a o) ((List.range w.bytes).map fun i => (x i).key (a o + i)) xs)))))) ∧
  (∀ (m : MemWord) (i : Instr) (g : BitVec 3) (wr : Bool) (s : State) (t : Nat) (tk : Task) (th : Thread) (f : AccFault),
    ((∃ o : MemP, m = MemP.word o [0, 3] ∧ g = o.g ∧ i = if wr then .st o else .ld o) ∨
      (∃ o : MemP, m = MemP.word o [2] ∧ g = o.g ∧ i = if wr then .stp o else .ldp o) ∨
      (∃ o : MemU, m = MemU.word o ∧ g = o.g ∧ i = if wr then .sts o else .lds o)) →
    let r := tk.record m.k
    (wr = true → (s.isDet tk = true → tk.lowerWaits t th = false) ∧ m.entry s t tk th = .go s) →
    Alone s g [m.d, m.off] t tk th → th.answer = none → s.tvec tk ≠ 0 → th.h = false → th.rep = none →
    recallLine f.cause = none →
    (m.pair r = true → tk.holdsReg (m.d + 1) = true ∧ s.awaits s.issue.accn t (m.d + 1) = false) →
    s.place tk t m.k r (if wr then m.storeForm r else m.loadForm r) (th.reg m.off).toNat (m.addr r)
      ⟨m.bytes r, false, ⟨!wr, wr, false⟩⟩ = .error f →
    ∃ s', exec i s = .next s' ∧
      OnlyThread s s' s.issue.accn t (th.enterTrap (s.tvec tk) f.cause th.pc.toNat f.taddr f.tinfo))

/-! ## Atomics, reductions and lists -/

/-- R147, R152, R154, R156: the atomics on scratchpad elements: the old words go to the registers, and the new ones are written
where the form writes; nothing else changes; in a deterministic launch no thread goes before one of lower TID (R270). For the integer
formats the operation is exact; F32 sums round RNE with subnormals kept, and F32 minima and maxima are those of MinMaxWords without
flush (R153). -/
def Obligations.AtomWords : Prop :=
  (∀ (s : State) (t : Nat) (live tk : Task) (th : Thread) (x : Nat), s.task? s.issue.accn = some live → th.answer = none →
    (s.isDet tk = true → tk.lowerWaits t th = false) →
    let a := s.issue.accn
    let slot := tk.record
    let old := fun i : Nat => word (leNat ((List.range 4).map fun j => tk.spadByte (x + 4 * i + j)))
    let offs := fun n : Nat => (List.range n).map (x + ·)
    let reaches := fun (k off n : Nat) (ord : BitVec 2) (rights : Rec → Rights) =>
      (slot k).space = 1 ∧
      s.drew.place tk t k (slot k) true (th.reg off).toNat (slot k).address ⟨n, true, rights (slot k)⟩ =
        .ok (.spad (offs n)) ∧
      s.drew.ordBefore a t ord (slot k).orderScope = .go s.drew ∧ s.drew.boardStalls tk false (offs n) = false
    let gives := fun (i : Instr) (bs : List Byte) (th' : Thread) => ∃ s', exec i s = .next s' ∧
      InTask s s' a t { live with spad := (tk.spadWrite (bs.zipIdx.map fun p => (x + p.2, p.1))).spad } th'.next
    (∀ o : MemX, Alone s o.g [o.d.toNat, o.off.toNat] t tk th → atomFmt (slot o.k.toNat).fmt = true →
      (reaches o.k.toNat o.off.toNat 4 o.ord atomRights → gives (.atom o)
        (leBytes 4 (atomOp o.x.toNat (slot o.k.toNat).fmt (old 0) (th.reg o.d.toNat)).toNat)
        (th.setReg o.d.toNat (old 0))) ∧
      (reaches o.k.toNat o.off.toNat 4 o.ord (fun _ => ⟨false, true, false⟩) → gives (.red o)
        (leBytes 4 (atomOp o.x.toNat (slot o.k.toNat).fmt (old 0) (th.reg o.d.toNat)).toNat) th)) ∧
    (∀ o : MemX, Alone s o.g [o.d.toNat, o.d.toNat + 1, o.off.toNat] t tk th → fmtBits (slot o.k.toNat).fmt = 32 →
      reaches o.k.toNat o.off.toNat 4 o.ord atomRights → gives (.cas o)
        (if old 0 = th.reg o.d.toNat then leBytes 4 (th.reg (o.d.toNat + 1)).toNat else [])
        ((th.setReg o.d.toNat (old 0)).setPred o.x.toNat (old 0 == th.reg o.d.toNat))) ∧
    (∀ o : Mem0, Alone s o.g [o.d.toNat, o.d.toNat + 1, o.d.toNat + 2, o.d.toNat + 3, o.off.toNat] t tk th →
      fmtBits (slot o.k.toNat).fmt = 32 → reaches o.k.toNat o.off.toNat 8 o.ord atomRights → gives (.cas2 o)
        (if old 0 = th.reg o.d.toNat ∧ old 1 = th.reg (o.d.toNat + 1) then
          leBytes 4 (th.reg (o.d.toNat + 2)).toNat ++ leBytes 4 (th.reg (o.d.toNat + 3)).toNat else [])
        ((th.setReg o.d.toNat (old 0)).setReg (o.d.toNat + 1) (old 1)))) ∧
  (∀ (o : Mem0) (s : State) (t : Nat) (live tk : Task) (th : Thread) (xs : List Nat), s.task? s.issue.accn = some live →
    th.answer = none → (s.isDet tk = true → tk.lowerWaits t th = false) →
    let d := o.d.toNat
    let r := tk.record o.k.toNat
    let us := mcasUsed th o.off.toNat
    let addrs := us.map fun u => r.address (r.used u.2)
    Alone s o.g ((List.range 8).map (d + ·) ++ (List.range 4).map (o.off.toNat + ·)) t tk th →
    r.ok = true → r.space = 1 → fmtBits r.fmt = 32 → us ≠ [] → (∀ u ∈ us, r.bounded u.2 = .at (r.used u.2)) →
    addrs.Nodup → (∀ x ∈ addrs, x % 4 = 0 ∧ x / 128 = addrs.headD 0 / 128) →
    s.drew.mcasPlaces tk t r (us.map fun u => r.used u.2) = .ok (xs.map fun x => .spad [x, x + 1, x + 2, x + 3]) →
    xs.length = us.length →
    s.drew.ordBefore s.issue.accn t o.ord r.orderScope = .go s.drew →
    s.drew.boardStalls tk false (xs.flatMap fun x => [x, x + 1, x + 2, x + 3]) = false →
    let old := xs.map fun x => word (leNat ((List.range 4).map fun j => tk.spadByte (x + j)))
    let new := us.map fun u => th.reg (d + 4 + u.1)
    ∃ s', exec (.mcas o) s = .next s' ∧
      InTask s s' s.issue.accn t
        { live with spad :=
            if old = us.map (fun u => th.reg (d + u.1)) then
              (tk.spadWrite ((xs.zip new).flatMap fun p => bytesAt p.1 (leBytes 4 p.2.toNat))).spad
            else live.spad }
        (th.setRegs d ((List.range 4).map fun i =>
          (((us.zip old).find? fun p => p.1.1 = i).map Prod.snd).getD 0)).next) ∧
  (∀ (old v : Word) (fmt : Nat), fmt = fmtN32 ∨ fmt = fmtS32 →
    atomOp 0 fmt old v = old + v ∧ atomOp 3 fmt old v = old &&& v ∧ atomOp 4 fmt old v = old ||| v ∧
    atomOp 5 fmt old v = old ^^^ v ∧ atomOp 6 fmt old v = v ∧
    atomOp 1 fmt old v = (if (if fmt = fmtS32 then v.slt old else v.ult old) then v else old) ∧
    atomOp 2 fmt old v = if (if fmt = fmtS32 then old.slt v else old.ult v) then v else old) ∧
  (∀ old v : Word,
    atomOp 0 fmtF32 old v = BitVec.ofNat 32 (f32.add ⟨0, false⟩ old.toNat v.toNat).1 ∧
    atomOp 1 fmtF32 old v = BitVec.ofNat 32 (f32.minmax ⟨0, false⟩ false old.toNat v.toNat).1 ∧
    atomOp 2 fmtF32 old v = BitVec.ofNat 32 (f32.minmax ⟨0, false⟩ true old.toNat v.toNat).1 ∧
    atomOp 3 fmtF32 old v = old &&& v ∧ atomOp 4 fmtF32 old v = old ||| v ∧ atomOp 5 fmtF32 old v = old ^^^ v ∧
    atomOp 6 fmtF32 old v = v)

/-- R104, R114, R116, R128: an atomic on global memory in an irrevocable task: the operation is performed at the home, on the words
as the latest accepted write leaves them; what it writes is what the next operation at the home works on, and no other byte
changes. The thread writes the old word, its latest WCTs rise, and it goes on once the write has been performed.
R105, R106, R156, R273: RED to global memory folds its operand into a partial and returns nothing: in a task that buffers, into the
partials it holds to its commit; in an irrevocable one, into the partials of its core, but an F32 partial of a deterministic launch
into those that the task holds to its end. A thread's partial of an element starts
at the identity of the operation, and takes in each further operand by the operation of AtomWords.
That a partial of every format starts at the identity, one for each thread, is R105 as the model reads it (log entries 52, 80). -/
def Obligations.AtomsAtHome : Prop :=
  ((∀ (o : MemX) (s : State) (t : Nat) (tk : Task) (th : Thread) (va : Nat) (ks : List Nat) (xs : List (Nat × Xlate)),
    let a := s.issue.accn
    let r := tk.record o.k.toNat
    Alone s o.g [o.d.toNat, o.off.toNat] t tk th → th.answer = none → r.space = 0 → atomFmt r.fmt = true → s.isDet tk = false →
    tk.irrevocable = true → tk.commitT = none → o.ord = 0 →
    s.drew.place tk t o.k.toNat r true (th.reg o.off.toNat).toNat r.address ⟨4, true, ⟨false, true, false⟩⟩ =
      .ok (.glob va ks xs) →
    s.poisoned (wordStarts ks) = false → (wordStarts ks).any isReg = false →
    let q := (s.drew.rememberAll tk.ctx xs).atHome (tk.coreOf t) a (wordStarts ks) fun old =>
      some (old.map fun x => atomOp o.x.toNat r.fmt x (th.reg o.d.toNat))
    ∃ s', exec (.atom o) s = .next s' ∧
      s'.thread? a t = (q.s.thread? a t).map (fun x =>
        (((x.noteWct q.at').setReg o.d.toNat (q.old.headD 0)).next).after q.at' q.s.dtime) ∧
      KeepsRest q.s s' a t ∧ s'.writes = q.s.writes) ∧
  (∀ (s : State) (core a k : Nat) (f : List Word → Option (List Word)), k % 4 = 0 → s.lineParts (Machine.lineOf k) = [] →
    (s.l1 core (Machine.lineOf k)).dirty = [] →
    (∀ w ∈ s.writes, ∀ j, j < 4 → (KMap.get? (k + j) w.bytes).isSome = true → w.wct ≤ s.lastWct (Machine.lineOf k) ∧
      (w.commit = true → 0 < w.wct ∧ w.owners.headD 0 < 18446744073709551616)) →
    let q := s.atHome core a [k] f
    q.old = [s.lastWord k] ∧ q.s.tasks = s.tasks ∧ q.s.mem = s.mem ∧
    (f [s.lastWord k] = none → q.s = s) ∧
    (∀ v, f [s.lastWord k] = some [v] →
      q.s.lastWord k = v ∧ (∀ j, j < k ∨ k + 4 ≤ j → q.s.lastByte j = s.lastByte j) ∧
      (s.home (Machine.lineOf k)).wct ≤ q.at' ∧ s.dtime ≤ q.at' ∧ (s.home (Machine.lineOf k)).lease ≤ q.at'))) ∧
  ((∀ (o : MemX) (s : State) (t : Nat) (live tk : Task) (th : Thread) (va : Nat) (ks : List Nat) (xs : List (Nat × Xlate)),
    s.task? s.issue.accn = some live → (s.isDet tk = true → tk.lowerWaits t th = false) →
    let a := s.issue.accn
    let r := tk.record o.k.toNat
    let p : Partial := ⟨ks.headD 0, o.x.toNat, r.fmt, th.reg o.d.toNat, a, t, s.genOf tk, va / 65536⟩
    Alone s o.g [o.d.toNat, o.off.toNat] t tk th → r.space = 0 → atomFmt r.fmt = true → o.ord = 0 →
    s.drew.place tk t o.k.toNat r true (th.reg o.off.toNat).toNat r.address ⟨4, true, ⟨false, true, false⟩⟩ =
      .ok (.glob va ks xs) →
    ks.any isReg = false →
    (tk.buffers = true → ebufLines tk.ebuf (foldInto tk.parts p) ≤ 32 * tk.ebPages →
      ∃ s', exec (.red o) s = .next s' ∧ InTask s s' a t { live with parts := foldInto tk.parts p } th.next ∧
        s'.writes = s.writes) ∧
    (tk.irrevocable = true → tk.commitT = none → s.isDet tk = true → r.fmt = fmtF32 →
      ∃ s', exec (.red o) s = .next s' ∧ InTask s s' a t { live with parts := foldInto tk.parts p } th.next ∧
        s'.writes = s.writes) ∧
    (tk.irrevocable = true → tk.commitT = none → (s.isDet tk = false ∨ r.fmt ≠ fmtF32) → (s.core (tk.coreOf t)).parts = [] →
      (s.l1 (tk.coreOf t) (Machine.lineOf (ks.headD 0))).dirty = [] →
      ∃ s', exec (.red o) s = .next s' ∧ s'.thread? a t = some th.next ∧
        (s'.core (tk.coreOf t)).parts = [{ p with value := atomOp p.op p.fmt (atomIdentity p.op p.fmt) p.value }] ∧
        KeepsRest s s' a t ∧ s'.writes = s.writes)) ∧
  (∀ v : Word, (∀ fmt, fmt = fmtS32 ∨ fmt = fmtN32 → ∀ op, op < 6 → atomOp op fmt (atomIdentity op fmt) v = v)) ∧
  (∀ (ps : List Partial) (p : Partial),
    (ps.any fun q => q.key = p.key ∧ q.op = p.op ∧ q.fmt = p.fmt ∧ q.accn = p.accn ∧ q.tid = p.tid) = false →
    foldInto ps p = ps ++ [{ p with value := atomOp p.op p.fmt (atomIdentity p.op p.fmt) p.value }]) ∧
  (∀ (ps : List Partial) (p : Partial),
    let same := fun q : Partial => q.key = p.key ∧ q.op = p.op ∧ q.fmt = p.fmt ∧ q.accn = p.accn ∧ q.tid = p.tid
    (∃ q ∈ ps, same q) → (foldInto ps p).length = ps.length ∧ ∀ (i : Nat) (q : Partial), ps[i]? = some q →
      (same q → (foldInto ps p)[i]? = some { q with value := atomOp p.op p.fmt q.value p.value }) ∧
      (¬ same q → (foldInto ps p)[i]? = some q)))

/-- R157, R158, R159: LDSUM asks a peer and writes the sum that comes back; ENQ writes 0 to the node, the node to the header or to the
old tail's link, and the node to the tail, all at once, and answers the old tail; CHASE follows one link in each look, and its looks are
at most k.
The sources of a CHASE and what a remote ENQ or CHASE waits for are the model's reading (log entries 98, 99). -/
def Obligations.ListWords : Prop :=
  (∀ (o : MemY) (s : State) (t : Nat) (tk : Task) (th : Thread) (va peer exp off : Nat),
    let a := s.issue.accn
    let r := tk.record o.k.toNat
    Alone s o.g [o.d.toNat, o.off.toNat] t tk th → r.space = 3 → atomFmt r.fmt = true → o.ord = 0 → o.y = false →
    (s.place tk t o.k.toNat r true (th.reg o.off.toNat).toNat r.address ⟨4, true, ⟨true, false, false⟩⟩ =
        .ok (.remote va peer exp off true) → th.answer = none → peer ≠ s.regs.peerid → s.trails a t peer exp off 4 = false →
      ∃ s', exec (.ldsum o) s = .next s' ∧ s'.thread? a t = some ((tk.keep th).hold .remote) ∧
        (KMap.get? s.nextId s'.outs).map (fun q => (q.req, q.peer)) =
          some (⟨s.regs.peerid, s.nextId, exp, off, .ldsum r.fmt⟩, peer) ∧ KeepsRest s s' a t) ∧
    (∀ w ws, th.answer = some (.data (w :: ws)) →
      ∃ s', exec (.ldsum o) s = .next s' ∧ OnlyThread s s' a t (th.setReg o.d.toNat w).next)) ∧
  (∀ (o : Mem0) (s : State) (t : Nat) (tk : Task) (th : Thread) (kh kt kn : Nat × List (Nat × Xlate)),
    let a := s.issue.accn
    let r := tk.record o.k.toNat
    let h := (th.reg o.off.toNat).toNat
    let n := (th.reg o.d.toNat).toNat
    Alone s o.g [o.d.toNat, o.off.toNat] t tk th → r.ok = true → r.space = 0 → r.fmt = fmtN32 → o.ord = 0 →
    s.isDet tk = false → tk.irrevocable = true → tk.commitT = none → h % 2 = 0 → h + 1 < r.extent → 0 < n → n < r.extent →
    th.answer = none → isReg kh.1 = false → isReg kt.1 = false → isReg kn.1 = false →
    s.drew.elemKey tk r ⟨false, true, false⟩ h = .ok kh → s.drew.elemKey tk r ⟨false, true, false⟩ (h + 1) = .ok kt →
    s.drew.elemKey tk r ⟨false, true, false⟩ n = .ok kn →
    let ls := ([kh.1, kt.1, kn.1].map Machine.lineOf).eraseDups
    let s1 := ((ls.foldl (fun s l => s.writeBack (tk.coreOf t) l fun _ => true)
      (s.drew.rememberAll tk.ctx (kh.2 ++ kt.2 ++ kn.2))).recallLines ls).1
    let tail := (s1.lastWord kt.1).toNat
    let writes := fun link : Nat => KMap.put kt.1 (word n) (KMap.put link (word n) (KMap.put kn.1 (0 : Word) []))
    let ends := fun (q : HomeRes) (w : Word) => ∃ s', exec (.enq o) s = .next s' ∧
      s'.thread? a t = (q.s.thread? a t).map (fun x =>
        (((x.noteWct q.at').setReg o.d.toNat w).next).after q.at' q.s.dtime) ∧
      KeepsRest q.s s' a t ∧ s'.writes = q.s.writes
    s1.poisoned [kh.1, kt.1, kn.1] = false →
    (tail = 0 → ends (s1.atHome (tk.coreOf t) a (KMap.keys (writes kh.1)) fun _ => some (KMap.vals (writes kh.1))) 0) ∧
    (∀ kl, 0 < tail → tail < r.extent → s1.elemKey tk r ⟨false, true, false⟩ tail = .ok kl → s1.poisoned [kl.1] = false → isReg kl.1 = false →
      ends (s1.atHome (tk.coreOf t) a (KMap.keys (writes kl.1)) fun _ => some (KMap.vals (writes kl.1))) (word tail))) ∧
  (∀ (o : Mem0) (s : State) (t : Nat) (tk : Task) (th : Thread),
    let a := s.issue.accn
    let r := tk.record o.k.toNat
    let i := (th.reg o.off.toNat).toNat
    let n := (th.reg (o.d.toNat + 1)).toNat
    Alone s o.g [o.d.toNat, o.d.toNat + 1, o.off.toNat] t tk th → r.ok = true → r.fmt = fmtN32 → 0 < n → n ≤ 8 → o.ord = 0 →
    ((r.space = 0 ∨ r.space = 3) → i = 0 → th.answer = none → th.chased = none →
      ∃ s', exec (.chase o) s = .next s' ∧ OnlyThread s s' a t ((th.setReg o.d.toNat 0).setReg (o.d.toNat + 1) 0).next) ∧
    (∀ (j c : Nat) (k : Nat × List (Nat × Xlate)) (s2 : State) (bs : List Byte), th.answer = none →
      (th.chased = some (j, c) ∨ (th.chased = none ∧ r.space = 0 ∧ 0 < i ∧ i < r.extent ∧ j = i ∧ c = 0)) →
      let ks := [k.1, k.1 + 1, k.1 + 2, k.1 + 3]
      let link := leNat bs
      let ends := fun j c : Nat => ∃ s', exec (.chase o) s = .next s' ∧
        s'.thread? a t = (s2.thread? a t).map (fun x =>
          ((x.setReg o.d.toNat (BitVec.ofNat 32 j)).setReg (o.d.toNat + 1) (BitVec.ofNat 32 c)).next) ∧ KeepsRest s2 s' a t
      s.elemKey tk r ⟨true, false, false⟩ j = .ok k → ks.any isReg = false →
      (s.rememberAll tk.ctx k.2).loadKeys a t tk (tk.coreOf t) r.pol ks = .val s2 bs →
      (link = 0 → ends j c) ∧ (0 < link → link < r.extent → c + 1 = n → ends link (c + 1)) ∧
      (0 < link → link < r.extent → c + 1 ≠ n → ∃ s', exec (.chase o) s = .next s' ∧
        s'.thread? a t = (s2.thread? a t).map (fun x =>
          { x with kept := some tk.s, stallTo := some s2.dtime, chased := some (link, c + 1) }) ∧ KeepsRest s2 s' a t) ∧
      (0 < link → r.extent ≤ link → exec (.chase o) s = .next (s2.raise a t 0x0007 link 0))))

/-! ## Engines, fences and lines -/

/-- R24, R131, R160, R161: CPY, GATH and SCAT hand a command to an engine, with their own copies of the records, and raise the counter
of its class; a count of 0 issues nothing; a failed check is a fault and issues nothing. ENGINE_RETIRE finds out what a copy has to do
(with one element: its source and its destination, or the fault), performs it, and then retires it, which lowers the counter and makes
its writes those of the thread (R121).
Which slot TINFO names when a record fails, that TADDR is 0 there, and that an engine first settles where its elements lie, then
performs a part of them in a step, then retires, is the model's choice or reading (log entries 54, 66, 82). -/
def Obligations.EngineWords : Prop :=
  (∀ (o : Mem0) (i : Instr) (kind cls : Nat) (s : State) (t : Nat) (tk : Task) (th : Thread),
    (i = .cpy o ∧ kind = 0 ∧ cls = 0) ∨ (i = .gath o ∧ kind = 1 ∧ cls = 2) ∨ (i = .scat o ∧ kind = 2 ∧ cls = 2) →
    let a := s.issue.accn
    let k := o.k.toNat
    let w := th.reg (o.d.toNat + 1)
    let start := (th.reg o.off.toNat).toNat
    let frm := (th.reg o.d.toNat).toNat
    let src := w.toNat % 32
    let lst := w.toNat / 32 % 32
    let n := w.toNat / 65536
    Alone s o.g [o.d.toNat, o.d.toNat + 1, o.off.toNat] t tk th → o.ord = 0 →
    (s.isDet tk = true → tk.lowerWaits t th = false) →
    ((tk.record k).space = 3 → tk.irrevocable = true ∧ tk.commitT = none) →
    (engCheck tk kind k w start frm = none → n = 0 → ∃ s', exec i s = .next s' ∧ OnlyThread s s' a t th.next) ∧
    (∀ s2, engCheck tk kind k w start frm = none → 0 < n → th.counter cls < 63 →
      s.register tk s.nextId (engRanges tk kind (tk.record k) (tk.record src)
        (tk.record lst) start frm n) = some s2 →
      ∃ s', exec i s = .next s' ∧ s'.thread? a t = some (th.count cls).next ∧
        s'.engs = s2.engs ++ [⟨s.nextId, a, t, cls, kind, tk.recWords k, tk.recWords src,
          tk.recWords lst, start, frm, n, th.issued.getD cls 0 + 1, none, [], false, 0, none, 0, 0⟩] ∧
        s'.nextId = s.nextId + 1 ∧ KeepsRest s s' a t) ∧
    (∀ f, engCheck tk kind k w start frm = some f → s.tvec tk ≠ 0 → th.h = false → th.rep = none →
      ∃ s', exec i s = .next s' ∧
        OnlyThread s s' a t (th.enterTrap (s.tvec tk) f.cause th.pc.toNat f.taddr f.tinfo)) ∧
    ((w.toNat / 1024 % 64 ≠ 0 ∨ 19 < src ∨ 19 < lst) →
      engCheck tk kind k w start frm = some ⟨0x0004, 0, BitVec.ofNat 32 k⟩)) ∧
  (∀ (th : Thread) (n : Nat), n < 4 → th.counter n < 63 → (th.count n).counter n = th.counter n + 1 ∧
    (∀ m, m ≠ n → (th.count n).counter m = th.counter m) ∧ (th.count n).v = th.v) ∧
  (∀ (s : State) (op : Nat) (e : EngOp) (tk : Task) (th : Thread),
    (s.engs.find? fun e => e.id = op) = some e → s.task? e.accn = some tk → KMap.get? e.tid tk.threads = some th →
    s.engReady tk e = true → e.cls < 4 →
    (e.written = true → e.fault = none →
      ∃ s' th', exec (.engineRetire op) s = .next s' ∧ s'.thread? e.accn e.tid = some th' ∧
        th'.counter e.cls = th.counter e.cls - 1 ∧ th'.v = th.v ∧ th'.eflt = th.eflt ∧ th'.lwct = (th.noteWct e.wct).lwct ∧
        s'.engs = s.engs.filter (fun x => x.id ≠ op) ∧ (∀ k, memRead s'.mem k = memRead s.mem k)) ∧
    (∀ p q : Spot, e.written = false → e.plan = none → e.kind = 0 → e.n = 1 →
      s.source tk e (Rec.ofWords e.src) e.from' 0 = .ok p →
      s.spotOf tk e.tid (Rec.ofWords e.dst) e.start ⟨false, true, false⟩ true = .ok q →
      exec (.engineRetire op) s = .next { s with engs := s.engs.map fun z =>
        if z.id = op then { z with plan := some [⟨0, p, e.start, q⟩], fault := none, gen := s.genOf tk } else z }) ∧
    (∀ c f r, e.written = false → e.plan = none → e.kind = 0 → 0 < e.n →
      s.source tk e (Rec.ofWords e.src) e.from' 0 = .error (.bad c f r) → recallLine c = none →
      exec (.engineRetire op) s = .next { s with engs := s.engs.map fun z =>
        if z.id = op then { z with plan := some [], fault := some (c, f, r), gen := s.genOf tk } else z }) ∧
    (∀ i x d y : Nat, e.written = false → e.plan = some [⟨i, .spad x, d, .spad y⟩] → e.kind = 0 → (Rec.ofWords e.dst).space = 1 →
      KMap.get? (2 * i) e.got = none → (tk.buffers = true → ebufLines tk.ebuf tk.parts ≤ 32 * tk.ebPages) →
      ∃ s', exec (.engineRetire op) s = .next s' ∧
        (s'.task? e.accn).map Task.shell = some { tk with threads := [], spad :=
          (tk.spadWrite (bytesAt y ((List.range (fmtBytes (Rec.ofWords e.dst).fmt)).map fun j => tk.spadByte (x + j)))).spad } ∧
        s'.engs = s.engs.map (fun z => if z.id = op then { z with plan := some [], written := true } else z) ∧
        (∀ b u, s'.thread? b u = s.thread? b u) ∧ (∀ k, memRead s'.mem k = memRead s.mem k)))

/-- R52, R163: WAITC goes on once the counter, as it stood before the chain, is at most k and no engine fault is due, and blocks until then; a due fault traps and is
gone. R123, R164: FENCE is a release and then an acquire at its scope. R165: FLUSH sends the dirty bytes of a line home and notes the WCT that comes back, INVL ends
the lease, PF changes nothing that a program can see, where its line has no update-only copy (which it recalls, R106). R166: WAITLN returns when the word differs from V(D), and blocks until
then.
That a misaligned element counts with the line of its first byte is the model's choice (log entry 112). -/
def Obligations.LineWords : Prop :=
  (∀ (o : WaitC) (s : State), s.issue.lanes.Nodup →
    (∀ t ∈ s.carried, ∀ th, s.thread? s.issue.accn t = some th →
      th.dueFault o.n.toNat o.k.toNat = none ∧ th.baseCounter o.n.toNat ≤ o.k.toNat) →
    Does (.waitc o) s o.g fun _ _ th => th.next) ∧
  (∀ (o : WaitC) (s : State) (t : Nat) (tk : Task) (th : Thread), Alone s o.g [] t tk th →
    (o.k.toNat < th.baseCounter o.n.toNat →
      ∃ s', exec (.waitc o) s = .next s' ∧ OnlyThread s s' s.issue.accn t ((tk.keep th).hold .engine)) ∧
    (∀ f, th.baseCounter o.n.toNat ≤ o.k.toNat → th.dueFault o.n.toNat o.k.toNat = some f → s.tvec tk ≠ 0 → th.h = false →
      th.rep = none →
      ∃ s', exec (.waitc o) s = .next s' ∧ OnlyThread s s' s.issue.accn t
        (Thread.enterTrap { th with eflt := th.eflt.setIfInBounds o.n.toNat none } (s.tvec tk) f.cause th.pc.toNat f.addr
          (BitVec.ofNat 32 f.info)))) ∧
  (∀ (th : Thread) (n : Nat), (th.base = none → th.baseCounter n = th.counter n) ∧
    (∀ b, th.base = some b → th.baseCounter n = th.counter n - (th.issued.getD n 0 - b.issued.getD n 0))) ∧
  (∀ (o : FenceOp) (s : State) (t : Nat) (tk : Task) (th : Thread), Alone s o.g [] t tk th →
    (th.posted = none → tk.narrow o.s.toNat = true → s.sendHome s.issue.accn t o.s.toNat tk = s →
      o.s = 0 ∨ th.lwct.getD o.s.toNat 0 = 0 ∨ th.lwct.getD o.s.toNat 0 < s.dtime →
      ∃ s', exec (.fence o) s = .next s' ∧ OnlyThread s s' s.issue.accn t th.next) ∧
    (∀ s2 tk2, s.release s.issue.accn t o.s.toNat = .go s2 → s2.task? s.issue.accn = some tk2 →
      ∃ s', exec (.fence o) s = .next s' ∧
        s'.thread? s.issue.accn t = (s2.thread? s.issue.accn t).map Thread.next ∧ KeepsRest s2 s' s.issue.accn t ∧
        s'.writes = s2.writes ∧
        (tk2.narrow o.s.toNat = false → ∀ c ∈ tk2.cores, ∀ l, (s'.l1 c l).lease = none ∧
          (s'.l1 c l).dirty = (s2.l1 c l).dirty))) ∧
  (∀ (o : LineOp) (s : State) (t : Nat) (tk : Task) (th : Thread) (p : Place), Alone s o.g [o.off.toNat] t tk th →
    s.linePlace tk t o.k.toNat (th.reg o.off.toNat).toNat = .ok p →
    (∀ k ks, ((∃ va xs, p = .glob va (k :: ks) xs) ∨ ∃ offs, p = .priv offs ∧ offs.map (tk.rcd.privBase + ·) = k :: ks) →
      isReg k = false →
      let l := Machine.lineOf k
      let s1 := (s.rememberAll tk.ctx p.xlates).writeBack (tk.coreOf t) l fun _ => true
      (∃ s', exec (.flush o) s = .next s' ∧
        s'.thread? s.issue.accn t = (s1.thread? s.issue.accn t).map (fun x =>
          (if (s.l1 (tk.coreOf t) l).dirty = [] then x else x.noteWct (s1.home l).wct).next) ∧
        KeepsRest s1 s' s.issue.accn t ∧ s'.writes = s1.writes ∧ (s'.l1 (tk.coreOf t) l).dirty = []) ∧
      (∃ s', exec (.invl o) s = .next s' ∧ s'.thread? s.issue.accn t = some th.next ∧
        KeepsRest s s' s.issue.accn t ∧ s'.writes = s.writes ∧ (s'.l1 (tk.coreOf t) l).lease = none ∧
        (∀ j, (s'.l1 (tk.coreOf t) j).dirty = (s.l1 (tk.coreOf t) j).dirty))) ∧
    ((∀ va ks xs, p ≠ .glob va ks xs) → (∀ offs, p ≠ .priv offs) →
      ∃ s', exec (.flush o) s = .next s' ∧ exec (.invl o) s = .next s' ∧ OnlyThread s s' s.issue.accn t th.next)) ∧
  (∀ (o : PfOp) (s : State) (t : Nat) (tk : Task) (th : Thread), Alone s o.g [] t tk th →
    (tk.holdsReg o.off.toNat = true → s.awaits s.issue.accn t o.off.toNat = false) →
    (∀ f, s.linePlace tk t o.k.toNat (th.reg o.off.toNat).toNat = .error f → recallLine f.cause = none) →
    (∀ p, s.linePlace tk t o.k.toNat (th.reg o.off.toNat).toNat = .ok p → ∀ k ∈ p.keys tk, s.lineParts (Machine.lineOf k) = []) →
    ∃ s', exec (.pf o) s = .next s' ∧ s'.thread? s.issue.accn t = some th.next ∧ KeepsRest s s' s.issue.accn t ∧
      s'.writes = s.writes ∧ (∀ k, s'.homeByte k = s.homeByte k) ∧
      (∀ c j, (s'.l1 c j).dirty = (s.l1 c j).dirty)) ∧
  (∀ (o : WaitLn) (s s2 : State) (t : Nat) (tk : Task) (th : Thread) (va : Nat) (ks : List Nat) (xs : List (Nat × Xlate))
      (bs : List Byte),
    let r := tk.record o.k.toNat
    Alone s o.g [o.d.toNat, o.off.toNat] t tk th → s.meetings s.issue.accn (s.present o.g) = s → r.space = 0 →
    fmtBits r.fmt = 32 →
    s.place tk t o.k.toNat r true (th.reg o.off.toNat).toNat r.address ⟨4, true, ⟨true, false, false⟩⟩ = .ok (.glob va ks xs) →
    ks.any isReg = false →
    (s.rememberAll tk.ctx xs).loadKeys s.issue.accn t tk (tk.coreOf t) r.pol ks = .val s2 bs →
    ∃ s', exec (.waitln o) s = .next s' ∧
      s'.thread? s.issue.accn t = (s2.thread? s.issue.accn t).map (fun x =>
        if word (leNat bs) = th.reg o.d.toNat then (tk.keep x).hold .line else (x.setReg o.d.toNat (word (leNat bs))).next) ∧
      KeepsRest s2 s' s.issue.accn t)

/-! ## Cross-lane words -/

/-- R210 to R213: threads that make up a whole subgroup, come to a cross-lane word in one issue, meet no others there and have missed no
word before at which others waited for them: the word
acts once; a present lane writes V(D), P(RP) and its flags, a lane whose guard fails writes nothing, and all go on.
R213 to R218: what a present lane receives, over the present lanes in ascending rank.
Which threads count at a meeting without being held there is the model's reading (log entries 73, 100). -/
def Obligations.CrossWords : Prop :=
  (∀ (s : State) (tk : Task) (i : Instr) (g : BitVec 3) (d b : BitVec 6) (regs : List Nat) (q : Group) (lane : Word),
    ((∃ o : Lane, i = .perm o ∧ g = o.g ∧ d = o.d ∧ b = o.b ∧ regs = [o.d.toNat, o.a.toNat]) ∨
      (∃ o : Lane, i = .bcast o ∧ g = o.g ∧ d = o.d ∧ b = o.b ∧ regs = [o.d.toNat, o.a.toNat]) ∨
      (∃ o : LaneQ, i = .laneq o ∧ g = o.g ∧ d = o.d ∧ b = o.b ∧ regs = [o.d.toNat]) ∨
      (∃ o : Lane, i = .vote o ∧ g = o.g ∧ d = o.d ∧ b = o.b ∧ regs = [o.d.toNat]) ∨
      (∃ o : LaneR, i = .lred o ∧ g = o.g ∧ d = o.d ∧ b = o.b ∧ regs = [o.d.toNat, o.a.toNat]) ∨
      (∃ o : LaneR, i = .lscan o ∧ g = o.g ∧ d = o.d ∧ b = o.b ∧ regs = [o.d.toNat, o.a.toNat])) →
    let a := s.issue.accn
    s.task? a = some tk → KMap.ascending tk.threads = true → 0 < q.n → 0 < q.stride →
    s.issue.lanes = (List.range q.n).map (fun r => q.base + r * q.stride) →
    (∀ p ∈ tk.threads, p.2.arrival = none) → (∀ t ∈ s.issue.lanes, ∀ th, KMap.get? t tk.threads = some th → th.missed = []) →
    (∀ t ∈ s.issue.lanes, tk.laneOk lane t = true ∧ tk.group lane t = q ∧
      ∃ th, KMap.get? t tk.threads = some th ∧ s.issue.carries th = true ∧ (tk.seen th).sreg b.toNat = lane ∧
        (th.pred g.toNat = true → s.free? tk t regs)) →
    let ps : List Party := tk.threads.filterMap fun p =>
      let ar : Arrival :=
        ⟨i, lane, (tk.seen p.2).sreg (b.toNat + 1), p.2.pred g.toNat, s.issue.lanes.filter (· ≠ p.1), []⟩
      if p.1 ∈ s.issue.lanes then
        some ⟨q.rank p.1, p.1, { p.2 with kept := none, cond := .held .meeting, arrival := some ar }, ar⟩
      else none
    ∃ s', exec i s = .next s' ∧ OnlyThreads s s' ∧
      (∀ c u, (c = a → u ∉ s.issue.lanes) → s'.thread? c u = s.thread? c u) ∧
      ∀ p ∈ ps, s'.thread? a p.tid = some { Thread.next (
        if p.ar.guard then
          let x := crossGive q.n ps p
          ((p.th.setReg d.toNat x.value).setPred (laneRp lane) x.rp).flag x.flags
        else p.th) with cond := .running }) ∧
  (∀ (n : Nat) (ps pr : List Party) (me : Party), pr = Machine.present ps →
    (pr.map Party.rank).Pairwise (· < ·) → (∀ p ∈ pr, p.rank < n) → 0 < n →
    let vacant := fun a : Nat => if me.ar.lane.getLsbD 10 then me.th.reg a else 0
    let mode := me.ar.lane.toNat / 256 % 4
    let reads := fun (a : Nat) (x : Given) (i : Int) =>
      (∀ p ∈ pr, (p.rank : Int) = i → x = ⟨p.th.reg a, true, FFlags.none⟩) ∧
      (0 ≤ i → i < n → (∀ p ∈ pr, (p.rank : Int) ≠ i) → x = ⟨vacant a, false, FFlags.none⟩) ∧
      ((i < 0 ∨ (n : Int) ≤ i) → ∀ r : Nat,
        (mode = 0 ∧ (r : Int) = i % (n : Int)) ∨ (mode = 1 ∧ r = if i < 0 then 0 else n - 1) ∨ (mode = 2 ∧ r = me.rank) →
        (∀ p ∈ pr, p.rank = r → x = ⟨p.th.reg a, false, FFlags.none⟩) ∧
        ((∀ p ∈ pr, p.rank ≠ r) → x = ⟨vacant a, false, FFlags.none⟩))
    (∀ o : Lane, me.ar.op = .perm o →
      let i := (me.th.reg o.d.toNat).toNat
      reads o.a.toNat (crossGive n ps me)
        (if o.f = 0 then (i : Int) else if o.f = 1 then ((me.rank ^^^ i : Nat) : Int)
          else if o.f = 2 then (me.rank : Int) - i else (me.rank : Int) + i)) ∧
    (∀ o : Lane, me.ar.op = .bcast o →
      (∀ p rest, o.f = 0 → pr = p :: rest → crossGive n ps me = ⟨p.th.reg o.a.toNat, true, FFlags.none⟩) ∧
      (∀ p rest, o.f = 1 → pr = rest ++ [p] → crossGive n ps me = ⟨p.th.reg o.a.toNat, true, FFlags.none⟩) ∧
      (o.f = 2 → reads o.a.toNat (crossGive n ps me) me.ar.after.toNat)) ∧
    (∀ o : LaneQ, me.ar.op = .laneq o →
      crossGive n ps me = ⟨word (if o.f = 0 then me.rank else if o.f = 1 then n else if o.f = 2 then pr.length
          else (pr.filter fun p => p.rank < me.rank).length), (pr.head?.map Party.rank) == some me.rank, FFlags.none⟩) ∧
    (∀ o : Lane, me.ar.op = .vote o → o.f ≠ 3 →
      (crossGive n ps me).value = word (pr.filter fun p => p.th.pred o.a.toNat).length ∧
      (crossGive n ps me).rp = if o.f = 0 then pr.all (fun p => p.th.pred o.a.toNat)
        else if o.f = 1 then pr.any (fun p => p.th.pred o.a.toNat)
        else pr.all (fun p => p.th.pred o.a.toNat) || pr.all (fun p => !p.th.pred o.a.toNat)) ∧
    (∀ o : Lane, me.ar.op = .vote o → o.f = 3 →
      (∀ j, j < 32 → (crossGive n ps me).value.getLsbD j =
        pr.any (fun p => p.rank == 32 * (me.rank / 32) + j && p.th.pred o.a.toNat)) ∧
      (crossGive n ps me).rp = ((crossGive n ps me).value != 0)) ∧
    (∀ (o : LaneR) (first : Party) (rest : List Party), pr = first :: rest → o.o.toNat ≤ 5 →
      let f := fun x y : Word => if o.o = 0 then x + y else if o.o = 1 then (if y.slt x then y else x)
        else if o.o = 2 then (if x.slt y then y else x) else if o.o = 3 then x &&& y else if o.o = 4 then x ||| y else x ^^^ y
      let fold := fun qs : List Party => qs.foldl (fun x p => f x (p.th.reg o.a.toNat)) (first.th.reg o.a.toNat)
      (me.ar.op = .lred o → crossGive n ps me = ⟨fold rest, pr.length == n, FFlags.none⟩) ∧
      (me.ar.op = .lscan o → first.rank ≤ me.rank →
        crossGive n ps me = ⟨fold (rest.filter fun p => p.rank ≤ me.rank), pr.length == n, FFlags.none⟩)) ∧
    -- FADD and FMAX, in the mode of the lowest present rank (MinMaxWords says what `minmax` gives)
    (∀ (o : LaneR) (first : Party) (rest : List Party), pr = first :: rest → o.o = 6 ∨ o.o = 7 →
      let md := FMode.mk (first.th.fpmode.toNat % 4) (first.th.fpmode.getLsbD 2)
      let step := fun (r : Word × FFlags) (p : Party) =>
        let x := if o.o = 6 then f32.add md r.1.toNat (p.th.reg o.a.toNat).toNat
          else f32.minmax md true r.1.toNat (p.th.reg o.a.toNat).toNat
        (BitVec.ofNat 32 x.1, r.2.or x.2)
      let fold := fun qs : List Party => qs.foldl step (first.th.reg o.a.toNat, FFlags.none)
      (me.ar.op = .lred o → crossGive n ps me = ⟨(fold rest).1, pr.length == n, (fold rest).2⟩) ∧
      (me.ar.op = .lscan o → first.rank ≤ me.rank →
        let qs := rest.filter fun p => p.rank ≤ me.rank
        crossGive n ps me = ⟨(fold qs).1, pr.length == n, (fold qs).2⟩)))

/-! ## Matrix words -/

/-- R24, R233, R239, R247: a collective word that passes its checks signs: the row index and the format word are captured, OC1 rises, and
the thread is held until every live member has signed. A request that forms enters the table with what was signed, and its
signer goes on, or stays held under EXC trap. -/
def Obligations.MatrixSigning : Prop :=
  ∀ (i : Instr) (m : MatWord) (s : State) (t : Nat) (tk : Task) (th : Thread) (b : Binding),
    ((∃ o : Mx, (i = .mma o ∧ m = ⟨o.v.toNat, o.t.toNat, o.o.toNat, 0x35, 0, some o.i.toNat, o.f.toNat⟩) ∨
        (i = .mrp o ∧ m = ⟨o.v.toNat, o.t.toNat, o.o.toNat, 0x36, 1, some o.i.toNat, o.f.toNat⟩) ∨
        (i = .mld o ∧ m = ⟨o.v.toNat, o.t.toNat, o.o.toNat, 0x38, 0, some o.i.toNat, o.f.toNat⟩) ∨
        (i = .mst o ∧ m = ⟨o.v.toNat, o.t.toNat, o.o.toNat, 0x38, 1, some o.i.toNat, o.f.toNat⟩)) ∨
      (∃ o : Mx0, (i = .mxp o ∧ m = ⟨o.v.toNat, o.t.toNat, o.o.toNat, 0x36, 0, none, o.f.toNat⟩) ∨
        (i = .mrr o ∧ m = ⟨o.v.toNat, o.t.toNat, o.o.toNat, 0x37, 0, none, o.f.toNat⟩) ∨
        (i = .madd o ∧ m = ⟨o.v.toNat, o.t.toNat, o.o.toNat, 0x37, 1, none, o.f.toNat⟩))) →
    let a := s.issue.accn
    let k := clusterOf tk.core
    let e := tk.entry (b.w0.toNat % 256)
    let g : Sig := ⟨t, (m.idx.map th.reg).getD 0xFFFFFFFF, th.reg m.fw, m.maj, m.x, m.tl, m.opx, false⟩
    let b1 : Binding := { b with sigs := KMap.put (tk.memberRank b t) g b.sigs }
    let th1 := (th.count 1).hold .signing
    let s1 := (s.updCluster k fun c => { c with cvs := KMap.upd m.cv (fun _ => b1) c.cvs }).updThread a t fun _ => th1
    Alone s 0 (m.fw :: m.idx.toList) t tk th → KMap.get? m.cv (s.cluster k).cvs = some b → b.accn = a → b.bound = true →
    entryHas e tk.rcd.tidx t = true → (KMap.get? m.tl tk.tiles).isSome = true →
    (b.sigs.any fun p => p.2.tid == t) = false → th.counter 1 < 63 → (∀ p ∈ tk.threads, p.2.arrival = none) → th.missed = [] →
    ((∃ u ∈ tk.members b, u ≠ t ∧ ((KMap.get? u tk.threads).map Thread.live) = some true ∧
        (b.sigs.any fun p => p.2.tid == u) = false) →
      ∃ s', exec i s = .next s' ∧ s'.thread? a t = some th1 ∧ KMap.get? m.cv (s'.cluster k).cvs = some b1 ∧
        (s'.cluster k).table = (s.cluster k).table ∧ KeepsRest s s' a t) ∧
    (∀ en, entryCount e = 1 → b.sigs = [] → ((s.ctx? tk.ctx).map fun c => c.optab.getD m.opx 0) = some en →
      (readsTile m.maj = true → (KMap.get? (b.w0.toNat / 262144 % 16) tk.tiles).isSome = true) →
      s1.formatStep { tk with threads := KMap.upd t (fun _ => th1) tk.threads } b1 g en = none →
      let r := s1.request a m.cv b1 g en
      s1.operandCopies { tk with threads := KMap.upd t (fun _ => th1) tk.threads } r 0 r.passes = [] →
      s1.operandFault { tk with threads := KMap.upd t (fun _ => th1) tk.threads } r 0 r.passes = none →
      ∃ s', exec i s = .next s' ∧
        s'.thread? a t = some (if enExc en = 2 then th1 else { th1.next with cond := .running }) ∧
        (s'.cluster k).table = (s.cluster k).table ++ [{ r with
          early := s1.readEarly { tk with threads := KMap.upd t (fun _ => th1) tk.threads } r
          admitted := (s.cluster k).admitted.length < 32 }] ∧
        KMap.get? m.cv (s'.cluster k).cvs = some { b1 with sigs := [] } ∧
        r.fw = th.reg m.fw ∧ r.rows.map Prod.snd = [(m.idx.map th.reg).getD 0xFFFFFFFF] ∧ r.signers = [t] ∧
        KeepsRest s s' a t)

/-- R178, R192 to R195, R223 to R226, R228, R229, R237, R238, R256: the arithmetic of the engine: the operators with the empty value,
annihilation and exceptions, the generated one, scales, the step into the cell, the tree, and what the elements of each format become in
the latches, in a tile and in memory. -/
def Obligations.EngineArithmetic : Prop :=
  (∀ (e : Word) (x y : Nat), x < 2 ^ 40 → y < 2 ^ 40 → enLegal e = true →
    let pr := enPair e
    let zero := isZero pr (enAcc e)
    let bad := fun kd : Nat => (⟨if enExc e = 1 then none else some accNan, false, some kd, false, none⟩ : SVal)
    let clamp := fun i : Int => BitVec.toNat (BitVec.ofInt 40 (max (-(2 ^ 39)) (min (2 ^ 39 - 1) i)))
    let out := fun i : Int => decide (i < -(2 ^ 39) ∨ 2 ^ 39 - 1 < i)
    let below := fun v : Nat => 0x8000000000 < v
    let maxes := fun m v : Nat => (v = x ∨ v = y) ∧ (m = 1 → int40 x ≤ int40 v ∧ int40 y ≤ int40 v) ∧
      (m = 0 → fa40.key x ≤ fa40.key v ∧ fa40.key y ≤ fa40.key v)
    let mins := fun m v : Nat => (v = x ∨ v = y) ∧ (m = 1 → int40 v ≤ int40 x ∧ int40 v ≤ int40 y) ∧
      (m = 0 → fa40.key v ≤ fa40.key x ∧ fa40.key v ≤ fa40.key y)
    (zero x = true ∨ zero y = true → otimesSr e (some x) (some y) = SVal.empty) ∧
    otimesSr e none (some y) = SVal.empty ∧ otimesSr e (some x) none = SVal.empty ∧
    (zero x = false → zero y = false →
      (enAcc e = 2 → otimesSr e (some x) (some y) = SVal.of (some (x &&& y))) ∧
      (enAcc e = 1 → pr = 0 → otimesSr e (some x) (some y) = ⟨some (clamp (int40 x * int40 y)), out (int40 x * int40 y), none, false, none⟩) ∧
      (enAcc e = 1 → pr = 6 → ∃ v, otimesSr e (some x) (some y) = SVal.of (some v) ∧ mins 1 v) ∧
      (enAcc e = 1 → pr = 7 → ∃ v, otimesSr e (some x) (some y) = SVal.of (some v) ∧ maxes 1 v) ∧
      (enAcc e = 0 → fa40.isNan x = true ∨ fa40.isNan y = true ∨ ((pr = 3 ∨ pr = 4) ∧ (below x ∨ below y)) →
        otimesSr e (some x) (some y) = bad 0) ∧
      (enAcc e = 0 → fa40.isNan x = false → fa40.isNan y = false →
        (pr = 0 ∨ ((pr = 3 ∨ pr = 4) ∧ ¬ below x ∧ ¬ below y) →
          otimesSr e (some x) (some y) = SVal.of (some (fa40.mul FMode.rn x y).1)) ∧
        (pr = 1 ∨ pr = 2 → otimesSr e (some x) (some y) = SVal.of (some (fa40.add FMode.rn x y).1)) ∧
        (pr = 6 → ∃ v, otimesSr e (some x) (some y) = SVal.of (some v) ∧ mins 0 v) ∧
        (pr = 7 → ∃ v, otimesSr e (some x) (some y) = SVal.of (some v) ∧ maxes 0 v))) ∧
    (∀ a : SVal, oplusSr e SVal.empty a = { a with final := false, num := none } ∧
      oplusSr e a SVal.empty = { a with final := false, num := none }) ∧
    (let plus := oplusSr e (SVal.of (some x)) (SVal.of (some y));
      (enAcc e = 2 → plus = SVal.of (some (x ||| y))) ∧
      (enAcc e = 1 → pr = 0 → plus = ⟨some (clamp (int40 x + int40 y)), out (int40 x + int40 y), none, false, none⟩) ∧
      (enAcc e = 1 → pr = 6 → ∃ v, plus = SVal.of (some v) ∧ maxes 1 v) ∧
      (enAcc e = 1 → pr = 7 → ∃ v, plus = SVal.of (some v) ∧ mins 1 v) ∧
      (enAcc e = 0 → fa40.isNan x = true ∨ fa40.isNan y = true ∨ (pr = 0 ∧ fa40.isNan (fa40.add FMode.rn x y).1 = true) →
        plus = bad 1) ∧
      (enAcc e = 0 → fa40.isNan x = false → fa40.isNan y = false →
        (pr = 0 → fa40.isNan (fa40.add FMode.rn x y).1 = false → plus = SVal.of (some (fa40.add FMode.rn x y).1)) ∧
        (pr = 2 ∨ pr = 3 ∨ pr = 6 → ∃ v, plus = SVal.of (some v) ∧ maxes 0 v) ∧
        (pr = 1 ∨ pr = 4 ∨ pr = 7 → ∃ v, plus = SVal.of (some v) ∧ mins 0 v))) ∧
    (enAcc e = 0 → fa40.isNan (fa40.mul FMode.rn x y).1 = false →
      scaleSr e (some y) (SVal.of (some x)) = SVal.of (some (fa40.mul FMode.rn x y).1)) ∧
    (∀ (c : Option Nat) (a : SVal), enAcc e = 0 → fa40.isNan (fa40.mul FMode.rn x y).1 = true → a = SVal.of (some x) →
      (intoCell e c (scaleSr e (some y) a)).v = some (if enExc e = 1 then srZero pr 0 else accNan)) ∧
    (enAcc e = 1 →
      let p := (fa40.roundVal FMode.rn (mulVal (intVal x) (fa40.value y))).1
      let sc := scaleSum e (some y) none (SVal.of (some x))
      (fa40.isNan p = true → sc.kind = some 2 ∧ (enExc e = 1 → ∀ c, (intoCell e c sc).v = some (srZero pr 1))) ∧
      (∀ i : Int, fa40.isNan p = false → (fa40.value p).int? = some i → ∀ c : Nat,
        intoCell e (some c) sc = ⟨some (clamp (int40 c + i)), out (int40 c + i), none, false, none⟩) ∧
      (∀ neg : Bool, fa40.value p = .inf neg → ∀ c : Nat, c < 2 ^ 40 →
        intoCell e (some c) sc = ⟨some (if neg then 0x8000000000 else 0x7FFFFFFFFF), true, none, false, none⟩)) ∧
    -- a generated one, and the step into the cell
    (oneSr e none = SVal.empty ∧ (zero x = true → oneSr e (some x) = SVal.empty) ∧
      (zero x = false →
        let exc := enAcc e = 0 ∧ (fa40.isNan x = true ∨ ((pr = 3 ∨ pr = 4) ∧ below x))
        (exc → oneSr e (some x) = bad 0) ∧ (¬ exc → oneSr e (some x) = SVal.of (some x)))) ∧
    (∀ c : Option Nat, intoCell e c SVal.empty = SVal.of c) ∧ intoCell e none (SVal.of (some y)) = SVal.of (some y) ∧
    (let into := intoCell e (some x) (SVal.of (some y));
      (enAcc e = 2 → into = SVal.of (some (x ||| y))) ∧
      (enAcc e = 1 → pr = 0 → into = ⟨some (clamp (int40 x + int40 y)), out (int40 x + int40 y), none, false, none⟩) ∧
      (enAcc e = 1 → pr = 6 → ∃ v, into = SVal.of (some v) ∧ maxes 1 v) ∧
      (enAcc e = 1 → pr = 7 → ∃ v, into = SVal.of (some v) ∧ mins 1 v) ∧
      (enAcc e = 0 → fa40.isNan x = true ∨ fa40.isNan y = true ∨ (pr = 0 ∧ fa40.isNan (fa40.add FMode.rn x y).1 = true) →
        into = ⟨some (if enExc e = 1 then srZero pr 0 else accNan), false, some 3, false, none⟩) ∧
      (enAcc e = 0 → fa40.isNan x = false → fa40.isNan y = false →
        (pr = 0 → fa40.isNan (fa40.add FMode.rn x y).1 = false → into = SVal.of (some (fa40.add FMode.rn x y).1)) ∧
        (pr = 2 ∨ pr = 3 ∨ pr = 6 → ∃ v, into = SVal.of (some v) ∧ maxes 0 v) ∧
        (pr = 1 ∨ pr = 4 ∨ pr = 7 → ∃ v, into = SVal.of (some v) ∧ mins 0 v))) ∧
    (∀ (a b : List SVal) (n : Nat), a.length = 2 ^ n → treeSum e (n + 1) a = treeSum e n a ∧
      (b.length = 2 ^ n → treeSum e (n + 1) (a ++ b) = oplusSr e (treeSum e n a) (treeSum e n b)))) ∧
  -- elements: what the latches hold, what MLD and MST make of an element and a cell
  (∀ (f n c : Nat) (book : List (BitVec 16)), c < 2 ^ 40 →
    let float := fun (f g : FFmt) (n : Nat) =>
      match f.value n with
      | .nan _ => g.nan
      | .inf neg => g.inf neg
      | .fin neg m e => (g.round ⟨0, false⟩ neg m e).1
    let ext := fun w : Nat => ((BitVec.ofNat w n).signExtend 40).toNat
    let v := int40 c
    let sat := fun (w : Nat) (lo hi : Int) =>
      ((BitVec.ofInt w (max lo (min hi v))).toNat, decide (v < lo ∨ hi < v))
    engineValue f n book = (if f = 0 then float bf16 fa40 (float f32 bf16 n) else if f = 1 then float bf16 fa40 n
      else if f = 3 then float bf16 fa40 (book.getD n 0).toNat else if f = 4 then ext 8 else if f = 5 then ext 16 else n) ∧
    loadValue f n = (if f = 0 then float f32 fa40 n else if f = 1 then float bf16 fa40 n
      else if f = 2 then (if fa40.isNan (n % 2 ^ 40) then accNan else n % 2 ^ 40)
      else if f = 4 then ext 8 else if f = 5 then ext 16 else if f = 6 then ext 32 else n % 2 ^ 40) ∧
    (f ≤ 11 → f ≠ 3 → storeValue f c =
      if f = 0 then (float fa40 f32 c, false) else if f = 1 then (float fa40 bf16 c, false)
      else if f = 2 then (if fa40.isNan c then accNan else c, false)
      else if f = 4 then sat 8 (-128) 127 else if f = 5 then sat 16 (-32768) 32767
      else if f = 6 then sat 32 (-2147483648) 2147483647 else if f = 7 then sat 8 0 255 else if f = 8 then sat 16 0 65535
      else if f = 9 then sat 32 0 4294967295 else if f = 10 then (c % 2, false)
      else (((BitVec.ofNat 40 c).signExtend 64).toNat, false))) ∧
  (∀ (s : State) (tk : Task) (r : Request) (p i c k : Nat),
    let a := Rec.ofWords r.recA
    let b := Rec.ofWords r.recB
    let n := (if enPair r.entry = 5 then 128 else 32) * p + k
    -- an element read at formation, or now; none is padding
    let read := fun (side : Nat) (x : Rec) (o : Nat) =>
      (s.opndBits tk x.fmt (s.opnd tk x (enPad r.entry) o readOnly)).map fun v =>
        engineValue x.fmt ((KMap.get? (2 * o + side) r.early).getD v) (s.bookOf tk x)
    k < (if enPair r.entry = 5 then 128 else 32) →
      (r.row i = (KMap.get? i r.rows).bind fun w => if w = 0xFFFFFFFF then none else some w.toNat) ∧
      (s.latchA tk r p i)[k]? = some ((r.row i).bind fun row =>
        if n < r.klen then read 0 a (row * a.rowlen + (r.kstart + n)) else none) ∧
      (s.latchB tk r p c)[k]? = some (if n < r.klen then read 1 b ((r.kstart + n) * b.rowlen + c) else none))

/-- R24, R131, R178, R192, R193, R224 to R229, R231, R239, R243, R253 to R259: MATRIX_PASS performs one pass of the request that the
arbiter prefers, where no request waits to be formed.
What every cell holds after a pass of MMA, MXP, MRP, MRR and MADD, in the operations of EngineArithmetic: the products, the tree, the
scales, the step into the cell, INIT, the empty value and the exceptions; the cells that MLD writes; the elements that MST stores, a part of them in each step.
MATRIX_RETIRE takes a request whose passes are over out of the table: cells that are still empty become the pair's zero, and
the signer's OC1 falls by one, and the writes of an MST are those of its thread (R121); a stopped request gives its signer the matrix exception.
That zeros are copied into empty cells by MXP and MRP, that an MST may take several steps, which elements of a pass are read
early, which fault of several counts, that a codebook loaded anew serves older requests, and what a finite scaled sum that is no
integer becomes in an INT40 cell, is the model's reading or choice (log entries 74, 75, 76, 102, 104, 115). -/
def Obligations.MatrixPasses : Prop :=
  (∀ (s : State) (k p : Nat) (r : Request) (tk : Task),
    let e := r.entry
    let s2 := s.fillScales tk r
    let src := r.stile.getD r.tl
    let at0 := fun n j : Nat => (KMap.getD j 0 (s.tileOf tk n).cells).toNat
    let sv := fun j : Nat => cellRead (enAcc e) (at0 src j)
    let indexed := fun i : Nat => (KMap.get? i r.rows).map BitVec.toNat
    let sum := fun i c : Nat =>
      if r.maj = 0x35 then
        scaleSum e (s2.scaleVal tk r.useSa 0 r.scA (r.row i) (r.kb r.pass)) (s2.scaleVal tk r.useSb 1 r.scB (some c) (r.kb r.pass))
          (treeSum e 7 (((s.latchA tk r r.pass i).zip (s.latchB tk r r.pass c)).map fun x => otimesSr e x.1 x.2))
      else if r.maj = 0x36 ∧ r.x = 0 then (if i / 32 = r.pass then oneSr e (some (sv (128 * c + i))) else SVal.empty)
      else if r.maj = 0x36 then
        (match indexed i with
          | some a => if a / 32 = r.pass then oneSr e (some (sv (128 * a + c))) else SVal.empty
          | none => SVal.empty)
      else if r.x = 0 then
        (if c = 0 then treeSum e 7 ((List.range 32).map fun n => oneSr e (some (sv (128 * i + 32 * r.pass + n)))) else SVal.empty)
      else SVal.of (some (sv (128 * i + c)))
    let cell := fun j : Nat =>
      if r.init = true ∧ (r.maj = 0x37 → r.x = 0 → j % 128 = 0) ∧ KMap.get? j r.filled = none then none
      else some (cellRead (enAcc e) (at0 r.tl j))
    let copied := fun j : Nat =>
      (if r.maj = 0x36 ∧ r.x = 0 then (if j / 128 / 32 = r.pass then some (sv (128 * (j % 128) + j / 128)) else none)
        else if r.maj = 0x36 then
          (indexed (j / 128)).bind fun a => if a / 32 = r.pass then some (sv (128 * a + j % 128)) else none
        else none).filter (isZero (enPair e) (enAcc e))
    let out := fun j : Nat =>
      let x := sum (j / 128) (j % 128)
      if x.v = none then { x with v := if cell j = none then copied j else some (at0 r.tl j) } else intoCell e (cell j) x
    s.nextPass k = some r → s.task? r.accn = some tk → (r.maj = 0x35 ∨ r.maj = 0x36 ∨ r.maj = 0x37) → r.x ≤ 1 →
    s.unformed k = [] → openLines (s.opnds tk r r.pass) = [] → (∀ l ∈ passLines (s.opnds tk r r.pass), s.lineParts l = [] ∧ l ∉ s.poison) →
    KMap.get? r.tl tk.tiles = some p → KMap.ascending (s.tileOf tk r.tl).cells = true →
    KMap.ascending (s.tileOf tk src).cells = true →
    ((enExc e = 2 → ∀ j, j < 16384 → (out j).kind = none) →
      ∃ s', exec (.matrixPass k) s = .next s' ∧ s'.tasks = s.tasks ∧ s'.mem = s.mem ∧ s'.writes = s.writes ∧
        (∀ j, j < 16384 → KMap.getD j 0 (s'.tileOf tk r.tl).cells =
          if r.maj = 0x37 ∧ r.x = 0 ∧ j % 128 ≠ 0 then KMap.getD j 0 (s.tileOf tk r.tl).cells
          else BitVec.ofNat 40 ((out j).v.getD (at0 r.tl j))) ∧
        ((s'.tileOf tk r.tl).sat = true ↔ (s.tileOf tk r.tl).sat = true ∨ ∃ j, j < 16384 ∧ (out j).sat = true) ∧
        (∀ n q, KMap.get? n tk.tiles = some q → q ≠ p → s'.tileOf tk n = s.tileOf tk n) ∧
        (s'.cluster k).table.map (fun x => (x.id, x.pass, x.exc)) =
          (s.cluster k).table.map (fun x => (x.id, if x.id = r.id then x.pass + 1 else x.pass, x.exc)) ∧
        (∀ x ∈ (s'.cluster k).table, x.id = r.id → ∀ j, j < 16384 → x.init = true →
          ((KMap.get? j x.filled).isSome = true ↔
            (x.maj = 0x37 → x.x = 0 → j % 128 = 0) ∧ (out j).v.isSome = true))) ∧
    (∀ j kd, enExc e = 2 → j < 16384 → (out j).kind = some kd → (∀ n, n < j → (out n).kind = none) →
      ∃ s', exec (.matrixPass k) s = .next s' ∧ s'.tasks = s.tasks ∧ s'.mem = s.mem ∧ s'.writes = s.writes ∧
        (∀ n, s'.tileOf tk n = s.tileOf tk n) ∧
        (s'.cluster k).table.map (fun x => (x.id, x.pass, x.exc)) = (s.cluster k).table.map (fun x => (x.id, x.pass,
          if x.id = r.id then some (BitVec.ofNat 32 (r.pass * 65536 + kd * 16384 + j % 128 * 128 + j / 128)) else x.exc)))) ∧
  (∀ (s : State) (k p : Nat) (r : Request) (tk : Task), s.nextPass k = some r → s.task? r.accn = some tk → r.maj = 0x38 → r.x = 0 →
    s.unformed k = [] → openLines (s.opnds tk r r.pass) = [] → (∀ l ∈ passLines (s.opnds tk r r.pass), s.lineParts l = [] ∧ l ∉ s.poison) → KMap.get? r.tl tk.tiles = some p →
    KMap.ascending (s.tileOf tk r.tl).cells = true →
    let b := Rec.ofWords r.recB
    ∃ s', exec (.matrixPass k) s = .next s' ∧ s'.tasks = s.tasks ∧ s'.mem = s.mem ∧ s'.writes = s.writes ∧
      (∀ j, j < 16384 → KMap.getD j 0 (s'.tileOf tk r.tl).cells =
        if r.row (j / 128) = none then KMap.getD j 0 (s.tileOf tk r.tl).cells
        else
          let o := (r.row (j / 128)).getD 0 * b.rowlen + j % 128
          match s.opndBits tk b.fmt (s.opnd tk b (enPad r.entry) o readOnly) with
          | some n => BitVec.ofNat 40 (loadValue b.fmt ((KMap.get? (2 * o + 1) r.early).getD n))
          | none => BitVec.ofNat 40 (srZero (enPair r.entry) (enAcc r.entry))) ∧
      (s'.tileOf tk r.tl).sat = (s.tileOf tk r.tl).sat ∧
      (∀ n q, KMap.get? n tk.tiles = some q → q ≠ p → s'.tileOf tk n = s.tileOf tk n) ∧
      (s'.cluster k).table.map (fun x => (x.id, x.pass)) =
        (s.cluster k).table.map (fun x => (x.id, if x.id = r.id then x.pass + 1 else x.pass))) ∧
  (∀ (s : State) (k p : Nat) (r : Request) (tk : Task), s.nextPass k = some r → s.task? r.accn = some tk → r.maj = 0x38 → r.x = 1 →
    s.unformed k = [] → openLines (s.opnds tk r r.pass) = [] → KMap.get? r.tl tk.tiles = some p → s.storeFull tk r = false →
    let b := Rec.ofWords r.recB
    let left := (s.storeItems tk r).filter fun x => (KMap.get? x.cell r.filled).isNone
    ∃ s' xs, exec (.matrixPass k) s = .next s' ∧ List.Sublist xs left ∧ (left ≠ [] → xs ≠ []) ∧ s'.mem = s.mem ∧
      (∀ n, (s'.tileOf tk n).cells = (s.tileOf tk n).cells) ∧
      ((s'.tileOf tk r.tl).sat = true ↔ (s.tileOf tk r.tl).sat = true ∨ ∃ x ∈ xs, x.sat = true) ∧
      ((s'.cluster k).table.map (fun x => (x.id, x.pass)) = (s.cluster k).table.map (fun x =>
        (x.id, if x.id = r.id ∧ xs.length = left.length then x.pass + 1 else x.pass))) ∧
      (b.space = 1 → s'.writes = s.writes ∧ ∃ tk', s'.task? r.accn = some tk' ∧ tk'.s = tk.s ∧ tk'.ebuf = tk.ebuf ∧
        ∀ o, tk'.spadByte o = KMap.getD o (tk.spadByte o) (s.storeBytes tk b.fmt xs).2) ∧
      (b.space = 0 → tk.buffers = true → s'.writes = s.writes ∧ ∃ tk', s'.task? r.accn = some tk' ∧ tk'.spad = tk.spad ∧
        ∀ a, isReg a = false → ((KMap.get? a tk'.ebuf).map EbByte.byte) =
          match KMap.get? a (s.storeBytes tk b.fmt xs).1 with
          | some v => some v
          | none => (KMap.get? a tk.ebuf).map EbByte.byte)) ∧
  (∀ (s : State) (k : Nat), s.unformed k = [] → s.nextPass k = none → exec (.matrixPass k) s = .next s) ∧
  (∀ (s : State) (k t p : Nat) (r : Request) (tk : Task) (th : Thread),
    ((s.cluster k).table.find? fun x => x.id = r.id) = some r → s.retireReady k r = true → s.task? r.accn = some tk →
    KMap.get? t tk.threads = some th → r.signers = [t] → k = clusterOf tk.core → KMap.get? r.tl tk.tiles = some p →
    KMap.ascending (s.tileOf tk r.tl).cells = true →
    let done := fun s' : State =>
      (s'.cluster k).table.map Request.id = ((s.cluster k).table.filter fun x => x.id ≠ r.id).map Request.id ∧
      s'.mem = s.mem ∧ s'.writes = s.writes ∧
      (∀ j, j < 16384 → KMap.getD j 0 (s'.tileOf tk r.tl).cells =
        if r.init = true ∧ r.writes j = true ∧ KMap.get? j r.filled = none
        then BitVec.ofNat 40 (srZero (enPair r.entry) (enAcc r.entry))
        else KMap.getD j 0 (s.tileOf tk r.tl).cells)
    (r.exc = none →
      ∃ s' th', exec (.matrixRetire k r.id) s = .next s' ∧ s'.thread? r.accn t = some th' ∧
        th'.counter 1 = th.counter 1 - 1 ∧ th'.v = th.v ∧ th'.p = th.p ∧ th'.lwct = (th.noteWct r.wct).lwct ∧
        (r.held = [t] → th'.pc = th.next.pc ∧ th'.cond = .running) ∧ (r.held = [] → th'.pc = th.pc) ∧ done s') ∧
    (∀ i, r.exc = some i → r.held = [t] → s.tvec tk ≠ 0 → th.h = false → th.rep = none →
      ∃ s' th', exec (.matrixRetire k r.id) s = .next s' ∧ s'.thread? r.accn t = some th' ∧
        th'.counter 1 = th.counter 1 - 1 ∧ th'.v = th.v ∧ th'.p = th.p ∧ th'.tcause = 0x000F ∧ th'.tepc = th.pc ∧ th'.pc = s.tvec tk ∧ th'.h = true ∧ th'.tinfo = i ∧ th'.taddr = 0 ∧
        done s'))

/-- R246, R248 to R250, R261 to R265: the matrix task words act once for an issue: MBIND binds a free register and frees one; OPTAB
writes an entry of the context; MFILL writes every cell of a tile; MQRY reads a tile's requests and saturation bit; CBLD stores a
codebook; SCLD changes nothing that a program can see.
That SCLD of a slot above 19 has no effect is the model's reading (log entry 48). -/
def Obligations.MatrixTaskWords : Prop :=
  ∀ (s : State) (tk : Task) (t : Nat) (ts : List Nat) (th : Thread), s.task? s.issue.accn = some tk →
    tk.rcd.accn = s.issue.accn → s.issue.lanes.Nodup → s.carried = t :: ts → KMap.get? t tk.threads = some th →
    let k := clusterOf tk.core
    let sr := tk.seen th
    (∀ o : MbindOp,
      let w := fun i : Nat => sr.sreg (o.a.toNat + i)
      let cv := o.v.toNat
      let binds := fun v : Word => ∃ s', exec (.mbind o) s = .next s' ∧ Once s s' (fun tk => tk.setS o.b.toNat v)
      ((w 0).toNat < 2147483648 → descOk (w 0) (w 1) (w 2) = true → tk.ownCohort (tk.entry ((w 0).toNat % 256)) = true →
        tk.wants = [] →
        (((KMap.get? cv (s.cluster k).cvs = none ∧ s.fits tk 4 cv = true) ∨
            (∃ b, KMap.get? cv (s.cluster k).cvs = some b ∧ b.accn = s.issue.accn ∧ b.sigs = [] ∧ (b.w0, b.w1, b.w2) ≠ (w 0, w 1, w 2))) →
          ∃ s', exec (.mbind o) s = .next s' ∧ Once s s' (fun tk => tk.setS o.b.toNat 0) ∧
            KMap.get? cv (s'.cluster k).cvs = some (sr.newBinding (w 0) (w 1) (w 2)) ∧
            (∀ j, j ≠ cv → KMap.get? j (s'.cluster k).cvs = KMap.get? j (s.cluster k).cvs)) ∧
        (∀ b, KMap.get? cv (s.cluster k).cvs = some b → b.accn = s.issue.accn → b.w0 = w 0 → b.w1 = w 1 → b.w2 = w 2 →
          binds 0) ∧
        (∀ b, KMap.get? cv (s.cluster k).cvs = some b → b.accn ≠ s.issue.accn → s.decide tk 4 cv = .blocked → binds 1)) ∧
      (w 0 = 0x80000000 → w 1 = 0 → w 2 = 0 →
        (∀ b, KMap.get? cv (s.cluster k).cvs = some b → b.accn = s.issue.accn → b.sigs = [] →
          ∃ s', exec (.mbind o) s = .next s' ∧ Once s s' (fun tk => tk.setS o.b.toNat 2) ∧
            KMap.get? cv (s'.cluster k).cvs = none) ∧
        (KMap.get? cv (s.cluster k).cvs = none → binds 2))) ∧
    (∀ (o : OptabOp) (c : Ctx), s.ctx? tk.ctx = some c →
      let w := sr.sreg o.a.toNat
      (enValid w = false ∨ (enLegal w = true ∧ (s.regs.level = 1 → enPair w = 0 ∧ enAf w = 1 ∧ enBf w = 1 ∧ enAcc w = 0))) →
      ∃ s' c', exec (.optab o) s = .next s' ∧ Once s s' id ∧ s'.ctx? tk.ctx = some c' ∧ c'.optab.getD o.o.toNat 0 = w ∧
        (∀ j, j ≠ o.o.toNat → c'.optab.getD j 0 = c.optab.getD j 0)) ∧
    (∀ (o : MfillOp) (c : Ctx) (p : Nat), s.ctx? tk.ctx = some c → KMap.get? o.t.toNat tk.tiles = some p →
      let e := c.optab.getD o.o.toNat 0
      enValid e = true → s.tileBusy tk o.t.toNat = false →
      ∃ s', exec (.mfill o) s = .next s' ∧ Once s s' id ∧ (s'.tileOf tk o.t.toNat).sat = (s.tileOf tk o.t.toNat).sat ∧
        (∀ j, j < 16384 → KMap.getD j 0 (s'.tileOf tk o.t.toNat).cells =
          BitVec.ofNat 40 (if o.k = 0 then srZero (enPair e) (enAcc e) else if o.k = 1 then srOne (enPair e) (enAcc e)
            else cellRead (enAcc e) ((sr.sreg2 (2 * o.m.toNat)).toNat % 1099511627776))) ∧
        (∀ n q, KMap.get? n tk.tiles = some q → q ≠ p → s'.tileOf tk n = s.tileOf tk n)) ∧
    (∀ (o : MqryOp) (p : Nat), KMap.get? o.t.toNat tk.tiles = some p →
      ∃ s', exec (.mqry o) s = .next s' ∧
        Once s s' (fun tk => tk.setS o.d.toNat (BitVec.ofNat 32 (min 255 (s.requestsOn tk o.t.toNat) * 256 +
          (if (s.tileOf tk o.t.toNat).sat then 1 else 0)))) ∧
        (s'.tileOf tk o.t.toNat).cells = (s.tileOf tk o.t.toNat).cells ∧
        (s'.tileOf tk o.t.toNat).sat = ((s.tileOf tk o.t.toNat).sat && !o.l)) ∧
    (∀ (o : CbldOp) (s2 : State) (vs : List (BitVec 16)) (m : KMap Codebook),
      let r := sr.record o.k.toNat
      let id := sr.sreg o.b.toNat
      id.toNat < 256 → r.ok = true → r.fmt = fmtBF16 → (r.space = 0 ∨ r.space = 1) →
      State.readBook tk.rcd.accn t o.k.toNat sr (sr.sreg o.a.toNat).toNat 16 s = .vals s2 vs →
      (∀ i, i < 16 → bf16.isNan (vs.getD i 0).toNat = false) →
      s2.bookRoom k (tk.ctx * 256 + id.toNat) = some m → s2.tasks = s.tasks → s2.issue = s.issue →
      ∃ s', exec (.cbld o) s = .next s' ∧ Once s2 s' (fun tk => tk) ∧
        (KMap.get? (tk.ctx * 256 + id.toNat) (s'.cluster k).books).map Codebook.vals = some vs) ∧
    (∀ (o : ScldOp) (s2 : State),
      let w := sr.recWords o.k.toNat
      let r := Rec.ofWords w
      let n := (sr.sreg o.a.toNat).toNat
      let va := r.address (r.used n)
      let skips := 20 ≤ o.k.toNat ∨ scaleOk (some w) = false ∨ (r.bmode = 0 ∧ va % 2 = 1) ∨ s.opnd sr r 1 n readOnly = .pad ∨
        (∃ c a, s.opnd sr r 1 n readOnly = .bad c a) ∨
        ((KMap.get? (scaleKey tk.launch r va) (s.cluster k).scales).isSome = true ∧
          (KMap.get? (scaleKey tk.launch r (va + 1)) (s.cluster k).scales).isSome = true)
      (skips → ∃ s', exec (.scld o) s = .next s' ∧ Once s s' (fun tk => tk) ∧ s'.clusters = s.clusters ∧ s'.writes = s.writes) ∧
      (¬ skips → ((∃ os b, s.opnd sr r 1 n readOnly = .spad os b) ∧ s2 = s) ∨
          (∃ ks b bs, s.opnd sr r 1 n readOnly = .glob ks b ∧ s.loadKeys tk.rcd.accn t sr (tk.coreOf t) 1 ks = .val s2 bs) →
        s2.tasks = s.tasks → s2.issue = s.issue →
        ∃ s', exec (.scld o) s = .next s' ∧ Once s2 s' (fun tk => tk) ∧ s'.writes = s2.writes ∧
          (s'.cluster k).tiles = (s2.cluster k).tiles ∧ (s'.cluster k).cvs = (s2.cluster k).cvs ∧
          ((s2.cluster k).scales = (s.cluster k).scales → (s2.cluster k).scales.length < 511 → r.used n < r.extent →
            (KMap.get? (scaleKey tk.launch r va) (s'.cluster k).scales).isSome = true ∧
            (KMap.get? (scaleKey tk.launch r (va + 1)) (s'.cluster k).scales).isSome = true)))

/-! ## Task words, locks, barriers -/

/-- R313, R323, R328 to R330, R358, R360: BOUND only tightens a bound, or lets a strict one become non-strict; XACQ is granted when its
units fit, and answers NEVER where it can never be; XREL gives the highest chunks, the named tiles, the top pages of the window and the
effect-buffer pages that hold nothing back, and waits for the requests and the engine operations that use them; COMMIT makes the task
irrevocable; LKRELA lets every name go or makes its release pending; CMTX loads a context's matrix, and outside context 0 takes the
fault of R360, once for a reaching. Each writes its status once for a reaching.
Which pages of a scratchpad a grant gives, which effect-buffer pages hold a buffered byte, and that unnamed bits of TADDR and
TINFO are 0, is the model's choice or reading (log entries 54, 84, 119). -/
def Obligations.TaskWords : Prop :=
  ∀ (s : State) (t : Nat) (tk : Task) (th : Thread), Reaches s t tk th →
    let a := s.issue.accn
    let tr : Task := { tk with s := tk.reachS th }
    let gives := fun (i : Instr) (tk' : Task) (d : Option Nat) (v : Nat) => ∃ s', exec i s = .next s' ∧
      InTask s s' a t (tk'.told th d v) th.passTaskWord
    let traps := fun (i : Instr) (cause : Nat) (info : Word) => ∃ s', exec i s = .next s' ∧
      InTask s s' a t { tk with reach := tk.reach ++ [⟨th.pc.toNat, th.nth th.pc.toNat, 0, true, some (cause, 0, info)⟩] }
        (th.arrive.enterTrap (s.tvec tk) cause th.pc.toNat 0 info)
    (∀ (o : Dab) (c : Ctx), s.ctx? tk.ctx = some c →
      let w := tr.sreg o.b.toNat
      let v := pair (tr.sreg o.a.toNat) (tr.sreg (o.a.toNat + 1))
      w.toNat < 64 → (w.getLsbD 5 = true → c.inccfg.getLsbD (w.toNat % 16) = true) →
      (tk.bsel.getLsbD 5 = false → gives (.bound o) { tk with bnd := v, bsel := w.setWidth 6 } (some o.d.toNat) 0) ∧
      (tk.bsel.getLsbD 5 = true →
        ((w.getLsbD 5 = false ∨ w.toNat % 16 ≠ tk.bsel.toNat % 16 ∨ (tk.bsel.getLsbD 4 = true ∧ w.getLsbD 4 = false)) →
          gives (.bound o) tk (some o.d.toNat) 2) ∧
        (w.getLsbD 5 = true → w.toNat % 16 = tk.bsel.toNat % 16 → (tk.bsel.getLsbD 4 = true → w.getLsbD 4 = true) →
          let tighter : Bool := if c.incdir.getLsbD (tk.bsel.toNat % 16) then v.ult tk.bnd else tk.bnd.ult v
          let loose : Bool := w.getLsbD 4 && !tk.bsel.getLsbD 4
          gives (.bound o) { tk with bnd := if tighter then v else tk.bnd, bsel := if loose then tk.bsel ||| 16 else tk.bsel }
            (some o.d.toNat) (if tighter || loose then 0 else 1)))) ∧
    (∀ o : Da,
      let w := tr.sreg o.a.toNat
      let cls := w.toNat % 16
      let n := w.toNat / 256
      w.toNat < 65536 → w.toNat / 16 % 16 = 0 → 0 < n → cls < 4 → tk.wants = [] →
      (tk.neverFits cls n = true → gives (.xacq o) tk (some o.d.toNat) 2) ∧
      (tk.neverFits cls n = false → s.fits tk cls n = false → s.decide tk cls n = .blocked → gives (.xacq o) tk (some o.d.toNat) 1) ∧
      (tk.neverFits cls n = false → s.fits tk cls n = true → ∀ tk1 th1, (s.grant a cls n).task? a = some tk1 →
        (s.grant a cls n).thread? a t = some th1 → (s.grant a cls n).issue = s.issue →
        (∃ s', exec (.xacq o) s = .next s' ∧
          InTask (s.grant a cls n) s' a t (tk1.told th (some o.d.toNat) 0) th1.passTaskWord) ∧
        (cls = 0 → tk1.chunks = tk.chunks + n ∧ (∀ x, x < 32 + 8 * tk.chunks → th1.reg x = th.reg x) ∧
          (∀ x, 32 + 8 * tk.chunks ≤ x → x < 32 + 8 * (tk.chunks + n) → th1.reg x = 0)) ∧
        (cls = 2 → tk1.pages = tk.pages + n ∧ (∀ x, th1.reg x = th.reg x) ∧
          tk1.spots = tk.spots ++ (freeSpots (s.spotsUsed tk.core) n).map fun i => (tk.core, i)) ∧
        (cls = 3 → tk1.ebPages = tk.ebPages + n ∧ th1 = th))) ∧
    (∀ (o : Da) (s1 : State) (v : Nat) (tk1 : Task) (th1 : Thread), releaseRes o.a.toNat s tr t = .done s1 v →
      s1.task? a = some tk1 → s1.thread? a t = some th1 → th1.pc = th.pc → th1.reached = th.reached →
      let w := (tr.sreg o.a.toNat).toNat
      let n := w / 256
      (∃ s', exec (.xrel o) s = .next s' ∧ InTask s1 s' a t (tk1.told th (some o.d.toNat) v) th1.passTaskWord) ∧
      (w < 65536 → w % 256 = 0 → v = min n tk.chunks ∧ tk1.chunks = tk.chunks - v ∧ th1 = th) ∧
      (w % 65536 = 1 → th1 = th ∧ v = ((List.range 16).filter fun i => w / 65536 / 2 ^ i % 2 = 1).length ∧
        ∀ i, (w / 65536 / 2 ^ i % 2 = 1 → i < 16 → KMap.get? i tk1.tiles = none ∧
            ∀ p, KMap.get? i tk.tiles = some p → KMap.get? p (s1.cluster (clusterOf tk.core)).tiles = some Tile.empty) ∧
          (¬ (w / 65536 / 2 ^ i % 2 = 1 ∧ i < 16) → KMap.get? i tk1.tiles = KMap.get? i tk.tiles)) ∧
      (w < 65536 → w % 256 = 2 → v = min n tk.pages ∧ tk1.pages = tk.pages - v ∧
        tk1.spad = tk.spad.filter (fun p => p.1 < 4096 * tk1.pages) ∧
        (tk.twoCore = false → tk1.spots = tk.spots.take tk1.pages) ∧
        (tk.twoCore = true → tk1.spots = (tk.spots.filter fun p => p.1 = tk.core).take ((tk1.pages + 1) / 2) ++
          (tk.spots.filter fun p => p.1 ≠ tk.core).take (tk1.pages / 2))) ∧
      (w < 65536 → w % 256 = 3 → th1 = th ∧ v = min n (tk.ebPages - (ebufLines tk.ebuf tk.parts + 31) / 32) ∧
        tk1.ebPages = tk.ebPages - v)) ∧
    (∀ o : Da,
      let w := (tr.sreg o.a.toNat).toNat
      let names := (List.range 16).filter fun i => w / 65536 / 2 ^ i % 2 = 1
      let held := names.all fun i => (KMap.get? i tk.tiles).isSome
      let busy := names.any fun i =>
        (s.cluster (clusterOf tk.core)).table.any fun r => r.accn == tk.rcd.accn && (r.tl == i || r.stile == some i)
      let used := tk.cores.any fun c => (s.core c).board.any fun e => e.accn == a && 4096 * (tk.pages - min (w / 256) tk.pages) < e.hi
      ((w % 65536 = 1 ∧ held = true ∧ busy = true) ∨ (w < 65536 ∧ w % 256 = 2 ∧ used = true) →
        ∃ s', exec (.xrel o) s = .next s' ∧ OnlyThread s s' a t { th.hold .engine with kept := some (tk.reachS th) }) ∧
      ((w % 65536 = 1 ∧ held = true ∧ busy = false) ∨ (w < 65536 ∧ w % 256 = 2 ∧ used = false) ∨
          (w < 65536 ∧ (w % 256 = 0 ∨ w % 256 = 3)) →
        ∃ s1 v, releaseRes o.a.toNat s tr t = .done s1 v) ∧
      ((w % 16 = 1 ∧ (w / 256 % 256 ≠ 0 ∨ held = false)) ∨ 3 < w % 16 ∨ w / 16 % 16 ≠ 0 ∨ (w % 16 ≠ 1 ∧ 65536 ≤ w) →
        s.tvec tk ≠ 0 → th.h = false → th.rep = none → traps (.xrel o) 0x0004 (BitVec.ofNat 32 o.a.toNat))) ∧
    (tk.irrevocable = true → tk.commitT = none → gives .commit tk none 0) ∧
    (tk.irrevocable = false → s.isDet tk = false → s.dominatedNow tk = false → s.hasTurn tk = true → tk.commitT = none →
      tk.ebuf = [] → tk.parts = [] → ∃ s', exec .commit s = .next s' ∧
        InTask s s' a t (({ tk with irrevocable := true } : Task).told th none 0) th.passTaskWord ∧
        (s'.launch? tk.launch).map Launch.irrevocable = (s.launch? tk.launch).map fun _ => true) ∧
    (∀ d : BitVec 6, s.isDet tk = false → s.release a t 4 = .go s → s.reachGroup tk th t = [] →
      ∃ s', exec (.lkrela d) s = .next s' ∧
        InTask s s' a t (tk.told th (some d.toNat)
          (min 255 (s.locks.filter fun e => e.accn = a ∧ e.mode ≠ 0 ∧ e.pend = false).length)) th.passTaskWord ∧
        (∀ e ∈ s'.locks, e.accn = a → e.mode ≠ 0 → e.pend = true) ∧
        s'.locks.filter (fun e => e.accn ≠ a) = s.locks.filter (fun e => e.accn ≠ a)) ∧
    (∀ (o : Dab) (c : Ctx),
      let w := tr.sreg o.b.toNat
      let m := pair (tr.sreg o.a.toNat) (tr.sreg (o.a.toNat + 1))
      (tk.ctx = 0 → w.toNat < 64 → matrixOk m = true → s.ctx? w.toNat = some c →
        (s.locks.any fun e => (nameOf e.name).ctx == w.toNat) = false →
        ∃ s', exec (.cmtx o) s = .next s' ∧ InTask s s' a t (tk.told th (some o.d.toNat) 0) th.passTaskWord ∧
          s'.ctx? w.toNat = some { c with cmtx := m } ∧ s'.locks = s.locks) ∧
      (tk.ctx ≠ 0 → s.tvec tk ≠ 0 → th.h = false → th.rep = none →
        traps (.cmtx o) 0x000A 0x12))

/-- R113, R128, R130, R351: a commit writes every buffered byte of the task at one time T, after DTIME and after every lease of the lines
and every write of them but those of commits that are pending; the task is irrevocable from then on. The write keeps the time H that the
line's home reported, no earlier than any lease on the line, as its bound: a lease on a line is granted to one core at a time, and one
granted while the write is pending ends by that bound. Once DTIME has passed T the partials that the task holds go home and its deferred
releases take place. -/
def Obligations.CommitTime : Prop :=
  (∀ (s : State) (a : Nat) (tk : Task), s.task? a = some tk →
    (∀ p ∈ tk.ebuf, s.lineParts (Machine.lineOf p.1) = []) → tk.ebuf ≠ [] →
    let ls := byLine (tk.ebuf.map fun p => (p.1, p.2.byte))
    let bound := fun l : Nat => max (max s.dtime (s.pendingMax l HomeWrite.bound)) (max (s.home l).lease (s.home l).wct)
    let s' := s.commitTask a tk
    ∃ T, s'.writes = s.writes ++ ls.map (fun l => ⟨T, l.1, l.2, tk.core, [a], bound l.1, true, [tk.ctx]⟩) ∧ s.dtime < T ∧
      (∀ l ∈ ls, (s.home l.1).lease ≤ bound l.1 ∧ bound l.1 < T) ∧ s'.mem = s.mem ∧
      (s'.task? a).map (fun x => (x.irrevocable, x.commitT, x.ebuf, x.parts)) = some (true, some T, [], tk.parts)) ∧
  (∀ (s : State) (core line : Nat) (w : HomeWrite), w ∈ s.writes → w.line = line → s.dtime < w.wct →
    let s' := s.grantLease core line
    let kept := (s'.l1 core line).lease = (s.l1 core line).lease ∧ (s'.home line).lease = (s.home line).lease
    let new := fun e : Nat => (s'.l1 core line).lease = some e ∧ (s'.home line).lease = max (s.home line).lease e
    (kept ∨ ∃ e, new e ∧ e ≤ w.bound ∧ e ≤ s.dtime + 2048) ∧
    ((s.home line).lease ≤ w.bound → (s'.home line).lease ≤ w.bound) ∧
    (∀ c l, (c ≠ core ∨ l ≠ line) → (s'.l1 c l).lease = (s.l1 c l).lease) ∧
    (∀ l, l ≠ line → (s'.home l).lease = (s.home l).lease)) ∧
  (∀ (s : State) (a tm : Nat) (tk : Task), s.task? a = some tk → tk.irrevocable = true → tk.commitT = some tm →
    (s.dtime ≤ tm → s.settleCommit a tk = s) ∧
    (tm < s.dtime →
      let s' := s.settleCommit a tk
      (s'.task? a).map (fun x => (x.irrevocable, x.commitT, x.parts)) = some (true, none, []) ∧
      (∀ e ∈ s'.locks, e.accn = a → e.pend = false) ∧ s'.locks.filter (fun e => e.accn ≠ a) = s.locks.filter (fun e => e.accn ≠ a) ∧
      (∀ p ∈ tk.parts, ∃ w ∈ s'.writes, w.line = Machine.lineOf p.key ∧ p.accn ∈ w.owners ∧ s.dtime ≤ w.wct)))

/-- R341, R345, R346, R348 to R351, R353, R355 to R357, R359: the Curator's thread words: a name of any level that nothing conflicts with is
granted; one held in a covering mode answers HELD; a requester that is not immune waits, and wounds a younger holder that is not immune
either; an immune one that would wait for an older task or a revocable one is BLOCKED; LKTRY answers BUSY where LKREQ would wait; a home
with no entry left answers FULL; a 257th line under a tile escalates to the tile, or answers FULL. LKUPG raises the held mode to the
join; a request for the mode awaited joins the wait, and cancels a pending release. LKREL lets go at once or at the commit; LKQRY reads.
A thread whose request is queued waits on.
That an escalation cancels a pending release of its tile, that NOTHELD comes before check 5, and that HELD by an ancestor leaves
a pending release, is the model's choice (log entry 114). -/
def Obligations.LockWords : Prop :=
  ∀ (o : Dab) (s : State) (t : Nat) (tk : Task) (th : Thread) (n : LockName),
    let a := s.issue.accn
    let w := tk.sreg o.b.toNat
    let m := w.toNat % 8
    let k := n.key
    let tile : LockName := { n with level := 1, line := 0 }
    let under := s.locks.filter fun e => e.accn = a ∧ e.mode ≠ 0 ∧ (nameOf e.name).level = 2 ∧ (nameOf e.name).below tile = true
    let full := n.level = 2 ∧ 256 ≤ under.length
    let waits := fun (s' : State) (es : Option LockEntry) =>
      s'.thread? a t = some ((tk.keep th).hold .lock) ∧ s'.lockOf k a = es
    let tells := fun (i : Instr) (v : Nat) (es : Option LockEntry) => ∃ s', exec i s = .next s' ∧
      s'.thread? a t = some (th.setReg o.d.toNat (BitVec.ofNat 32 v)).next ∧ KeepsRest s s' a t ∧ s'.lockOf k a = es ∧
      s'.locks.filter (fun e => !(e.name == k && e.accn == a)) = s.locks.filter (fun e => !(e.name == k && e.accn == a))
    Alone s 0 [o.d.toNat, o.a.toNat] t tk th → tk.rcd.accn = a → tk.stop = none → th.outcome = none →
    (tk.isBuf = true ∨ (tk.irrevocable = true ∧ tk.commitT = none)) → s.meetings a s.carried = s →
    s.lowerAwaits [o.d.toNat, o.a.toNat] tk t th = false →
    (s.inWait a t = true → ∀ i ∈ [Instr.lkreq o, Instr.lktry o, Instr.lkupg o, Instr.lkrel o], ∃ s', exec i s = .next s' ∧
      OnlyThread s s' a t ((tk.keep th).hold .lock)) ∧
    (s.inWait a t = false → s.lockName tk false o.b.toNat (th.reg o.a.toNat).toNat = .ok n →
      (∀ c, c ∈ s.rivals k a m ↔ ∃ e ∈ s.locks, e.name = k ∧ e.accn ≠ a ∧ c.accn = e.accn ∧
        ((c.holds = true ∧ e.mode ≠ 0 ∧ compat (s.matrixOf (nameOf k).ctx) m e.mode = false) ∨
          (c.holds = false ∧ e.wait.isSome = true ∧ e.accn < a ∧ compat (s.matrixOf (nameOf k).ctx) m e.wants = false))) ∧
      (s.lockOf k a = none → s.intended n a m = true → s.coveredAbove n a m = false →
        (¬ full → homeEntries (lockHome k) ≤ s.homeUsed k → tells (.lkreq o) 2 none ∧ tells (.lktry o) 2 none) ∧
        (¬ full → s.homeUsed k < homeEntries (lockHome k) →
          (s.rivals k a m = [] → tells (.lkreq o) 0 (some ⟨k, a, m, false, none⟩) ∧ tells (.lktry o) 0 (some ⟨k, a, m, false, none⟩)) ∧
          (s.immuneAt a = true → (∃ c ∈ s.rivals k a m, c.accn < a ∨ s.immuneAt c.accn = false) →
            tells (.lkreq o) 1 none ∧ tells (.lktry o) 1 none) ∧
          (∀ c, s.rivals k a m = [c] → (s.immuneAt a = false ∨ (a < c.accn ∧ s.immuneAt c.accn = true)) → c.accn ≠ a →
            tells (.lktry o) 4 none ∧ ∃ s', exec (.lkreq o) s = .next s' ∧ waits s' (some ⟨k, a, 0, false, some ⟨m, false, [t]⟩⟩) ∧
              (c.holds = false ∨ c.accn < a ∨ s.immuneAt c.accn = true → KeepsRest s s' a t) ∧
              (c.holds = true → a < c.accn → s.immuneAt c.accn = false → ∀ tk', s.task? c.accn = some tk' →
                (s'.task? c.accn).map Task.shell = some (tk'.halt ⟨.wound, none, 0, 0, 0, 0, false⟩).shell ∧
                (∀ b, b ≠ c.accn → (s'.task? b).map Task.shell = (s.task? b).map Task.shell) ∧
                (∀ b u, ¬ (b = a ∧ u = t) → s'.thread? b u = s.thread? b u) ∧ ∀ x, memRead s'.mem x = memRead s.mem x))) ∧
        (full →
          let g := joinMode (s.heldMode tile.key a) (under.foldl (fun x e => joinMode x e.mode) m)
          let fits := (s.locks.all fun e => e.name ≠ tile.key || e.accn == a || e.mode == 0 || compat (s.matrixOf n.ctx) g e.mode) &&
            s.intended tile a g
          (fits = false → tells (.lkreq o) 2 none ∧ tells (.lktry o) 2 none) ∧
          (fits = true → (∀ e ∈ s.locks, e.lineOf a tile = true → e.wait = none) →
            ∀ i ∈ [Instr.lkreq o, Instr.lktry o], ∃ s', exec i s = .next s' ∧
              s'.thread? a t = some (th.setReg o.d.toNat 7).next ∧ KeepsRest s s' a t ∧
              s'.lockOf tile.key a = some ⟨tile.key, a, g, false, (s.lockOf tile.key a).bind LockEntry.wait⟩ ∧
              (∀ e ∈ s'.locks, e.lineOf a tile = false) ∧
              s'.locks.filter (fun e => !(e.accn == a && (e.name == tile.key || e.lineOf a tile))) =
                s.locks.filter (fun e => !(e.accn == a && (e.name == tile.key || e.lineOf a tile)))))) ∧
      (∀ e q, s.lockOf k a = some e → e.wait = some q →
        let joined := fun s' : State => waits s' (some { e with pend := false, wait := some { q with tids := q.tids ++ [t] } }) ∧
          KeepsRest s s' a t
        let aim := if e.mode ≠ 0 ∧ e.pend = true then joinMode e.mode m else m
        (s.coveredAbove n a m = false → s.intended n a aim = true →
          (q.mode = m → ∃ s', exec (.lkreq o) s = .next s' ∧ joined s') ∧
          (q.mode ≠ m → tells (.lkreq o) 5 (some e) ∧ tells (.lktry o) 5 (some e))) ∧
        (e.mode ≠ 0 → s.intended n a (joinMode e.mode m) = true →
          (q.upgrade = true ∧ q.mode = m → ∃ s', exec (.lkupg o) s = .next s' ∧ joined s') ∧
          (q.upgrade = false ∨ q.mode ≠ m → tells (.lkupg o) 5 (some e)))) ∧
      (∀ e, s.lockOf k a = some e → e.wait = none → e.pend = false → s.intended n a m = true →
        (covers e.mode m = true → tells (.lkreq o) 3 (some e) ∧ tells (.lktry o) 3 (some e)) ∧
        (covers e.mode m = false → s.coveredAbove n a m = false →
          tells (.lkreq o) 5 (some e) ∧ tells (.lktry o) 5 (some e))) ∧
      (∀ e, s.lockOf k a = some e → e.wait = none → e.pend = true → e.mode ≠ 0 → covers e.mode m = true →
        tells (.lkreq o) 3 (some { e with pend := false }) ∧ tells (.lktry o) 3 (some { e with pend := false })) ∧
      (s.lockOf k a = none → s.coveredAbove n a m = true → tells (.lkreq o) 3 none ∧ tells (.lktry o) 3 none) ∧
      (s.lockOf k a = none → s.coveredAbove n a m = false → s.intended n a m = false → s.tvec tk ≠ 0 → th.h = false → th.rep = none →
        ∀ i ∈ [Instr.lkreq o, Instr.lktry o], ∃ s', exec i s = .next s' ∧
          s'.thread? a t = some (th.enterTrap (s.tvec tk) 0x0010 th.pc.toNat 0
            (BitVec.ofNat 32 (m + w.toNat / 128 % 4 * 8))) ∧ KeepsRest s s' a t ∧ s'.locks = s.locks) ∧
      (∀ e, s.lockOf k a = some e → e.wait = none → e.pend = false → e.mode ≠ 0 →
        s.intended n a (joinMode e.mode m) = true →
        (joinMode e.mode m = e.mode → tells (.lkupg o) 3 (some e)) ∧
        (joinMode e.mode m ≠ e.mode → s.upRivals k a (joinMode e.mode m) = [] →
          tells (.lkupg o) 0 (some { e with mode := joinMode e.mode m }))) ∧
      (s.lockOf k a = none → tells (.lkupg o) 6 none)) ∧
    (s.inWait a t = false → s.lockName tk true o.b.toNat (th.reg o.a.toNat).toNat = .ok n →
      (s.lockOf k a = none → tells (.lkrel o) 6 none) ∧
      (∀ e, s.lockOf k a = some e → e.mode ≠ 0 → e.wait = none →
        (e.pend = true → tells (.lkrel o) 8 (some e)) ∧
        (e.pend = false → s.descendantHeld n a = false →
          (tk.buffers = true → defers e.mode = true → tells (.lkrel o) 8 (some { e with pend := true })) ∧
          ((tk.buffers = false ∨ defers e.mode = false) → s.release a t 4 = .go s → s.relGroup tk o k t = [] → tells (.lkrel o) 9 none)))) ∧
    (s.lockName tk true o.b.toNat (th.reg o.a.toNat).toNat = .ok n →
      ∃ s', exec (.lkqry o) s = .next s' ∧ OnlyThread s s' a t (th.setReg o.d.toNat (BitVec.ofNat 32
        (min 255 (s.locks.filter fun e => e.name = k ∧ e.wait.isSome).length * 65536 +
          min 255 (s.locks.filter fun e => e.name = k ∧ e.accn ≠ a ∧ e.mode ≠ 0).length * 256 +
          (if ((s.lockOf k a).bind LockEntry.wait).isSome then 16 else 0) +
          (if ((s.lockOf k a).map LockEntry.pend).getD false then 8 else 0) + s.heldMode k a))).next)

/-- R125, R302, R318, R320 to R322: BARA arrives and goes on; BAR arrives and is held; BARW, and BAR when it is issued again, go on once
the barrier is complete and write P(D) true in the last arriver, which is the member that arrived last in time, of several the one of
lowest rank, and in a deterministic launch the one of highest rank; WAITEV goes on once its event is valid; REFORM and YIELD change
nothing that a program can read.
That a filed thread goes on at the word after REFORM is the model's reading (log entry 47). -/
def Obligations.BarrierWords : Prop :=
  ∀ (s : State) (t : Nat) (tk : Task) (th : Thread), s.meetings s.issue.accn s.carried = s →
    let a := s.issue.accn
    (∀ b : BitVec 6,
      let w := tk.sreg b.toNat
      let c := th.bar (w.getLsbD 8) (w.toNat % 256)
      let arrived := th.setBar { c with count := c.count + 1, unwaited := true, tick := s.dtime, done := false, last := false }
      Alone s 0 [] t tk th → tk.barOk w t = true →
      (c.unwaited = false → s.release a t (tk.barScope w) = .go s →
        (∃ s', exec (.bara b) s = .next s' ∧ OnlyThread s s' a t arrived.next) ∧
        (∀ d, th.outcome = none → ∃ s', exec (.bar ⟨d, b⟩) s = .next s' ∧
          OnlyThread s s' a t ((tk.keep { arrived with outcome := some 0 }).hold .barrier))) ∧
      (c.unwaited = true → ∀ d,
        let goes := fun i : Instr => ∃ s', exec i s = .next s' ∧
          s'.thread? a t = some ((th.setBar { c with unwaited := false }).setPred (BitVec.toNat d) c.last).next ∧
          KeepsRest s s' a t ∧ s'.writes = s.writes
        let held := fun i : Instr => ∃ s', exec i s = .next s' ∧ OnlyThread s s' a t ((tk.keep th).hold .barrier)
        (c.done = true → goes (.barw ⟨d, b⟩) ∧ (th.outcome.isSome = true → goes (.bar ⟨d, b⟩))) ∧
        (c.done = false → held (.barw ⟨d, b⟩) ∧ (th.outcome.isSome = true → held (.bar ⟨d, b⟩))))) ∧
    (∀ (whole : Bool) (coh n : Nat),
      ((s.cohort tk whole coh).all (s.hasArrived whole coh n) = false → s.markBarrier tk whole coh n = s) ∧
      ((s.cohort tk whole coh).all (s.hasArrived whole coh n) = true →
        ∀ m ∈ s.cohort tk whole coh, s.isArriver whole coh n m = true →
          ((s.markBarrier tk whole coh n).thread? m.accn m.tid).map (fun th => ((th.bar whole coh).done, (th.bar whole coh).count)) =
            some (true, n)) ∧
      (((s.cohort tk whole coh).map fun m => (m.accn, m.tid)).Nodup → (s.cohort tk whole coh).all (s.hasArrived whole coh n) = true →
        let arr := (s.cohort tk whole coh).filter (s.isArriver whole coh n)
        let tick := fun m : Member => ((s.thread? m.accn m.tid).map fun th => (th.bar whole coh).tick).getD 0
        arr ≠ [] → ∃ last ∈ arr,
          (s.isDet tk = true → ∀ m ∈ arr, m.rank ≤ last.rank) ∧
          (s.isDet tk = false → ∀ m ∈ arr, tick m < tick last ∨ (tick m = tick last ∧ last.rank ≤ m.rank)) ∧
          ∀ m ∈ arr, ((s.markBarrier tk whole coh n).thread? m.accn m.tid).map (fun th => (th.bar whole coh).last) =
            some (m == last))) ∧
    (∀ (o : Da) (s2 : State) (ks : List Nat) (xs : List (Nat × Xlate)) (bs : List Byte),
      let e := th.addr2 o.a.toNat
      Alone s 0 [o.d.toNat, o.a.toNat, o.a.toNat + 1] t tk th → e < 72057594037927936 → e % 16 = 0 →
      s.keysOf tk.ctx ⟨true, false, false⟩ e 16 = .ok (ks, xs) → ks.any isReg = false →
      (s.rememberAll tk.ctx xs).loadKeys a t tk (tk.coreOf t) 0 ks = .val s2 bs →
      ∃ s', exec (.waitev o) s = .next s' ∧
        s'.thread? a t = (s2.thread? a t).map (fun x =>
          if bs.getD 1 0 = 1 then (x.setReg o.d.toNat (word (leNat (bs.take 4)))).next else (tk.keep x).hold .event) ∧
        KeepsRest s2 s' a t) ∧
    (Alone s 0 [] t tk th →
      (∃ s' c, exec .reform s = .next s' ∧ OnlyThread s s' a t { th.next with cond := c } ∧
        (c = .filed s.dtime ∨ 64 ≤ (s.drawers (tk.coreOf t)).length ∧ c = th.cond)) ∧
      (∃ s', exec .yield s = .next s' ∧ s'.thread? a t = some th.next ∧ KeepsRest s s' a t ∧ s'.writes = s.writes ∧
        (∀ q, KMap.get? th.squad (s'.core (tk.coreOf t)).squads = some q → q.active = false)))

/-- R44, R268, R274, R294, R306, R314 to R317, R324, R325: INCSET offers a value at an incumbent's home and answers the value there
afterwards, the better of the two; INCGET reads the copy of its core; in a deterministic launch an offer is staged, and both answer the
best of the snapshot and what the task has staged. SPAWN, of children or of a launch in a context, answers 4 in a deterministic launch,
the first check of R316 that fails with the first record that breaks it, or 0 once its records are queued, each under the next
accession number; LAUNCH = 1 outside context 0 takes a fault. -/
def Obligations.SpawnWords : Prop :=
  (∀ (o : Dab) (s : State) (t : Nat) (tk : Task) (th : Thread) (c : Ctx) (h : Incumbent),
    let a := s.issue.accn
    let w := tk.sreg o.b.toNat
    let i := w.toNat
    let v := pair (th.reg o.a.toNat) (th.reg (o.a.toNat + 1))
    let u := if (if c.incdir.getLsbD i then h.value.ult v else v.ult h.value) then v else h.value
    Alone s 0 [o.d.toNat, o.d.toNat + 1, o.a.toNat, o.a.toNat + 1] t tk th → s.ctx? tk.ctx = some c → i < 16 →
    c.inccfg.getLsbD i = true → KMap.get? i c.incs = some h → s.isDet tk = false →
    ∃ s' c', exec (.incset o) s = .next s' ∧
      s'.thread? a t = some ((th.setReg o.d.toNat (loWord u)).setReg (o.d.toNat + 1) (hiWord u)).next ∧ KeepsRest s s' a t ∧
      s'.ctx? tk.ctx = some c' ∧ (KMap.get? i c'.incs).map Incumbent.value = some u ∧
      (∀ j, j ≠ i → KMap.get? j c'.incs = KMap.get? j c.incs) ∧ s'.writes = s.writes) ∧
  (∀ (s : State) (t : Nat) (tk live : Task) (th : Thread) (c : Ctx) (i : Nat), i < 16 → s.isDet tk = true →
    s.task? s.issue.accn = some live → s.ctx? tk.ctx = some c → c.inccfg.getLsbD i = true →
    let a := s.issue.accn
    let snap := (((s.launch? tk.launch).bind Launch.snap).bind (KMap.get? i)).getD 0
    let best := fun os : List (Nat × DWord) => os.foldl (fun u p =>
      if p.1 = i then (if (if c.incdir.getLsbD i then u.ult p.2 else p.2.ult u) then p.2 else u) else u) snap
    let put := fun (d : Nat) (u : DWord) => ((th.setReg d (loWord u)).setReg (d + 1) (hiWord u)).next
    (∀ o : Dab, i = (tk.sreg o.b.toNat).toNat →
      Alone s 0 [o.d.toNat, o.d.toNat + 1, o.a.toNat, o.a.toNat + 1] t tk th → tk.lowerWaits t th = false →
      let offers := live.offers ++ [(i, pair (th.reg o.a.toNat) (th.reg (o.a.toNat + 1)))]
      ∃ s', exec (.incset o) s = .next s' ∧ s'.ctxs = s.ctxs ∧
        InTask s s' a t { live with offers := offers } (put o.d.toNat (best offers))) ∧
    (∀ o : Db, i = (tk.sreg o.b.toNat).toNat → Alone s 0 [o.d.toNat, o.d.toNat + 1] t tk th →
      ∃ s', exec (.incget o) s = .next s' ∧ OnlyThread s s' a t (put o.d.toNat (best live.offers)))) ∧
  (∀ (o : Db) (s : State) (t : Nat) (tk : Task) (th : Thread) (c : Ctx),
    let a := s.issue.accn
    let i := (tk.sreg o.b.toNat).toNat
    let u := s.incCopy (tk.coreOf t) tk.ctx i
    Alone s 0 [o.d.toNat, o.d.toNat + 1] t tk th → s.ctx? tk.ctx = some c → i < 16 → c.inccfg.getLsbD i = true →
    s.isDet tk = false →
    ∃ s', exec (.incget o) s = .next s' ∧
      OnlyThread s s' a t ((th.setReg o.d.toNat (loWord u)).setReg (o.d.toNat + 1) (hiWord u)).next) ∧
  (∀ (o : Dab) (s : State) (t : Nat) (tk : Task) (th : Thread),
    let a := s.issue.accn
    let w := tk.sreg o.b.toNat
    let n := w.toNat % 65536
    let launch := w.getLsbD 22
    let ctx := w.toNat / 65536 % 64
    Alone s 0 [o.d.toNat, o.a.toNat, o.a.toNat + 1] t tk th → s.follows t = false → tk.stop = none →
    (8388608 ≤ w.toNat ∨ n = 0 ∨ (launch = false ∧ ctx ≠ 0) ∨ (launch = true ∧ tk.ctx ≠ 0) → s.tvec tk ≠ 0 → th.h = false → th.rep = none →
      ∃ s', exec (.spawn o) s = .next s' ∧
        OnlyThread s s' a t (th.enterTrap (s.tvec tk) 0x0004 th.pc.toNat 0 (BitVec.ofNat 32 o.b.toNat))) ∧
    (w.toNat < 8388608 → 0 < n → (launch = false → ctx = 0) → (launch = true → tk.ctx = 0) →
    (s.isDet tk = true → ∃ s', exec (.spawn o) s = .next s' ∧ OnlyThread s s' a t (th.setReg o.d.toNat 4).next) ∧
    (∀ s1 s2 s3 bss cats,
      let flag := fun k : Nat => (bss.head?.map fun bs => leNat ((bs.drop 32).take 4) / 2 ^ k % 2 == 1).getD false
      let f : SpawnFor := ⟨if launch then ctx else tk.ctx, launch,
        if launch then flag 5 else ((s1.launch? tk.launch).map Launch.single).getD false, a, clusterOf tk.core⟩
      s.isDet tk = false → tk.irrevocable = true → tk.commitT = none → s.release a t 4 = .go s1 →
      (th.reg o.a.toNat).toNat % 128 = 0 →
      State.spawnRecords a t tk n s1 (th.addr2 o.a.toNat) = .got s2 bss → s2.launches = s1.launches →
      (∀ x, s2.recordBad f bss = some x → ∃ s', exec (.spawn o) s = .next s' ∧
        s'.thread? a t = (s2.thread? a t).map (fun z => (z.setReg o.d.toNat (BitVec.ofNat 32 (2 + x * 65536))).next) ∧
        KeepsRest s2 s' a t ∧ s'.accn = s2.accn) ∧
      (s2.recordBad f bss = none → State.spawnCats a t tk f.ctx bss s2 = (s3, some cats) →
      (∀ x y, s3.spawnCheck f bss cats = (x, y) → x ≠ 0 →
        ∃ s', exec (.spawn o) s = .next s' ∧
          s'.thread? a t = (s3.thread? a t).map (fun z => (z.setReg o.d.toNat (BitVec.ofNat 32 (x + y * 65536))).next) ∧
          KeepsRest s3 s' a t ∧ s'.accn = s3.accn) ∧
      (s3.spawnCheck f bss cats = (0, 0) →
        let q := s3.spawnQueue f tk bss cats
        ∃ s', exec (.spawn o) s = .next s' ∧
          s'.thread? a t = (q.thread? a t).map (fun z => (z.setReg o.d.toNat 0).next) ∧ KeepsRest q s' a t ∧
          q.accn = s3.accn + min bss.length cats.length ∧
          (launch = true → q.launch? s3.nextId = some ⟨ctx, flag 4, flag 5, flag 6, bss.length, 0, none, [], false⟩)))))) ∧
  (∀ (s : State) (f : SpawnFor) (bss : List (List Byte)),
    (s.ctx? f.ctx = none → s.recordBad f bss = some 0) ∧
    (∀ c, s.ctx? f.ctx = some c →
      let ok := fun bs : List Byte =>
        let v := fun (off n : Nat) => leNat ((bs.drop off).take n)
        v 0 8 < 144115188075855872 ∧ v 0 8 % 12 = 0 ∧ v 32 4 < 128 ∧ v 32 4 % 4 ≤ 1 ∧ v 36 4 < 64 ∧ 1 ≤ v 40 2 ∧ v 40 2 ≤ 2048 ∧
        v 44 4 % 8 ≤ 4 ∧ v 44 4 / 8 % 128 ≤ 112 ∧ v 56 8 % 16 = 0 ∧ v 64 8 ≠ 0 ∧ v 64 8 % 16 = 0 ∧ v 72 8 % 4096 = 0 ∧ v 84 44 = 0 ∧
        (v 36 4 / 32 % 2 = 1 → c.inccfg.getLsbD (v 36 4 % 16) = true) ∧
        (f.launch = false → v 32 4 / 16 % 2 = 0 ∧ v 32 4 / 64 % 2 = 0)
      (s.recordBad f bss = none ↔ ∀ bs ∈ bss, ok bs) ∧
      (∀ i, s.recordBad f bss = some i ↔ (∃ bs, bss[i]? = some bs ∧ ¬ ok bs) ∧ ∀ j < i, ∀ bs, bss[j]? = some bs → ok bs))) ∧
  (∀ (s : State) (f : SpawnFor) (bss : List (List Byte)) (cats : List (Option (List (BitVec 128)))), cats.length = bss.length →
    let rs := bss.map fun bs => recordOf bs 0 0
    let region := if f.single then [s.lowestCluster f.ctx] else s.region f.ctx
    let badCat := fun i : Nat => ∃ r c, rs[i]? = some r ∧ cats[i]? = some c ∧ ∀ cat, c = some cat → catalogueOk rs r cat = false
    let badLaunch := fun i : Nat => f.launch = true ∧ ∃ r0 r, rs.head? = some r0 ∧ rs[i]? = some r ∧
      (r.flags.toNat / 16 % 8 ≠ r0.flags.toNat / 16 % 8 ∨
        (r0.flags.getLsbD 4 = true ∧ (r.flags.toNat % 4 ≠ 0 ∨ r.flags.getLsbD 6 = true ∨ rs.length ≤ r.tidx ∨
          ∃ j x, j < i ∧ rs[j]? = some x ∧ x.tidx = r.tidx)) ∨
        (r0.flags.getLsbD 4 = false ∧ r0.flags.getLsbD 6 = true ∧ coopFits (r0.flags.getLsbD 5) region (rs.take (i + 1)) = false))
    let badFit := fun i : Nat => ∃ r, rs[i]? = some r ∧ r.everFits = false
    let badQueue := fun i : Nat => ∃ r, rs[i]? = some r ∧
      4096 < (s.tasks.filter fun p => p.2.phase = .queued ∧ p.2.cluster = s.queueOf f r ∧ p.2.ctx = f.ctx).length +
        ((rs.take (i + 1)).filter fun x => s.queueOf f x = s.queueOf f r).length
    let badAccn := fun i : Nat => i < rs.length ∧ 281474976710655 < s.accn + i
    let checks := [(5, badCat), (6, badLaunch), (3, badFit), (1, badQueue), (7, badAccn)]
    (∀ k v bad i, checks[k]? = some (v, bad) → (∀ q ∈ checks.take k, ∀ j, ¬ q.2 j) → bad i → (∀ j < i, ¬ bad j) →
      s.spawnCheck f bss cats = (v, i)) ∧
    ((∀ q ∈ checks, ∀ j, ¬ q.2 j) → s.spawnCheck f bss cats = (0, 0))) ∧
  (∀ (rs : List TaskRec) (r : TaskRec) (cat : List (BitVec 128)),
    let at' := fun (e : BitVec 128) (lo n : Nat) => e.toNat / 2 ^ lo % 2 ^ n
    let has := fun (e : BitVec 128) (t : Nat) => decide (at' e 127 1 = 1 ∧ at' e 0 16 ≤ r.tidx ∧ r.tidx ≤ at' e 16 16 ∧ at' e 32 11 ≤ t ∧
      (t - at' e 32 11) % at' e 96 11 = 0 ∧ (t - at' e 32 11) / at' e 96 11 < at' e 64 12)
    catalogueOk rs r cat = true ↔ (∀ t < r.ntid, (cat.filter fun e => has e t).length ≤ 4) ∧
      ∀ e ∈ cat, at' e 127 1 = 1 → at' e 107 20 = 0 ∧ at' e 76 20 = 0 ∧ at' e 43 21 = 0 ∧ 1 ≤ at' e 96 11 ∧ 1 ≤ at' e 64 12 ∧
        at' e 64 12 ≤ 2048 ∧ (r.flags.getLsbD 6 = true ∨ at' e 0 16 = at' e 16 16) ∧
        ∀ x ∈ rs, at' e 0 16 ≤ x.tidx → x.tidx ≤ at' e 16 16 → at' e 32 11 + (at' e 64 12 - 1) * at' e 96 11 < x.ntid) ∧
  (∀ r : TaskRec,
    let p := r.rreq.toNat / 8 % 128
    let lower := if 1536 < r.ntid then (p + 1) / 2 else p
    let priv := r.rreq.toNat / 65536 * ((r.ntid + 31) / 32 * 32) * 4
    r.everFits = true ↔ 64 * ((lower + 15) / 16) + 4 * (r.rreq.toNat / 1024 % 64) ≤ 496 ∧
      (1536 < r.ntid → r.ntid ≤ 3072 ∧ 64 * ((p / 2 + 15) / 16) ≤ 496) ∧ (priv = 0 ∨ priv ≤ Config.privateReserve)) ∧
  (∀ (s : State) (f : SpawnFor) (l : Nat) (bs : List Byte) (cat : List (BitVec 128)),
    let s' := s.enqueue f l bs cat
    s'.accn = s.accn + 1 ∧ (∀ a, a ≠ s.accn → s'.task? a = s.task? a) ∧
    (s'.task? s.accn).map (fun tk => (tk.rcd.accn, tk.rcd.paccn, tk.rcd.rlcnt, tk.rcd.entry, tk.ctx, tk.launch)) =
      some (s.accn, if f.launch then 0 else f.parent, 0, leNat (bs.take 8), f.ctx, l) ∧
    (s'.task? s.accn).map (fun tk => (tk.phase, tk.cluster)) = some (.queued,
      let r := recordOf bs s.accn 0
      if f.single then (s.region f.ctx).foldl min ((s.region f.ctx).headD 0)
      else if f.launch then (s.region f.ctx).getD (r.tidx % (s.region f.ctx).length) 0 else f.home))

/-! ## Events of the supervisor, the host and the fabric -/

/-- R365, R366, R369, R376, R398, R399, R413: a context becomes active or is retired, or CTXSTS says why not; an invalidation raises the
generation at once, and is over when nothing that was under way is left; shoot-downs, stop-all, the registers, and a resumed
thread, which goes on with what the debugger has written into its image. A command that looks at tables or a descriptor is due again
while update-only copies of their lines are combined (R106).
The fields taken from an image, the answer of CTX_RETIRE to context 0 or an inactive context, the due form of an invalidation,
the count in SHDSTS, the answer to a shoot-down, the reserved bits, and the commands that come again for update-only copies are
the model's reading (log entries 20, 22, 24, 29, 30, 36, 94). -/
def Obligations.SupervisorEvents : Prop :=
  ∀ (s : State),
    (∀ (n d : Nat) (c : Ctx), s.ctx? n = none → s.copied (linesOf d 256) = none → s.readCtx d = some c →
      ∃ s', exec (.ctxActivate n d) s = .next s' ∧ s'.ctx? n = some c ∧ s'.regs.ctxsts = 0 ∧
        (∀ m, m ≠ n → s'.ctx? m = s.ctx? m) ∧ s'.tasks = s.tasks ∧ s'.mem = s.mem ∧ s'.writes = s.writes) ∧
    (∀ n d : Nat, ((s.ctx? n).isSome = true ∨ s.copied (linesOf d 256) = none ∧ s.readCtx d = none) →
      exec (.ctxActivate n d) s = .next { s with regs := { s.regs with ctxsts := 2 } }) ∧
    (∀ n d l : Nat, s.ctx? n = none → s.copied (linesOf d 256) = some l →
      ∃ s', exec (.ctxActivate n d) s = .next s' ∧ s'.agenda = s.agenda ++ [.ctxActivate n d] ∧ s'.regs = s.regs ∧ s'.ctxs = s.ctxs) ∧
    (∀ n : Nat,
      ((s.tasks.any fun p => p.2.ctx = n) = true →
        exec (.ctxRetire n) s = .next { s with regs := { s.regs with ctxsts := 3 } }) ∧
      ((s.tasks.any fun p => p.2.ctx = n) = false → n = 0 ∨ s.ctx? n = none →
        exec (.ctxRetire n) s = .next { s with regs := { s.regs with ctxsts := 2 } }) ∧
      ((s.tasks.any fun p => p.2.ctx = n) = false → n ≠ 0 → (s.ctx? n).isSome = true →
        ∃ s', exec (.ctxRetire n) s = .next s' ∧ s'.ctx? n = none ∧ s'.regs.ctxsts = 0 ∧ s'.tasks = s.tasks ∧ s'.mem = s.mem)) ∧
    (∀ (n page size : Nat) (c : Ctx), s.ctx? n = some c → size < 4 → s.roeCopies c page size = none →
      ∃ s' c', exec (.translationInvalidate n page size) s = .next s' ∧ s'.ctx? n = some c' ∧ c'.gen = c.gen + 1 ∧
        (∀ p, inRange page size p = true → KMap.get? p c'.tlb = none) ∧
        (∀ p, inRange page size p = false → KMap.get? p c'.tlb = KMap.get? p c.tlb) ∧ s'.mem = s.mem ∧
        (s.inFlight n (c.gen + 1) = false → s'.writes = s.writes ∧ s'.agenda = s.agenda ∧
          s'.regs = { s.regs with invsts := BitVec.ofNat 64 ((c.gen + 1) % 65536) }) ∧
        (s.inFlight n (c.gen + 1) = true → s'.regs = s.regs ∧
          ∃ w, (∀ x ∈ s'.writes, x.wct ≤ w) ∧ s'.agenda = s.agenda ++ [.translationInvalidate n page (4 * w + size)])) ∧
    (∀ (n page w z : Nat) (c : Ctx), s.ctx? n = some c → 0 < w → z < 4 →
      (s.dtime ≤ w ∨ s.underOld n c.gen = true → exec (.translationInvalidate n page (4 * w + z)) s =
        .next { s with agenda := s.agenda ++ [.translationInvalidate n page (4 * w + z)] }) ∧
      (w < s.dtime → s.underOld n c.gen = false → ∃ s', exec (.translationInvalidate n page (4 * w + z)) s = .next s' ∧
        s'.regs = { s.regs with invsts := BitVec.ofNat 64 (c.gen % 65536) } ∧ s'.mem = s.mem ∧ s'.writes = s.writes)) ∧
    (∀ n page : Nat, s.pageCopies n page = none →
      ∃ s', exec (.shootDown n page) s = .next s' ∧
        s'.sent = (if s.regs.serves && s.linked then s.sent ++ [.shootDown page] else s.sent) ∧ s'.tasks = s.tasks ∧ s'.mem = s.mem ∧
        (s'.regs.shdsts = 0 ∨ ∃ k, 0 < k ∧ k < 1024 ∧ s'.regs.shdsts = BitVec.ofNat 64 (9223372036854775808 + k)) ∧
        ∀ c, s.ctx? n = some c → ∃ c', s'.ctx? n = some c' ∧ c'.tlb = c.tlb ∧ c'.gen = c.gen ∧
          ((s.isRoe c page || c.cachedRoe page) = true → page ∈ c'.revoked) ∧
          ((s.isRoe c page || c.cachedRoe page) = false → c'.revoked = c.revoked)) ∧
    (∀ n page l : Nat, s.pageCopies n page = some l →
      ∃ s', exec (.shootDown n page) s = .next s' ∧ s'.agenda = s.agenda ++ [.shootDown n page] ∧ s'.regs = s.regs ∧ s'.sent = s.sent) ∧
    (∀ src k : Nat, k < 1024 → s.regs.shdsts = BitVec.ofNat 64 (9223372036854775808 + (k + 1)) → k + 1 < 1024 →
      exec (.shootdownAnswer src) s = .next { s with regs := { s.regs with
        shdsts := (if k = 0 then 0 else BitVec.ofNat 64 (9223372036854775808 + k)) } }) ∧
    (∀ src page : Nat, s.regs.serves = true →
      ∃ s', exec (.shootdownReceive src page) s = .next s' ∧
        s'.sent = (if s.linked then s.sent ++ [.shootAnswer src] else s.sent) ∧ s'.tasks = s.tasks ∧ s'.mem = s.mem ∧
        s'.regs = s.regs ∧ s'.ctxs = s.ctxs) ∧
    (∀ (n : Nat) (c : Ctx), s.ctx? n = some c →
      (∃ s', exec (.stopAllOn n) s = .next s' ∧ s'.ctx? n = some { c with stopAll := true } ∧ s'.tasks = s.tasks) ∧
      (∃ s', exec (.stopAllOff n) s = .next s' ∧ s'.ctx? n = some { c with stopAll := false } ∧ s'.tasks = s.tasks)) ∧
    (∀ (n a t : Nat) (tk : Task) (th : Thread), s.task? a = some tk → tk.ctx = n → tk.threads = [(t, th)] →
      th.halted = true → th.image = none →
      ∃ s', exec (.debugResume n a) s = .next s' ∧ OnlyThread s s' a t { th.relook with halted := false }) ∧
    (∀ (n a t : Nat) (tk : Task) (th : Thread) (m : Image), s.task? a = some tk → tk.ctx = n → tk.threads = [(t, th)] →
      th.halted = true → th.image = some m →
      let at' := BitVec.ofNat 64 (s.lastNat (m.addr + 256) 8)
      ∃ s' th', exec (.debugResume n a) s = .next s' ∧ s'.thread? a t = some th' ∧ th'.halted = false ∧ s'.mem = s.mem ∧
        s'.writes = s.writes ∧
        th'.pc = (if at' ≠ m.pc then at' else th.pc) ∧
        (∀ x, x < 64 →
          let v := BitVec.ofNat 32 (s.lastNat (m.addr + 4 * x) 4)
          th'.reg x = if tk.holdsReg x = true ∧ v ≠ m.v.getD x 0 then v else th.reg x) ∧
        th'.p = BitVec.ofNat 8 (s.lastNat (m.addr + 286) 1) ||| 1 ∧ th'.fpmode = BitVec.ofNat 32 (s.lastNat (m.addr + 288) 4) ∧
        th'.fpflags = BitVec.ofNat 32 (s.lastNat (m.addr + 292) 4) ∧ th'.rngctr = BitVec.ofNat 32 (s.lastNat (m.addr + 296) 4) ∧
        th'.h = th.h) ∧
    (∀ v : DWord,
      exec (.registerWrite .exptb v) s = .next { s with regs := { s.regs with exptb := v &&& 0x81FFFFFFFFFFFFFF } } ∧
      exec (.registerWrite .encl v) s = .next { s with regs := { s.regs with encl := v &&& 0xFFFF } } ∧
      exec (.registerWrite .vcmode v) s = .next { s with regs := { s.regs with vcmode := v &&& 0x7F } } ∧
      exec (.registerWrite .saveb v) s = .next { s with regs := { s.regs with saveb := v &&& 0x01FFFFFFFFFFFFFF } } ∧
      exec (.registerWrite .launchq v) s = .next { s with regs := { s.regs with launchq := v } } ∧
      exec (.registerWrite .saves v) s = .next { s with regs := { s.regs with saves := v } } ∧
      exec (.registerWrite .pcap v) s = .next { s with regs := { s.regs with
        pcap := (if 1000 ≤ v.toNat % 4096 ∧ v.toNat % 4096 ≤ 2300 then BitVec.ofNat 64 (v.toNat % 4096) else s.regs.pcap) } })

/-- R407, R412 to R416: the host's stores and loads at their homes, its loads of BSTAT, its invalidation of a line, bring-up, training, full service,
attestation and heat, which changes no copy of an incumbent. A load waits for the writes that its lines have accepted.
The form of POWER_ON and what it leaves in CLK, DIES and FAIL, a load of BAR0 as HOST_LOAD at 0x3E00001000, and that a load
comes again until what it waits for has been performed, are the model's choice or reading (log entries 25, 27, 90). -/
def Obligations.HostEvents : Prop :=
  ∀ (s : State),
    (∀ (addr : Nat) (data : List Byte), s.regs.serves = true → s.regs.hostUp = true → addr + data.length ≤ s.usable →
      data ≠ [] → addr % 128 + data.length ≤ 128 → s.lineParts (addr / 128) = [] →
      ∃ s', exec (.hostStore addr data) s = .next s' ∧
        s'.writes = s.writes ++ [⟨s.stamp (addr / 128) 576, addr / 128, bytesAt addr data, 576, [], s.stamp (addr / 128) 576 - 1, false, []⟩] ∧
        s.dtime ≤ s.stamp (addr / 128) 576 ∧ s'.tasks = s.tasks ∧ s'.mem = s.mem) ∧
    (∀ addr n : Nat, s.regs.serves = true → s.regs.hostUp = true → addr + n ≤ s.usable →
      (∀ l ∈ linesOf addr n, s.lineParts l = []) →
      ((∃ w ∈ s.writes, w.line ∈ linesOf addr n) →
        exec (.hostLoad addr n) s = .next { s with agenda := s.agenda ++ [.hostLoad addr n] }) ∧
      ((∀ w ∈ s.writes, w.line ∉ linesOf addr n) → ∃ s', exec (.hostLoad addr n) s = .next s' ∧
        s'.sent = s.sent ++ [.hostData addr ((List.range n).map fun i => s.homeByte (addr + i))] ∧
        (∀ l ∈ linesOf addr n, l ∈ s'.hostLines) ∧ s'.tasks = s.tasks ∧ s'.mem = s.mem ∧ s'.writes = s.writes)) ∧
    (∀ addr n : Nat, s.regs.hostUp = true → 0x3E00001000 ≤ addr → addr + n ≤ 0x3E00001008 →
      ∃ s', exec (.hostLoad addr n) s = .next s' ∧ s'.sent = s.sent ++ [.hostData addr ((List.range n).map fun i =>
          BitVec.ofNat 8 (s.regs.bstat / 256 ^ (addr - 0x3E00001000 + i)))] ∧ s'.tasks = s.tasks ∧ s'.mem = s.mem) ∧
    (∀ (line : Nat) (data : KMap Byte),
      let l := 562949953421312 + line
      s.regs.serves = true → s.lineParts l = [] →
      ∃ s' w, exec (.hostLineInvalidate line data) s = .next s' ∧ s'.writes = s.writes ++ [w] ∧ w.line = l ∧
        w.bytes = (data.filter fun p => p.1 < 128).map (fun p => (l * 128 + p.1, p.2)) ∧ s.dtime ≤ w.wct ∧
        (∀ c x, KMap.get? c s'.cores = some x → ∀ y, KMap.get? l x.l1 = some y → y.lease = none) ∧ s'.tasks = s.tasks ∧
        s'.mem = s.mem) ∧
    (s.regs.hostUp = true → ∃ s' bs, exec .attestationRequest s = .next s' ∧ s'.sent = s.sent ++ [.attestation bs] ∧
      s'.tasks = s.tasks ∧ s'.mem = s.mem ∧ s'.regs = s.regs) ∧
    (∀ image d rec, s.regs.level ≠ 0 → ∀ failed, exec (.powerOn failed image d rec) s = .next s) ∧
    (∀ image d rec, s.regs.level = 0 →
      exec (.powerOn true image d rec) s = .next { s with regs := { s.regs with level := 3, fail := 1 } }) ∧
    (∀ image d rec c, s.regs.level = 0 →
      State.readCtx { s with mem := memWriteAll s.mem (image.filter fun p => p.1 < 68719476736) } d = some c →
      ∃ s', exec (.powerOn false image d rec) s = .next s' ∧ s'.regs.level = 1 ∧ s'.regs.dies = 1 ∧ s'.regs.clk = 25 ∧
        s'.regs.rqbase % 4096 = 0 ∧ s'.ctx? 0 = some { c with row := 0, col := 0, rows := 6, cols := 6 } ∧
        s'.mem = memWriteAll s.mem (image.filter fun p => p.1 < 68719476736) ∧ s'.dtime = s.dtime) ∧
    (s.regs.level = 1 →
      exec (.trainingComplete 0) s = .next { s with regs := { s.regs with train := true, stest := true } }) ∧
    (s.regs.level ≠ 3 → ∀ fail : Nat, 0 < fail → fail < 256 →
      exec (.trainingComplete fail) s = .next { s with regs := { s.regs with level := 3, fail := fail } }) ∧
    (s.regs.level = 1 → s.regs.train = true → s.regs.stest = true → s.ctxs.all (fun p => p.1 = 0) = true →
      ∃ s', exec .serviceFull s = .next s' ∧ s'.regs = { s.regs with level := 2, clk := 50, dies := 15 } ∧
        s'.tasks = s.tasks ∧ s'.mem = s.mem ∧ s'.writes = s.writes ∧ ∀ l, (s'.home l).near = []) ∧
    (∃ s', exec .thermalThrottle s = .next s' ∧ s'.regs = { s.regs with clk := max 25 (s.regs.clk - 1) } ∧ s'.tasks = s.tasks ∧
      s'.mem = s.mem ∧ s'.cores = s.cores ∧ (25 ≤ s.regs.clk → ∀ core n i, s'.incCopy core n i = s.incCopy core n i)) ∧
    exec .thermalShutdown s = .next { s with regs := { s.regs with level := 3, hostUp := false } }

/-- R133 to R136, R148, R151, R307, R378, R379: requests of peers are performed and answered, an atomic once only; a response goes to the
thread that waits for it, and of a request that serves several threads (R126) to each its part; an acknowledgement ends a posted operation and records its fault; retries, timeouts, kept results,
keys and links: a link goes down at the third failure of one flit, where it is the flit that failed last that fails again (which flit
it is comes from outside: a free value), and once either of its slots has sent 2^48 flits.
Dropped results, and the tick of an answer, are the model's reading (log entries 31, 32). That KEY_SWITCH_MARKER at 24 and more
is the marker that a port sends is the form of the input (log entry 96). -/
def Obligations.FabricEvents : Prop :=
  ∀ (s : State),
    (∀ (r : RemoteReq) (s2 : State) (res : RemoteRes) (w : Nat) (roe : Bool), s.regs.serves = true →
      opRepeatable r.op = true → s.serve r = .done s2 res w roe → r.src ≠ s2.regs.peerid → s2.regs.serves = true → s2.linked = true →
      ∃ s', exec (.remoteRequestArrival r) s = .next s' ∧ s'.sent = s2.sent ++ [.response r.src r.tag res roe] ∧
        s'.tasks = s2.tasks ∧ s'.mem = s2.mem ∧ s'.writes = s2.writes) ∧
    (∀ (r : RemoteReq), s.regs.serves = true → opRepeatable r.op = false → r.src ≠ s.regs.peerid → s.linked = true →
      let key := replayKey r.src r.tag
      let answers := fun res : RemoteRes => ∃ s', exec (.remoteRequestArrival r) s = .next s' ∧
        s'.sent = s.sent ++ [.response r.src r.tag res false] ∧ s'.tasks = s.tasks ∧ s'.mem = s.mem ∧ s'.writes = s.writes
      (∀ s2 ws w roe, KMap.get? key s.replay = none → s.serve r = .done s2 (.data ws) w roe →
        ∃ s', exec (.remoteRequestArrival r) s = .next s' ∧ KMap.get? key s'.replay = some ⟨some (.data ws), w, true⟩ ∧
          s'.agenda = s2.agenda ++ [.remoteRequestArrival r] ∧ s'.sent = s2.sent ∧ s'.writes = s2.writes) ∧
      (∀ res w owed, KMap.get? key s.replay = some ⟨some res, w, owed⟩ → w < s.dtime →
        (owed = true ∨ s.dtime < w + 5120 → answers res) ∧ (owed = false → w + 5120 ≤ s.dtime → answers .unknown)) ∧
      (∀ w owed, KMap.get? key s.replay = some ⟨none, w, owed⟩ → answers .unknown)) ∧
    (∀ (r : RemoteReq), s.regs.serves = true → r.src ≠ s.regs.peerid → s.linked = true →
      let key := replayKey r.src r.tag
      (∀ s2 ws w roe, KMap.get? key s.replay = none → s.serve r = .done s2 (.data ws) w roe →
        ∃ s', exec (.remotePostedStore r) s = .next s' ∧ KMap.get? key s'.replay = some ⟨some (.data ws), w, true⟩ ∧
          s'.sent = s2.sent ∧ s'.writes = s2.writes) ∧
      (∀ res w owed, KMap.get? key s.replay = some ⟨some res, w, owed⟩ → w < s.dtime →
        ∃ s', exec (.remotePostedStore r) s = .next s' ∧ s'.sent = s.sent ++ [.ack r.src r.tag res] ∧
          KMap.get? key s'.replay = none ∧ s'.writes = s.writes)) ∧
    (∀ (tag : Nat) (o : OutReq) (res : RemoteRes) (roe : Bool) (th : Thread), KMap.get? tag s.outs = some o →
      s.thread? o.accn o.tid = some th → o.posted = false → o.eng = none → o.async = none →
      (s.outs.filter (fun p => p.2.req.tag == tag) = [(tag, o)] → o.part = 0 →
        ∃ s', exec (.remoteResponse tag res roe) s = .next s' ∧
        s'.thread? o.accn o.tid = some { th.wake with
          answer := some (if o.back = none ∧ o.sent + 10240 ≤ s.dtime then .unknown else res) } ∧
        KMap.get? tag s'.outs = none ∧ KeepsRest s s' o.accn o.tid) ∧
      (o.back = none → o.sent + 10240 ≤ s.dtime →
        ∃ s', exec (.remoteTimeout tag) s = .next s' ∧
          s'.thread? o.accn o.tid = some { th.wake with answer := some .unknown } ∧ KMap.get? tag s'.outs = none ∧
          KeepsRest s s' o.accn o.tid) ∧
      (o.back = none → o.resends < 3 → o.sent + 1250 * (o.resends + 1) ≤ s.dtime → o.peer ≠ s.regs.peerid →
        s.regs.serves = true → s.linked = true →
        ∃ s', exec (.remoteRetry tag) s = .next s' ∧ s'.sent = s.sent ++ [.request o.peer o.req] ∧
          KMap.get? tag s'.outs = some { o with resends := o.resends + 1 } ∧ s'.tasks = s.tasks)) ∧
    (∀ (tag : Nat) (ws : List Word) (roe : Bool) (os : List (Nat × OutReq)),
      s.outs.filter (fun p => p.2.req.tag == tag) = os → (os.map Prod.fst).Nodup →
      (os.map fun p => (p.2.accn, p.2.tid)).Nodup →
      (∀ p ∈ os, p.2.posted = false ∧ p.2.eng = none ∧ p.2.async = none ∧ s.dtime < p.2.sent + 10240) →
      ∃ s', exec (.remoteResponse tag (.data ws) roe) s = .next s' ∧
        ∀ p ∈ os, KMap.get? p.1 s'.outs = none ∧ ∀ th, s.thread? p.2.accn p.2.tid = some th →
          s'.thread? p.2.accn p.2.tid = some { th.wake with answer := some (.data (ws.drop (p.2.part / 4))) }) ∧
    (∀ (tag : Nat) (o : OutReq) (th : Thread), KMap.get? tag s.outs = some o → s.thread? o.accn o.tid = some th →
      o.posted = true → o.eng = none → th.posted = none →
      (s.outs.filter (fun p => p.2.req.tag == tag) = [(tag, o)] → s.dtime < o.sent + 10240 → ∀ ws,
        ∃ s' th', exec (.postedAck tag (.data ws)) s = .next s' ∧ s'.thread? o.accn o.tid = some th' ∧
        th'.posted = none ∧ th'.v = th.v ∧ th'.pc = th.pc ∧ KMap.get? tag s'.outs = none ∧ KeepsRest s s' o.accn o.tid) ∧
      (s.outs.filter (fun p => p.2.req.tag == tag) = [(tag, o)] → s.dtime < o.sent + 10240 → ∀ n,
        ∃ s' th', exec (.postedAck tag (.poisoned n)) s = .next s' ∧ s'.thread? o.accn o.tid = some th' ∧
        th'.posted = some ⟨0x000B, n, 0, o.va, o.order⟩ ∧ th'.v = th.v ∧ th'.pc = th.pc ∧
        KMap.get? tag s'.outs = none ∧ KeepsRest s s' o.accn o.tid) ∧
      (o.back = none → o.sent + 10240 ≤ s.dtime →
        ∃ s' th', exec (.postedStoreTimeout tag) s = .next s' ∧ s'.thread? o.accn o.tid = some th' ∧
          th'.posted = some ⟨0x000C, 0, 0, o.va, o.order⟩ ∧ th'.v = th.v ∧ KMap.get? tag s'.outs = none ∧
          KeepsRest s s' o.accn o.tid)) ∧
    (∀ (src tag : Nat) (x : Replay), KMap.get? (replayKey src tag) s.replay = some x → x.owed = false →
      x.tick + 5120 ≤ s.dtime →
      ∃ s', exec (.replayResultExpire src tag) s = .next s' ∧
        KMap.get? (replayKey src tag) s'.replay = some ⟨none, x.tick, false⟩ ∧ s'.tasks = s.tasks ∧ s'.mem = s.mem) ∧
    (∀ (g i n : Nat) (v : DWord) (c : Ctx) (h : Incumbent), s.regs.serves = true → s.ctx? n = some c →
      KMap.get? i c.incs = some h → c.federated i = true → c.fgrp = g →
      ∃ s' c', exec (.federationValue g i (c.isMax i) v) s = .next s' ∧ s'.ctx? n = some c' ∧
        (KMap.get? i c'.incs).map Incumbent.value =
          some (if (if c.isMax i then h.value.ult v else v.ult h.value) then v else h.value) ∧
        s'.sent = s.sent ∧ s'.tasks = s.tasks ∧ s'.mem = s.mem) ∧
    (∀ (g i : Nat) (up : Bool) (v : DWord), s.regs.serves = false → exec (.federationValue g i up v) s = .next s) ∧
    (∀ (g i : Nat) (up : Bool) (v : DWord), s.regs.serves = true → (∃ x ∈ s.ctxs, x.2.federated i = true ∧ x.2.fgrp = g) →
      (∀ x ∈ s.ctxs, x.2.federated i = true → x.2.fgrp = g → x.2.isMax i ≠ up) →
      exec (.federationValue g i up v) s = .next { s with regs := { s.regs with mismatches := s.regs.mismatches + 1 } }) ∧
    (∀ p : Nat,
      let x := KMap.getD p Port.empty s.ports
      (∃ s' y, exec (.keySwitchMarker (24 + p)) s = .next s' ∧ KMap.get? p s'.ports = some y ∧ y.slot = 1 - x.slot ∧
        y.rslot = x.rslot ∧ y.up = x.up ∧ y.key0 = x.key0 ∧ y.key1 = x.key1 ∧
        (y.count0, y.count1) = (if x.slot = 0 then (x.count0 + 1, x.count1) else (x.count0, x.count1 + 1)) ∧
        s'.tasks = s.tasks ∧ s'.mem = s.mem) ∧
      (p < 24 → ∃ s' y, exec (.keySwitchMarker p) s = .next s' ∧ KMap.get? p s'.ports = some y ∧ y.rslot = 1 - x.rslot ∧
        y.slot = x.slot ∧ y.count0 = x.count0 ∧ y.count1 = x.count1 ∧ s'.tasks = s.tasks ∧ s'.mem = s.mem) ∧
      (∀ key, ∃ s', exec (.keySlotLoad p 0 key) s = .next s' ∧
        KMap.get? p s'.ports = some { x with key0 := some key, count0 := 0 } ∧ s'.tasks = s.tasks) ∧
      (∀ key, ∃ s', exec (.keySlotLoad p 1 key) s = .next s' ∧
        KMap.get? p s'.ports = some { x with key1 := some key, count1 := 0 } ∧ s'.tasks = s.tasks) ∧
      (∃ s' y, exec (.flitAuthFailure p) s = .next s' ∧ KMap.get? p s'.ports = some y ∧
        (Config.sameFlit s.free = false → y = { x with failures := 1 }) ∧
        (Config.sameFlit s.free = true → x.failures < 2 → y = { x with failures := x.failures + 1 }) ∧
        (Config.sameFlit s.free = true → 2 ≤ x.failures → y = { x with up := false, failures := 0 }) ∧
        s'.tasks = s.tasks ∧ s'.mem = s.mem) ∧
      (∃ s' y, exec (.nonceCountExhausted p) s = .next s' ∧ KMap.get? p s'.ports = some y ∧
        y = { x with up := if 281474976710656 ≤ x.count0 ∨ 281474976710656 ≤ x.count1 then false else x.up } ∧
        s'.tasks = s.tasks ∧ s'.mem = s.mem))

/-! ## Events of tasks, of scheduling and of memory -/

/-- R299, R304: WATCHDOG raises cause 0x0013 in a held thread whose wait has reached the limit; DRAWER_AGING makes a new squad of at
most 32 threads of a drawer; RESOURCE_GRANT gives the units and lets the threads go on; LOCK_GRANT gives the name to a waiter;
BARRIER_COMPLETE lets the members go on; the wakes make a held thread look again.
That TADDR of a watchdog is 0, which pages a grant gives, and that a drawer of a core with 48 squads makes a further one, is the
model's reading or choice (log entries 54, 84, 86). -/
def Obligations.WaitEvents : Prop :=
  ∀ (s : State),
    (∀ (a t : Nat) (tk : Task) (th : Thread) (w : Wait), s.task? a = some tk → s.thread? a t = some th → th.cond = .held w →
      (s.watchReady tk th = false → exec (.watchdog a t) s = .next s) ∧
      (s.watchReady tk th = true → s.tvec tk ≠ 0 → th.h = false → th.rep = none →
        ∃ s' th', exec (.watchdog a t) s = .next s' ∧ s'.thread? a t = some th' ∧ th'.pc = s.tvec tk ∧ th'.h = true ∧
          th'.tcause = 0x0013 ∧ th'.tepc = th.pc ∧ th'.taddr = 0 ∧ th'.tinfo = BitVec.ofNat 32 w.code ∧
          th'.cond = .running ∧ th'.v = th.v ∧ th'.p = th.p ∧ s'.mem = s.mem)) ∧
    (∀ (core a pc : Nat) (tk : Task), s.task? a = some tk → s.drawReady core a pc = true →
      ∃ s', exec (.drawerAging core a pc) s = .next s' ∧ (s.drawn core pc tk).length ≤ 32 ∧
        (∀ t ∈ s.drawn core pc tk, s'.thread? a t =
          (s.thread? a t).map fun th => { th with cond := .running, squad := (s.core core).nextSquad }) ∧
        (∀ b u, (b = a → u ∉ s.drawn core pc tk) → s'.thread? b u = s.thread? b u) ∧
        KMap.get? (s.core core).nextSquad (s'.core core).squads = some ⟨a, s.dtime, false⟩ ∧ s'.mem = s.mem) ∧
    (∀ (a : Nat) (tk : Task) (w : ResReq), s.task? a = some tk → s.grantable tk = some w → w.cls ≤ 4 →
      ∃ s' tk', exec (.resourceGrant a) s = .next s' ∧ s'.task? a = some tk' ∧ tk'.wants = tk.wants.erase w ∧
        tk'.reach = (if w.cls = 4 then tk.reach else tk.reach ++ [⟨w.addr, w.nth, 0, false, none⟩]) ∧
        tk'.pages = tk.pages + (if w.cls = 2 then w.count else 0) ∧
        tk'.spots = tk.spots ++ (if w.cls = 2 then (freeSpots (s.spotsUsed tk.core) w.count).map fun i => (tk.core, i) else []) ∧
        (w.cls = 1 → ∀ p ∈ (tk.freeNames.zip (s.freeTiles (clusterOf tk.core))).take w.count, KMap.get? p.1 tk'.tiles = some p.2) ∧
        (∀ n p, KMap.get? n tk.tiles = some p → KMap.get? n tk'.tiles = some p) ∧
        (w.cls = 4 → (KMap.get? w.count (s'.cluster (clusterOf tk.core)).cvs).isSome = true) ∧
        tk'.chunks = tk.chunks + (if w.cls = 0 then w.count else 0) ∧
        tk'.ebPages = tk.ebPages + (if w.cls = 3 then w.count else 0) ∧
        (∀ t th, s.thread? a t = some th → th.cond = .held .resource → th.pc.toNat = w.addr →
          (s'.thread? a t).map Thread.cond = some .running) ∧ s'.mem = s.mem ∧ (w.cls ≠ 2 → s'.writes = s.writes)) ∧
    (∀ (a : Nat) (tk : Task) (w : ResReq), s.task? a = some tk → s.grantable tk = none → s.redecides tk = some (w, .blocked) →
      ∃ s' tk', exec (.resourceGrant a) s = .next s' ∧ s'.task? a = some tk' ∧ tk'.wants = tk.wants.erase w ∧ tk'.reach = tk.reach ∧
        (∀ t th, s.thread? a t = some th → th.cond = .held .resource → th.pc.toNat = w.addr →
          (s'.thread? a t).map Thread.cond = some .running) ∧ { s' with tasks := s.tasks } = s) ∧
    (∀ (a : Nat) (tk : Task) (w : ResReq) (ws : List Nat), s.task? a = some tk → s.grantable tk = none →
      s.redecides tk = some (w, .wait ws) →
      ∃ s', exec (.resourceGrant a) s = .next s' ∧ { s' with tasks := s.tasks } = s ∧
        ∀ b, s'.task? b = (s.task? b).map fun x => if b ∈ ws then x.halt ⟨.wound, none, 0, 0, 0, 0, false⟩ else x) ∧
    (∀ (k : Nat) (e : LockEntry) (w : LockWait), s.lockWaiters k = [e] → s.lockFits e = true → e.wait = some w →
      e.wants ≠ 0 → (e.mode = 0 → s.tileFull (nameOf e.name) e.accn = false) →
      ∃ s', exec (.lockGrant k) s = .next s' ∧
        s'.lockOf k e.accn = some { e with mode := e.wants, wait := none } ∧
        (∀ t ∈ w.tids, ∀ th, s.thread? e.accn t = some th → th.cond = .held .lock →
          s'.thread? e.accn t = some { th with cond := .running, outcome := some 0 }) ∧
        (∀ b u, (b = e.accn → u ∉ w.tids) → s'.thread? b u = s.thread? b u) ∧
        s'.locks.filter (fun x => !(x.name == k && x.accn == e.accn)) =
          s.locks.filter (fun x => !(x.name == k && x.accn == e.accn)) ∧ s'.mem = s.mem) ∧
    (∀ (a t coh : Nat) (tk : Task) (th : Thread), s.task? a = some tk → s.thread? a t = some th →
      th.barDone (coh == 256) (coh % 256) = true →
      ∃ s', exec (.barrierComplete a t coh) s = .next s' ∧ OnlyThreads s s' ∧
        ∀ m ∈ s.cohort tk (coh == 256) (coh % 256), s'.thread? m.accn m.tid =
          (s.thread? m.accn m.tid).map fun x => if x.barDone (coh == 256) (coh % 256) then x.wake else x) ∧
    (∀ (a t : Nat) (th : Thread), s.thread? a t = some th →
      (th.cond = .held .line → ∃ s', exec (.waitlnWake a t) s = .next s' ∧ OnlyThread s s' a t { th with cond := .running }) ∧
      (th.cond = .held .event → ∃ s', exec (.waitevWake a t) s = .next s' ∧ OnlyThread s s' a t { th with cond := .running }))

/-- R292, R293, R295 to R297, R305, R308, R393: a record becomes eligible when its event is valid; the best record of a queue starts on a
core, every thread at its ENTRY with its registers zero; reservations, steals, holds, scans, and the end of an epoch.
That one EPOCH_END stands for all epochs passed, and that the read of an event finds update-only copies combined, is the model's
choice or reading (log entries 43, 94). -/
def Obligations.QueueEvents : Prop :=
  ∀ (s : State),
    (∀ (a : Nat) (tk : Task) (ks : List Nat) (xs : List (Nat × Xlate)), s.task? a = some tk → tk.phase = .queued →
      tk.eligible = false → tk.rcd.depev < 72057594037927936 →
      s.keysOf tk.ctx ⟨true, false, false⟩ tk.rcd.depev 16 = .ok (ks, xs) →
      (s.poisoned ks = false → ks.any isReg = true ∨ s.copied ((ks.map Machine.lineOf).eraseDups) = none →
        ∃ s', exec (.recordEligible a) s = .next s' ∧
          s'.task? a = some { tk with eligible :=
            (if ks.any isReg then (s.regLoad ks).getD 1 0 else s.homeByte (ks.getD 1 0)) == 1 } ∧ (∀ b, b ≠ a → s'.task? b = s.task? b) ∧
          s'.mem = s.mem ∧ s'.writes = s.writes) ∧
      (s.poisoned ks = true → ∃ s', exec (.recordEligible a) s = .next s' ∧
        (s'.task? a = none ∨ (s'.task? a).map Task.ended = some (some (2, 0x0015))))) ∧
    (∀ (a : Nat) (tk : Task) (e : Nat × Nat), s.task? a = some tk → tk.phase = .queued → tk.eligible = false →
      tk.rcd.depev < 72057594037927936 → s.keysOf tk.ctx ⟨true, false, false⟩ tk.rcd.depev 16 = .error e → recallLine e.1 = none →
      ∃ s', exec (.recordEligible a) s = .next s' ∧ (s'.task? a = none ∨ (s'.task? a).map Task.ended = some (some (2, e.1)))) ∧
    (∀ (k a c : Nat) (tk : Task), s.firstPlaced k (s.placeOrder k) = some ([], a, [(a, c)]) → s.task? a = some tk →
      s.scanHit tk = false →
      ∃ s' tk', exec (.taskPlacement k) s = .next s' ∧ s'.task? a = some tk' ∧ tk'.phase = .running ∧ tk'.core = c ∧
        tk'.rcd = tk.rcd ∧ tk'.chunks = tk.rcd.chunks ∧ tk'.pages = tk.rcd.pages ∧ tk'.ebPages = tk.rcd.ebPages ∧
        tk'.sreg 0 = loWord tk.rcd.args ∧ tk'.sreg 1 = hiWord tk.rcd.args ∧
        (∀ t, t < tk.rcd.ntid → ∃ th, s'.thread? a t = some th ∧ th.pc = BitVec.ofNat 64 tk.rcd.entry ∧ th.cond = .running ∧
          (∀ n, th.reg n = 0) ∧ th.p = 1 ∧ th.h = false ∧ th.cmem = cmemOf tk.cat tk.rcd.tidx t) ∧ s'.mem = s.mem) ∧
    (∀ k, s.firstPlaced k (s.placeOrder k) = none → exec (.taskPlacement k) s = .next s) ∧
    (∀ (k a c : Nat) (tk : Task), s.firstPlaced k (s.placeOrder k) = some ([], a, [(a, c)]) → s.task? a = some tk →
      s.scanHit tk = true → s.isCoop tk = false →
      ∃ s', exec (.taskPlacement k) s = .next s' ∧ (s'.task? a = none ∨ (s'.task? a).map Task.ended = some (some (1, 0)))) ∧
    (∀ (k a : Nat) (tk : Task), s.task? a = some tk →
      (s.reserveReady k a = false → exec (.recordReservation k a) s = .next s) ∧
      (s.reserveReady k a = true → ∃ s', exec (.recordReservation k a) s = .next s' ∧
        s'.reservedFor k tk.ctx = some a ∧ (∀ n, n ≠ tk.ctx → s'.reservedFor k n = s.reservedFor k n) ∧ s'.tasks = s.tasks ∧
        s'.mem = s.mem)) ∧
    (∀ (a : Nat) (tk : Task), s.task? a = some tk → ∃ s', exec (.matrixHoldExpire a) s = .next s' ∧
      s'.task? a = some { tk with holdTo := if tk.holdTo ≤ s.dtime then 0 else tk.holdTo } ∧
      (∀ b, b ≠ a → s'.task? b = s.task? b) ∧ { s' with tasks := s.tasks } = s) ∧
    (∀ k : Nat, (∀ a tk, s.task? a = some tk → tk.phase = .queued → tk.cluster = k → s.scanHit tk = false) →
      ∃ s', exec (.queueScan k) s = .next s' ∧ s'.tasks = s.tasks ∧ (s'.cluster k).scanned = s.dtime ∧ s'.mem = s.mem) ∧
    (∀ (k a : Nat) (tk : Task), s.tasks = [(a, tk)] → tk.phase = .queued → tk.cluster = k → s.scanHit tk = true →
      s.isCoop tk = false →
      ∃ s', exec (.queueScan k) s = .next s' ∧ (s'.task? a = none ∨ (s'.task? a).map Task.ended = some (some (1, 0)))) ∧
    (∀ (thief n a : Nat) (tk : Task), s.maySteal thief n = true →
      ((s.victim thief n).bind fun k => (s.stealOrder k n).head?) = some a → s.task? a = some tk → s.scanHit tk = false →
      (∀ c ∈ s.cores, c.2.parts = []) → ∃ s', exec (.stealRequest thief n) s = .next s' ∧ s'.task? a = some { tk with cluster := thief } ∧
        (∀ b, b ≠ a → s'.task? b = s.task? b) ∧ s'.mem = s.mem ∧ s'.writes = s.writes) ∧
    (∀ thief n : Nat, s.maySteal thief n = false → exec (.stealRequest thief n) s = .next s) ∧
    (s.dtime < 4096 * (s.epoch + 1) → exec .epochEnd s = .next s) ∧
    (4096 * (s.epoch + 1) ≤ s.dtime → (KMap.keys s.cores).Nodup →
      ∃ s', exec .epochEnd s = .next s' ∧ s'.epoch = s.dtime / 4096 ∧ s'.tasks = s.tasks ∧ s'.mem = s.mem ∧
        ∀ c x, KMap.get? c s.cores = some x →
          let k := s.dtime / 4096 - s.epoch
          let d := s.epochDeficits k c
          (∃ ns, KMap.get? c s'.cores = some { x with deficit := d, used := [], invited := ns }) ∧
          (∀ n ∈ s.ctxsOn c, KMap.getD n 0 d = max (-2097152) (min 2097152 (KMap.getD n 0 x.deficit +
            ((k * (2 * (4096 * s.weightOf n / ((s.ctxsOn c).map s.weightOf).sum)) : Nat) : Int) - (KMap.getD n 0 x.used : Nat)))))

/-- R274, R278, R289, R290, R301, R308 to R310, R381, R391, R395, R397: a task that has ended is gone or waits for its event with the status of
its end; a dominated resident task is told to stop; a wounded one goes back to its queue with RLCNT raised; a squad leaves its
core and returns with its registers as they were; the turn passes on.
What may come between two words of a chain, which tasks of a group a stop applies to, that a squad without room for its images
stays, and how a squad returns, is the model's reading (log entries 18, 21, 108, 113). -/
def Obligations.TaskEnds : Prop :=
  ∀ (s : State),
    let ends := fun (s' : State) (a status cause : Nat) =>
      s'.task? a = none ∨ (s'.task? a).map Task.ended = some (some (status, cause))
    (∃ s', exec .residentDominationTest s = .next s' ∧ { s' with tasks := s.tasks } = s ∧
      ∀ a, s'.task? a = (s.task? a).map fun tk =>
        if tk.resident ∧ s.isDet tk = false ∧ s.dominatedNow tk = true then tk.halt ⟨.cancel, none, 0, 0, 0, 0, false⟩ else tk) ∧
    (∀ (a : Nat) (tk : Task) (st : Stop), s.task? a = some tk → tk.stop = some st → s.midGroup a tk = false →
      (st.kind = .cancel → s.immune tk = false → s.isCoop tk = false →
        ∃ s', exec (.cancellation a) s = .next s' ∧ ends s' a 1 0) ∧
      (st.kind ≠ .cancel → exec (.cancellation a) s = .next s) ∧
      (st.kind = .cancel → s.immune tk = true → ∃ s', exec (.cancellation a) s = .next s' ∧
        s'.task? a = some { tk with stop := none } ∧ { s' with tasks := s.tasks } = s) ∧
      (st.kind = .wound → s.immune tk = false → s.isCoop tk = false → tk.rcd.rlcnt < 65535 →
        ∃ s' tk', exec (.wound a) s = .next s' ∧ s'.task? a = some tk' ∧ tk'.phase = .queued ∧ tk'.threads = [] ∧
          tk'.rcd = { tk.rcd with rlcnt := tk.rcd.rlcnt + 1, bound := tk.bnd, bselw := BitVec.ofNat 32 tk.bsel.toNat } ∧
          tk'.eligible = true ∧ tk'.ebuf = [] ∧ tk'.stop = none ∧ (∀ e ∈ s'.locks, e.accn ≠ a) ∧ s'.mem = s.mem) ∧
      (st.kind ≠ .wound → exec (.wound a) s = .next s)) ∧
    (∀ (a : Nat) (tk : Task), s.task? a = some tk →
      (s.commitReady a tk = false → exec (.taskCommit a) s = .next s) ∧
      (s.commitReady a tk = true → tk.ended.isSome = true → s.eventCopies tk = none →
        ∃ s', exec (.taskCommit a) s = .next s' ∧ s'.task? a = none) ∧
      (s.commitReady a tk = true → tk.ended = none → tk.commitT = none →
        (tk.irrevocable = true ∨ (s.dominatedNow tk = false ∧ tk.ebuf = [] ∧ tk.parts = [])) →
        ∃ s', exec (.taskCommit a) s = .next s' ∧ ends s' a 0 0) ∧
      (tk.ended = none → s.midGroup a tk = true → ∃ s', exec (.removalByTheSupervisor a) s = .next s' ∧
        s'.task? a = some { tk with stop := some ⟨.removal, none, 0, 0, 0, 0, false⟩ } ∧ { s' with tasks := s.tasks } = s) ∧
      (tk.ended = none → s.isCoop tk = false → s.midGroup a tk = false →
        ∃ s', exec (.removalByTheSupervisor a) s = .next s' ∧ ends s' a 3 0x0018)) ∧
    (∀ (l : Nat) (x : Launch), s.launch? l = some x →
      (s.turnReady l x = false → exec (.deterministicTurn l) s = .next s) ∧
      (s.turnReady l x = true → s.taskOf l x.turn = none →
        ∃ s', exec (.deterministicTurn l) s = .next s' ∧ (s'.launch? l).map Launch.turn = some (x.turn + 1) ∧ s'.mem = s.mem) ∧
      (∀ p, s.turnReady l x = true → s.taskOf l x.turn = some p → (∀ y, s.task? p.1 = some y → s.eventCopies y = none) →
        ∃ s', exec (.deterministicTurn l) s = .next s' ∧ s'.task? p.1 = none ∧
          ∀ k, isPrivOf p.1 k = false → memRead s'.mem k = memRead s.mem k)) ∧
    (∀ (core sq : Nat) (q : Squad) (tk : Task), KMap.get? sq (s.core core).squads = some q → s.task? q.accn = some tk →
      (s.evictReady core sq = false → exec (.squadEvict core sq) s = .next s) ∧
      (s.evictReady core sq = true → s.evictWaits q.accn (tk.squadThreads core sq) = true →
        exec (.squadEvict core sq) s = .next { s with agenda := s.agenda ++ [.squadEvict core sq] }) ∧
      (s.evictReady core sq = true → s.evictWaits q.accn (tk.squadThreads core sq) = false →
        ∃ s', exec (.squadEvict core sq) s = .next s' ∧ s'.mem = s.mem ∧
          ∀ t th, s.thread? q.accn t = some th → th.squad = sq → tk.coreOf t = core → th.away = false → th.live = true →
            ∃ th', s'.thread? q.accn t = some th' ∧ th'.away = true ∧ th'.v = th.v ∧ th'.p = th.p ∧ th'.pc = th.pc ∧
              th'.oc = th.oc ∧ th'.cond = th.cond) ∧
      (s.restoreReady core sq = true →
        ∃ s', exec (.squadRestore core sq) s = .next s' ∧ s'.mem = s.mem ∧ s'.writes = s.writes ∧ s'.cores = s.cores ∧
          ∀ t th, s.thread? q.accn t = some th → s'.thread? q.accn t = some
            (if th.away = true ∧ th.squad = sq ∧ tk.coreOf t = core then
              { th.relook with
                away := false, pkt := if th.relook.cond = .running then none else th.pkt
                image := if th.halted then th.image else none } else th)))

/-- R100, R106, R113, R116, R306, R394, R407: the write of least WCT, of commits of one WCT that of the lowest accession number, is performed at DTIME at or after it,
and writes its bytes and no other; near copies of its line, and a copy that the host holds, are gone; a line that
leaves L1 sends its dirty bytes home; a value at an incumbent's home reaches a core's copy, which never becomes worse; a soft
error in an attempt's own state stops it, one in a line of memory poisons the line, a corrected one is counted, and one in the answer to
a request poisons the response, and the request has no effect.
The form of a soft error in a home datapath is the model's reading (log entry 68). -/
def Obligations.MemoryEvents : Prop :=
  ∀ (s : State),
    (s.nextWrite = none → exec .homeWritePerform s = .next s) ∧
    (∀ w : HomeWrite, s.nextWrite = some w → (KMap.keys w.bytes).Nodup →
      ∃ s', exec .homeWritePerform s = .next s' ∧ w ∈ s.writes ∧ w.wct ≤ s.dtime ∧ s'.writes = s.writes.erase w ∧
        (∀ v ∈ s.writes, w.rank ≤ v.rank ∨ s.dtime < v.wct) ∧ (∀ p ∈ w.bytes, memRead s'.mem p.1 = p.2) ∧
        (∀ k, (∀ p ∈ w.bytes, p.1 ≠ k) → memRead s'.mem k = memRead s.mem k) ∧ s'.tasks = s.tasks ∧ s'.cores = s.cores ∧
        (w.core ≠ 576 → w.line ∉ s'.hostLines) ∧ (s'.home w.line).near = [] ∧
        (s'.home w.line).wct = (if w.commit then max (s.home w.line).wct w.wct else (s.home w.line).wct)) ∧
    (∀ core line : Nat, ∃ s', exec (.l1Eviction core line) s = .next s' ∧ KMap.get? line (s'.core core).l1 = none ∧
      s'.mem = s.mem ∧
      (s.lineParts line = [] → (s.l1 core line).dirty = [] → s'.writes = s.writes) ∧
      (s.lineParts line = [] → (s.l1 core line).dirty ≠ [] → ∃ w, s'.writes = s.writes ++ [w] ∧ w.line = line ∧
        s.dtime ≤ w.wct ∧ w.bytes = (s.l1 core line).dirty.map fun p => (line * 128 + p.1, p.2.byte))) ∧
    (∀ (n i core : Nat) (c : Ctx) (h : Incumbent), s.ctx? n = some c → KMap.get? i c.incs = some h →
      let u := s.incCopy core n i
      ∃ s', exec (.incumbentPropagate n i core) s = .next s' ∧
        KMap.get? (n * 16 + i) (s'.core core).incs =
          some (if (if c.isMax i then u.ult h.value else h.value.ult u) then h.value else u) ∧
        s'.tasks = s.tasks ∧ s'.ctxs = s.ctxs ∧ s'.mem = s.mem) ∧
    (∀ (a : Nat) (tk : Task), s.task? a = some tk →
      (tk.resident = true → ∃ s', exec (.softError (.own a)) s = .next s' ∧
        s'.task? a = some (tk.halt ⟨.relaunch 0x0014 0, none, 0, 0, 0, 0, false⟩) ∧ { s' with tasks := s.tasks } = s) ∧
      (tk.resident = false → exec (.softError (.own a)) s = .next s)) ∧
    (∀ l : Nat, ∃ s', exec (.softError (.line l)) s = .next s' ∧ l ∈ s'.poison ∧ (∀ x, x ≠ l → (x ∈ s'.poison ↔ x ∈ s.poison)) ∧
      { s' with poison := s.poison } = s) ∧
    exec (.softError .corrected) s = .next { s with regs := { s.regs with corrected := s.regs.corrected + 1 } } ∧
    (∀ r : RemoteReq, s.regs.serves = true → r.src = s.regs.peerid → s.ownRequest r false = true →
      let rest := s.agenda.filter fun e => e ≠ .remoteRequestArrival r
      exec (.softError (.answer r false)) s = .next { s with agenda := rest ++ [.remoteResponse r.tag (.poisoned 4) false] }) ∧
    (∀ r : RemoteReq, s.regs.serves = true → r.src ≠ s.regs.peerid → s.linked = true → KMap.get? (replayKey r.src r.tag) s.replay = none →
      ∃ s', exec (.softError (.answer r false)) s = .next s' ∧ s'.sent = s.sent ++ [.response r.src r.tag (.poisoned 4) false] ∧
        s'.tasks = s.tasks ∧ s'.mem = s.mem ∧ s'.writes = s.writes)

/-! ## The machine as a whole -/

/-- R47 to R49, R51, R52, R68, R305: a step runs the decoded instruction. Where one path alone may move, the threads on it issue the
instruction that the word at their program counter decodes to, charged one issue slot unless all of them have waited there
already; the packet comes from the homes of its bytes; and what exec answers is closed by the instruction boundary or the next
word of the chain.
That a packet is kept while its thread stands in it, that each word is a step, which issue is charged, the fetch from the homes,
and the lists of what has waited to move are the model's reading or choice (log entries 7, 8, 39, 40, 42, 92, 94). -/
def Obligations.StepRunsDecoded : Prop :=
  ∀ (s : State),
    (∀ i t, s.pick = (some i, t) →
      step s = (match exec i t with
        | .next u => (match u.close.hole with
          | some k => .fault (.noSuchAddress k)
          | none => .next u.close)
        | .fault f => .fault f
        | .refused r => .refused r)) ∧
    (∀ (a : Nat) (q : Path) (tk : Task) (s1 : State) (p : Packet) (i : Instr), s.issue.lanes = [] → s.turns = [.issue a q] →
      s.task? a = some tk → q.at'.rep = none →
      let x : Turn := .issue a q
      let sa : State := { s with turn := s.turn + 1, asked := if s.asked.contains x then s.asked else s.asked ++ [x] }
      let ts := sa.together tk (sa.onPath tk q)
      let sb : State := { sa with asked := if ts = sa.onPath tk q then sa.asked.erase x else sa.asked }.drew
      (q.at'.pkt = some p ∧ s1 = sb ∨
        q.at'.pkt = none ∧ q.at'.pc.toNat < 72057594037927936 ∧ sb.fetch tk (q.at'.pc.toNat / 12 * 12) = .got s1 p) →
      let pc := q.at'.pc
      let w := p.ws.getD (pc.toNat % 12 / 4) 0
      let more := fC w && fMaj w ≠ 0x03
      let first := usesSlot i && ts.any fun t => ((s1.thread? a t).map fun th => th.kept.isNone && th.waitFor.isNone).getD false
      ts ≠ [] → (∀ t ∈ ts, ∃ th, KMap.get? t tk.threads = some th ∧
        enterFault ((tk.seen th).chainRegs th) p.ws (pc.toNat % 12 / 4) pc.toNat = none) → decode w = .ok i →
      s.pick = (some i, { ((if first then s1.charge a q.core else s1).updLanes a ts fun th =>
        { (if more then th.mark tk s.dtime else th) with pkt := some p, stallTo := none }) with issue := ⟨a, ts, pc, more⟩ })) ∧
    (∀ (t : Nat) (ts : List Nat) (th : Thread) (p : Packet) (i : Instr), s.issue.lanes = t :: ts →
      s.thread? s.issue.accn t = some th → th.rep = none → th.pkt = some p → p.addr = th.pc.toNat / 12 * 12 →
      let w := p.ws.getD (th.pc.toNat % 12 / 4) 0
      decode w = .ok i →
      s.pick = (some i, { s with issue := { s.issue with more := fC w && fMaj w ≠ 0x03 } })) ∧
    (∀ (tk : Task) (x : Nat) (ks : List Nat) (xs : List (Nat × Xlate)), x + 12 ≤ 72057594037927936 →
      s.keysOf tk.ctx ⟨false, false, true⟩ x 12 = .ok (ks, xs) → s.poisoned ks = false → ks.any isReg = false →
      s.copied ((ks.map Machine.lineOf).eraseDups) = none →
      ∃ s1, s.fetch tk x = .got s1 ⟨x, wordsOfBytes (ks.map s.homeByte)⟩ ∧ s1.tasks = s.tasks ∧ s1.mem = s.mem)

/-- R55, R62: words written out from the encoding tables decode to the instructions that they stand for.
That 0x80000000 is an illegal instruction, against the row of NOP in the opcode table, is the model's reading (log entry 10). -/
def Obligations.DecodingWords : Prop :=
  decode 0x08420C20 = .ok (.iadd ⟨false, 1, 2, 3, 2, false⟩) ∧
  decode 0x88420C28 = .ok (.iadd ⟨true, 1, 2, 3, 2, true⟩) ∧
  decode 0x0C010BFF = .ok (.iaddImm ⟨false, 0, 1, 2, 0x3FF⟩) ∧
  decode 0x061E0000 = .ok (.rep ⟨3, 6, 0, 0, 0⟩) ∧
  decode 0x221388C2 = .ok (.sadd ⟨false, 9, 196, 97⟩) ∧
  decode 0x78000050 = .ok (.trap 5) ∧
  decode 0x78280003 = .ok (.tsave 40 false) ∧
  decode 0x78000001 = .ok .eret ∧
  decode 0x00000001 = .ok (.exit 0) ∧
  decode 0x00000000 = .ok (.nop false) ∧
  decode 0x80000000 = .error .illegalInstruction ∧
  decode 0x00000007 = .error .illegalInstruction ∧
  decode 0x82000000 = .error .illegalChain ∧
  decode 0x00400000 = .error .guardMisuse ∧
  decode 0x78290003 = .error .illegalOperand

/-- R15, R317, R414: after reset DTIME is 0, the accession counter is 1, LEVEL is 0, no context is active and no task is in the table;
memory lists nothing and is in canonical form.
That an unlisted byte reads 0x00, and that no context is active and no task stands in the table, is the model's choice (log
entries 1, 2). -/
def Obligations.ResetState : Prop :=
  State.reset.dtime = 0 ∧ State.reset.accn = 1 ∧ State.reset.regs.level = 0 ∧ (∀ n, State.reset.ctx? n = none) ∧
    (∀ a, State.reset.task? a = none) ∧ (∀ k, memRead State.reset.mem k = 0) ∧ Inv State.reset

/-- R55 to R64: decoding the word of a well-formed instruction gives the instruction, and every word that decodes is the word of the
well-formed instruction it decodes to. -/
def Obligations.RoundTrip : Prop :=
  (∀ (i : Instr) (w : Word), i.wf = true → encode i = some w → decode w = .ok i) ∧
  (∀ (w : Word) (i : Instr), decode w = .ok i → i.wf = true ∧ encode i = some w)

/-- R110, R116: every step keeps memory in its canonical form, so that equal memories are equal data.
The canonical form is the model's own way of keeping memory (log entry 1). -/
def Obligations.InvKept : Prop :=
  ∀ s s' : State, Inv s → step s = .next s' → Inv s'
end

