-- ==== Sys2Proof/Laws/Encoding.lean ====
section
/-!
SUPPORT. The fields of a packed word: every field that a format packs is read back from the same bits (R55).
-/

namespace Sys2Proof

/-! ## VR -/

section VR
variable (c : Bool) (maj : Nat) (g : BitVec 3) (d a b : BitVec 6) (x : Nat)

theorem packVR_toNat (hm : maj < 64) (hx : x < 16) : (packVR c maj g d a b x).toNat =
    c.toNat * 2 ^ 31 + maj * 2 ^ 25 + g.toNat * 2 ^ 22 + d.toNat * 2 ^ 16 + a.toNat * 2 ^ 10 + b.toNat * 2 ^ 4 + x := by
  have := c.toNat_le; have := g.isLt; have := d.isLt; have := a.isLt; have := b.isLt
  simp only [packVR, BitVec.toNat_ofNat]
  omega

theorem bitsOf_packVR (hm : maj < 64) (hx : x < 16) :
    fMaj (packVR c maj g d a b x) = maj ∧ bitsOf (packVR c maj g d a b x) 31 1 = c.toNat ∧
      bitsOf (packVR c maj g d a b x) 22 3 = g.toNat ∧ bitsOf (packVR c maj g d a b x) 16 6 = d.toNat ∧
      bitsOf (packVR c maj g d a b x) 10 6 = a.toNat ∧ bitsOf (packVR c maj g d a b x) 4 6 = b.toNat ∧
      fX (packVR c maj g d a b x) = x := by
  have := c.toNat_le; have := g.isLt; have := d.isLt; have := a.isLt; have := b.isLt
  simp only [fMaj, fX, bitsOf, packVR_toNat c maj g d a b x hm hx]
  refine ⟨?_, ?_, ?_, ?_, ?_, ?_, ?_⟩ <;> omega

theorem fMaj_packVR (hm : maj < 64) (hx : x < 16) : fMaj (packVR c maj g d a b x) = maj := (bitsOf_packVR c maj g d a b x hm hx).1
theorem fX_packVR (hm : maj < 64) (hx : x < 16) : fX (packVR c maj g d a b x) = x := (bitsOf_packVR c maj g d a b x hm hx).2.2.2.2.2.2
theorem fC_packVR (hm : maj < 64) (hx : x < 16) : fC (packVR c maj g d a b x) = c := by
  rw [fC, (bitsOf_packVR c maj g d a b x hm hx).2.1]; cases c <;> rfl
theorem fG_packVR (hm : maj < 64) (hx : x < 16) : fG (packVR c maj g d a b x) = g := by
  rw [fG, (bitsOf_packVR c maj g d a b x hm hx).2.2.1]; simp
theorem fD_packVR (hm : maj < 64) (hx : x < 16) : fD (packVR c maj g d a b x) = d := by
  rw [fD, (bitsOf_packVR c maj g d a b x hm hx).2.2.2.1]; simp
theorem fA_packVR (hm : maj < 64) (hx : x < 16) : fA (packVR c maj g d a b x) = a := by
  rw [fA, (bitsOf_packVR c maj g d a b x hm hx).2.2.2.2.1]; simp
theorem fB_packVR (hm : maj < 64) (hx : x < 16) : fB (packVR c maj g d a b x) = b := by
  rw [fB, (bitsOf_packVR c maj g d a b x hm hx).2.2.2.2.2.1]; simp

end VR

/-! ## VI, SR, SI, MEM, BR, MX, REP -/

theorem packVI_toNat (c : Bool) (maj : Nat) (g : BitVec 3) (d a : BitVec 6) (i : Nat) (hm : maj < 64) (hi : i < 1024) :
    (packVI c maj g d a i).toNat =
      c.toNat * 2 ^ 31 + maj * 2 ^ 25 + g.toNat * 2 ^ 22 + d.toNat * 2 ^ 16 + a.toNat * 2 ^ 10 + i := by
  have := c.toNat_le; have := g.isLt; have := d.isLt; have := a.isLt
  simp only [packVI, BitVec.toNat_ofNat]
  omega

theorem bitsOf_packVI (c : Bool) (maj : Nat) (g : BitVec 3) (d a : BitVec 6) (i : Nat) (hm : maj < 64) (hi : i < 1024) :
    fMaj (packVI c maj g d a i) = maj ∧ bitsOf (packVI c maj g d a i) 31 1 = c.toNat ∧
      bitsOf (packVI c maj g d a i) 22 3 = g.toNat ∧ bitsOf (packVI c maj g d a i) 16 6 = d.toNat ∧
      bitsOf (packVI c maj g d a i) 10 6 = a.toNat ∧ bitsOf (packVI c maj g d a i) 0 10 = i := by
  have := c.toNat_le; have := g.isLt; have := d.isLt; have := a.isLt
  simp only [fMaj, bitsOf, packVI_toNat c maj g d a i hm hi]
  refine ⟨?_, ?_, ?_, ?_, ?_, ?_⟩ <;> omega

theorem packSR_toNat (c : Bool) (maj : Nat) (d a b : BitVec 8) (x : Nat) (hm : maj < 64) (hx : x < 2) :
    (packSR c maj d a b x).toNat = c.toNat * 2 ^ 31 + maj * 2 ^ 25 + d.toNat * 2 ^ 17 + a.toNat * 2 ^ 9 + b.toNat * 2 + x := by
  have := c.toNat_le; have := d.isLt; have := a.isLt; have := b.isLt
  simp only [packSR, BitVec.toNat_ofNat]
  omega

theorem bitsOf_packSR (c : Bool) (maj : Nat) (d a b : BitVec 8) (x : Nat) (hm : maj < 64) (hx : x < 2) :
    fMaj (packSR c maj d a b x) = maj ∧ bitsOf (packSR c maj d a b x) 31 1 = c.toNat ∧
      bitsOf (packSR c maj d a b x) 17 8 = d.toNat ∧ bitsOf (packSR c maj d a b x) 9 8 = a.toNat ∧
      bitsOf (packSR c maj d a b x) 1 8 = b.toNat ∧ bitsOf (packSR c maj d a b x) 0 1 = x := by
  have := c.toNat_le; have := d.isLt; have := a.isLt; have := b.isLt
  simp only [fMaj, bitsOf, packSR_toNat c maj d a b x hm hx]
  refine ⟨?_, ?_, ?_, ?_, ?_, ?_⟩ <;> omega

theorem packSI_toNat (c : Bool) (maj : Nat) (d : BitVec 8) (i : BitVec 17) (hm : maj < 64) :
    (packSI c maj d i).toNat = c.toNat * 2 ^ 31 + maj * 2 ^ 25 + d.toNat * 2 ^ 17 + i.toNat := by
  have := c.toNat_le; have := d.isLt; have := i.isLt
  simp only [packSI, BitVec.toNat_ofNat]
  omega

theorem bitsOf_packSI (c : Bool) (maj : Nat) (d : BitVec 8) (i : BitVec 17) (hm : maj < 64) :
    fMaj (packSI c maj d i) = maj ∧ bitsOf (packSI c maj d i) 31 1 = c.toNat ∧ bitsOf (packSI c maj d i) 17 8 = d.toNat ∧
      bitsOf (packSI c maj d i) 0 17 = i.toNat := by
  have := c.toNat_le; have := d.isLt; have := i.isLt
  simp only [fMaj, bitsOf, packSI_toNat c maj d i hm]
  refine ⟨?_, ?_, ?_, ?_⟩ <;> omega

theorem packMEM_toNat (c : Bool) (maj : Nat) (g : BitVec 3) (d off : BitVec 6) (k : BitVec 5) (ord : BitVec 2) (x : Nat)
    (hm : maj < 64) (hx : x < 8) : (packMEM c maj g d off k ord x).toNat =
      c.toNat * 2 ^ 31 + maj * 2 ^ 25 + g.toNat * 2 ^ 22 + d.toNat * 2 ^ 16 + off.toNat * 2 ^ 10 + k.toNat * 2 ^ 5 +
        ord.toNat * 2 ^ 3 + x := by
  have := c.toNat_le; have := g.isLt; have := d.isLt; have := off.isLt; have := k.isLt; have := ord.isLt
  simp only [packMEM, BitVec.toNat_ofNat]
  omega

theorem bitsOf_packMEM (c : Bool) (maj : Nat) (g : BitVec 3) (d off : BitVec 6) (k : BitVec 5) (ord : BitVec 2) (x : Nat)
    (hm : maj < 64) (hx : x < 8) :
    fMaj (packMEM c maj g d off k ord x) = maj ∧ bitsOf (packMEM c maj g d off k ord x) 31 1 = c.toNat ∧
      bitsOf (packMEM c maj g d off k ord x) 22 3 = g.toNat ∧ bitsOf (packMEM c maj g d off k ord x) 16 6 = d.toNat ∧
      bitsOf (packMEM c maj g d off k ord x) 10 6 = off.toNat ∧ bitsOf (packMEM c maj g d off k ord x) 5 5 = k.toNat ∧
      bitsOf (packMEM c maj g d off k ord x) 3 2 = ord.toNat ∧ bitsOf (packMEM c maj g d off k ord x) 0 3 = x := by
  have := c.toNat_le; have := g.isLt; have := d.isLt; have := off.isLt; have := k.isLt; have := ord.isLt
  simp only [fMaj, bitsOf, packMEM_toNat c maj g d off k ord x hm hx]
  refine ⟨?_, ?_, ?_, ?_, ?_, ?_, ?_, ?_⟩ <;> omega

theorem packBR_toNat (maj : Nat) (g : BitVec 3) (d : BitVec 22) (hm : maj < 64) :
    (packBR maj g d).toNat = maj * 2 ^ 25 + g.toNat * 2 ^ 22 + d.toNat := by
  have := g.isLt; have := d.isLt
  simp only [packBR, BitVec.toNat_ofNat]
  omega

theorem bitsOf_packBR (maj : Nat) (g : BitVec 3) (d : BitVec 22) (hm : maj < 64) :
    fMaj (packBR maj g d) = maj ∧ bitsOf (packBR maj g d) 31 1 = 0 ∧ bitsOf (packBR maj g d) 22 3 = g.toNat ∧
      bitsOf (packBR maj g d) 0 22 = d.toNat := by
  have := g.isLt; have := d.isLt
  simp only [fMaj, bitsOf, packBR_toNat maj g d hm]
  refine ⟨?_, ?_, ?_, ?_⟩ <;> omega

theorem packMX_toNat (c : Bool) (maj : Nat) (v t o : BitVec 4) (i f : BitVec 6) (x : Nat) (hm : maj < 64) (hx : x < 2) :
    (packMX c maj v t o i f x).toNat = c.toNat * 2 ^ 31 + maj * 2 ^ 25 + v.toNat * 2 ^ 21 + t.toNat * 2 ^ 17 +
      o.toNat * 2 ^ 13 + i.toNat * 2 ^ 7 + f.toNat * 2 + x := by
  have := c.toNat_le; have := v.isLt; have := t.isLt; have := o.isLt; have := i.isLt; have := f.isLt
  simp only [packMX, BitVec.toNat_ofNat]
  omega

theorem bitsOf_packMX (c : Bool) (maj : Nat) (v t o : BitVec 4) (i f : BitVec 6) (x : Nat) (hm : maj < 64) (hx : x < 2) :
    fMaj (packMX c maj v t o i f x) = maj ∧ bitsOf (packMX c maj v t o i f x) 31 1 = c.toNat ∧
      bitsOf (packMX c maj v t o i f x) 21 4 = v.toNat ∧ bitsOf (packMX c maj v t o i f x) 17 4 = t.toNat ∧
      bitsOf (packMX c maj v t o i f x) 13 4 = o.toNat ∧ bitsOf (packMX c maj v t o i f x) 7 6 = i.toNat ∧
      bitsOf (packMX c maj v t o i f x) 1 6 = f.toNat ∧ bitsOf (packMX c maj v t o i f x) 0 1 = x := by
  have := c.toNat_le; have := v.isLt; have := t.isLt; have := o.isLt; have := i.isLt; have := f.isLt
  simp only [fMaj, bitsOf, packMX_toNat c maj v t o i f x hm hx]
  refine ⟨?_, ?_, ?_, ?_, ?_, ?_, ?_, ?_⟩ <;> omega

theorem packREP_toNat (o : RepOp) : (packREP o).toNat = 0x03 * 2 ^ 25 + o.n.toNat * 2 ^ 19 + o.s.toNat * 2 ^ 16 +
    o.d.toNat * 2 ^ 14 + o.a.toNat * 2 ^ 12 + o.b.toNat * 2 ^ 10 := by
  have := o.n.isLt; have := o.s.isLt; have := o.d.isLt; have := o.a.isLt; have := o.b.isLt
  simp only [packREP, BitVec.toNat_ofNat]
  omega

theorem bitsOf_packREP (o : RepOp) :
    fMaj (packREP o) = 0x03 ∧ bitsOf (packREP o) 31 1 = 0 ∧ bitsOf (packREP o) 19 6 = o.n.toNat ∧
      bitsOf (packREP o) 16 3 = o.s.toNat ∧ bitsOf (packREP o) 14 2 = o.d.toNat ∧ bitsOf (packREP o) 12 2 = o.a.toNat ∧
      bitsOf (packREP o) 10 2 = o.b.toNat ∧ bitsOf (packREP o) 0 10 = 0 := by
  have := o.n.isLt; have := o.s.isLt; have := o.d.isLt; have := o.a.isLt; have := o.b.isLt
  simp only [fMaj, bitsOf, packREP_toNat o]
  refine ⟨?_, ?_, ?_, ?_, ?_, ?_, ?_, ?_⟩ <;> omega

end Sys2Proof
end

