-- ==== Sys2Proof/Laws/Maps.lean ====
section
/-!
SUPPORT. Laws of keyed lists: what a read finds after a write, a removal or a change, and that the keys stay ascending.
-/

namespace Sys2Proof.KMap

variable {α : Type}

@[simp] theorem get?_nil (k : Nat) : get? k ([] : KMap α) = none := rfl

@[simp] theorem get?_put_self (k : Nat) (a : α) (m : KMap α) : get? k (put k a m) = some a := by
  induction m with
  | nil => simp [put, get?]
  | cons p m ih =>
    obtain ⟨j, b⟩ := p
    unfold put
    split
    · simp [get?]
    · split
      · simp [get?]
      · simp_all [get?]

theorem get?_put_ne {k j : Nat} (h : j ≠ k) (a : α) (m : KMap α) : get? j (put k a m) = get? j m := by
  induction m with
  | nil => simp [put, get?, Ne.symm h]
  | cons p m ih =>
    obtain ⟨i, b⟩ := p
    unfold put
    split
    · subst_vars; simp [get?, Ne.symm h]
    · split
      · simp [get?, Ne.symm h]
      · simp [get?, ih]

theorem get?_put (k j : Nat) (a : α) (m : KMap α) : get? j (put k a m) = if j = k then some a else get? j m := by
  split
  · subst_vars; simp
  · exact get?_put_ne ‹_› a m

@[simp] theorem get?_del_self (k : Nat) (m : KMap α) : get? k (del k m) = none := by
  induction m with
  | nil => rfl
  | cons p m ih =>
    obtain ⟨i, b⟩ := p
    unfold del
    split <;> simp_all [get?]

theorem get?_del_ne {k j : Nat} (h : j ≠ k) (m : KMap α) : get? j (del k m) = get? j m := by
  induction m with
  | nil => rfl
  | cons p m ih =>
    obtain ⟨i, b⟩ := p
    unfold del
    split
    · subst_vars; simp [get?, Ne.symm h, ih]
    · simp [get?, ih]

theorem get?_upd (k j : Nat) (f : α → α) (m : KMap α) :
    get? j (upd k f m) = if j = k then (get? k m).map f else get? j m := by
  induction m with
  | nil => simp [upd, get?]
  | cons p m ih =>
    obtain ⟨i, b⟩ := p
    unfold upd
    split
    · subst_vars
      split
      · subst_vars; simp [get?]
      · rename_i h; simp [get?, Ne.symm h]
    · rename_i h
      simp only [get?, ih, h, if_false]
      split <;> split <;> simp_all

@[simp] theorem get?_upd_self (k : Nat) (f : α → α) (m : KMap α) : get? k (upd k f m) = (get? k m).map f := by
  simp [get?_upd]

theorem get?_upd_ne {k j : Nat} (h : j ≠ k) (f : α → α) (m : KMap α) : get? j (upd k f m) = get? j m := by
  simp [get?_upd, h]

@[simp] theorem get?_mapAll (k : Nat) (f : α → α) (m : KMap α) : get? k (mapAll f m) = (get? k m).map f := by
  induction m with
  | nil => rfl
  | cons p m ih =>
    obtain ⟨i, b⟩ := p
    simp only [mapAll, List.map_cons, get?] at ih ⊢
    split
    · rfl
    · exact ih

@[simp] theorem getD_put_self (k : Nat) (a d : α) (m : KMap α) : getD k d (put k a m) = a := by simp [getD]
theorem getD_put_ne {k j : Nat} (h : j ≠ k) (a d : α) (m : KMap α) : getD j d (put k a m) = getD j d m := by
  simp [getD, get?_put_ne h]

/-- Changing the data at a key to what it is already is no change. -/
theorem upd_upd (k : Nat) (f g : α → α) (m : KMap α) : upd k g (upd k f m) = upd k (g ∘ f) m := by
  induction m with
  | nil => rfl
  | cons p m ih =>
    obtain ⟨i, b⟩ := p
    by_cases h : i = k <;> simp [upd, h, ih]

/-! ## Ascending keys -/

theorem ascending_cons (j : Nat) (b : α) (m : KMap α) :
    ascending ((j, b) :: m) = true ↔ (∀ p ∈ m, j < p.1) ∧ ascending m = true := by
  simp [ascending, List.all_eq_true]

theorem mem_put {k : Nat} {a : α} {m : KMap α} {p : Nat × α} (h : p ∈ put k a m) : p = (k, a) ∨ p ∈ m := by
  induction m with
  | nil => simpa [put] using h
  | cons q m ih =>
    obtain ⟨i, b⟩ := q
    unfold put at h
    split at h
    · rcases List.mem_cons.1 h with h | h
      · exact .inl h
      · exact .inr (List.mem_cons_of_mem _ h)
    · split at h
      · simpa using h
      · rcases List.mem_cons.1 h with h | h
        · exact .inr (h ▸ List.mem_cons_self)
        · rcases ih h with h | h
          · exact .inl h
          · exact .inr (List.mem_cons_of_mem _ h)

theorem mem_of_mem_del {k : Nat} {m : KMap α} {p : Nat × α} (h : p ∈ del k m) : p ∈ m := by
  induction m with
  | nil => simp [del] at h
  | cons q m ih =>
    obtain ⟨i, b⟩ := q
    unfold del at h
    split at h
    · exact List.mem_cons_of_mem _ (ih h)
    · rcases List.mem_cons.1 h with h | h
      · exact h ▸ List.mem_cons_self
      · exact List.mem_cons_of_mem _ (ih h)

theorem ascending_put (k : Nat) (a : α) (m : KMap α) (h : ascending m = true) : ascending (put k a m) = true := by
  induction m with
  | nil => rfl
  | cons q m ih =>
    obtain ⟨i, b⟩ := q
    have hc := (ascending_cons i b m).1 h
    unfold put
    split
    · subst_vars; exact (ascending_cons _ _ _).2 hc
    · split
      · refine (ascending_cons _ _ _).2 ⟨?_, h⟩
        intro p hp
        rcases List.mem_cons.1 hp with rfl | hp
        · assumption
        · have := hc.1 p hp; omega
      · refine (ascending_cons _ _ _).2 ⟨?_, ih hc.2⟩
        intro p hp
        rcases mem_put hp with rfl | hp
        · simp only; omega
        · exact hc.1 p hp

theorem ascending_del (k : Nat) (m : KMap α) (h : ascending m = true) : ascending (del k m) = true := by
  induction m with
  | nil => rfl
  | cons q m ih =>
    obtain ⟨i, b⟩ := q
    have hc := (ascending_cons i b m).1 h
    unfold del
    split
    · exact ih hc.2
    · exact (ascending_cons _ _ _).2 ⟨fun p hp => hc.1 p (mem_of_mem_del hp), ih hc.2⟩

end Sys2Proof.KMap
end

