-- ==== Sys2Proof/Laws/Memory.lean ====
section
/-!
SUPPORT. Laws of memory: a read after a write to the same place gives the value written, a write leaves every other place
alone, and every write keeps the canonical form.
-/

namespace Sys2Proof.Machine

@[simp] theorem memRead_memWrite_self (m : Memory) (k : Nat) (b : Byte) : memRead (memWrite m k b) k = b := by
  unfold memRead memWrite KMap.getD
  split <;> simp_all

theorem memRead_memWrite_ne (m : Memory) {k j : Nat} (h : j ≠ k) (b : Byte) : memRead (memWrite m k b) j = memRead m j := by
  unfold memRead memWrite KMap.getD
  split
  · rw [KMap.get?_del_ne h]
  · rw [KMap.get?_put_ne h]

theorem memRead_memWriteAll_ne (bs : KMap Byte) (m : Memory) (j : Nat) (h : ∀ p ∈ bs, p.1 ≠ j) :
    memRead (memWriteAll m bs) j = memRead m j := by
  induction bs generalizing m with
  | nil => rfl
  | cons p bs ih =>
    have := ih (memWrite m p.1 p.2) fun q hq => h q (List.mem_cons_of_mem _ hq)
    simp only [memWriteAll, List.foldl_cons] at this ⊢
    rw [this, memRead_memWrite_ne m (Ne.symm (h p List.mem_cons_self))]

theorem Memory.wf_iff (m : Memory) : Memory.wf m = true ↔ KMap.ascending m = true ∧ ∀ p ∈ m, p.2 ≠ 0 := by
  simp [Memory.wf, List.all_eq_true]

theorem Memory.wf_memWrite (m : Memory) (k : Nat) (b : Byte) (h : Memory.wf m = true) : Memory.wf (memWrite m k b) = true := by
  rw [Memory.wf_iff] at h ⊢
  unfold memWrite
  split
  · exact ⟨KMap.ascending_del k m h.1, fun p hp => h.2 p (KMap.mem_of_mem_del hp)⟩
  · refine ⟨KMap.ascending_put k b m h.1, fun p hp => ?_⟩
    rcases KMap.mem_put hp with rfl | hp
    · assumption
    · exact h.2 p hp

theorem Memory.wf_memWriteAll (bs : KMap Byte) (m : Memory) (h : Memory.wf m = true) :
    Memory.wf (memWriteAll m bs) = true := by
  induction bs generalizing m with
  | nil => exact h
  | cons p bs ih =>
    simp only [memWriteAll, List.foldl_cons] at ih ⊢
    exact ih _ (Memory.wf_memWrite m p.1 p.2 h)

theorem Memory.wf_nil : Memory.wf [] = true := rfl

/-- Two canonical memories that read alike at every key are equal. -/
theorem Memory.ext_wf (m n : Memory) (hm : Memory.wf m = true) (hn : Memory.wf n = true)
    (h : ∀ k, memRead m k = memRead n k) : m = n := by
  have some_of_mem : ∀ (m : Memory), Memory.wf m = true → ∀ p ∈ m, KMap.get? p.1 m = some p.2 := by
    intro m
    induction m with
    | nil => intro _ p hp; cases hp
    | cons q m ih =>
      obtain ⟨j, b⟩ := q
      intro hw p hp
      rw [Memory.wf_iff] at hw
      have hc := (KMap.ascending_cons j b m).1 hw.1
      rcases List.mem_cons.1 hp with rfl | hp
      · simp [KMap.get?]
      · have hlt := hc.1 p hp
        have : KMap.get? p.1 m = some p.2 :=
          ih ((Memory.wf_iff m).2 ⟨hc.2, fun q hq => hw.2 q (List.mem_cons_of_mem _ hq)⟩) p hp
        simp [KMap.get?, Nat.ne_of_lt hlt, this]
  have none_of_lt : ∀ (m : Memory) (k : Nat), (∀ p ∈ m, k < p.1) → KMap.get? k m = none := by
    intro m k
    induction m with
    | nil => intro _; rfl
    | cons q m ih =>
      intro hk
      have h1 := hk q List.mem_cons_self
      have h2 : ¬ q.1 = k := by omega
      show (if q.1 = k then some q.2 else KMap.get? k m) = none
      rw [if_neg h2]
      exact ih fun p hp => hk p (List.mem_cons_of_mem _ hp)
  induction m generalizing n with
  | nil =>
    cases n with
    | nil => rfl
    | cons p n =>
      have := h p.1
      have hs := some_of_mem _ hn p List.mem_cons_self
      have hz := ((Memory.wf_iff _).1 hn).2 p List.mem_cons_self
      simp [memRead, KMap.getD, hs] at this
      exact absurd this.symm hz
  | cons p m ih =>
    cases n with
    | nil =>
      have := h p.1
      have hs := some_of_mem _ hm p List.mem_cons_self
      have hz := ((Memory.wf_iff _).1 hm).2 p List.mem_cons_self
      simp [memRead, KMap.getD, hs] at this
      exact absurd this hz
    | cons q n =>
      have hmw := (Memory.wf_iff _).1 hm
      have hnw := (Memory.wf_iff _).1 hn
      have hmc := (KMap.ascending_cons p.1 p.2 m).1 hmw.1
      have hnc := (KMap.ascending_cons q.1 q.2 n).1 hnw.1
      have hp := some_of_mem _ hm p List.mem_cons_self
      have hq := some_of_mem _ hn q List.mem_cons_self
      have key : p.1 = q.1 := by
        rcases Nat.lt_trichotomy p.1 q.1 with hl | he | hl
        · have hnone : KMap.get? p.1 (q :: n) = none := none_of_lt _ _ fun r hr => by
            rcases List.mem_cons.1 hr with rfl | hr
            · exact hl
            · exact Nat.lt_trans hl (hnc.1 r hr)
          have := h p.1
          simp only [memRead, KMap.getD, hp, hnone] at this
          exact absurd this (hmw.2 p List.mem_cons_self)
        · exact he
        · have hnone : KMap.get? q.1 (p :: m) = none := none_of_lt _ _ fun r hr => by
            rcases List.mem_cons.1 hr with rfl | hr
            · exact hl
            · exact Nat.lt_trans hl (hmc.1 r hr)
          have := h q.1
          simp only [memRead, KMap.getD, hq, hnone] at this
          exact absurd this.symm (hnw.2 q List.mem_cons_self)
      have val : p.2 = q.2 := by
        have := h p.1
        rw [key] at hp
        simp only [memRead, KMap.getD, key, hp, hq] at this
        simpa using this
      have hpq : p = q := Prod.ext key val
      subst hpq
      congr 1
      apply ih
      · exact (Memory.wf_iff _).2 ⟨hmc.2, fun r hr => hmw.2 r (List.mem_cons_of_mem _ hr)⟩
      · exact (Memory.wf_iff _).2 ⟨hnc.2, fun r hr => hnw.2 r (List.mem_cons_of_mem _ hr)⟩
      · intro k
        by_cases hk : p.1 = k
        · have a := none_of_lt m k fun r hr => hk ▸ hmc.1 r hr
          have b := none_of_lt n k fun r hr => hk ▸ hnc.1 r hr
          simp [memRead, KMap.getD, a, b]
        · have := h k
          simpa [memRead, KMap.getD, KMap.get?, hk] using this

/-- Memory after reset is in canonical form. -/
theorem State.reset_mem_wf : Memory.wf State.reset.mem = true := rfl

end Sys2Proof.Machine
end

