-- ==== Sys2Proof/Laws/PerInstr.lean ====
section
/-!
SUPPORT. Family Major: the word of an instruction has the major of its row in the opcode map (R62), one lemma for each
constructor; an event has no word.
-/

namespace Sys2Proof.Laws.Major

/-- The major of an instruction's row in R62; 0 for an event. -/
def row : Instr → Nat
  | .nop _ => 0x00
  | .exit _ => 0x00
  | .ret _ _ => 0x00
  | .brk _ _ _ => 0x00
  | .sysrd _ => 0x00
  | .syswr _ => 0x00
  | .brx _ _ => 0x00
  | .bra _ _ => 0x01
  | .call _ _ => 0x02
  | .rep _ => 0x03
  | .iadd _ => 0x04
  | .isub _ => 0x04
  | .imul _ => 0x04
  | .imulhS32 _ => 0x04
  | .imulhN32 _ => 0x04
  | .imad _ => 0x04
  | .lea _ => 0x04
  | .imin _ => 0x05
  | .imax _ => 0x05
  | .iabs _ => 0x05
  | .ineg _ => 0x05
  | .mov _ => 0x05
  | .iaddImm _ => 0x06
  | .andImm _ => 0x07
  | .orImm _ => 0x08
  | .xorImm _ => 0x09
  | .shlImm _ => 0x0A
  | .shrImm _ => 0x0A
  | .sarImm _ => 0x0A
  | .rotlImm _ => 0x0A
  | .movi _ => 0x0B
  | .and _ => 0x0C
  | .or _ => 0x0C
  | .xor _ => 0x0C
  | .andn _ => 0x0C
  | .not _ => 0x0C
  | .popc _ => 0x0C
  | .clz _ => 0x0C
  | .brev _ => 0x0C
  | .shl _ => 0x0D
  | .shr _ => 0x0D
  | .sar _ => 0x0D
  | .rotl _ => 0x0D
  | .bfx _ => 0x0D
  | .bfi _ => 0x0D
  | .icmp _ => 0x0E
  | .sel _ => 0x0F
  | .pand _ => 0x10
  | .por _ => 0x10
  | .pxor _ => 0x10
  | .pnot _ => 0x10
  | .pmov _ => 0x10
  | .sadd _ => 0x11
  | .ssub _ => 0x11
  | .smul _ => 0x12
  | .scmp _ => 0x12
  | .smin _ => 0x13
  | .smax _ => 0x13
  | .sand _ => 0x14
  | .sor _ => 0x14
  | .sxor _ => 0x15
  | .sshl _ => 0x15
  | .sshr _ => 0x16
  | .ssar _ => 0x16
  | .smovi _ => 0x17
  | .smovh _ => 0x18
  | .fadd _ => 0x19
  | .fsub _ => 0x1A
  | .fmul _ => 0x1B
  | .ffma _ => 0x1C
  | .fdiv _ => 0x1D
  | .fmin _ => 0x1E
  | .fmax _ => 0x1E
  | .fsqrt _ => 0x1F
  | .frcp _ => 0x1F
  | .frsq _ => 0x1F
  | .frnd _ => 0x1F
  | .fcmp _ => 0x20
  | .fcvt _ => 0x21
  | .badd2 _ => 0x22
  | .bmul2 _ => 0x22
  | .bfma2 _ => 0x22
  | .fex2 _ => 0x23
  | .flg2 _ => 0x23
  | .fsin _ => 0x23
  | .fcos _ => 0x23
  | .perm _ => 0x24
  | .bcast _ => 0x25
  | .laneq _ => 0x25
  | .vote _ => 0x25
  | .rng _ => 0x25
  | .lred _ => 0x26
  | .lscan _ => 0x26
  | .ld _ => 0x27
  | .st _ => 0x28
  | .lds _ => 0x29
  | .sts _ => 0x2A
  | .ldp _ => 0x2B
  | .stp _ => 0x2C
  | .atom _ => 0x2D
  | .cas _ => 0x2E
  | .cas2 _ => 0x2F
  | .mcas _ => 0x2F
  | .red _ => 0x30
  | .ldsum _ => 0x31
  | .enq _ => 0x32
  | .chase _ => 0x32
  | .cpy _ => 0x33
  | .gath _ => 0x33
  | .scat _ => 0x33
  | .waitc _ => 0x33
  | .fence _ => 0x34
  | .flush _ => 0x34
  | .invl _ => 0x34
  | .pf _ => 0x34
  | .waitln _ => 0x34
  | .mma _ => 0x35
  | .mxp _ => 0x36
  | .mrp _ => 0x36
  | .mrr _ => 0x37
  | .madd _ => 0x37
  | .mld _ => 0x38
  | .mst _ => 0x38
  | .mbind _ => 0x39
  | .mfill _ => 0x39
  | .optab _ => 0x39
  | .cbld _ => 0x39
  | .scld _ => 0x39
  | .mqry _ => 0x39
  | .spawn _ => 0x3A
  | .reform => 0x3A
  | .yield => 0x3A
  | .bar _ => 0x3A
  | .bara _ => 0x3A
  | .barw _ => 0x3A
  | .waitev _ => 0x3A
  | .bound _ => 0x3A
  | .incset _ => 0x3A
  | .incget _ => 0x3A
  | .xacq _ => 0x3A
  | .xrel _ => 0x3A
  | .commit => 0x3A
  | .lkreq _ => 0x3B
  | .lktry _ => 0x3B
  | .lkupg _ => 0x3B
  | .lkrel _ => 0x3B
  | .lkrela _ => 0x3B
  | .lkqry _ => 0x3B
  | .cmtx _ => 0x3B
  | .trap _ => 0x3C
  | .eret => 0x3C
  | .abort _ _ => 0x3C
  | .tsave _ _ => 0x3C
  | .ctxActivate _ _ => 0
  | .ctxRetire _ => 0
  | .translationInvalidate _ _ _ => 0
  | .shootDown _ _ => 0
  | .serviceFull => 0
  | .stopAllOn _ => 0
  | .stopAllOff _ => 0
  | .debugResume _ _ => 0
  | .registerWrite _ _ => 0
  | .hostStore _ _ => 0
  | .hostLoad _ _ => 0
  | .hostLineInvalidate _ _ => 0
  | .attestationRequest => 0
  | .remoteRequestArrival _ => 0
  | .remotePostedStore _ => 0
  | .remoteResponse _ _ _ => 0
  | .postedAck _ _ => 0
  | .shootdownReceive _ _ => 0
  | .shootdownAnswer _ => 0
  | .federationValue _ _ _ _ => 0
  | .keySwitchMarker _ => 0
  | .keySlotLoad _ _ _ => 0
  | .flitAuthFailure _ => 0
  | .nonceCountExhausted _ => 0
  | .remoteRetry _ => 0
  | .remoteTimeout _ => 0
  | .postedStoreTimeout _ => 0
  | .replayResultExpire _ _ => 0
  | .watchdog _ _ => 0
  | .drawerAging _ _ _ => 0
  | .recordReservation _ _ => 0
  | .queueScan _ => 0
  | .epochEnd => 0
  | .residentDominationTest => 0
  | .matrixHoldExpire _ => 0
  | .recordEligible _ => 0
  | .taskPlacement _ => 0
  | .stealRequest _ _ => 0
  | .squadEvict _ _ => 0
  | .squadRestore _ _ => 0
  | .cancellation _ => 0
  | .wound _ => 0
  | .taskCommit _ => 0
  | .deterministicTurn _ => 0
  | .homeWritePerform => 0
  | .l1Eviction _ _ => 0
  | .incumbentPropagate _ _ _ => 0
  | .lockGrant _ => 0
  | .resourceGrant _ => 0
  | .engineRetire _ => 0
  | .matrixPass _ => 0
  | .matrixRetire _ _ => 0
  | .barrierComplete _ _ _ => 0
  | .waitlnWake _ _ => 0
  | .waitevWake _ _ => 0
  | .softError _ => 0
  | .powerOn _ _ _ _ => 0
  | .thermalThrottle => 0
  | .thermalShutdown => 0
  | .illegalInstruction _ _ => 0
  | .removalByTheSupervisor _ => 0
  | .trainingComplete _ => 0

/-- The word of the instruction has that major. -/
def Statement (i : Instr) : Prop := ∀ w, encode i = some w → fMaj w = row i

theorem of_some {w : Word} {i : Instr} (h : encode i = some w) (hw : fMaj w = row i) : Statement i := fun v hv => by
  rw [h] at hv
  exact Option.some.inj hv ▸ hw

theorem of_none {i : Instr} (h : encode i = none) : Statement i := fun v hv => by
  rw [h] at hv
  cases hv

theorem xSb_lt (sb : Bool) (k : Nat) (h : k < 8) : xSb sb k < 16 := by
  have := sb.toNat_le
  unfold xSb
  omega

theorem nop (c : Bool) : Statement (.nop c) := of_some rfl (fMaj_packVR _ _ _ _ _ _ _ (by omega) (by omega))
theorem exit (g : BitVec 3) : Statement (.exit g) := of_some rfl (fMaj_packVR _ _ _ _ _ _ _ (by omega) (by omega))
theorem ret (g : BitVec 3) (a : BitVec 6) : Statement (.ret g a) := of_some rfl (fMaj_packVR _ _ _ _ _ _ _ (by omega) (by omega))
theorem brk (c : Bool) (g : BitVec 3) (b : BitVec 6) : Statement (.brk c g b) := of_some rfl (fMaj_packVR _ _ _ _ _ _ _ (by omega) (by omega))
theorem sysrd (o : SysOp) : Statement (.sysrd o) := of_some rfl (fMaj_packVR _ _ _ _ _ _ _ (by omega) (by omega))
theorem syswr (o : SysOp) : Statement (.syswr o) := of_some rfl (fMaj_packVR _ _ _ _ _ _ _ (by omega) (by omega))
theorem brx (g : BitVec 3) (a : BitVec 6) : Statement (.brx g a) := of_some rfl (fMaj_packVR _ _ _ _ _ _ _ (by omega) (by omega))
theorem bra (g : BitVec 3) (d : BitVec 22) : Statement (.bra g d) := of_some rfl ((bitsOf_packBR _ _ _ (by omega)).1)
theorem call (g : BitVec 3) (d : BitVec 22) : Statement (.call g d) := of_some rfl ((bitsOf_packBR _ _ _ (by omega)).1)
theorem rep (o : RepOp) : Statement (.rep o) := of_some rfl ((bitsOf_packREP o).1)
theorem iadd (o : Bin) : Statement (.iadd o) := of_some rfl (fMaj_packVR _ _ _ _ _ _ _ (by omega) (xSb_lt _ _ (by omega)))
theorem isub (o : Bin) : Statement (.isub o) := of_some rfl (fMaj_packVR _ _ _ _ _ _ _ (by omega) (xSb_lt _ _ (by omega)))
theorem imul (o : Bin) : Statement (.imul o) := of_some rfl (fMaj_packVR _ _ _ _ _ _ _ (by omega) (xSb_lt _ _ (by omega)))
theorem imulhS32 (o : Bin) : Statement (.imulhS32 o) := of_some rfl (fMaj_packVR _ _ _ _ _ _ _ (by omega) (xSb_lt _ _ (by omega)))
theorem imulhN32 (o : Bin) : Statement (.imulhN32 o) := of_some rfl (fMaj_packVR _ _ _ _ _ _ _ (by omega) (xSb_lt _ _ (by omega)))
theorem imad (o : Bin) : Statement (.imad o) := of_some rfl (fMaj_packVR _ _ _ _ _ _ _ (by omega) (xSb_lt _ _ (by omega)))
theorem lea (o : Bin) : Statement (.lea o) := of_some rfl (fMaj_packVR _ _ _ _ _ _ _ (by omega) (xSb_lt _ _ (by omega)))
theorem imin (o : BinU) : Statement (.imin o) := of_some rfl (fMaj_packVR _ _ _ _ _ _ _ (by omega) (xSb_lt _ _ (by have := o.u.toNat_le; omega)))
theorem imax (o : BinU) : Statement (.imax o) := of_some rfl (fMaj_packVR _ _ _ _ _ _ _ (by omega) (xSb_lt _ _ (by have := o.u.toNat_le; omega)))
theorem iabs (o : Un) : Statement (.iabs o) := of_some rfl (fMaj_packVR _ _ _ _ _ _ _ (by omega) (by omega))
theorem ineg (o : Un) : Statement (.ineg o) := of_some rfl (fMaj_packVR _ _ _ _ _ _ _ (by omega) (by omega))
theorem mov (o : Un) : Statement (.mov o) := of_some rfl (fMaj_packVR _ _ _ _ _ _ _ (by omega) (by omega))
theorem iaddImm (o : Imm) : Statement (.iaddImm o) := of_some rfl ((bitsOf_packVI _ _ _ _ _ _ (by omega) o.i.isLt).1)
theorem andImm (o : Imm) : Statement (.andImm o) := of_some rfl ((bitsOf_packVI _ _ _ _ _ _ (by omega) o.i.isLt).1)
theorem orImm (o : Imm) : Statement (.orImm o) := of_some rfl ((bitsOf_packVI _ _ _ _ _ _ (by omega) o.i.isLt).1)
theorem xorImm (o : Imm) : Statement (.xorImm o) := of_some rfl ((bitsOf_packVI _ _ _ _ _ _ (by omega) o.i.isLt).1)
theorem shlImm (o : ShImm) : Statement (.shlImm o) := of_some rfl ((bitsOf_packVI _ _ _ _ _ _ (by omega) (by have := o.n.isLt; omega)).1)
theorem shrImm (o : ShImm) : Statement (.shrImm o) := of_some rfl ((bitsOf_packVI _ _ _ _ _ _ (by omega) (by have := o.n.isLt; omega)).1)
theorem sarImm (o : ShImm) : Statement (.sarImm o) := of_some rfl ((bitsOf_packVI _ _ _ _ _ _ (by omega) (by have := o.n.isLt; omega)).1)
theorem rotlImm (o : ShImm) : Statement (.rotlImm o) := of_some rfl ((bitsOf_packVI _ _ _ _ _ _ (by omega) (by have := o.n.isLt; omega)).1)
theorem movi (o : MovImm) : Statement (.movi o) := of_some rfl ((bitsOf_packVI _ _ _ _ _ _ (by omega) o.i.isLt).1)
theorem and (o : Bin) : Statement (.and o) := of_some rfl (fMaj_packVR _ _ _ _ _ _ _ (by omega) (xSb_lt _ _ (by omega)))
theorem or (o : Bin) : Statement (.or o) := of_some rfl (fMaj_packVR _ _ _ _ _ _ _ (by omega) (xSb_lt _ _ (by omega)))
theorem xor (o : Bin) : Statement (.xor o) := of_some rfl (fMaj_packVR _ _ _ _ _ _ _ (by omega) (xSb_lt _ _ (by omega)))
theorem andn (o : Bin) : Statement (.andn o) := of_some rfl (fMaj_packVR _ _ _ _ _ _ _ (by omega) (xSb_lt _ _ (by omega)))
theorem not (o : Un) : Statement (.not o) := of_some rfl (fMaj_packVR _ _ _ _ _ _ _ (by omega) (by omega))
theorem popc (o : Un) : Statement (.popc o) := of_some rfl (fMaj_packVR _ _ _ _ _ _ _ (by omega) (by omega))
theorem clz (o : Un) : Statement (.clz o) := of_some rfl (fMaj_packVR _ _ _ _ _ _ _ (by omega) (by omega))
theorem brev (o : Un) : Statement (.brev o) := of_some rfl (fMaj_packVR _ _ _ _ _ _ _ (by omega) (by omega))
theorem shl (o : Bin) : Statement (.shl o) := of_some rfl (fMaj_packVR _ _ _ _ _ _ _ (by omega) (xSb_lt _ _ (by omega)))
theorem shr (o : Bin) : Statement (.shr o) := of_some rfl (fMaj_packVR _ _ _ _ _ _ _ (by omega) (xSb_lt _ _ (by omega)))
theorem sar (o : Bin) : Statement (.sar o) := of_some rfl (fMaj_packVR _ _ _ _ _ _ _ (by omega) (xSb_lt _ _ (by omega)))
theorem rotl (o : Bin) : Statement (.rotl o) := of_some rfl (fMaj_packVR _ _ _ _ _ _ _ (by omega) (xSb_lt _ _ (by omega)))
theorem bfx (o : BinU) : Statement (.bfx o) := of_some rfl (fMaj_packVR _ _ _ _ _ _ _ (by omega) (xSb_lt _ _ (by have := o.u.toNat_le; omega)))
theorem bfi (o : Bin) : Statement (.bfi o) := of_some rfl (fMaj_packVR _ _ _ _ _ _ _ (by omega) (xSb_lt _ _ (by omega)))
theorem icmp (o : Cmp) : Statement (.icmp o) := of_some rfl (fMaj_packVR _ _ _ _ _ _ _ (by omega) (by have := o.x.isLt; omega))
theorem sel (o : SelOp) : Statement (.sel o) := of_some rfl (fMaj_packVR _ _ _ _ _ _ _ (by omega) (xSb_lt _ _ o.p.isLt))
theorem pand (o : Pbin) : Statement (.pand o) := of_some rfl (fMaj_packVR _ _ _ _ _ _ _ (by omega) (by omega))
theorem por (o : Pbin) : Statement (.por o) := of_some rfl (fMaj_packVR _ _ _ _ _ _ _ (by omega) (by omega))
theorem pxor (o : Pbin) : Statement (.pxor o) := of_some rfl (fMaj_packVR _ _ _ _ _ _ _ (by omega) (by omega))
theorem pnot (o : Un) : Statement (.pnot o) := of_some rfl (fMaj_packVR _ _ _ _ _ _ _ (by omega) (by omega))
theorem pmov (o : Un) : Statement (.pmov o) := of_some rfl (fMaj_packVR _ _ _ _ _ _ _ (by omega) (by omega))
theorem sadd (o : Sr) : Statement (.sadd o) := of_some rfl ((bitsOf_packSR _ _ _ _ _ _ (by omega) (by omega)).1)
theorem ssub (o : Sr) : Statement (.ssub o) := of_some rfl ((bitsOf_packSR _ _ _ _ _ _ (by omega) (by omega)).1)
theorem smul (o : Sr) : Statement (.smul o) := of_some rfl ((bitsOf_packSR _ _ _ _ _ _ (by omega) (by omega)).1)
theorem scmp (o : Sr) : Statement (.scmp o) := of_some rfl ((bitsOf_packSR _ _ _ _ _ _ (by omega) (by omega)).1)
theorem smin (o : Sr) : Statement (.smin o) := of_some rfl ((bitsOf_packSR _ _ _ _ _ _ (by omega) (by omega)).1)
theorem smax (o : Sr) : Statement (.smax o) := of_some rfl ((bitsOf_packSR _ _ _ _ _ _ (by omega) (by omega)).1)
theorem sand (o : Sr) : Statement (.sand o) := of_some rfl ((bitsOf_packSR _ _ _ _ _ _ (by omega) (by omega)).1)
theorem sor (o : Sr) : Statement (.sor o) := of_some rfl ((bitsOf_packSR _ _ _ _ _ _ (by omega) (by omega)).1)
theorem sxor (o : Sr) : Statement (.sxor o) := of_some rfl ((bitsOf_packSR _ _ _ _ _ _ (by omega) (by omega)).1)
theorem sshl (o : Sr) : Statement (.sshl o) := of_some rfl ((bitsOf_packSR _ _ _ _ _ _ (by omega) (by omega)).1)
theorem sshr (o : Sr) : Statement (.sshr o) := of_some rfl ((bitsOf_packSR _ _ _ _ _ _ (by omega) (by omega)).1)
theorem ssar (o : Sr) : Statement (.ssar o) := of_some rfl ((bitsOf_packSR _ _ _ _ _ _ (by omega) (by omega)).1)
theorem smovi (o : Si) : Statement (.smovi o) := of_some rfl ((bitsOf_packSI _ _ _ _ (by omega)).1)
theorem smovh (o : Si) : Statement (.smovh o) := of_some rfl ((bitsOf_packSI _ _ _ _ (by omega)).1)
theorem fadd (o : BinR) : Statement (.fadd o) := of_some rfl (fMaj_packVR _ _ _ _ _ _ _ (by omega) (xSb_lt _ _ o.r.isLt))
theorem fsub (o : BinR) : Statement (.fsub o) := of_some rfl (fMaj_packVR _ _ _ _ _ _ _ (by omega) (xSb_lt _ _ o.r.isLt))
theorem fmul (o : BinR) : Statement (.fmul o) := of_some rfl (fMaj_packVR _ _ _ _ _ _ _ (by omega) (xSb_lt _ _ o.r.isLt))
theorem ffma (o : BinR) : Statement (.ffma o) := of_some rfl (fMaj_packVR _ _ _ _ _ _ _ (by omega) (xSb_lt _ _ o.r.isLt))
theorem fdiv (o : BinR) : Statement (.fdiv o) := of_some rfl (fMaj_packVR _ _ _ _ _ _ _ (by omega) (xSb_lt _ _ o.r.isLt))
theorem fmin (o : Bin) : Statement (.fmin o) := of_some rfl (fMaj_packVR _ _ _ _ _ _ _ (by omega) (xSb_lt _ _ (by omega)))
theorem fmax (o : Bin) : Statement (.fmax o) := of_some rfl (fMaj_packVR _ _ _ _ _ _ _ (by omega) (xSb_lt _ _ (by omega)))
theorem fsqrt (o : UnR) : Statement (.fsqrt o) := of_some rfl (fMaj_packVR _ _ _ _ _ _ _ (by omega) (by have := o.r.isLt; omega))
theorem frcp (o : UnR) : Statement (.frcp o) := of_some rfl (fMaj_packVR _ _ _ _ _ _ _ (by omega) (by have := o.r.isLt; omega))
theorem frsq (o : UnR) : Statement (.frsq o) := of_some rfl (fMaj_packVR _ _ _ _ _ _ _ (by omega) (by have := o.r.isLt; omega))
theorem frnd (o : UnR) : Statement (.frnd o) := of_some rfl (fMaj_packVR _ _ _ _ _ _ _ (by omega) (by have := o.r.isLt; omega))
theorem fcmp (o : Cmp) : Statement (.fcmp o) := of_some rfl (fMaj_packVR _ _ _ _ _ _ _ (by omega) (by have := o.x.isLt; omega))
theorem fcvt (o : Cvt) : Statement (.fcvt o) := of_some rfl (fMaj_packVR _ _ _ _ _ _ _ (by omega) (by have := o.r.isLt; omega))
theorem badd2 (o : Bin) : Statement (.badd2 o) := of_some rfl (fMaj_packVR _ _ _ _ _ _ _ (by omega) (xSb_lt _ _ (by omega)))
theorem bmul2 (o : Bin) : Statement (.bmul2 o) := of_some rfl (fMaj_packVR _ _ _ _ _ _ _ (by omega) (xSb_lt _ _ (by omega)))
theorem bfma2 (o : Bin) : Statement (.bfma2 o) := of_some rfl (fMaj_packVR _ _ _ _ _ _ _ (by omega) (xSb_lt _ _ (by omega)))
theorem fex2 (o : Un) : Statement (.fex2 o) := of_some rfl (fMaj_packVR _ _ _ _ _ _ _ (by omega) (by omega))
theorem flg2 (o : Un) : Statement (.flg2 o) := of_some rfl (fMaj_packVR _ _ _ _ _ _ _ (by omega) (by omega))
theorem fsin (o : Un) : Statement (.fsin o) := of_some rfl (fMaj_packVR _ _ _ _ _ _ _ (by omega) (by omega))
theorem fcos (o : Un) : Statement (.fcos o) := of_some rfl (fMaj_packVR _ _ _ _ _ _ _ (by omega) (by omega))
theorem perm (o : Lane) : Statement (.perm o) := of_some rfl (fMaj_packVR _ _ _ _ _ _ _ (by omega) (by have := o.f.isLt; omega))
theorem bcast (o : Lane) : Statement (.bcast o) := of_some rfl (fMaj_packVR _ _ _ _ _ _ _ (by omega) (by have := o.f.isLt; omega))
theorem laneq (o : LaneQ) : Statement (.laneq o) := of_some rfl (fMaj_packVR _ _ _ _ _ _ _ (by omega) (by have := o.f.isLt; omega))
theorem vote (o : Lane) : Statement (.vote o) := of_some rfl (fMaj_packVR _ _ _ _ _ _ _ (by omega) (by have := o.f.isLt; omega))
theorem rng (o : RngOp) : Statement (.rng o) := of_some rfl (fMaj_packVR _ _ _ _ _ _ _ (by omega) (by have := o.f.isLt; omega))
theorem lred (o : LaneR) : Statement (.lred o) := of_some rfl (fMaj_packVR _ _ _ _ _ _ _ (by omega) (by have := o.o.isLt; omega))
theorem lscan (o : LaneR) : Statement (.lscan o) := of_some rfl (fMaj_packVR _ _ _ _ _ _ _ (by omega) (by have := o.o.isLt; omega))
theorem ld (o : MemP) : Statement (.ld o) := of_some rfl ((bitsOf_packMEM _ _ _ _ _ _ _ _ (by omega) (by have := o.u.toNat_le; have := o.p.isLt; omega)).1)
theorem st (o : MemP) : Statement (.st o) := of_some rfl ((bitsOf_packMEM _ _ _ _ _ _ _ _ (by omega) (by have := o.u.toNat_le; have := o.p.isLt; omega)).1)
theorem lds (o : MemU) : Statement (.lds o) := of_some rfl ((bitsOf_packMEM _ _ _ _ _ _ _ _ (by omega) (by have := o.u.toNat_le; omega)).1)
theorem sts (o : MemU) : Statement (.sts o) := of_some rfl ((bitsOf_packMEM _ _ _ _ _ _ _ _ (by omega) (by have := o.u.toNat_le; omega)).1)
theorem ldp (o : MemP) : Statement (.ldp o) := of_some rfl ((bitsOf_packMEM _ _ _ _ _ _ _ _ (by omega) (by have := o.u.toNat_le; have := o.p.isLt; omega)).1)
theorem stp (o : MemP) : Statement (.stp o) := of_some rfl ((bitsOf_packMEM _ _ _ _ _ _ _ _ (by omega) (by have := o.u.toNat_le; have := o.p.isLt; omega)).1)
theorem atom (o : MemX) : Statement (.atom o) := of_some rfl ((bitsOf_packMEM _ _ _ _ _ _ _ _ (by omega) o.x.isLt).1)
theorem cas (o : MemX) : Statement (.cas o) := of_some rfl ((bitsOf_packMEM _ _ _ _ _ _ _ _ (by omega) o.x.isLt).1)
theorem cas2 (o : Mem0) : Statement (.cas2 o) := of_some rfl ((bitsOf_packMEM _ _ _ _ _ _ _ _ (by omega) (by omega)).1)
theorem mcas (o : Mem0) : Statement (.mcas o) := of_some rfl ((bitsOf_packMEM _ _ _ _ _ _ _ _ (by omega) (by omega)).1)
theorem red (o : MemX) : Statement (.red o) := of_some rfl ((bitsOf_packMEM _ _ _ _ _ _ _ _ (by omega) o.x.isLt).1)
theorem ldsum (o : MemY) : Statement (.ldsum o) := of_some rfl ((bitsOf_packMEM _ _ _ _ _ _ _ _ (by omega) (by have := o.y.toNat_le; omega)).1)
theorem enq (o : Mem0) : Statement (.enq o) := of_some rfl ((bitsOf_packMEM _ _ _ _ _ _ _ _ (by omega) (by omega)).1)
theorem chase (o : Mem0) : Statement (.chase o) := of_some rfl ((bitsOf_packMEM _ _ _ _ _ _ _ _ (by omega) (by omega)).1)
theorem cpy (o : Mem0) : Statement (.cpy o) := of_some rfl ((bitsOf_packMEM _ _ _ _ _ _ _ _ (by omega) (by omega)).1)
theorem gath (o : Mem0) : Statement (.gath o) := of_some rfl ((bitsOf_packMEM _ _ _ _ _ _ _ _ (by omega) (by omega)).1)
theorem scat (o : Mem0) : Statement (.scat o) := of_some rfl ((bitsOf_packMEM _ _ _ _ _ _ _ _ (by omega) (by omega)).1)
theorem waitc (o : WaitC) : Statement (.waitc o) := of_some rfl ((bitsOf_packMEM _ _ _ _ _ _ _ _ (by omega) (by omega)).1)
theorem fence (o : FenceOp) : Statement (.fence o) := of_some rfl ((bitsOf_packMEM _ _ _ _ _ _ _ _ (by omega) (by omega)).1)
theorem flush (o : LineOp) : Statement (.flush o) := of_some rfl ((bitsOf_packMEM _ _ _ _ _ _ _ _ (by omega) (by omega)).1)
theorem invl (o : LineOp) : Statement (.invl o) := of_some rfl ((bitsOf_packMEM _ _ _ _ _ _ _ _ (by omega) (by omega)).1)
theorem pf (o : PfOp) : Statement (.pf o) := of_some rfl ((bitsOf_packMEM _ _ _ _ _ _ _ _ (by omega) (by omega)).1)
theorem waitln (o : WaitLn) : Statement (.waitln o) := of_some rfl ((bitsOf_packMEM _ _ _ _ _ _ _ _ (by omega) (by omega)).1)
theorem mma (o : Mx) : Statement (.mma o) := of_some rfl ((bitsOf_packMX _ _ _ _ _ _ _ _ (by omega) (by omega)).1)
theorem mxp (o : Mx0) : Statement (.mxp o) := of_some rfl ((bitsOf_packMX _ _ _ _ _ _ _ _ (by omega) (by omega)).1)
theorem mrp (o : Mx) : Statement (.mrp o) := of_some rfl ((bitsOf_packMX _ _ _ _ _ _ _ _ (by omega) (by omega)).1)
theorem mrr (o : Mx0) : Statement (.mrr o) := of_some rfl ((bitsOf_packMX _ _ _ _ _ _ _ _ (by omega) (by omega)).1)
theorem madd (o : Mx0) : Statement (.madd o) := of_some rfl ((bitsOf_packMX _ _ _ _ _ _ _ _ (by omega) (by omega)).1)
theorem mld (o : Mx) : Statement (.mld o) := of_some rfl ((bitsOf_packMX _ _ _ _ _ _ _ _ (by omega) (by omega)).1)
theorem mst (o : Mx) : Statement (.mst o) := of_some rfl ((bitsOf_packMX _ _ _ _ _ _ _ _ (by omega) (by omega)).1)
theorem mbind (o : MbindOp) : Statement (.mbind o) := of_some rfl (fMaj_packVR _ _ _ _ _ _ _ (by omega) (by omega))
theorem mfill (o : MfillOp) : Statement (.mfill o) := of_some rfl (fMaj_packVR _ _ _ _ _ _ _ (by omega) (by omega))
theorem optab (o : OptabOp) : Statement (.optab o) := of_some rfl (fMaj_packVR _ _ _ _ _ _ _ (by omega) (by omega))
theorem cbld (o : CbldOp) : Statement (.cbld o) := of_some rfl (fMaj_packVR _ _ _ _ _ _ _ (by omega) (by omega))
theorem scld (o : ScldOp) : Statement (.scld o) := of_some rfl (fMaj_packVR _ _ _ _ _ _ _ (by omega) (by omega))
theorem mqry (o : MqryOp) : Statement (.mqry o) := of_some rfl (fMaj_packVR _ _ _ _ _ _ _ (by omega) (by omega))
theorem spawn (o : Dab) : Statement (.spawn o) := of_some rfl (fMaj_packVR _ _ _ _ _ _ _ (by omega) (by omega))
theorem reform : Statement (.reform) := of_some rfl (fMaj_packVR _ _ _ _ _ _ _ (by omega) (by omega))
theorem yield : Statement (.yield) := of_some rfl (fMaj_packVR _ _ _ _ _ _ _ (by omega) (by omega))
theorem bar (o : Db) : Statement (.bar o) := of_some rfl (fMaj_packVR _ _ _ _ _ _ _ (by omega) (by omega))
theorem bara (b : BitVec 6) : Statement (.bara b) := of_some rfl (fMaj_packVR _ _ _ _ _ _ _ (by omega) (by omega))
theorem barw (o : Db) : Statement (.barw o) := of_some rfl (fMaj_packVR _ _ _ _ _ _ _ (by omega) (by omega))
theorem waitev (o : Da) : Statement (.waitev o) := of_some rfl (fMaj_packVR _ _ _ _ _ _ _ (by omega) (by omega))
theorem bound (o : Dab) : Statement (.bound o) := of_some rfl (fMaj_packVR _ _ _ _ _ _ _ (by omega) (by omega))
theorem incset (o : Dab) : Statement (.incset o) := of_some rfl (fMaj_packVR _ _ _ _ _ _ _ (by omega) (by omega))
theorem incget (o : Db) : Statement (.incget o) := of_some rfl (fMaj_packVR _ _ _ _ _ _ _ (by omega) (by omega))
theorem xacq (o : Da) : Statement (.xacq o) := of_some rfl (fMaj_packVR _ _ _ _ _ _ _ (by omega) (by omega))
theorem xrel (o : Da) : Statement (.xrel o) := of_some rfl (fMaj_packVR _ _ _ _ _ _ _ (by omega) (by omega))
theorem commit : Statement (.commit) := of_some rfl (fMaj_packVR _ _ _ _ _ _ _ (by omega) (by omega))
theorem lkreq (o : Dab) : Statement (.lkreq o) := of_some rfl (fMaj_packVR _ _ _ _ _ _ _ (by omega) (by omega))
theorem lktry (o : Dab) : Statement (.lktry o) := of_some rfl (fMaj_packVR _ _ _ _ _ _ _ (by omega) (by omega))
theorem lkupg (o : Dab) : Statement (.lkupg o) := of_some rfl (fMaj_packVR _ _ _ _ _ _ _ (by omega) (by omega))
theorem lkrel (o : Dab) : Statement (.lkrel o) := of_some rfl (fMaj_packVR _ _ _ _ _ _ _ (by omega) (by omega))
theorem lkrela (d : BitVec 6) : Statement (.lkrela d) := of_some rfl (fMaj_packVR _ _ _ _ _ _ _ (by omega) (by omega))
theorem lkqry (o : Dab) : Statement (.lkqry o) := of_some rfl (fMaj_packVR _ _ _ _ _ _ _ (by omega) (by omega))
theorem cmtx (o : Dab) : Statement (.cmtx o) := of_some rfl (fMaj_packVR _ _ _ _ _ _ _ (by omega) (by omega))
theorem trap (b : BitVec 6) : Statement (.trap b) := of_some rfl (fMaj_packVR _ _ _ _ _ _ _ (by omega) (by omega))
theorem eret : Statement (.eret) := of_some rfl (fMaj_packVR _ _ _ _ _ _ _ (by omega) (by omega))
theorem abort (retry : Bool) (b : BitVec 6) : Statement (.abort retry b) := of_some rfl (fMaj_packVR _ _ _ _ _ _ _ (by omega) (by omega))
theorem tsave (d : BitVec 6) (load : Bool) : Statement (.tsave d load) := of_some rfl (fMaj_packVR _ _ _ _ _ _ _ (by omega) (by omega))
theorem ctxActivate (ctx desc : Nat) : Statement (.ctxActivate ctx desc) := of_none rfl
theorem ctxRetire (ctx : Nat) : Statement (.ctxRetire ctx) := of_none rfl
theorem translationInvalidate (ctx page size : Nat) : Statement (.translationInvalidate ctx page size) := of_none rfl
theorem shootDown (ctx page : Nat) : Statement (.shootDown ctx page) := of_none rfl
theorem serviceFull : Statement (.serviceFull) := of_none rfl
theorem stopAllOn (ctx : Nat) : Statement (.stopAllOn ctx) := of_none rfl
theorem stopAllOff (ctx : Nat) : Statement (.stopAllOff ctx) := of_none rfl
theorem debugResume (ctx accn : Nat) : Statement (.debugResume ctx accn) := of_none rfl
theorem registerWrite (r : CtlReg) (v : DWord) : Statement (.registerWrite r v) := of_none rfl
theorem hostStore (addr : Nat) (data : List Byte) : Statement (.hostStore addr data) := of_none rfl
theorem hostLoad (addr n : Nat) : Statement (.hostLoad addr n) := of_none rfl
theorem hostLineInvalidate (line : Nat) (data : KMap Byte) : Statement (.hostLineInvalidate line data) := of_none rfl
theorem attestationRequest : Statement (.attestationRequest) := of_none rfl
theorem remoteRequestArrival (r : RemoteReq) : Statement (.remoteRequestArrival r) := of_none rfl
theorem remotePostedStore (r : RemoteReq) : Statement (.remotePostedStore r) := of_none rfl
theorem remoteResponse (tag : Nat) (res : RemoteRes) (roe : Bool) : Statement (.remoteResponse tag res roe) := of_none rfl
theorem postedAck (tag : Nat) (res : RemoteRes) : Statement (.postedAck tag res) := of_none rfl
theorem shootdownReceive (src page : Nat) : Statement (.shootdownReceive src page) := of_none rfl
theorem shootdownAnswer (src : Nat) : Statement (.shootdownAnswer src) := of_none rfl
theorem federationValue (fgrp i : Nat) (max : Bool) (v : DWord) : Statement (.federationValue fgrp i max v) := of_none rfl
theorem keySwitchMarker (port : Nat) : Statement (.keySwitchMarker port) := of_none rfl
theorem keySlotLoad (port slot key : Nat) : Statement (.keySlotLoad port slot key) := of_none rfl
theorem flitAuthFailure (port : Nat) : Statement (.flitAuthFailure port) := of_none rfl
theorem nonceCountExhausted (port : Nat) : Statement (.nonceCountExhausted port) := of_none rfl
theorem remoteRetry (tag : Nat) : Statement (.remoteRetry tag) := of_none rfl
theorem remoteTimeout (tag : Nat) : Statement (.remoteTimeout tag) := of_none rfl
theorem postedStoreTimeout (tag : Nat) : Statement (.postedStoreTimeout tag) := of_none rfl
theorem replayResultExpire (src tag : Nat) : Statement (.replayResultExpire src tag) := of_none rfl
theorem watchdog (accn tid : Nat) : Statement (.watchdog accn tid) := of_none rfl
theorem drawerAging (core accn pc : Nat) : Statement (.drawerAging core accn pc) := of_none rfl
theorem recordReservation (cluster accn : Nat) : Statement (.recordReservation cluster accn) := of_none rfl
theorem queueScan (cluster : Nat) : Statement (.queueScan cluster) := of_none rfl
theorem epochEnd : Statement (.epochEnd) := of_none rfl
theorem residentDominationTest : Statement (.residentDominationTest) := of_none rfl
theorem matrixHoldExpire (accn : Nat) : Statement (.matrixHoldExpire accn) := of_none rfl
theorem recordEligible (accn : Nat) : Statement (.recordEligible accn) := of_none rfl
theorem taskPlacement (cluster : Nat) : Statement (.taskPlacement cluster) := of_none rfl
theorem stealRequest (thief ctx : Nat) : Statement (.stealRequest thief ctx) := of_none rfl
theorem squadEvict (core squad : Nat) : Statement (.squadEvict core squad) := of_none rfl
theorem squadRestore (core squad : Nat) : Statement (.squadRestore core squad) := of_none rfl
theorem cancellation (accn : Nat) : Statement (.cancellation accn) := of_none rfl
theorem wound (accn : Nat) : Statement (.wound accn) := of_none rfl
theorem taskCommit (accn : Nat) : Statement (.taskCommit accn) := of_none rfl
theorem deterministicTurn (launch : Nat) : Statement (.deterministicTurn launch) := of_none rfl
theorem homeWritePerform : Statement (.homeWritePerform) := of_none rfl
theorem l1Eviction (core line : Nat) : Statement (.l1Eviction core line) := of_none rfl
theorem incumbentPropagate (ctx i core : Nat) : Statement (.incumbentPropagate ctx i core) := of_none rfl
theorem lockGrant (key : Nat) : Statement (.lockGrant key) := of_none rfl
theorem resourceGrant (accn : Nat) : Statement (.resourceGrant accn) := of_none rfl
theorem engineRetire (op : Nat) : Statement (.engineRetire op) := of_none rfl
theorem matrixPass (cluster : Nat) : Statement (.matrixPass cluster) := of_none rfl
theorem matrixRetire (cluster req : Nat) : Statement (.matrixRetire cluster req) := of_none rfl
theorem barrierComplete (accn tid coh : Nat) : Statement (.barrierComplete accn tid coh) := of_none rfl
theorem waitlnWake (accn tid : Nat) : Statement (.waitlnWake accn tid) := of_none rfl
theorem waitevWake (accn tid : Nat) : Statement (.waitevWake accn tid) := of_none rfl
theorem softError (site : SoftSite) : Statement (.softError site) := of_none rfl
theorem powerOn (failed : Bool) (image : KMap Byte) (desc : Nat) (record : List Byte) : Statement (.powerOn failed image desc record) := of_none rfl
theorem thermalThrottle : Statement (.thermalThrottle) := of_none rfl
theorem thermalShutdown : Statement (.thermalShutdown) := of_none rfl
theorem illegalInstruction (f : DecodeFault) (taddr : Nat) : Statement (.illegalInstruction f taddr) := of_none rfl
theorem removalByTheSupervisor (accn : Nat) : Statement (.removalByTheSupervisor accn) := of_none rfl
theorem trainingComplete (fail : Nat) : Statement (.trainingComplete fail) := of_none rfl

end Sys2Proof.Laws.Major
end

