-- ==== Sys2Proof/Laws/State.lean ====
section
/-!
SUPPORT. Field laws: for each update of a state, a thread or a task, one lemma for each field that it leaves alone, and the
reads that see what it wrote.
-/

namespace Sys2Proof.Machine

/-! ## Updates of the state -/

@[simp] theorem State.updTask_dtime (s : State) (a : Nat) (f : Task → Task) : (s.updTask a f).dtime = s.dtime := rfl
@[simp] theorem State.updTask_mem (s : State) (a : Nat) (f : Task → Task) : (s.updTask a f).mem = s.mem := rfl
@[simp] theorem State.updTask_homes (s : State) (a : Nat) (f : Task → Task) : (s.updTask a f).homes = s.homes := rfl
@[simp] theorem State.updTask_writes (s : State) (a : Nat) (f : Task → Task) : (s.updTask a f).writes = s.writes := rfl
@[simp] theorem State.updTask_poison (s : State) (a : Nat) (f : Task → Task) : (s.updTask a f).poison = s.poison := rfl
@[simp] theorem State.updTask_hostLines (s : State) (a : Nat) (f : Task → Task) : (s.updTask a f).hostLines = s.hostLines := rfl
@[simp] theorem State.updTask_cores (s : State) (a : Nat) (f : Task → Task) : (s.updTask a f).cores = s.cores := rfl
@[simp] theorem State.updTask_clusters (s : State) (a : Nat) (f : Task → Task) : (s.updTask a f).clusters = s.clusters := rfl
@[simp] theorem State.updTask_ctxs (s : State) (a : Nat) (f : Task → Task) : (s.updTask a f).ctxs = s.ctxs := rfl
@[simp] theorem State.updTask_launches (s : State) (a : Nat) (f : Task → Task) : (s.updTask a f).launches = s.launches := rfl
@[simp] theorem State.updTask_locks (s : State) (a : Nat) (f : Task → Task) : (s.updTask a f).locks = s.locks := rfl
@[simp] theorem State.updTask_engs (s : State) (a : Nat) (f : Task → Task) : (s.updTask a f).engs = s.engs := rfl
@[simp] theorem State.updTask_outs (s : State) (a : Nat) (f : Task → Task) : (s.updTask a f).outs = s.outs := rfl
@[simp] theorem State.updTask_replay (s : State) (a : Nat) (f : Task → Task) : (s.updTask a f).replay = s.replay := rfl
@[simp] theorem State.updTask_ports (s : State) (a : Nat) (f : Task → Task) : (s.updTask a f).ports = s.ports := rfl
@[simp] theorem State.updTask_regs (s : State) (a : Nat) (f : Task → Task) : (s.updTask a f).regs = s.regs := rfl
@[simp] theorem State.updTask_accn (s : State) (a : Nat) (f : Task → Task) : (s.updTask a f).accn = s.accn := rfl
@[simp] theorem State.updTask_nextId (s : State) (a : Nat) (f : Task → Task) : (s.updTask a f).nextId = s.nextId := rfl
@[simp] theorem State.updTask_epoch (s : State) (a : Nat) (f : Task → Task) : (s.updTask a f).epoch = s.epoch := rfl
@[simp] theorem State.updTask_turn (s : State) (a : Nat) (f : Task → Task) : (s.updTask a f).turn = s.turn := rfl
@[simp] theorem State.updTask_free (s : State) (a : Nat) (f : Task → Task) : (s.updTask a f).free = s.free := rfl
@[simp] theorem State.updTask_still (s : State) (a : Nat) (f : Task → Task) : (s.updTask a f).still = s.still := rfl
@[simp] theorem State.updTask_asked (s : State) (a : Nat) (f : Task → Task) : (s.updTask a f).asked = s.asked := rfl
@[simp] theorem State.updTask_issue (s : State) (a : Nat) (f : Task → Task) : (s.updTask a f).issue = s.issue := rfl
@[simp] theorem State.updTask_agenda (s : State) (a : Nat) (f : Task → Task) : (s.updTask a f).agenda = s.agenda := rfl
@[simp] theorem State.updTask_sent (s : State) (a : Nat) (f : Task → Task) : (s.updTask a f).sent = s.sent := rfl
@[simp] theorem State.updTask_hole (s : State) (a : Nat) (f : Task → Task) : (s.updTask a f).hole = s.hole := rfl

@[simp] theorem State.putThread_dtime (s : State) (a t : Nat) (th : Thread) : (s.putThread a t th).dtime = s.dtime := rfl
@[simp] theorem State.putThread_mem (s : State) (a t : Nat) (th : Thread) : (s.putThread a t th).mem = s.mem := rfl
@[simp] theorem State.putThread_homes (s : State) (a t : Nat) (th : Thread) : (s.putThread a t th).homes = s.homes := rfl
@[simp] theorem State.putThread_writes (s : State) (a t : Nat) (th : Thread) : (s.putThread a t th).writes = s.writes := rfl
@[simp] theorem State.putThread_poison (s : State) (a t : Nat) (th : Thread) : (s.putThread a t th).poison = s.poison := rfl
@[simp] theorem State.putThread_hostLines (s : State) (a t : Nat) (th : Thread) : (s.putThread a t th).hostLines = s.hostLines := rfl
@[simp] theorem State.putThread_cores (s : State) (a t : Nat) (th : Thread) : (s.putThread a t th).cores = s.cores := rfl
@[simp] theorem State.putThread_clusters (s : State) (a t : Nat) (th : Thread) : (s.putThread a t th).clusters = s.clusters := rfl
@[simp] theorem State.putThread_ctxs (s : State) (a t : Nat) (th : Thread) : (s.putThread a t th).ctxs = s.ctxs := rfl
@[simp] theorem State.putThread_launches (s : State) (a t : Nat) (th : Thread) : (s.putThread a t th).launches = s.launches := rfl
@[simp] theorem State.putThread_locks (s : State) (a t : Nat) (th : Thread) : (s.putThread a t th).locks = s.locks := rfl
@[simp] theorem State.putThread_engs (s : State) (a t : Nat) (th : Thread) : (s.putThread a t th).engs = s.engs := rfl
@[simp] theorem State.putThread_outs (s : State) (a t : Nat) (th : Thread) : (s.putThread a t th).outs = s.outs := rfl
@[simp] theorem State.putThread_replay (s : State) (a t : Nat) (th : Thread) : (s.putThread a t th).replay = s.replay := rfl
@[simp] theorem State.putThread_ports (s : State) (a t : Nat) (th : Thread) : (s.putThread a t th).ports = s.ports := rfl
@[simp] theorem State.putThread_regs (s : State) (a t : Nat) (th : Thread) : (s.putThread a t th).regs = s.regs := rfl
@[simp] theorem State.putThread_accn (s : State) (a t : Nat) (th : Thread) : (s.putThread a t th).accn = s.accn := rfl
@[simp] theorem State.putThread_nextId (s : State) (a t : Nat) (th : Thread) : (s.putThread a t th).nextId = s.nextId := rfl
@[simp] theorem State.putThread_epoch (s : State) (a t : Nat) (th : Thread) : (s.putThread a t th).epoch = s.epoch := rfl
@[simp] theorem State.putThread_turn (s : State) (a t : Nat) (th : Thread) : (s.putThread a t th).turn = s.turn := rfl
@[simp] theorem State.putThread_free (s : State) (a t : Nat) (th : Thread) : (s.putThread a t th).free = s.free := rfl
@[simp] theorem State.putThread_still (s : State) (a t : Nat) (th : Thread) : (s.putThread a t th).still = s.still := rfl
@[simp] theorem State.putThread_asked (s : State) (a t : Nat) (th : Thread) : (s.putThread a t th).asked = s.asked := rfl
@[simp] theorem State.putThread_issue (s : State) (a t : Nat) (th : Thread) : (s.putThread a t th).issue = s.issue := rfl
@[simp] theorem State.putThread_agenda (s : State) (a t : Nat) (th : Thread) : (s.putThread a t th).agenda = s.agenda := rfl
@[simp] theorem State.putThread_sent (s : State) (a t : Nat) (th : Thread) : (s.putThread a t th).sent = s.sent := rfl
@[simp] theorem State.putThread_hole (s : State) (a t : Nat) (th : Thread) : (s.putThread a t th).hole = s.hole := rfl

@[simp] theorem State.updThread_dtime (s : State) (a t : Nat) (f : Thread → Thread) : (s.updThread a t f).dtime = s.dtime := rfl
@[simp] theorem State.updThread_mem (s : State) (a t : Nat) (f : Thread → Thread) : (s.updThread a t f).mem = s.mem := rfl
@[simp] theorem State.updThread_homes (s : State) (a t : Nat) (f : Thread → Thread) : (s.updThread a t f).homes = s.homes := rfl
@[simp] theorem State.updThread_writes (s : State) (a t : Nat) (f : Thread → Thread) : (s.updThread a t f).writes = s.writes := rfl
@[simp] theorem State.updThread_poison (s : State) (a t : Nat) (f : Thread → Thread) : (s.updThread a t f).poison = s.poison := rfl
@[simp] theorem State.updThread_hostLines (s : State) (a t : Nat) (f : Thread → Thread) : (s.updThread a t f).hostLines = s.hostLines := rfl
@[simp] theorem State.updThread_cores (s : State) (a t : Nat) (f : Thread → Thread) : (s.updThread a t f).cores = s.cores := rfl
@[simp] theorem State.updThread_clusters (s : State) (a t : Nat) (f : Thread → Thread) : (s.updThread a t f).clusters = s.clusters := rfl
@[simp] theorem State.updThread_ctxs (s : State) (a t : Nat) (f : Thread → Thread) : (s.updThread a t f).ctxs = s.ctxs := rfl
@[simp] theorem State.updThread_launches (s : State) (a t : Nat) (f : Thread → Thread) : (s.updThread a t f).launches = s.launches := rfl
@[simp] theorem State.updThread_locks (s : State) (a t : Nat) (f : Thread → Thread) : (s.updThread a t f).locks = s.locks := rfl
@[simp] theorem State.updThread_engs (s : State) (a t : Nat) (f : Thread → Thread) : (s.updThread a t f).engs = s.engs := rfl
@[simp] theorem State.updThread_outs (s : State) (a t : Nat) (f : Thread → Thread) : (s.updThread a t f).outs = s.outs := rfl
@[simp] theorem State.updThread_replay (s : State) (a t : Nat) (f : Thread → Thread) : (s.updThread a t f).replay = s.replay := rfl
@[simp] theorem State.updThread_ports (s : State) (a t : Nat) (f : Thread → Thread) : (s.updThread a t f).ports = s.ports := rfl
@[simp] theorem State.updThread_regs (s : State) (a t : Nat) (f : Thread → Thread) : (s.updThread a t f).regs = s.regs := rfl
@[simp] theorem State.updThread_accn (s : State) (a t : Nat) (f : Thread → Thread) : (s.updThread a t f).accn = s.accn := rfl
@[simp] theorem State.updThread_nextId (s : State) (a t : Nat) (f : Thread → Thread) : (s.updThread a t f).nextId = s.nextId := rfl
@[simp] theorem State.updThread_epoch (s : State) (a t : Nat) (f : Thread → Thread) : (s.updThread a t f).epoch = s.epoch := rfl
@[simp] theorem State.updThread_turn (s : State) (a t : Nat) (f : Thread → Thread) : (s.updThread a t f).turn = s.turn := rfl
@[simp] theorem State.updThread_free (s : State) (a t : Nat) (f : Thread → Thread) : (s.updThread a t f).free = s.free := rfl
@[simp] theorem State.updThread_still (s : State) (a t : Nat) (f : Thread → Thread) : (s.updThread a t f).still = s.still := rfl
@[simp] theorem State.updThread_asked (s : State) (a t : Nat) (f : Thread → Thread) : (s.updThread a t f).asked = s.asked := rfl
@[simp] theorem State.updThread_issue (s : State) (a t : Nat) (f : Thread → Thread) : (s.updThread a t f).issue = s.issue := rfl
@[simp] theorem State.updThread_agenda (s : State) (a t : Nat) (f : Thread → Thread) : (s.updThread a t f).agenda = s.agenda := rfl
@[simp] theorem State.updThread_sent (s : State) (a t : Nat) (f : Thread → Thread) : (s.updThread a t f).sent = s.sent := rfl
@[simp] theorem State.updThread_hole (s : State) (a t : Nat) (f : Thread → Thread) : (s.updThread a t f).hole = s.hole := rfl

@[simp] theorem State.updThreads_dtime (s : State) (a : Nat) (f : Thread → Thread) : (s.updThreads a f).dtime = s.dtime := rfl
@[simp] theorem State.updThreads_mem (s : State) (a : Nat) (f : Thread → Thread) : (s.updThreads a f).mem = s.mem := rfl
@[simp] theorem State.updThreads_homes (s : State) (a : Nat) (f : Thread → Thread) : (s.updThreads a f).homes = s.homes := rfl
@[simp] theorem State.updThreads_writes (s : State) (a : Nat) (f : Thread → Thread) : (s.updThreads a f).writes = s.writes := rfl
@[simp] theorem State.updThreads_poison (s : State) (a : Nat) (f : Thread → Thread) : (s.updThreads a f).poison = s.poison := rfl
@[simp] theorem State.updThreads_hostLines (s : State) (a : Nat) (f : Thread → Thread) : (s.updThreads a f).hostLines = s.hostLines := rfl
@[simp] theorem State.updThreads_cores (s : State) (a : Nat) (f : Thread → Thread) : (s.updThreads a f).cores = s.cores := rfl
@[simp] theorem State.updThreads_clusters (s : State) (a : Nat) (f : Thread → Thread) : (s.updThreads a f).clusters = s.clusters := rfl
@[simp] theorem State.updThreads_ctxs (s : State) (a : Nat) (f : Thread → Thread) : (s.updThreads a f).ctxs = s.ctxs := rfl
@[simp] theorem State.updThreads_launches (s : State) (a : Nat) (f : Thread → Thread) : (s.updThreads a f).launches = s.launches := rfl
@[simp] theorem State.updThreads_locks (s : State) (a : Nat) (f : Thread → Thread) : (s.updThreads a f).locks = s.locks := rfl
@[simp] theorem State.updThreads_engs (s : State) (a : Nat) (f : Thread → Thread) : (s.updThreads a f).engs = s.engs := rfl
@[simp] theorem State.updThreads_outs (s : State) (a : Nat) (f : Thread → Thread) : (s.updThreads a f).outs = s.outs := rfl
@[simp] theorem State.updThreads_replay (s : State) (a : Nat) (f : Thread → Thread) : (s.updThreads a f).replay = s.replay := rfl
@[simp] theorem State.updThreads_ports (s : State) (a : Nat) (f : Thread → Thread) : (s.updThreads a f).ports = s.ports := rfl
@[simp] theorem State.updThreads_regs (s : State) (a : Nat) (f : Thread → Thread) : (s.updThreads a f).regs = s.regs := rfl
@[simp] theorem State.updThreads_accn (s : State) (a : Nat) (f : Thread → Thread) : (s.updThreads a f).accn = s.accn := rfl
@[simp] theorem State.updThreads_nextId (s : State) (a : Nat) (f : Thread → Thread) : (s.updThreads a f).nextId = s.nextId := rfl
@[simp] theorem State.updThreads_epoch (s : State) (a : Nat) (f : Thread → Thread) : (s.updThreads a f).epoch = s.epoch := rfl
@[simp] theorem State.updThreads_turn (s : State) (a : Nat) (f : Thread → Thread) : (s.updThreads a f).turn = s.turn := rfl
@[simp] theorem State.updThreads_free (s : State) (a : Nat) (f : Thread → Thread) : (s.updThreads a f).free = s.free := rfl
@[simp] theorem State.updThreads_still (s : State) (a : Nat) (f : Thread → Thread) : (s.updThreads a f).still = s.still := rfl
@[simp] theorem State.updThreads_asked (s : State) (a : Nat) (f : Thread → Thread) : (s.updThreads a f).asked = s.asked := rfl
@[simp] theorem State.updThreads_issue (s : State) (a : Nat) (f : Thread → Thread) : (s.updThreads a f).issue = s.issue := rfl
@[simp] theorem State.updThreads_agenda (s : State) (a : Nat) (f : Thread → Thread) : (s.updThreads a f).agenda = s.agenda := rfl
@[simp] theorem State.updThreads_sent (s : State) (a : Nat) (f : Thread → Thread) : (s.updThreads a f).sent = s.sent := rfl
@[simp] theorem State.updThreads_hole (s : State) (a : Nat) (f : Thread → Thread) : (s.updThreads a f).hole = s.hole := rfl

@[simp] theorem State.updCore_dtime (s : State) (c : Nat) (f : Core → Core) : (s.updCore c f).dtime = s.dtime := rfl
@[simp] theorem State.updCore_mem (s : State) (c : Nat) (f : Core → Core) : (s.updCore c f).mem = s.mem := rfl
@[simp] theorem State.updCore_homes (s : State) (c : Nat) (f : Core → Core) : (s.updCore c f).homes = s.homes := rfl
@[simp] theorem State.updCore_writes (s : State) (c : Nat) (f : Core → Core) : (s.updCore c f).writes = s.writes := rfl
@[simp] theorem State.updCore_poison (s : State) (c : Nat) (f : Core → Core) : (s.updCore c f).poison = s.poison := rfl
@[simp] theorem State.updCore_hostLines (s : State) (c : Nat) (f : Core → Core) : (s.updCore c f).hostLines = s.hostLines := rfl
@[simp] theorem State.updCore_tasks (s : State) (c : Nat) (f : Core → Core) : (s.updCore c f).tasks = s.tasks := rfl
@[simp] theorem State.updCore_clusters (s : State) (c : Nat) (f : Core → Core) : (s.updCore c f).clusters = s.clusters := rfl
@[simp] theorem State.updCore_ctxs (s : State) (c : Nat) (f : Core → Core) : (s.updCore c f).ctxs = s.ctxs := rfl
@[simp] theorem State.updCore_launches (s : State) (c : Nat) (f : Core → Core) : (s.updCore c f).launches = s.launches := rfl
@[simp] theorem State.updCore_locks (s : State) (c : Nat) (f : Core → Core) : (s.updCore c f).locks = s.locks := rfl
@[simp] theorem State.updCore_engs (s : State) (c : Nat) (f : Core → Core) : (s.updCore c f).engs = s.engs := rfl
@[simp] theorem State.updCore_outs (s : State) (c : Nat) (f : Core → Core) : (s.updCore c f).outs = s.outs := rfl
@[simp] theorem State.updCore_replay (s : State) (c : Nat) (f : Core → Core) : (s.updCore c f).replay = s.replay := rfl
@[simp] theorem State.updCore_ports (s : State) (c : Nat) (f : Core → Core) : (s.updCore c f).ports = s.ports := rfl
@[simp] theorem State.updCore_regs (s : State) (c : Nat) (f : Core → Core) : (s.updCore c f).regs = s.regs := rfl
@[simp] theorem State.updCore_accn (s : State) (c : Nat) (f : Core → Core) : (s.updCore c f).accn = s.accn := rfl
@[simp] theorem State.updCore_nextId (s : State) (c : Nat) (f : Core → Core) : (s.updCore c f).nextId = s.nextId := rfl
@[simp] theorem State.updCore_epoch (s : State) (c : Nat) (f : Core → Core) : (s.updCore c f).epoch = s.epoch := rfl
@[simp] theorem State.updCore_turn (s : State) (c : Nat) (f : Core → Core) : (s.updCore c f).turn = s.turn := rfl
@[simp] theorem State.updCore_free (s : State) (c : Nat) (f : Core → Core) : (s.updCore c f).free = s.free := rfl
@[simp] theorem State.updCore_still (s : State) (c : Nat) (f : Core → Core) : (s.updCore c f).still = s.still := rfl
@[simp] theorem State.updCore_asked (s : State) (c : Nat) (f : Core → Core) : (s.updCore c f).asked = s.asked := rfl
@[simp] theorem State.updCore_issue (s : State) (c : Nat) (f : Core → Core) : (s.updCore c f).issue = s.issue := rfl
@[simp] theorem State.updCore_agenda (s : State) (c : Nat) (f : Core → Core) : (s.updCore c f).agenda = s.agenda := rfl
@[simp] theorem State.updCore_sent (s : State) (c : Nat) (f : Core → Core) : (s.updCore c f).sent = s.sent := rfl
@[simp] theorem State.updCore_hole (s : State) (c : Nat) (f : Core → Core) : (s.updCore c f).hole = s.hole := rfl

@[simp] theorem State.updCluster_dtime (s : State) (k : Nat) (f : Cluster → Cluster) : (s.updCluster k f).dtime = s.dtime := rfl
@[simp] theorem State.updCluster_mem (s : State) (k : Nat) (f : Cluster → Cluster) : (s.updCluster k f).mem = s.mem := rfl
@[simp] theorem State.updCluster_homes (s : State) (k : Nat) (f : Cluster → Cluster) : (s.updCluster k f).homes = s.homes := rfl
@[simp] theorem State.updCluster_writes (s : State) (k : Nat) (f : Cluster → Cluster) : (s.updCluster k f).writes = s.writes := rfl
@[simp] theorem State.updCluster_poison (s : State) (k : Nat) (f : Cluster → Cluster) : (s.updCluster k f).poison = s.poison := rfl
@[simp] theorem State.updCluster_hostLines (s : State) (k : Nat) (f : Cluster → Cluster) : (s.updCluster k f).hostLines = s.hostLines := rfl
@[simp] theorem State.updCluster_tasks (s : State) (k : Nat) (f : Cluster → Cluster) : (s.updCluster k f).tasks = s.tasks := rfl
@[simp] theorem State.updCluster_cores (s : State) (k : Nat) (f : Cluster → Cluster) : (s.updCluster k f).cores = s.cores := rfl
@[simp] theorem State.updCluster_ctxs (s : State) (k : Nat) (f : Cluster → Cluster) : (s.updCluster k f).ctxs = s.ctxs := rfl
@[simp] theorem State.updCluster_launches (s : State) (k : Nat) (f : Cluster → Cluster) : (s.updCluster k f).launches = s.launches := rfl
@[simp] theorem State.updCluster_locks (s : State) (k : Nat) (f : Cluster → Cluster) : (s.updCluster k f).locks = s.locks := rfl
@[simp] theorem State.updCluster_engs (s : State) (k : Nat) (f : Cluster → Cluster) : (s.updCluster k f).engs = s.engs := rfl
@[simp] theorem State.updCluster_outs (s : State) (k : Nat) (f : Cluster → Cluster) : (s.updCluster k f).outs = s.outs := rfl
@[simp] theorem State.updCluster_replay (s : State) (k : Nat) (f : Cluster → Cluster) : (s.updCluster k f).replay = s.replay := rfl
@[simp] theorem State.updCluster_ports (s : State) (k : Nat) (f : Cluster → Cluster) : (s.updCluster k f).ports = s.ports := rfl
@[simp] theorem State.updCluster_regs (s : State) (k : Nat) (f : Cluster → Cluster) : (s.updCluster k f).regs = s.regs := rfl
@[simp] theorem State.updCluster_accn (s : State) (k : Nat) (f : Cluster → Cluster) : (s.updCluster k f).accn = s.accn := rfl
@[simp] theorem State.updCluster_nextId (s : State) (k : Nat) (f : Cluster → Cluster) : (s.updCluster k f).nextId = s.nextId := rfl
@[simp] theorem State.updCluster_epoch (s : State) (k : Nat) (f : Cluster → Cluster) : (s.updCluster k f).epoch = s.epoch := rfl
@[simp] theorem State.updCluster_turn (s : State) (k : Nat) (f : Cluster → Cluster) : (s.updCluster k f).turn = s.turn := rfl
@[simp] theorem State.updCluster_free (s : State) (k : Nat) (f : Cluster → Cluster) : (s.updCluster k f).free = s.free := rfl
@[simp] theorem State.updCluster_still (s : State) (k : Nat) (f : Cluster → Cluster) : (s.updCluster k f).still = s.still := rfl
@[simp] theorem State.updCluster_asked (s : State) (k : Nat) (f : Cluster → Cluster) : (s.updCluster k f).asked = s.asked := rfl
@[simp] theorem State.updCluster_issue (s : State) (k : Nat) (f : Cluster → Cluster) : (s.updCluster k f).issue = s.issue := rfl
@[simp] theorem State.updCluster_agenda (s : State) (k : Nat) (f : Cluster → Cluster) : (s.updCluster k f).agenda = s.agenda := rfl
@[simp] theorem State.updCluster_sent (s : State) (k : Nat) (f : Cluster → Cluster) : (s.updCluster k f).sent = s.sent := rfl
@[simp] theorem State.updCluster_hole (s : State) (k : Nat) (f : Cluster → Cluster) : (s.updCluster k f).hole = s.hole := rfl

@[simp] theorem State.updCtx_dtime (s : State) (c : Nat) (f : Ctx → Ctx) : (s.updCtx c f).dtime = s.dtime := rfl
@[simp] theorem State.updCtx_mem (s : State) (c : Nat) (f : Ctx → Ctx) : (s.updCtx c f).mem = s.mem := rfl
@[simp] theorem State.updCtx_homes (s : State) (c : Nat) (f : Ctx → Ctx) : (s.updCtx c f).homes = s.homes := rfl
@[simp] theorem State.updCtx_writes (s : State) (c : Nat) (f : Ctx → Ctx) : (s.updCtx c f).writes = s.writes := rfl
@[simp] theorem State.updCtx_poison (s : State) (c : Nat) (f : Ctx → Ctx) : (s.updCtx c f).poison = s.poison := rfl
@[simp] theorem State.updCtx_hostLines (s : State) (c : Nat) (f : Ctx → Ctx) : (s.updCtx c f).hostLines = s.hostLines := rfl
@[simp] theorem State.updCtx_tasks (s : State) (c : Nat) (f : Ctx → Ctx) : (s.updCtx c f).tasks = s.tasks := rfl
@[simp] theorem State.updCtx_cores (s : State) (c : Nat) (f : Ctx → Ctx) : (s.updCtx c f).cores = s.cores := rfl
@[simp] theorem State.updCtx_clusters (s : State) (c : Nat) (f : Ctx → Ctx) : (s.updCtx c f).clusters = s.clusters := rfl
@[simp] theorem State.updCtx_launches (s : State) (c : Nat) (f : Ctx → Ctx) : (s.updCtx c f).launches = s.launches := rfl
@[simp] theorem State.updCtx_locks (s : State) (c : Nat) (f : Ctx → Ctx) : (s.updCtx c f).locks = s.locks := rfl
@[simp] theorem State.updCtx_engs (s : State) (c : Nat) (f : Ctx → Ctx) : (s.updCtx c f).engs = s.engs := rfl
@[simp] theorem State.updCtx_outs (s : State) (c : Nat) (f : Ctx → Ctx) : (s.updCtx c f).outs = s.outs := rfl
@[simp] theorem State.updCtx_replay (s : State) (c : Nat) (f : Ctx → Ctx) : (s.updCtx c f).replay = s.replay := rfl
@[simp] theorem State.updCtx_ports (s : State) (c : Nat) (f : Ctx → Ctx) : (s.updCtx c f).ports = s.ports := rfl
@[simp] theorem State.updCtx_regs (s : State) (c : Nat) (f : Ctx → Ctx) : (s.updCtx c f).regs = s.regs := rfl
@[simp] theorem State.updCtx_accn (s : State) (c : Nat) (f : Ctx → Ctx) : (s.updCtx c f).accn = s.accn := rfl
@[simp] theorem State.updCtx_nextId (s : State) (c : Nat) (f : Ctx → Ctx) : (s.updCtx c f).nextId = s.nextId := rfl
@[simp] theorem State.updCtx_epoch (s : State) (c : Nat) (f : Ctx → Ctx) : (s.updCtx c f).epoch = s.epoch := rfl
@[simp] theorem State.updCtx_turn (s : State) (c : Nat) (f : Ctx → Ctx) : (s.updCtx c f).turn = s.turn := rfl
@[simp] theorem State.updCtx_free (s : State) (c : Nat) (f : Ctx → Ctx) : (s.updCtx c f).free = s.free := rfl
@[simp] theorem State.updCtx_still (s : State) (c : Nat) (f : Ctx → Ctx) : (s.updCtx c f).still = s.still := rfl
@[simp] theorem State.updCtx_asked (s : State) (c : Nat) (f : Ctx → Ctx) : (s.updCtx c f).asked = s.asked := rfl
@[simp] theorem State.updCtx_issue (s : State) (c : Nat) (f : Ctx → Ctx) : (s.updCtx c f).issue = s.issue := rfl
@[simp] theorem State.updCtx_agenda (s : State) (c : Nat) (f : Ctx → Ctx) : (s.updCtx c f).agenda = s.agenda := rfl
@[simp] theorem State.updCtx_sent (s : State) (c : Nat) (f : Ctx → Ctx) : (s.updCtx c f).sent = s.sent := rfl
@[simp] theorem State.updCtx_hole (s : State) (c : Nat) (f : Ctx → Ctx) : (s.updCtx c f).hole = s.hole := rfl

@[simp] theorem State.updLaunch_dtime (s : State) (l : Nat) (f : Launch → Launch) : (s.updLaunch l f).dtime = s.dtime := rfl
@[simp] theorem State.updLaunch_mem (s : State) (l : Nat) (f : Launch → Launch) : (s.updLaunch l f).mem = s.mem := rfl
@[simp] theorem State.updLaunch_homes (s : State) (l : Nat) (f : Launch → Launch) : (s.updLaunch l f).homes = s.homes := rfl
@[simp] theorem State.updLaunch_writes (s : State) (l : Nat) (f : Launch → Launch) : (s.updLaunch l f).writes = s.writes := rfl
@[simp] theorem State.updLaunch_poison (s : State) (l : Nat) (f : Launch → Launch) : (s.updLaunch l f).poison = s.poison := rfl
@[simp] theorem State.updLaunch_hostLines (s : State) (l : Nat) (f : Launch → Launch) : (s.updLaunch l f).hostLines = s.hostLines := rfl
@[simp] theorem State.updLaunch_tasks (s : State) (l : Nat) (f : Launch → Launch) : (s.updLaunch l f).tasks = s.tasks := rfl
@[simp] theorem State.updLaunch_cores (s : State) (l : Nat) (f : Launch → Launch) : (s.updLaunch l f).cores = s.cores := rfl
@[simp] theorem State.updLaunch_clusters (s : State) (l : Nat) (f : Launch → Launch) : (s.updLaunch l f).clusters = s.clusters := rfl
@[simp] theorem State.updLaunch_ctxs (s : State) (l : Nat) (f : Launch → Launch) : (s.updLaunch l f).ctxs = s.ctxs := rfl
@[simp] theorem State.updLaunch_locks (s : State) (l : Nat) (f : Launch → Launch) : (s.updLaunch l f).locks = s.locks := rfl
@[simp] theorem State.updLaunch_engs (s : State) (l : Nat) (f : Launch → Launch) : (s.updLaunch l f).engs = s.engs := rfl
@[simp] theorem State.updLaunch_outs (s : State) (l : Nat) (f : Launch → Launch) : (s.updLaunch l f).outs = s.outs := rfl
@[simp] theorem State.updLaunch_replay (s : State) (l : Nat) (f : Launch → Launch) : (s.updLaunch l f).replay = s.replay := rfl
@[simp] theorem State.updLaunch_ports (s : State) (l : Nat) (f : Launch → Launch) : (s.updLaunch l f).ports = s.ports := rfl
@[simp] theorem State.updLaunch_regs (s : State) (l : Nat) (f : Launch → Launch) : (s.updLaunch l f).regs = s.regs := rfl
@[simp] theorem State.updLaunch_accn (s : State) (l : Nat) (f : Launch → Launch) : (s.updLaunch l f).accn = s.accn := rfl
@[simp] theorem State.updLaunch_nextId (s : State) (l : Nat) (f : Launch → Launch) : (s.updLaunch l f).nextId = s.nextId := rfl
@[simp] theorem State.updLaunch_epoch (s : State) (l : Nat) (f : Launch → Launch) : (s.updLaunch l f).epoch = s.epoch := rfl
@[simp] theorem State.updLaunch_turn (s : State) (l : Nat) (f : Launch → Launch) : (s.updLaunch l f).turn = s.turn := rfl
@[simp] theorem State.updLaunch_free (s : State) (l : Nat) (f : Launch → Launch) : (s.updLaunch l f).free = s.free := rfl
@[simp] theorem State.updLaunch_still (s : State) (l : Nat) (f : Launch → Launch) : (s.updLaunch l f).still = s.still := rfl
@[simp] theorem State.updLaunch_asked (s : State) (l : Nat) (f : Launch → Launch) : (s.updLaunch l f).asked = s.asked := rfl
@[simp] theorem State.updLaunch_issue (s : State) (l : Nat) (f : Launch → Launch) : (s.updLaunch l f).issue = s.issue := rfl
@[simp] theorem State.updLaunch_agenda (s : State) (l : Nat) (f : Launch → Launch) : (s.updLaunch l f).agenda = s.agenda := rfl
@[simp] theorem State.updLaunch_sent (s : State) (l : Nat) (f : Launch → Launch) : (s.updLaunch l f).sent = s.sent := rfl
@[simp] theorem State.updLaunch_hole (s : State) (l : Nat) (f : Launch → Launch) : (s.updLaunch l f).hole = s.hole := rfl

@[simp] theorem State.due_dtime (s : State) (e : Instr) : (s.due e).dtime = s.dtime := rfl
@[simp] theorem State.due_mem (s : State) (e : Instr) : (s.due e).mem = s.mem := rfl
@[simp] theorem State.due_homes (s : State) (e : Instr) : (s.due e).homes = s.homes := rfl
@[simp] theorem State.due_writes (s : State) (e : Instr) : (s.due e).writes = s.writes := rfl
@[simp] theorem State.due_poison (s : State) (e : Instr) : (s.due e).poison = s.poison := rfl
@[simp] theorem State.due_hostLines (s : State) (e : Instr) : (s.due e).hostLines = s.hostLines := rfl
@[simp] theorem State.due_tasks (s : State) (e : Instr) : (s.due e).tasks = s.tasks := rfl
@[simp] theorem State.due_cores (s : State) (e : Instr) : (s.due e).cores = s.cores := rfl
@[simp] theorem State.due_clusters (s : State) (e : Instr) : (s.due e).clusters = s.clusters := rfl
@[simp] theorem State.due_ctxs (s : State) (e : Instr) : (s.due e).ctxs = s.ctxs := rfl
@[simp] theorem State.due_launches (s : State) (e : Instr) : (s.due e).launches = s.launches := rfl
@[simp] theorem State.due_locks (s : State) (e : Instr) : (s.due e).locks = s.locks := rfl
@[simp] theorem State.due_engs (s : State) (e : Instr) : (s.due e).engs = s.engs := rfl
@[simp] theorem State.due_outs (s : State) (e : Instr) : (s.due e).outs = s.outs := rfl
@[simp] theorem State.due_replay (s : State) (e : Instr) : (s.due e).replay = s.replay := rfl
@[simp] theorem State.due_ports (s : State) (e : Instr) : (s.due e).ports = s.ports := rfl
@[simp] theorem State.due_regs (s : State) (e : Instr) : (s.due e).regs = s.regs := rfl
@[simp] theorem State.due_accn (s : State) (e : Instr) : (s.due e).accn = s.accn := rfl
@[simp] theorem State.due_nextId (s : State) (e : Instr) : (s.due e).nextId = s.nextId := rfl
@[simp] theorem State.due_epoch (s : State) (e : Instr) : (s.due e).epoch = s.epoch := rfl
@[simp] theorem State.due_turn (s : State) (e : Instr) : (s.due e).turn = s.turn := rfl
@[simp] theorem State.due_free (s : State) (e : Instr) : (s.due e).free = s.free := rfl
@[simp] theorem State.due_still (s : State) (e : Instr) : (s.due e).still = s.still := rfl
@[simp] theorem State.due_asked (s : State) (e : Instr) : (s.due e).asked = s.asked := rfl
@[simp] theorem State.due_issue (s : State) (e : Instr) : (s.due e).issue = s.issue := rfl
@[simp] theorem State.due_sent (s : State) (e : Instr) : (s.due e).sent = s.sent := rfl
@[simp] theorem State.due_hole (s : State) (e : Instr) : (s.due e).hole = s.hole := rfl

@[simp] theorem State.emit_dtime (s : State) (x : Sent) : (s.emit x).dtime = s.dtime := rfl
@[simp] theorem State.emit_mem (s : State) (x : Sent) : (s.emit x).mem = s.mem := rfl
@[simp] theorem State.emit_homes (s : State) (x : Sent) : (s.emit x).homes = s.homes := rfl
@[simp] theorem State.emit_writes (s : State) (x : Sent) : (s.emit x).writes = s.writes := rfl
@[simp] theorem State.emit_poison (s : State) (x : Sent) : (s.emit x).poison = s.poison := rfl
@[simp] theorem State.emit_hostLines (s : State) (x : Sent) : (s.emit x).hostLines = s.hostLines := rfl
@[simp] theorem State.emit_tasks (s : State) (x : Sent) : (s.emit x).tasks = s.tasks := rfl
@[simp] theorem State.emit_cores (s : State) (x : Sent) : (s.emit x).cores = s.cores := rfl
@[simp] theorem State.emit_clusters (s : State) (x : Sent) : (s.emit x).clusters = s.clusters := rfl
@[simp] theorem State.emit_ctxs (s : State) (x : Sent) : (s.emit x).ctxs = s.ctxs := rfl
@[simp] theorem State.emit_launches (s : State) (x : Sent) : (s.emit x).launches = s.launches := rfl
@[simp] theorem State.emit_locks (s : State) (x : Sent) : (s.emit x).locks = s.locks := rfl
@[simp] theorem State.emit_engs (s : State) (x : Sent) : (s.emit x).engs = s.engs := rfl
@[simp] theorem State.emit_outs (s : State) (x : Sent) : (s.emit x).outs = s.outs := rfl
@[simp] theorem State.emit_replay (s : State) (x : Sent) : (s.emit x).replay = s.replay := rfl
@[simp] theorem State.emit_ports (s : State) (x : Sent) : (s.emit x).ports = s.ports := rfl
@[simp] theorem State.emit_regs (s : State) (x : Sent) : (s.emit x).regs = s.regs := rfl
@[simp] theorem State.emit_accn (s : State) (x : Sent) : (s.emit x).accn = s.accn := rfl
@[simp] theorem State.emit_nextId (s : State) (x : Sent) : (s.emit x).nextId = s.nextId := rfl
@[simp] theorem State.emit_epoch (s : State) (x : Sent) : (s.emit x).epoch = s.epoch := rfl
@[simp] theorem State.emit_turn (s : State) (x : Sent) : (s.emit x).turn = s.turn := rfl
@[simp] theorem State.emit_free (s : State) (x : Sent) : (s.emit x).free = s.free := rfl
@[simp] theorem State.emit_still (s : State) (x : Sent) : (s.emit x).still = s.still := rfl
@[simp] theorem State.emit_asked (s : State) (x : Sent) : (s.emit x).asked = s.asked := rfl
@[simp] theorem State.emit_issue (s : State) (x : Sent) : (s.emit x).issue = s.issue := rfl
@[simp] theorem State.emit_agenda (s : State) (x : Sent) : (s.emit x).agenda = s.agenda := rfl
@[simp] theorem State.emit_hole (s : State) (x : Sent) : (s.emit x).hole = s.hole := rfl

@[simp] theorem State.drew_dtime (s : State) : (s.drew).dtime = s.dtime := rfl
@[simp] theorem State.drew_mem (s : State) : (s.drew).mem = s.mem := rfl
@[simp] theorem State.drew_homes (s : State) : (s.drew).homes = s.homes := rfl
@[simp] theorem State.drew_writes (s : State) : (s.drew).writes = s.writes := rfl
@[simp] theorem State.drew_poison (s : State) : (s.drew).poison = s.poison := rfl
@[simp] theorem State.drew_hostLines (s : State) : (s.drew).hostLines = s.hostLines := rfl
@[simp] theorem State.drew_tasks (s : State) : (s.drew).tasks = s.tasks := rfl
@[simp] theorem State.drew_cores (s : State) : (s.drew).cores = s.cores := rfl
@[simp] theorem State.drew_clusters (s : State) : (s.drew).clusters = s.clusters := rfl
@[simp] theorem State.drew_ctxs (s : State) : (s.drew).ctxs = s.ctxs := rfl
@[simp] theorem State.drew_launches (s : State) : (s.drew).launches = s.launches := rfl
@[simp] theorem State.drew_locks (s : State) : (s.drew).locks = s.locks := rfl
@[simp] theorem State.drew_engs (s : State) : (s.drew).engs = s.engs := rfl
@[simp] theorem State.drew_outs (s : State) : (s.drew).outs = s.outs := rfl
@[simp] theorem State.drew_replay (s : State) : (s.drew).replay = s.replay := rfl
@[simp] theorem State.drew_ports (s : State) : (s.drew).ports = s.ports := rfl
@[simp] theorem State.drew_regs (s : State) : (s.drew).regs = s.regs := rfl
@[simp] theorem State.drew_accn (s : State) : (s.drew).accn = s.accn := rfl
@[simp] theorem State.drew_nextId (s : State) : (s.drew).nextId = s.nextId := rfl
@[simp] theorem State.drew_epoch (s : State) : (s.drew).epoch = s.epoch := rfl
@[simp] theorem State.drew_turn (s : State) : (s.drew).turn = s.turn := rfl
@[simp] theorem State.drew_still (s : State) : (s.drew).still = s.still := rfl
@[simp] theorem State.drew_asked (s : State) : (s.drew).asked = s.asked := rfl
@[simp] theorem State.drew_issue (s : State) : (s.drew).issue = s.issue := rfl
@[simp] theorem State.drew_agenda (s : State) : (s.drew).agenda = s.agenda := rfl
@[simp] theorem State.drew_sent (s : State) : (s.drew).sent = s.sent := rfl
@[simp] theorem State.drew_hole (s : State) : (s.drew).hole = s.hole := rfl

@[simp] theorem State.haltTask_dtime (s : State) (a : Nat) (k : StopKind) (i : Word) (x : Nat) : (s.haltTask a k i x).dtime = s.dtime := rfl
@[simp] theorem State.haltTask_mem (s : State) (a : Nat) (k : StopKind) (i : Word) (x : Nat) : (s.haltTask a k i x).mem = s.mem := rfl
@[simp] theorem State.haltTask_homes (s : State) (a : Nat) (k : StopKind) (i : Word) (x : Nat) : (s.haltTask a k i x).homes = s.homes := rfl
@[simp] theorem State.haltTask_writes (s : State) (a : Nat) (k : StopKind) (i : Word) (x : Nat) : (s.haltTask a k i x).writes = s.writes := rfl
@[simp] theorem State.haltTask_poison (s : State) (a : Nat) (k : StopKind) (i : Word) (x : Nat) : (s.haltTask a k i x).poison = s.poison := rfl
@[simp] theorem State.haltTask_hostLines (s : State) (a : Nat) (k : StopKind) (i : Word) (x : Nat) : (s.haltTask a k i x).hostLines = s.hostLines := rfl
@[simp] theorem State.haltTask_cores (s : State) (a : Nat) (k : StopKind) (i : Word) (x : Nat) : (s.haltTask a k i x).cores = s.cores := rfl
@[simp] theorem State.haltTask_clusters (s : State) (a : Nat) (k : StopKind) (i : Word) (x : Nat) : (s.haltTask a k i x).clusters = s.clusters := rfl
@[simp] theorem State.haltTask_ctxs (s : State) (a : Nat) (k : StopKind) (i : Word) (x : Nat) : (s.haltTask a k i x).ctxs = s.ctxs := rfl
@[simp] theorem State.haltTask_launches (s : State) (a : Nat) (k : StopKind) (i : Word) (x : Nat) : (s.haltTask a k i x).launches = s.launches := rfl
@[simp] theorem State.haltTask_locks (s : State) (a : Nat) (k : StopKind) (i : Word) (x : Nat) : (s.haltTask a k i x).locks = s.locks := rfl
@[simp] theorem State.haltTask_engs (s : State) (a : Nat) (k : StopKind) (i : Word) (x : Nat) : (s.haltTask a k i x).engs = s.engs := rfl
@[simp] theorem State.haltTask_outs (s : State) (a : Nat) (k : StopKind) (i : Word) (x : Nat) : (s.haltTask a k i x).outs = s.outs := rfl
@[simp] theorem State.haltTask_replay (s : State) (a : Nat) (k : StopKind) (i : Word) (x : Nat) : (s.haltTask a k i x).replay = s.replay := rfl
@[simp] theorem State.haltTask_ports (s : State) (a : Nat) (k : StopKind) (i : Word) (x : Nat) : (s.haltTask a k i x).ports = s.ports := rfl
@[simp] theorem State.haltTask_regs (s : State) (a : Nat) (k : StopKind) (i : Word) (x : Nat) : (s.haltTask a k i x).regs = s.regs := rfl
@[simp] theorem State.haltTask_accn (s : State) (a : Nat) (k : StopKind) (i : Word) (x : Nat) : (s.haltTask a k i x).accn = s.accn := rfl
@[simp] theorem State.haltTask_nextId (s : State) (a : Nat) (k : StopKind) (i : Word) (x : Nat) : (s.haltTask a k i x).nextId = s.nextId := rfl
@[simp] theorem State.haltTask_epoch (s : State) (a : Nat) (k : StopKind) (i : Word) (x : Nat) : (s.haltTask a k i x).epoch = s.epoch := rfl
@[simp] theorem State.haltTask_turn (s : State) (a : Nat) (k : StopKind) (i : Word) (x : Nat) : (s.haltTask a k i x).turn = s.turn := rfl
@[simp] theorem State.haltTask_free (s : State) (a : Nat) (k : StopKind) (i : Word) (x : Nat) : (s.haltTask a k i x).free = s.free := rfl
@[simp] theorem State.haltTask_still (s : State) (a : Nat) (k : StopKind) (i : Word) (x : Nat) : (s.haltTask a k i x).still = s.still := rfl
@[simp] theorem State.haltTask_asked (s : State) (a : Nat) (k : StopKind) (i : Word) (x : Nat) : (s.haltTask a k i x).asked = s.asked := rfl
@[simp] theorem State.haltTask_issue (s : State) (a : Nat) (k : StopKind) (i : Word) (x : Nat) : (s.haltTask a k i x).issue = s.issue := rfl
@[simp] theorem State.haltTask_agenda (s : State) (a : Nat) (k : StopKind) (i : Word) (x : Nat) : (s.haltTask a k i x).agenda = s.agenda := rfl
@[simp] theorem State.haltTask_sent (s : State) (a : Nat) (k : StopKind) (i : Word) (x : Nat) : (s.haltTask a k i x).sent = s.sent := rfl
@[simp] theorem State.haltTask_hole (s : State) (a : Nat) (k : StopKind) (i : Word) (x : Nat) : (s.haltTask a k i x).hole = s.hole := rfl

@[simp] theorem State.wakeTask_dtime (s : State) (a : Nat) (ws : List Wait) : (s.wakeTask a ws).dtime = s.dtime := rfl
@[simp] theorem State.wakeTask_mem (s : State) (a : Nat) (ws : List Wait) : (s.wakeTask a ws).mem = s.mem := rfl
@[simp] theorem State.wakeTask_homes (s : State) (a : Nat) (ws : List Wait) : (s.wakeTask a ws).homes = s.homes := rfl
@[simp] theorem State.wakeTask_writes (s : State) (a : Nat) (ws : List Wait) : (s.wakeTask a ws).writes = s.writes := rfl
@[simp] theorem State.wakeTask_poison (s : State) (a : Nat) (ws : List Wait) : (s.wakeTask a ws).poison = s.poison := rfl
@[simp] theorem State.wakeTask_hostLines (s : State) (a : Nat) (ws : List Wait) : (s.wakeTask a ws).hostLines = s.hostLines := rfl
@[simp] theorem State.wakeTask_cores (s : State) (a : Nat) (ws : List Wait) : (s.wakeTask a ws).cores = s.cores := rfl
@[simp] theorem State.wakeTask_clusters (s : State) (a : Nat) (ws : List Wait) : (s.wakeTask a ws).clusters = s.clusters := rfl
@[simp] theorem State.wakeTask_ctxs (s : State) (a : Nat) (ws : List Wait) : (s.wakeTask a ws).ctxs = s.ctxs := rfl
@[simp] theorem State.wakeTask_launches (s : State) (a : Nat) (ws : List Wait) : (s.wakeTask a ws).launches = s.launches := rfl
@[simp] theorem State.wakeTask_locks (s : State) (a : Nat) (ws : List Wait) : (s.wakeTask a ws).locks = s.locks := rfl
@[simp] theorem State.wakeTask_engs (s : State) (a : Nat) (ws : List Wait) : (s.wakeTask a ws).engs = s.engs := rfl
@[simp] theorem State.wakeTask_outs (s : State) (a : Nat) (ws : List Wait) : (s.wakeTask a ws).outs = s.outs := rfl
@[simp] theorem State.wakeTask_replay (s : State) (a : Nat) (ws : List Wait) : (s.wakeTask a ws).replay = s.replay := rfl
@[simp] theorem State.wakeTask_ports (s : State) (a : Nat) (ws : List Wait) : (s.wakeTask a ws).ports = s.ports := rfl
@[simp] theorem State.wakeTask_regs (s : State) (a : Nat) (ws : List Wait) : (s.wakeTask a ws).regs = s.regs := rfl
@[simp] theorem State.wakeTask_accn (s : State) (a : Nat) (ws : List Wait) : (s.wakeTask a ws).accn = s.accn := rfl
@[simp] theorem State.wakeTask_nextId (s : State) (a : Nat) (ws : List Wait) : (s.wakeTask a ws).nextId = s.nextId := rfl
@[simp] theorem State.wakeTask_epoch (s : State) (a : Nat) (ws : List Wait) : (s.wakeTask a ws).epoch = s.epoch := rfl
@[simp] theorem State.wakeTask_turn (s : State) (a : Nat) (ws : List Wait) : (s.wakeTask a ws).turn = s.turn := rfl
@[simp] theorem State.wakeTask_free (s : State) (a : Nat) (ws : List Wait) : (s.wakeTask a ws).free = s.free := rfl
@[simp] theorem State.wakeTask_still (s : State) (a : Nat) (ws : List Wait) : (s.wakeTask a ws).still = s.still := rfl
@[simp] theorem State.wakeTask_asked (s : State) (a : Nat) (ws : List Wait) : (s.wakeTask a ws).asked = s.asked := rfl
@[simp] theorem State.wakeTask_issue (s : State) (a : Nat) (ws : List Wait) : (s.wakeTask a ws).issue = s.issue := rfl
@[simp] theorem State.wakeTask_agenda (s : State) (a : Nat) (ws : List Wait) : (s.wakeTask a ws).agenda = s.agenda := rfl
@[simp] theorem State.wakeTask_sent (s : State) (a : Nat) (ws : List Wait) : (s.wakeTask a ws).sent = s.sent := rfl
@[simp] theorem State.wakeTask_hole (s : State) (a : Nat) (ws : List Wait) : (s.wakeTask a ws).hole = s.hole := rfl

@[simp] theorem State.pass_dtime (s : State) (ts : List Nat) : (s.pass ts).dtime = s.dtime := rfl
@[simp] theorem State.pass_mem (s : State) (ts : List Nat) : (s.pass ts).mem = s.mem := rfl
@[simp] theorem State.pass_homes (s : State) (ts : List Nat) : (s.pass ts).homes = s.homes := rfl
@[simp] theorem State.pass_writes (s : State) (ts : List Nat) : (s.pass ts).writes = s.writes := rfl
@[simp] theorem State.pass_poison (s : State) (ts : List Nat) : (s.pass ts).poison = s.poison := rfl
@[simp] theorem State.pass_hostLines (s : State) (ts : List Nat) : (s.pass ts).hostLines = s.hostLines := rfl
@[simp] theorem State.pass_cores (s : State) (ts : List Nat) : (s.pass ts).cores = s.cores := rfl
@[simp] theorem State.pass_clusters (s : State) (ts : List Nat) : (s.pass ts).clusters = s.clusters := rfl
@[simp] theorem State.pass_ctxs (s : State) (ts : List Nat) : (s.pass ts).ctxs = s.ctxs := rfl
@[simp] theorem State.pass_launches (s : State) (ts : List Nat) : (s.pass ts).launches = s.launches := rfl
@[simp] theorem State.pass_locks (s : State) (ts : List Nat) : (s.pass ts).locks = s.locks := rfl
@[simp] theorem State.pass_engs (s : State) (ts : List Nat) : (s.pass ts).engs = s.engs := rfl
@[simp] theorem State.pass_outs (s : State) (ts : List Nat) : (s.pass ts).outs = s.outs := rfl
@[simp] theorem State.pass_replay (s : State) (ts : List Nat) : (s.pass ts).replay = s.replay := rfl
@[simp] theorem State.pass_ports (s : State) (ts : List Nat) : (s.pass ts).ports = s.ports := rfl
@[simp] theorem State.pass_regs (s : State) (ts : List Nat) : (s.pass ts).regs = s.regs := rfl
@[simp] theorem State.pass_accn (s : State) (ts : List Nat) : (s.pass ts).accn = s.accn := rfl
@[simp] theorem State.pass_nextId (s : State) (ts : List Nat) : (s.pass ts).nextId = s.nextId := rfl
@[simp] theorem State.pass_epoch (s : State) (ts : List Nat) : (s.pass ts).epoch = s.epoch := rfl
@[simp] theorem State.pass_turn (s : State) (ts : List Nat) : (s.pass ts).turn = s.turn := rfl
@[simp] theorem State.pass_free (s : State) (ts : List Nat) : (s.pass ts).free = s.free := rfl
@[simp] theorem State.pass_still (s : State) (ts : List Nat) : (s.pass ts).still = s.still := rfl
@[simp] theorem State.pass_asked (s : State) (ts : List Nat) : (s.pass ts).asked = s.asked := rfl
@[simp] theorem State.pass_issue (s : State) (ts : List Nat) : (s.pass ts).issue = s.issue := rfl
@[simp] theorem State.pass_agenda (s : State) (ts : List Nat) : (s.pass ts).agenda = s.agenda := rfl
@[simp] theorem State.pass_sent (s : State) (ts : List Nat) : (s.pass ts).sent = s.sent := rfl
@[simp] theorem State.pass_hole (s : State) (ts : List Nat) : (s.pass ts).hole = s.hole := rfl

@[simp] theorem State.updHome_dtime (s : State) (l : Nat) (f : Home → Home) : (s.updHome l f).dtime = s.dtime := rfl
@[simp] theorem State.updHome_mem (s : State) (l : Nat) (f : Home → Home) : (s.updHome l f).mem = s.mem := rfl
@[simp] theorem State.updHome_writes (s : State) (l : Nat) (f : Home → Home) : (s.updHome l f).writes = s.writes := rfl
@[simp] theorem State.updHome_poison (s : State) (l : Nat) (f : Home → Home) : (s.updHome l f).poison = s.poison := rfl
@[simp] theorem State.updHome_hostLines (s : State) (l : Nat) (f : Home → Home) : (s.updHome l f).hostLines = s.hostLines := rfl
@[simp] theorem State.updHome_tasks (s : State) (l : Nat) (f : Home → Home) : (s.updHome l f).tasks = s.tasks := rfl
@[simp] theorem State.updHome_cores (s : State) (l : Nat) (f : Home → Home) : (s.updHome l f).cores = s.cores := rfl
@[simp] theorem State.updHome_clusters (s : State) (l : Nat) (f : Home → Home) : (s.updHome l f).clusters = s.clusters := rfl
@[simp] theorem State.updHome_ctxs (s : State) (l : Nat) (f : Home → Home) : (s.updHome l f).ctxs = s.ctxs := rfl
@[simp] theorem State.updHome_launches (s : State) (l : Nat) (f : Home → Home) : (s.updHome l f).launches = s.launches := rfl
@[simp] theorem State.updHome_locks (s : State) (l : Nat) (f : Home → Home) : (s.updHome l f).locks = s.locks := rfl
@[simp] theorem State.updHome_engs (s : State) (l : Nat) (f : Home → Home) : (s.updHome l f).engs = s.engs := rfl
@[simp] theorem State.updHome_outs (s : State) (l : Nat) (f : Home → Home) : (s.updHome l f).outs = s.outs := rfl
@[simp] theorem State.updHome_replay (s : State) (l : Nat) (f : Home → Home) : (s.updHome l f).replay = s.replay := rfl
@[simp] theorem State.updHome_ports (s : State) (l : Nat) (f : Home → Home) : (s.updHome l f).ports = s.ports := rfl
@[simp] theorem State.updHome_regs (s : State) (l : Nat) (f : Home → Home) : (s.updHome l f).regs = s.regs := rfl
@[simp] theorem State.updHome_accn (s : State) (l : Nat) (f : Home → Home) : (s.updHome l f).accn = s.accn := rfl
@[simp] theorem State.updHome_nextId (s : State) (l : Nat) (f : Home → Home) : (s.updHome l f).nextId = s.nextId := rfl
@[simp] theorem State.updHome_epoch (s : State) (l : Nat) (f : Home → Home) : (s.updHome l f).epoch = s.epoch := rfl
@[simp] theorem State.updHome_turn (s : State) (l : Nat) (f : Home → Home) : (s.updHome l f).turn = s.turn := rfl
@[simp] theorem State.updHome_free (s : State) (l : Nat) (f : Home → Home) : (s.updHome l f).free = s.free := rfl
@[simp] theorem State.updHome_still (s : State) (l : Nat) (f : Home → Home) : (s.updHome l f).still = s.still := rfl
@[simp] theorem State.updHome_asked (s : State) (l : Nat) (f : Home → Home) : (s.updHome l f).asked = s.asked := rfl
@[simp] theorem State.updHome_issue (s : State) (l : Nat) (f : Home → Home) : (s.updHome l f).issue = s.issue := rfl
@[simp] theorem State.updHome_agenda (s : State) (l : Nat) (f : Home → Home) : (s.updHome l f).agenda = s.agenda := rfl
@[simp] theorem State.updHome_sent (s : State) (l : Nat) (f : Home → Home) : (s.updHome l f).sent = s.sent := rfl
@[simp] theorem State.updHome_hole (s : State) (l : Nat) (f : Home → Home) : (s.updHome l f).hole = s.hole := rfl

@[simp] theorem State.noteWct_dtime (s : State) (a t w : Nat) : (s.noteWct a t w).dtime = s.dtime := rfl
@[simp] theorem State.noteWct_mem (s : State) (a t w : Nat) : (s.noteWct a t w).mem = s.mem := rfl
@[simp] theorem State.noteWct_homes (s : State) (a t w : Nat) : (s.noteWct a t w).homes = s.homes := rfl
@[simp] theorem State.noteWct_writes (s : State) (a t w : Nat) : (s.noteWct a t w).writes = s.writes := rfl
@[simp] theorem State.noteWct_poison (s : State) (a t w : Nat) : (s.noteWct a t w).poison = s.poison := rfl
@[simp] theorem State.noteWct_hostLines (s : State) (a t w : Nat) : (s.noteWct a t w).hostLines = s.hostLines := rfl
@[simp] theorem State.noteWct_cores (s : State) (a t w : Nat) : (s.noteWct a t w).cores = s.cores := rfl
@[simp] theorem State.noteWct_clusters (s : State) (a t w : Nat) : (s.noteWct a t w).clusters = s.clusters := rfl
@[simp] theorem State.noteWct_ctxs (s : State) (a t w : Nat) : (s.noteWct a t w).ctxs = s.ctxs := rfl
@[simp] theorem State.noteWct_launches (s : State) (a t w : Nat) : (s.noteWct a t w).launches = s.launches := rfl
@[simp] theorem State.noteWct_locks (s : State) (a t w : Nat) : (s.noteWct a t w).locks = s.locks := rfl
@[simp] theorem State.noteWct_engs (s : State) (a t w : Nat) : (s.noteWct a t w).engs = s.engs := rfl
@[simp] theorem State.noteWct_outs (s : State) (a t w : Nat) : (s.noteWct a t w).outs = s.outs := rfl
@[simp] theorem State.noteWct_replay (s : State) (a t w : Nat) : (s.noteWct a t w).replay = s.replay := rfl
@[simp] theorem State.noteWct_ports (s : State) (a t w : Nat) : (s.noteWct a t w).ports = s.ports := rfl
@[simp] theorem State.noteWct_regs (s : State) (a t w : Nat) : (s.noteWct a t w).regs = s.regs := rfl
@[simp] theorem State.noteWct_accn (s : State) (a t w : Nat) : (s.noteWct a t w).accn = s.accn := rfl
@[simp] theorem State.noteWct_nextId (s : State) (a t w : Nat) : (s.noteWct a t w).nextId = s.nextId := rfl
@[simp] theorem State.noteWct_epoch (s : State) (a t w : Nat) : (s.noteWct a t w).epoch = s.epoch := rfl
@[simp] theorem State.noteWct_turn (s : State) (a t w : Nat) : (s.noteWct a t w).turn = s.turn := rfl
@[simp] theorem State.noteWct_free (s : State) (a t w : Nat) : (s.noteWct a t w).free = s.free := rfl
@[simp] theorem State.noteWct_still (s : State) (a t w : Nat) : (s.noteWct a t w).still = s.still := rfl
@[simp] theorem State.noteWct_asked (s : State) (a t w : Nat) : (s.noteWct a t w).asked = s.asked := rfl
@[simp] theorem State.noteWct_issue (s : State) (a t w : Nat) : (s.noteWct a t w).issue = s.issue := rfl
@[simp] theorem State.noteWct_agenda (s : State) (a t w : Nat) : (s.noteWct a t w).agenda = s.agenda := rfl
@[simp] theorem State.noteWct_sent (s : State) (a t w : Nat) : (s.noteWct a t w).sent = s.sent := rfl
@[simp] theorem State.noteWct_hole (s : State) (a t w : Nat) : (s.noteWct a t w).hole = s.hole := rfl

@[simp] theorem State.acceptUnder_dtime (s : State) (l w b : Nat) (bs : KMap Byte) (c : Nat) (os : List Nat) (d : Bool) : (s.acceptUnder l w b bs c os d).dtime = s.dtime := rfl
@[simp] theorem State.acceptUnder_mem (s : State) (l w b : Nat) (bs : KMap Byte) (c : Nat) (os : List Nat) (d : Bool) : (s.acceptUnder l w b bs c os d).mem = s.mem := rfl
@[simp] theorem State.acceptUnder_poison (s : State) (l w b : Nat) (bs : KMap Byte) (c : Nat) (os : List Nat) (d : Bool) : (s.acceptUnder l w b bs c os d).poison = s.poison := rfl
@[simp] theorem State.acceptUnder_tasks (s : State) (l w b : Nat) (bs : KMap Byte) (c : Nat) (os : List Nat) (d : Bool) : (s.acceptUnder l w b bs c os d).tasks = s.tasks := rfl
@[simp] theorem State.acceptUnder_cores (s : State) (l w b : Nat) (bs : KMap Byte) (c : Nat) (os : List Nat) (d : Bool) : (s.acceptUnder l w b bs c os d).cores = s.cores := rfl
@[simp] theorem State.acceptUnder_clusters (s : State) (l w b : Nat) (bs : KMap Byte) (c : Nat) (os : List Nat) (d : Bool) : (s.acceptUnder l w b bs c os d).clusters = s.clusters := rfl
@[simp] theorem State.acceptUnder_ctxs (s : State) (l w b : Nat) (bs : KMap Byte) (c : Nat) (os : List Nat) (d : Bool) : (s.acceptUnder l w b bs c os d).ctxs = s.ctxs := rfl
@[simp] theorem State.acceptUnder_launches (s : State) (l w b : Nat) (bs : KMap Byte) (c : Nat) (os : List Nat) (d : Bool) : (s.acceptUnder l w b bs c os d).launches = s.launches := rfl
@[simp] theorem State.acceptUnder_locks (s : State) (l w b : Nat) (bs : KMap Byte) (c : Nat) (os : List Nat) (d : Bool) : (s.acceptUnder l w b bs c os d).locks = s.locks := rfl
@[simp] theorem State.acceptUnder_engs (s : State) (l w b : Nat) (bs : KMap Byte) (c : Nat) (os : List Nat) (d : Bool) : (s.acceptUnder l w b bs c os d).engs = s.engs := rfl
@[simp] theorem State.acceptUnder_outs (s : State) (l w b : Nat) (bs : KMap Byte) (c : Nat) (os : List Nat) (d : Bool) : (s.acceptUnder l w b bs c os d).outs = s.outs := rfl
@[simp] theorem State.acceptUnder_replay (s : State) (l w b : Nat) (bs : KMap Byte) (c : Nat) (os : List Nat) (d : Bool) : (s.acceptUnder l w b bs c os d).replay = s.replay := rfl
@[simp] theorem State.acceptUnder_ports (s : State) (l w b : Nat) (bs : KMap Byte) (c : Nat) (os : List Nat) (d : Bool) : (s.acceptUnder l w b bs c os d).ports = s.ports := rfl
@[simp] theorem State.acceptUnder_regs (s : State) (l w b : Nat) (bs : KMap Byte) (c : Nat) (os : List Nat) (d : Bool) : (s.acceptUnder l w b bs c os d).regs = s.regs := rfl
@[simp] theorem State.acceptUnder_accn (s : State) (l w b : Nat) (bs : KMap Byte) (c : Nat) (os : List Nat) (d : Bool) : (s.acceptUnder l w b bs c os d).accn = s.accn := rfl
@[simp] theorem State.acceptUnder_nextId (s : State) (l w b : Nat) (bs : KMap Byte) (c : Nat) (os : List Nat) (d : Bool) : (s.acceptUnder l w b bs c os d).nextId = s.nextId := rfl
@[simp] theorem State.acceptUnder_epoch (s : State) (l w b : Nat) (bs : KMap Byte) (c : Nat) (os : List Nat) (d : Bool) : (s.acceptUnder l w b bs c os d).epoch = s.epoch := rfl
@[simp] theorem State.acceptUnder_turn (s : State) (l w b : Nat) (bs : KMap Byte) (c : Nat) (os : List Nat) (d : Bool) : (s.acceptUnder l w b bs c os d).turn = s.turn := rfl
@[simp] theorem State.acceptUnder_free (s : State) (l w b : Nat) (bs : KMap Byte) (c : Nat) (os : List Nat) (d : Bool) : (s.acceptUnder l w b bs c os d).free = s.free := rfl
@[simp] theorem State.acceptUnder_still (s : State) (l w b : Nat) (bs : KMap Byte) (c : Nat) (os : List Nat) (d : Bool) : (s.acceptUnder l w b bs c os d).still = s.still := rfl
@[simp] theorem State.acceptUnder_asked (s : State) (l w b : Nat) (bs : KMap Byte) (c : Nat) (os : List Nat) (d : Bool) : (s.acceptUnder l w b bs c os d).asked = s.asked := rfl
@[simp] theorem State.acceptUnder_issue (s : State) (l w b : Nat) (bs : KMap Byte) (c : Nat) (os : List Nat) (d : Bool) : (s.acceptUnder l w b bs c os d).issue = s.issue := rfl
@[simp] theorem State.acceptUnder_agenda (s : State) (l w b : Nat) (bs : KMap Byte) (c : Nat) (os : List Nat) (d : Bool) : (s.acceptUnder l w b bs c os d).agenda = s.agenda := rfl
@[simp] theorem State.acceptUnder_sent (s : State) (l w b : Nat) (bs : KMap Byte) (c : Nat) (os : List Nat) (d : Bool) : (s.acceptUnder l w b bs c os d).sent = s.sent := rfl
@[simp] theorem State.acceptUnder_hole (s : State) (l w b : Nat) (bs : KMap Byte) (c : Nat) (os : List Nat) (d : Bool) : (s.acceptUnder l w b bs c os d).hole = s.hole := rfl

@[simp] theorem State.acceptAt_dtime (s : State) (l w : Nat) (bs : KMap Byte) (c : Nat) (os : List Nat) : (s.acceptAt l w bs c os).dtime = s.dtime := rfl
@[simp] theorem State.acceptAt_mem (s : State) (l w : Nat) (bs : KMap Byte) (c : Nat) (os : List Nat) : (s.acceptAt l w bs c os).mem = s.mem := rfl
@[simp] theorem State.acceptAt_poison (s : State) (l w : Nat) (bs : KMap Byte) (c : Nat) (os : List Nat) : (s.acceptAt l w bs c os).poison = s.poison := rfl
@[simp] theorem State.acceptAt_tasks (s : State) (l w : Nat) (bs : KMap Byte) (c : Nat) (os : List Nat) : (s.acceptAt l w bs c os).tasks = s.tasks := rfl
@[simp] theorem State.acceptAt_cores (s : State) (l w : Nat) (bs : KMap Byte) (c : Nat) (os : List Nat) : (s.acceptAt l w bs c os).cores = s.cores := rfl
@[simp] theorem State.acceptAt_clusters (s : State) (l w : Nat) (bs : KMap Byte) (c : Nat) (os : List Nat) : (s.acceptAt l w bs c os).clusters = s.clusters := rfl
@[simp] theorem State.acceptAt_ctxs (s : State) (l w : Nat) (bs : KMap Byte) (c : Nat) (os : List Nat) : (s.acceptAt l w bs c os).ctxs = s.ctxs := rfl
@[simp] theorem State.acceptAt_launches (s : State) (l w : Nat) (bs : KMap Byte) (c : Nat) (os : List Nat) : (s.acceptAt l w bs c os).launches = s.launches := rfl
@[simp] theorem State.acceptAt_locks (s : State) (l w : Nat) (bs : KMap Byte) (c : Nat) (os : List Nat) : (s.acceptAt l w bs c os).locks = s.locks := rfl
@[simp] theorem State.acceptAt_engs (s : State) (l w : Nat) (bs : KMap Byte) (c : Nat) (os : List Nat) : (s.acceptAt l w bs c os).engs = s.engs := rfl
@[simp] theorem State.acceptAt_outs (s : State) (l w : Nat) (bs : KMap Byte) (c : Nat) (os : List Nat) : (s.acceptAt l w bs c os).outs = s.outs := rfl
@[simp] theorem State.acceptAt_replay (s : State) (l w : Nat) (bs : KMap Byte) (c : Nat) (os : List Nat) : (s.acceptAt l w bs c os).replay = s.replay := rfl
@[simp] theorem State.acceptAt_ports (s : State) (l w : Nat) (bs : KMap Byte) (c : Nat) (os : List Nat) : (s.acceptAt l w bs c os).ports = s.ports := rfl
@[simp] theorem State.acceptAt_regs (s : State) (l w : Nat) (bs : KMap Byte) (c : Nat) (os : List Nat) : (s.acceptAt l w bs c os).regs = s.regs := rfl
@[simp] theorem State.acceptAt_accn (s : State) (l w : Nat) (bs : KMap Byte) (c : Nat) (os : List Nat) : (s.acceptAt l w bs c os).accn = s.accn := rfl
@[simp] theorem State.acceptAt_nextId (s : State) (l w : Nat) (bs : KMap Byte) (c : Nat) (os : List Nat) : (s.acceptAt l w bs c os).nextId = s.nextId := rfl
@[simp] theorem State.acceptAt_epoch (s : State) (l w : Nat) (bs : KMap Byte) (c : Nat) (os : List Nat) : (s.acceptAt l w bs c os).epoch = s.epoch := rfl
@[simp] theorem State.acceptAt_turn (s : State) (l w : Nat) (bs : KMap Byte) (c : Nat) (os : List Nat) : (s.acceptAt l w bs c os).turn = s.turn := rfl
@[simp] theorem State.acceptAt_free (s : State) (l w : Nat) (bs : KMap Byte) (c : Nat) (os : List Nat) : (s.acceptAt l w bs c os).free = s.free := rfl
@[simp] theorem State.acceptAt_still (s : State) (l w : Nat) (bs : KMap Byte) (c : Nat) (os : List Nat) : (s.acceptAt l w bs c os).still = s.still := rfl
@[simp] theorem State.acceptAt_asked (s : State) (l w : Nat) (bs : KMap Byte) (c : Nat) (os : List Nat) : (s.acceptAt l w bs c os).asked = s.asked := rfl
@[simp] theorem State.acceptAt_issue (s : State) (l w : Nat) (bs : KMap Byte) (c : Nat) (os : List Nat) : (s.acceptAt l w bs c os).issue = s.issue := rfl
@[simp] theorem State.acceptAt_agenda (s : State) (l w : Nat) (bs : KMap Byte) (c : Nat) (os : List Nat) : (s.acceptAt l w bs c os).agenda = s.agenda := rfl
@[simp] theorem State.acceptAt_sent (s : State) (l w : Nat) (bs : KMap Byte) (c : Nat) (os : List Nat) : (s.acceptAt l w bs c os).sent = s.sent := rfl
@[simp] theorem State.acceptAt_hole (s : State) (l w : Nat) (bs : KMap Byte) (c : Nat) (os : List Nat) : (s.acceptAt l w bs c os).hole = s.hole := rfl

@[simp] theorem State.updL1_dtime (s : State) (c l : Nat) (f : L1Line → L1Line) : (s.updL1 c l f).dtime = s.dtime := rfl
@[simp] theorem State.updL1_mem (s : State) (c l : Nat) (f : L1Line → L1Line) : (s.updL1 c l f).mem = s.mem := rfl
@[simp] theorem State.updL1_homes (s : State) (c l : Nat) (f : L1Line → L1Line) : (s.updL1 c l f).homes = s.homes := rfl
@[simp] theorem State.updL1_writes (s : State) (c l : Nat) (f : L1Line → L1Line) : (s.updL1 c l f).writes = s.writes := rfl
@[simp] theorem State.updL1_poison (s : State) (c l : Nat) (f : L1Line → L1Line) : (s.updL1 c l f).poison = s.poison := rfl
@[simp] theorem State.updL1_hostLines (s : State) (c l : Nat) (f : L1Line → L1Line) : (s.updL1 c l f).hostLines = s.hostLines := rfl
@[simp] theorem State.updL1_tasks (s : State) (c l : Nat) (f : L1Line → L1Line) : (s.updL1 c l f).tasks = s.tasks := rfl
@[simp] theorem State.updL1_clusters (s : State) (c l : Nat) (f : L1Line → L1Line) : (s.updL1 c l f).clusters = s.clusters := rfl
@[simp] theorem State.updL1_ctxs (s : State) (c l : Nat) (f : L1Line → L1Line) : (s.updL1 c l f).ctxs = s.ctxs := rfl
@[simp] theorem State.updL1_launches (s : State) (c l : Nat) (f : L1Line → L1Line) : (s.updL1 c l f).launches = s.launches := rfl
@[simp] theorem State.updL1_locks (s : State) (c l : Nat) (f : L1Line → L1Line) : (s.updL1 c l f).locks = s.locks := rfl
@[simp] theorem State.updL1_engs (s : State) (c l : Nat) (f : L1Line → L1Line) : (s.updL1 c l f).engs = s.engs := rfl
@[simp] theorem State.updL1_outs (s : State) (c l : Nat) (f : L1Line → L1Line) : (s.updL1 c l f).outs = s.outs := rfl
@[simp] theorem State.updL1_replay (s : State) (c l : Nat) (f : L1Line → L1Line) : (s.updL1 c l f).replay = s.replay := rfl
@[simp] theorem State.updL1_ports (s : State) (c l : Nat) (f : L1Line → L1Line) : (s.updL1 c l f).ports = s.ports := rfl
@[simp] theorem State.updL1_regs (s : State) (c l : Nat) (f : L1Line → L1Line) : (s.updL1 c l f).regs = s.regs := rfl
@[simp] theorem State.updL1_accn (s : State) (c l : Nat) (f : L1Line → L1Line) : (s.updL1 c l f).accn = s.accn := rfl
@[simp] theorem State.updL1_nextId (s : State) (c l : Nat) (f : L1Line → L1Line) : (s.updL1 c l f).nextId = s.nextId := rfl
@[simp] theorem State.updL1_epoch (s : State) (c l : Nat) (f : L1Line → L1Line) : (s.updL1 c l f).epoch = s.epoch := rfl
@[simp] theorem State.updL1_turn (s : State) (c l : Nat) (f : L1Line → L1Line) : (s.updL1 c l f).turn = s.turn := rfl
@[simp] theorem State.updL1_free (s : State) (c l : Nat) (f : L1Line → L1Line) : (s.updL1 c l f).free = s.free := rfl
@[simp] theorem State.updL1_still (s : State) (c l : Nat) (f : L1Line → L1Line) : (s.updL1 c l f).still = s.still := rfl
@[simp] theorem State.updL1_asked (s : State) (c l : Nat) (f : L1Line → L1Line) : (s.updL1 c l f).asked = s.asked := rfl
@[simp] theorem State.updL1_issue (s : State) (c l : Nat) (f : L1Line → L1Line) : (s.updL1 c l f).issue = s.issue := rfl
@[simp] theorem State.updL1_agenda (s : State) (c l : Nat) (f : L1Line → L1Line) : (s.updL1 c l f).agenda = s.agenda := rfl
@[simp] theorem State.updL1_sent (s : State) (c l : Nat) (f : L1Line → L1Line) : (s.updL1 c l f).sent = s.sent := rfl
@[simp] theorem State.updL1_hole (s : State) (c l : Nat) (f : L1Line → L1Line) : (s.updL1 c l f).hole = s.hole := rfl

@[simp] theorem State.placeNear_dtime (s : State) (l c n : Nat) : (s.placeNear l c n).dtime = s.dtime := rfl
@[simp] theorem State.placeNear_mem (s : State) (l c n : Nat) : (s.placeNear l c n).mem = s.mem := rfl
@[simp] theorem State.placeNear_writes (s : State) (l c n : Nat) : (s.placeNear l c n).writes = s.writes := rfl
@[simp] theorem State.placeNear_poison (s : State) (l c n : Nat) : (s.placeNear l c n).poison = s.poison := rfl
@[simp] theorem State.placeNear_hostLines (s : State) (l c n : Nat) : (s.placeNear l c n).hostLines = s.hostLines := rfl
@[simp] theorem State.placeNear_tasks (s : State) (l c n : Nat) : (s.placeNear l c n).tasks = s.tasks := rfl
@[simp] theorem State.placeNear_cores (s : State) (l c n : Nat) : (s.placeNear l c n).cores = s.cores := rfl
@[simp] theorem State.placeNear_clusters (s : State) (l c n : Nat) : (s.placeNear l c n).clusters = s.clusters := rfl
@[simp] theorem State.placeNear_ctxs (s : State) (l c n : Nat) : (s.placeNear l c n).ctxs = s.ctxs := rfl
@[simp] theorem State.placeNear_launches (s : State) (l c n : Nat) : (s.placeNear l c n).launches = s.launches := rfl
@[simp] theorem State.placeNear_locks (s : State) (l c n : Nat) : (s.placeNear l c n).locks = s.locks := rfl
@[simp] theorem State.placeNear_engs (s : State) (l c n : Nat) : (s.placeNear l c n).engs = s.engs := rfl
@[simp] theorem State.placeNear_outs (s : State) (l c n : Nat) : (s.placeNear l c n).outs = s.outs := rfl
@[simp] theorem State.placeNear_replay (s : State) (l c n : Nat) : (s.placeNear l c n).replay = s.replay := rfl
@[simp] theorem State.placeNear_ports (s : State) (l c n : Nat) : (s.placeNear l c n).ports = s.ports := rfl
@[simp] theorem State.placeNear_regs (s : State) (l c n : Nat) : (s.placeNear l c n).regs = s.regs := rfl
@[simp] theorem State.placeNear_accn (s : State) (l c n : Nat) : (s.placeNear l c n).accn = s.accn := rfl
@[simp] theorem State.placeNear_nextId (s : State) (l c n : Nat) : (s.placeNear l c n).nextId = s.nextId := rfl
@[simp] theorem State.placeNear_epoch (s : State) (l c n : Nat) : (s.placeNear l c n).epoch = s.epoch := rfl
@[simp] theorem State.placeNear_turn (s : State) (l c n : Nat) : (s.placeNear l c n).turn = s.turn := rfl
@[simp] theorem State.placeNear_free (s : State) (l c n : Nat) : (s.placeNear l c n).free = s.free := rfl
@[simp] theorem State.placeNear_still (s : State) (l c n : Nat) : (s.placeNear l c n).still = s.still := rfl
@[simp] theorem State.placeNear_asked (s : State) (l c n : Nat) : (s.placeNear l c n).asked = s.asked := rfl
@[simp] theorem State.placeNear_issue (s : State) (l c n : Nat) : (s.placeNear l c n).issue = s.issue := rfl
@[simp] theorem State.placeNear_agenda (s : State) (l c n : Nat) : (s.placeNear l c n).agenda = s.agenda := rfl
@[simp] theorem State.placeNear_sent (s : State) (l c n : Nat) : (s.placeNear l c n).sent = s.sent := rfl
@[simp] theorem State.placeNear_hole (s : State) (l c n : Nat) : (s.placeNear l c n).hole = s.hole := rfl

@[simp] theorem State.dropNear_dtime (s : State) (l : Nat) : (s.dropNear l).dtime = s.dtime := rfl
@[simp] theorem State.dropNear_mem (s : State) (l : Nat) : (s.dropNear l).mem = s.mem := rfl
@[simp] theorem State.dropNear_writes (s : State) (l : Nat) : (s.dropNear l).writes = s.writes := rfl
@[simp] theorem State.dropNear_poison (s : State) (l : Nat) : (s.dropNear l).poison = s.poison := rfl
@[simp] theorem State.dropNear_hostLines (s : State) (l : Nat) : (s.dropNear l).hostLines = s.hostLines := rfl
@[simp] theorem State.dropNear_tasks (s : State) (l : Nat) : (s.dropNear l).tasks = s.tasks := rfl
@[simp] theorem State.dropNear_cores (s : State) (l : Nat) : (s.dropNear l).cores = s.cores := rfl
@[simp] theorem State.dropNear_clusters (s : State) (l : Nat) : (s.dropNear l).clusters = s.clusters := rfl
@[simp] theorem State.dropNear_ctxs (s : State) (l : Nat) : (s.dropNear l).ctxs = s.ctxs := rfl
@[simp] theorem State.dropNear_launches (s : State) (l : Nat) : (s.dropNear l).launches = s.launches := rfl
@[simp] theorem State.dropNear_locks (s : State) (l : Nat) : (s.dropNear l).locks = s.locks := rfl
@[simp] theorem State.dropNear_engs (s : State) (l : Nat) : (s.dropNear l).engs = s.engs := rfl
@[simp] theorem State.dropNear_outs (s : State) (l : Nat) : (s.dropNear l).outs = s.outs := rfl
@[simp] theorem State.dropNear_replay (s : State) (l : Nat) : (s.dropNear l).replay = s.replay := rfl
@[simp] theorem State.dropNear_ports (s : State) (l : Nat) : (s.dropNear l).ports = s.ports := rfl
@[simp] theorem State.dropNear_regs (s : State) (l : Nat) : (s.dropNear l).regs = s.regs := rfl
@[simp] theorem State.dropNear_accn (s : State) (l : Nat) : (s.dropNear l).accn = s.accn := rfl
@[simp] theorem State.dropNear_nextId (s : State) (l : Nat) : (s.dropNear l).nextId = s.nextId := rfl
@[simp] theorem State.dropNear_epoch (s : State) (l : Nat) : (s.dropNear l).epoch = s.epoch := rfl
@[simp] theorem State.dropNear_turn (s : State) (l : Nat) : (s.dropNear l).turn = s.turn := rfl
@[simp] theorem State.dropNear_free (s : State) (l : Nat) : (s.dropNear l).free = s.free := rfl
@[simp] theorem State.dropNear_still (s : State) (l : Nat) : (s.dropNear l).still = s.still := rfl
@[simp] theorem State.dropNear_asked (s : State) (l : Nat) : (s.dropNear l).asked = s.asked := rfl
@[simp] theorem State.dropNear_issue (s : State) (l : Nat) : (s.dropNear l).issue = s.issue := rfl
@[simp] theorem State.dropNear_agenda (s : State) (l : Nat) : (s.dropNear l).agenda = s.agenda := rfl
@[simp] theorem State.dropNear_sent (s : State) (l : Nat) : (s.dropNear l).sent = s.sent := rfl
@[simp] theorem State.dropNear_hole (s : State) (l : Nat) : (s.dropNear l).hole = s.hole := rfl

@[simp] theorem State.dropLeases_dtime (s : State) (c : Nat) : (s.dropLeases c).dtime = s.dtime := rfl
@[simp] theorem State.dropLeases_mem (s : State) (c : Nat) : (s.dropLeases c).mem = s.mem := rfl
@[simp] theorem State.dropLeases_homes (s : State) (c : Nat) : (s.dropLeases c).homes = s.homes := rfl
@[simp] theorem State.dropLeases_writes (s : State) (c : Nat) : (s.dropLeases c).writes = s.writes := rfl
@[simp] theorem State.dropLeases_poison (s : State) (c : Nat) : (s.dropLeases c).poison = s.poison := rfl
@[simp] theorem State.dropLeases_hostLines (s : State) (c : Nat) : (s.dropLeases c).hostLines = s.hostLines := rfl
@[simp] theorem State.dropLeases_tasks (s : State) (c : Nat) : (s.dropLeases c).tasks = s.tasks := rfl
@[simp] theorem State.dropLeases_clusters (s : State) (c : Nat) : (s.dropLeases c).clusters = s.clusters := rfl
@[simp] theorem State.dropLeases_ctxs (s : State) (c : Nat) : (s.dropLeases c).ctxs = s.ctxs := rfl
@[simp] theorem State.dropLeases_launches (s : State) (c : Nat) : (s.dropLeases c).launches = s.launches := rfl
@[simp] theorem State.dropLeases_locks (s : State) (c : Nat) : (s.dropLeases c).locks = s.locks := rfl
@[simp] theorem State.dropLeases_engs (s : State) (c : Nat) : (s.dropLeases c).engs = s.engs := rfl
@[simp] theorem State.dropLeases_outs (s : State) (c : Nat) : (s.dropLeases c).outs = s.outs := rfl
@[simp] theorem State.dropLeases_replay (s : State) (c : Nat) : (s.dropLeases c).replay = s.replay := rfl
@[simp] theorem State.dropLeases_ports (s : State) (c : Nat) : (s.dropLeases c).ports = s.ports := rfl
@[simp] theorem State.dropLeases_regs (s : State) (c : Nat) : (s.dropLeases c).regs = s.regs := rfl
@[simp] theorem State.dropLeases_accn (s : State) (c : Nat) : (s.dropLeases c).accn = s.accn := rfl
@[simp] theorem State.dropLeases_nextId (s : State) (c : Nat) : (s.dropLeases c).nextId = s.nextId := rfl
@[simp] theorem State.dropLeases_epoch (s : State) (c : Nat) : (s.dropLeases c).epoch = s.epoch := rfl
@[simp] theorem State.dropLeases_turn (s : State) (c : Nat) : (s.dropLeases c).turn = s.turn := rfl
@[simp] theorem State.dropLeases_free (s : State) (c : Nat) : (s.dropLeases c).free = s.free := rfl
@[simp] theorem State.dropLeases_still (s : State) (c : Nat) : (s.dropLeases c).still = s.still := rfl
@[simp] theorem State.dropLeases_asked (s : State) (c : Nat) : (s.dropLeases c).asked = s.asked := rfl
@[simp] theorem State.dropLeases_issue (s : State) (c : Nat) : (s.dropLeases c).issue = s.issue := rfl
@[simp] theorem State.dropLeases_agenda (s : State) (c : Nat) : (s.dropLeases c).agenda = s.agenda := rfl
@[simp] theorem State.dropLeases_sent (s : State) (c : Nat) : (s.dropLeases c).sent = s.sent := rfl
@[simp] theorem State.dropLeases_hole (s : State) (c : Nat) : (s.dropLeases c).hole = s.hole := rfl

@[simp] theorem State.remember_dtime (s : State) (n va : Nat) (x : Xlate) : (s.remember n va x).dtime = s.dtime := rfl
@[simp] theorem State.remember_mem (s : State) (n va : Nat) (x : Xlate) : (s.remember n va x).mem = s.mem := rfl
@[simp] theorem State.remember_homes (s : State) (n va : Nat) (x : Xlate) : (s.remember n va x).homes = s.homes := rfl
@[simp] theorem State.remember_writes (s : State) (n va : Nat) (x : Xlate) : (s.remember n va x).writes = s.writes := rfl
@[simp] theorem State.remember_poison (s : State) (n va : Nat) (x : Xlate) : (s.remember n va x).poison = s.poison := rfl
@[simp] theorem State.remember_hostLines (s : State) (n va : Nat) (x : Xlate) : (s.remember n va x).hostLines = s.hostLines := rfl
@[simp] theorem State.remember_tasks (s : State) (n va : Nat) (x : Xlate) : (s.remember n va x).tasks = s.tasks := rfl
@[simp] theorem State.remember_cores (s : State) (n va : Nat) (x : Xlate) : (s.remember n va x).cores = s.cores := rfl
@[simp] theorem State.remember_clusters (s : State) (n va : Nat) (x : Xlate) : (s.remember n va x).clusters = s.clusters := rfl
@[simp] theorem State.remember_launches (s : State) (n va : Nat) (x : Xlate) : (s.remember n va x).launches = s.launches := rfl
@[simp] theorem State.remember_locks (s : State) (n va : Nat) (x : Xlate) : (s.remember n va x).locks = s.locks := rfl
@[simp] theorem State.remember_engs (s : State) (n va : Nat) (x : Xlate) : (s.remember n va x).engs = s.engs := rfl
@[simp] theorem State.remember_outs (s : State) (n va : Nat) (x : Xlate) : (s.remember n va x).outs = s.outs := rfl
@[simp] theorem State.remember_replay (s : State) (n va : Nat) (x : Xlate) : (s.remember n va x).replay = s.replay := rfl
@[simp] theorem State.remember_ports (s : State) (n va : Nat) (x : Xlate) : (s.remember n va x).ports = s.ports := rfl
@[simp] theorem State.remember_regs (s : State) (n va : Nat) (x : Xlate) : (s.remember n va x).regs = s.regs := rfl
@[simp] theorem State.remember_accn (s : State) (n va : Nat) (x : Xlate) : (s.remember n va x).accn = s.accn := rfl
@[simp] theorem State.remember_nextId (s : State) (n va : Nat) (x : Xlate) : (s.remember n va x).nextId = s.nextId := rfl
@[simp] theorem State.remember_epoch (s : State) (n va : Nat) (x : Xlate) : (s.remember n va x).epoch = s.epoch := rfl
@[simp] theorem State.remember_turn (s : State) (n va : Nat) (x : Xlate) : (s.remember n va x).turn = s.turn := rfl
@[simp] theorem State.remember_still (s : State) (n va : Nat) (x : Xlate) : (s.remember n va x).still = s.still := rfl
@[simp] theorem State.remember_asked (s : State) (n va : Nat) (x : Xlate) : (s.remember n va x).asked = s.asked := rfl
@[simp] theorem State.remember_issue (s : State) (n va : Nat) (x : Xlate) : (s.remember n va x).issue = s.issue := rfl
@[simp] theorem State.remember_agenda (s : State) (n va : Nat) (x : Xlate) : (s.remember n va x).agenda = s.agenda := rfl
@[simp] theorem State.remember_sent (s : State) (n va : Nat) (x : Xlate) : (s.remember n va x).sent = s.sent := rfl
@[simp] theorem State.remember_hole (s : State) (n va : Nat) (x : Xlate) : (s.remember n va x).hole = s.hole := rfl

@[simp] theorem State.waitThread_dtime (s : State) (a t : Nat) (f : Thread → Thread) : (s.waitThread a t f).dtime = s.dtime := rfl
@[simp] theorem State.waitThread_mem (s : State) (a t : Nat) (f : Thread → Thread) : (s.waitThread a t f).mem = s.mem := rfl
@[simp] theorem State.waitThread_homes (s : State) (a t : Nat) (f : Thread → Thread) : (s.waitThread a t f).homes = s.homes := rfl
@[simp] theorem State.waitThread_writes (s : State) (a t : Nat) (f : Thread → Thread) : (s.waitThread a t f).writes = s.writes := rfl
@[simp] theorem State.waitThread_poison (s : State) (a t : Nat) (f : Thread → Thread) : (s.waitThread a t f).poison = s.poison := rfl
@[simp] theorem State.waitThread_hostLines (s : State) (a t : Nat) (f : Thread → Thread) : (s.waitThread a t f).hostLines = s.hostLines := rfl
@[simp] theorem State.waitThread_cores (s : State) (a t : Nat) (f : Thread → Thread) : (s.waitThread a t f).cores = s.cores := rfl
@[simp] theorem State.waitThread_clusters (s : State) (a t : Nat) (f : Thread → Thread) : (s.waitThread a t f).clusters = s.clusters := rfl
@[simp] theorem State.waitThread_ctxs (s : State) (a t : Nat) (f : Thread → Thread) : (s.waitThread a t f).ctxs = s.ctxs := rfl
@[simp] theorem State.waitThread_launches (s : State) (a t : Nat) (f : Thread → Thread) : (s.waitThread a t f).launches = s.launches := rfl
@[simp] theorem State.waitThread_locks (s : State) (a t : Nat) (f : Thread → Thread) : (s.waitThread a t f).locks = s.locks := rfl
@[simp] theorem State.waitThread_engs (s : State) (a t : Nat) (f : Thread → Thread) : (s.waitThread a t f).engs = s.engs := rfl
@[simp] theorem State.waitThread_outs (s : State) (a t : Nat) (f : Thread → Thread) : (s.waitThread a t f).outs = s.outs := rfl
@[simp] theorem State.waitThread_replay (s : State) (a t : Nat) (f : Thread → Thread) : (s.waitThread a t f).replay = s.replay := rfl
@[simp] theorem State.waitThread_ports (s : State) (a t : Nat) (f : Thread → Thread) : (s.waitThread a t f).ports = s.ports := rfl
@[simp] theorem State.waitThread_regs (s : State) (a t : Nat) (f : Thread → Thread) : (s.waitThread a t f).regs = s.regs := rfl
@[simp] theorem State.waitThread_accn (s : State) (a t : Nat) (f : Thread → Thread) : (s.waitThread a t f).accn = s.accn := rfl
@[simp] theorem State.waitThread_nextId (s : State) (a t : Nat) (f : Thread → Thread) : (s.waitThread a t f).nextId = s.nextId := rfl
@[simp] theorem State.waitThread_epoch (s : State) (a t : Nat) (f : Thread → Thread) : (s.waitThread a t f).epoch = s.epoch := rfl
@[simp] theorem State.waitThread_turn (s : State) (a t : Nat) (f : Thread → Thread) : (s.waitThread a t f).turn = s.turn := rfl
@[simp] theorem State.waitThread_free (s : State) (a t : Nat) (f : Thread → Thread) : (s.waitThread a t f).free = s.free := rfl
@[simp] theorem State.waitThread_still (s : State) (a t : Nat) (f : Thread → Thread) : (s.waitThread a t f).still = s.still := rfl
@[simp] theorem State.waitThread_asked (s : State) (a t : Nat) (f : Thread → Thread) : (s.waitThread a t f).asked = s.asked := rfl
@[simp] theorem State.waitThread_issue (s : State) (a t : Nat) (f : Thread → Thread) : (s.waitThread a t f).issue = s.issue := rfl
@[simp] theorem State.waitThread_agenda (s : State) (a t : Nat) (f : Thread → Thread) : (s.waitThread a t f).agenda = s.agenda := rfl
@[simp] theorem State.waitThread_sent (s : State) (a t : Nat) (f : Thread → Thread) : (s.waitThread a t f).sent = s.sent := rfl
@[simp] theorem State.waitThread_hole (s : State) (a t : Nat) (f : Thread → Thread) : (s.waitThread a t f).hole = s.hole := rfl

@[simp] theorem State.stall_dtime (s : State) (a t u : Nat) : (s.stall a t u).dtime = s.dtime := rfl
@[simp] theorem State.stall_mem (s : State) (a t u : Nat) : (s.stall a t u).mem = s.mem := rfl
@[simp] theorem State.stall_homes (s : State) (a t u : Nat) : (s.stall a t u).homes = s.homes := rfl
@[simp] theorem State.stall_writes (s : State) (a t u : Nat) : (s.stall a t u).writes = s.writes := rfl
@[simp] theorem State.stall_poison (s : State) (a t u : Nat) : (s.stall a t u).poison = s.poison := rfl
@[simp] theorem State.stall_hostLines (s : State) (a t u : Nat) : (s.stall a t u).hostLines = s.hostLines := rfl
@[simp] theorem State.stall_cores (s : State) (a t u : Nat) : (s.stall a t u).cores = s.cores := rfl
@[simp] theorem State.stall_clusters (s : State) (a t u : Nat) : (s.stall a t u).clusters = s.clusters := rfl
@[simp] theorem State.stall_ctxs (s : State) (a t u : Nat) : (s.stall a t u).ctxs = s.ctxs := rfl
@[simp] theorem State.stall_launches (s : State) (a t u : Nat) : (s.stall a t u).launches = s.launches := rfl
@[simp] theorem State.stall_locks (s : State) (a t u : Nat) : (s.stall a t u).locks = s.locks := rfl
@[simp] theorem State.stall_engs (s : State) (a t u : Nat) : (s.stall a t u).engs = s.engs := rfl
@[simp] theorem State.stall_outs (s : State) (a t u : Nat) : (s.stall a t u).outs = s.outs := rfl
@[simp] theorem State.stall_replay (s : State) (a t u : Nat) : (s.stall a t u).replay = s.replay := rfl
@[simp] theorem State.stall_ports (s : State) (a t u : Nat) : (s.stall a t u).ports = s.ports := rfl
@[simp] theorem State.stall_regs (s : State) (a t u : Nat) : (s.stall a t u).regs = s.regs := rfl
@[simp] theorem State.stall_accn (s : State) (a t u : Nat) : (s.stall a t u).accn = s.accn := rfl
@[simp] theorem State.stall_nextId (s : State) (a t u : Nat) : (s.stall a t u).nextId = s.nextId := rfl
@[simp] theorem State.stall_epoch (s : State) (a t u : Nat) : (s.stall a t u).epoch = s.epoch := rfl
@[simp] theorem State.stall_turn (s : State) (a t u : Nat) : (s.stall a t u).turn = s.turn := rfl
@[simp] theorem State.stall_free (s : State) (a t u : Nat) : (s.stall a t u).free = s.free := rfl
@[simp] theorem State.stall_still (s : State) (a t u : Nat) : (s.stall a t u).still = s.still := rfl
@[simp] theorem State.stall_asked (s : State) (a t u : Nat) : (s.stall a t u).asked = s.asked := rfl
@[simp] theorem State.stall_issue (s : State) (a t u : Nat) : (s.stall a t u).issue = s.issue := rfl
@[simp] theorem State.stall_agenda (s : State) (a t u : Nat) : (s.stall a t u).agenda = s.agenda := rfl
@[simp] theorem State.stall_sent (s : State) (a t u : Nat) : (s.stall a t u).sent = s.sent := rfl
@[simp] theorem State.stall_hole (s : State) (a t u : Nat) : (s.stall a t u).hole = s.hole := rfl

@[simp] theorem State.interlock_dtime (s : State) (a t : Nat) : (s.interlock a t).dtime = s.dtime := rfl
@[simp] theorem State.interlock_mem (s : State) (a t : Nat) : (s.interlock a t).mem = s.mem := rfl
@[simp] theorem State.interlock_homes (s : State) (a t : Nat) : (s.interlock a t).homes = s.homes := rfl
@[simp] theorem State.interlock_writes (s : State) (a t : Nat) : (s.interlock a t).writes = s.writes := rfl
@[simp] theorem State.interlock_poison (s : State) (a t : Nat) : (s.interlock a t).poison = s.poison := rfl
@[simp] theorem State.interlock_hostLines (s : State) (a t : Nat) : (s.interlock a t).hostLines = s.hostLines := rfl
@[simp] theorem State.interlock_cores (s : State) (a t : Nat) : (s.interlock a t).cores = s.cores := rfl
@[simp] theorem State.interlock_clusters (s : State) (a t : Nat) : (s.interlock a t).clusters = s.clusters := rfl
@[simp] theorem State.interlock_ctxs (s : State) (a t : Nat) : (s.interlock a t).ctxs = s.ctxs := rfl
@[simp] theorem State.interlock_launches (s : State) (a t : Nat) : (s.interlock a t).launches = s.launches := rfl
@[simp] theorem State.interlock_locks (s : State) (a t : Nat) : (s.interlock a t).locks = s.locks := rfl
@[simp] theorem State.interlock_engs (s : State) (a t : Nat) : (s.interlock a t).engs = s.engs := rfl
@[simp] theorem State.interlock_outs (s : State) (a t : Nat) : (s.interlock a t).outs = s.outs := rfl
@[simp] theorem State.interlock_replay (s : State) (a t : Nat) : (s.interlock a t).replay = s.replay := rfl
@[simp] theorem State.interlock_ports (s : State) (a t : Nat) : (s.interlock a t).ports = s.ports := rfl
@[simp] theorem State.interlock_regs (s : State) (a t : Nat) : (s.interlock a t).regs = s.regs := rfl
@[simp] theorem State.interlock_accn (s : State) (a t : Nat) : (s.interlock a t).accn = s.accn := rfl
@[simp] theorem State.interlock_nextId (s : State) (a t : Nat) : (s.interlock a t).nextId = s.nextId := rfl
@[simp] theorem State.interlock_epoch (s : State) (a t : Nat) : (s.interlock a t).epoch = s.epoch := rfl
@[simp] theorem State.interlock_turn (s : State) (a t : Nat) : (s.interlock a t).turn = s.turn := rfl
@[simp] theorem State.interlock_free (s : State) (a t : Nat) : (s.interlock a t).free = s.free := rfl
@[simp] theorem State.interlock_still (s : State) (a t : Nat) : (s.interlock a t).still = s.still := rfl
@[simp] theorem State.interlock_asked (s : State) (a t : Nat) : (s.interlock a t).asked = s.asked := rfl
@[simp] theorem State.interlock_issue (s : State) (a t : Nat) : (s.interlock a t).issue = s.issue := rfl
@[simp] theorem State.interlock_agenda (s : State) (a t : Nat) : (s.interlock a t).agenda = s.agenda := rfl
@[simp] theorem State.interlock_sent (s : State) (a t : Nat) : (s.interlock a t).sent = s.sent := rfl
@[simp] theorem State.interlock_hole (s : State) (a t : Nat) : (s.interlock a t).hole = s.hole := rfl

@[simp] theorem State.holdThread_dtime (s : State) (a t : Nat) (w : Wait) : (s.holdThread a t w).dtime = s.dtime := rfl
@[simp] theorem State.holdThread_mem (s : State) (a t : Nat) (w : Wait) : (s.holdThread a t w).mem = s.mem := rfl
@[simp] theorem State.holdThread_homes (s : State) (a t : Nat) (w : Wait) : (s.holdThread a t w).homes = s.homes := rfl
@[simp] theorem State.holdThread_writes (s : State) (a t : Nat) (w : Wait) : (s.holdThread a t w).writes = s.writes := rfl
@[simp] theorem State.holdThread_poison (s : State) (a t : Nat) (w : Wait) : (s.holdThread a t w).poison = s.poison := rfl
@[simp] theorem State.holdThread_hostLines (s : State) (a t : Nat) (w : Wait) : (s.holdThread a t w).hostLines = s.hostLines := rfl
@[simp] theorem State.holdThread_cores (s : State) (a t : Nat) (w : Wait) : (s.holdThread a t w).cores = s.cores := rfl
@[simp] theorem State.holdThread_clusters (s : State) (a t : Nat) (w : Wait) : (s.holdThread a t w).clusters = s.clusters := rfl
@[simp] theorem State.holdThread_ctxs (s : State) (a t : Nat) (w : Wait) : (s.holdThread a t w).ctxs = s.ctxs := rfl
@[simp] theorem State.holdThread_launches (s : State) (a t : Nat) (w : Wait) : (s.holdThread a t w).launches = s.launches := rfl
@[simp] theorem State.holdThread_locks (s : State) (a t : Nat) (w : Wait) : (s.holdThread a t w).locks = s.locks := rfl
@[simp] theorem State.holdThread_engs (s : State) (a t : Nat) (w : Wait) : (s.holdThread a t w).engs = s.engs := rfl
@[simp] theorem State.holdThread_outs (s : State) (a t : Nat) (w : Wait) : (s.holdThread a t w).outs = s.outs := rfl
@[simp] theorem State.holdThread_replay (s : State) (a t : Nat) (w : Wait) : (s.holdThread a t w).replay = s.replay := rfl
@[simp] theorem State.holdThread_ports (s : State) (a t : Nat) (w : Wait) : (s.holdThread a t w).ports = s.ports := rfl
@[simp] theorem State.holdThread_regs (s : State) (a t : Nat) (w : Wait) : (s.holdThread a t w).regs = s.regs := rfl
@[simp] theorem State.holdThread_accn (s : State) (a t : Nat) (w : Wait) : (s.holdThread a t w).accn = s.accn := rfl
@[simp] theorem State.holdThread_nextId (s : State) (a t : Nat) (w : Wait) : (s.holdThread a t w).nextId = s.nextId := rfl
@[simp] theorem State.holdThread_epoch (s : State) (a t : Nat) (w : Wait) : (s.holdThread a t w).epoch = s.epoch := rfl
@[simp] theorem State.holdThread_turn (s : State) (a t : Nat) (w : Wait) : (s.holdThread a t w).turn = s.turn := rfl
@[simp] theorem State.holdThread_free (s : State) (a t : Nat) (w : Wait) : (s.holdThread a t w).free = s.free := rfl
@[simp] theorem State.holdThread_still (s : State) (a t : Nat) (w : Wait) : (s.holdThread a t w).still = s.still := rfl
@[simp] theorem State.holdThread_asked (s : State) (a t : Nat) (w : Wait) : (s.holdThread a t w).asked = s.asked := rfl
@[simp] theorem State.holdThread_issue (s : State) (a t : Nat) (w : Wait) : (s.holdThread a t w).issue = s.issue := rfl
@[simp] theorem State.holdThread_agenda (s : State) (a t : Nat) (w : Wait) : (s.holdThread a t w).agenda = s.agenda := rfl
@[simp] theorem State.holdThread_sent (s : State) (a t : Nat) (w : Wait) : (s.holdThread a t w).sent = s.sent := rfl
@[simp] theorem State.holdThread_hole (s : State) (a t : Nat) (w : Wait) : (s.holdThread a t w).hole = s.hole := rfl

@[simp] theorem State.dropPending_dtime (s : State) (a : Nat) : (s.dropPending a).dtime = s.dtime := rfl
@[simp] theorem State.dropPending_mem (s : State) (a : Nat) : (s.dropPending a).mem = s.mem := rfl
@[simp] theorem State.dropPending_homes (s : State) (a : Nat) : (s.dropPending a).homes = s.homes := rfl
@[simp] theorem State.dropPending_writes (s : State) (a : Nat) : (s.dropPending a).writes = s.writes := rfl
@[simp] theorem State.dropPending_poison (s : State) (a : Nat) : (s.dropPending a).poison = s.poison := rfl
@[simp] theorem State.dropPending_hostLines (s : State) (a : Nat) : (s.dropPending a).hostLines = s.hostLines := rfl
@[simp] theorem State.dropPending_tasks (s : State) (a : Nat) : (s.dropPending a).tasks = s.tasks := rfl
@[simp] theorem State.dropPending_cores (s : State) (a : Nat) : (s.dropPending a).cores = s.cores := rfl
@[simp] theorem State.dropPending_clusters (s : State) (a : Nat) : (s.dropPending a).clusters = s.clusters := rfl
@[simp] theorem State.dropPending_ctxs (s : State) (a : Nat) : (s.dropPending a).ctxs = s.ctxs := rfl
@[simp] theorem State.dropPending_launches (s : State) (a : Nat) : (s.dropPending a).launches = s.launches := rfl
@[simp] theorem State.dropPending_engs (s : State) (a : Nat) : (s.dropPending a).engs = s.engs := rfl
@[simp] theorem State.dropPending_outs (s : State) (a : Nat) : (s.dropPending a).outs = s.outs := rfl
@[simp] theorem State.dropPending_replay (s : State) (a : Nat) : (s.dropPending a).replay = s.replay := rfl
@[simp] theorem State.dropPending_ports (s : State) (a : Nat) : (s.dropPending a).ports = s.ports := rfl
@[simp] theorem State.dropPending_regs (s : State) (a : Nat) : (s.dropPending a).regs = s.regs := rfl
@[simp] theorem State.dropPending_accn (s : State) (a : Nat) : (s.dropPending a).accn = s.accn := rfl
@[simp] theorem State.dropPending_nextId (s : State) (a : Nat) : (s.dropPending a).nextId = s.nextId := rfl
@[simp] theorem State.dropPending_epoch (s : State) (a : Nat) : (s.dropPending a).epoch = s.epoch := rfl
@[simp] theorem State.dropPending_turn (s : State) (a : Nat) : (s.dropPending a).turn = s.turn := rfl
@[simp] theorem State.dropPending_free (s : State) (a : Nat) : (s.dropPending a).free = s.free := rfl
@[simp] theorem State.dropPending_still (s : State) (a : Nat) : (s.dropPending a).still = s.still := rfl
@[simp] theorem State.dropPending_asked (s : State) (a : Nat) : (s.dropPending a).asked = s.asked := rfl
@[simp] theorem State.dropPending_issue (s : State) (a : Nat) : (s.dropPending a).issue = s.issue := rfl
@[simp] theorem State.dropPending_agenda (s : State) (a : Nat) : (s.dropPending a).agenda = s.agenda := rfl
@[simp] theorem State.dropPending_sent (s : State) (a : Nat) : (s.dropPending a).sent = s.sent := rfl
@[simp] theorem State.dropPending_hole (s : State) (a : Nat) : (s.dropPending a).hole = s.hole := rfl

/-! ## Updates of a thread -/

@[simp] theorem Thread.setReg_p (th : Thread) (n : Nat) (x : Word) : (th.setReg n x).p = th.p := rfl
@[simp] theorem Thread.setReg_oc (th : Thread) (n : Nat) (x : Word) : (th.setReg n x).oc = th.oc := rfl
@[simp] theorem Thread.setReg_pc (th : Thread) (n : Nat) (x : Word) : (th.setReg n x).pc = th.pc := rfl
@[simp] theorem Thread.setReg_cond (th : Thread) (n : Nat) (x : Word) : (th.setReg n x).cond = th.cond := rfl
@[simp] theorem Thread.setReg_away (th : Thread) (n : Nat) (x : Word) : (th.setReg n x).away = th.away := rfl
@[simp] theorem Thread.setReg_halted (th : Thread) (n : Nat) (x : Word) : (th.setReg n x).halted = th.halted := rfl
@[simp] theorem Thread.setReg_squad (th : Thread) (n : Nat) (x : Word) : (th.setReg n x).squad = th.squad := rfl
@[simp] theorem Thread.setReg_rep (th : Thread) (n : Nat) (x : Word) : (th.setReg n x).rep = th.rep := rfl
@[simp] theorem Thread.setReg_repFrom (th : Thread) (n : Nat) (x : Word) : (th.setReg n x).repFrom = th.repFrom := rfl
@[simp] theorem Thread.setReg_fpmode (th : Thread) (n : Nat) (x : Word) : (th.setReg n x).fpmode = th.fpmode := rfl
@[simp] theorem Thread.setReg_fpflags (th : Thread) (n : Nat) (x : Word) : (th.setReg n x).fpflags = th.fpflags := rfl
@[simp] theorem Thread.setReg_rngctr (th : Thread) (n : Nat) (x : Word) : (th.setReg n x).rngctr = th.rngctr := rfl
@[simp] theorem Thread.setReg_tepc (th : Thread) (n : Nat) (x : Word) : (th.setReg n x).tepc = th.tepc := rfl
@[simp] theorem Thread.setReg_tcause (th : Thread) (n : Nat) (x : Word) : (th.setReg n x).tcause = th.tcause := rfl
@[simp] theorem Thread.setReg_taddr (th : Thread) (n : Nat) (x : Word) : (th.setReg n x).taddr = th.taddr := rfl
@[simp] theorem Thread.setReg_tinfo (th : Thread) (n : Nat) (x : Word) : (th.setReg n x).tinfo = th.tinfo := rfl
@[simp] theorem Thread.setReg_h (th : Thread) (n : Nat) (x : Word) : (th.setReg n x).h = th.h := rfl
@[simp] theorem Thread.setReg_cmem (th : Thread) (n : Nat) (x : Word) : (th.setReg n x).cmem = th.cmem := rfl
@[simp] theorem Thread.setReg_dtimeHi (th : Thread) (n : Nat) (x : Word) : (th.setReg n x).dtimeHi = th.dtimeHi := rfl
@[simp] theorem Thread.setReg_arrival (th : Thread) (n : Nat) (x : Word) : (th.setReg n x).arrival = th.arrival := rfl
@[simp] theorem Thread.setReg_stallTo (th : Thread) (n : Nat) (x : Word) : (th.setReg n x).stallTo = th.stallTo := rfl
@[simp] theorem Thread.setReg_waited (th : Thread) (n : Nat) (x : Word) : (th.setReg n x).waited = th.waited := rfl
@[simp] theorem Thread.setReg_waitFor (th : Thread) (n : Nat) (x : Word) : (th.setReg n x).waitFor = th.waitFor := rfl
@[simp] theorem Thread.setReg_lwct (th : Thread) (n : Nat) (x : Word) : (th.setReg n x).lwct = th.lwct := rfl
@[simp] theorem Thread.setReg_posted (th : Thread) (n : Nat) (x : Word) : (th.setReg n x).posted = th.posted := rfl
@[simp] theorem Thread.setReg_eflt (th : Thread) (n : Nat) (x : Word) : (th.setReg n x).eflt = th.eflt := rfl
@[simp] theorem Thread.setReg_issued (th : Thread) (n : Nat) (x : Word) : (th.setReg n x).issued = th.issued := rfl
@[simp] theorem Thread.setReg_bars (th : Thread) (n : Nat) (x : Word) : (th.setReg n x).bars = th.bars := rfl
@[simp] theorem Thread.setReg_reached (th : Thread) (n : Nat) (x : Word) : (th.setReg n x).reached = th.reached := rfl
@[simp] theorem Thread.setReg_answer (th : Thread) (n : Nat) (x : Word) : (th.setReg n x).answer = th.answer := rfl
@[simp] theorem Thread.setReg_outcome (th : Thread) (n : Nat) (x : Word) : (th.setReg n x).outcome = th.outcome := rfl
@[simp] theorem Thread.setReg_image (th : Thread) (n : Nat) (x : Word) : (th.setReg n x).image = th.image := rfl
@[simp] theorem Thread.setReg_base (th : Thread) (n : Nat) (x : Word) : (th.setReg n x).base = th.base := rfl
@[simp] theorem Thread.setReg_missed (th : Thread) (n : Nat) (x : Word) : (th.setReg n x).missed = th.missed := rfl
@[simp] theorem Thread.setReg_pkt (th : Thread) (n : Nat) (x : Word) : (th.setReg n x).pkt = th.pkt := rfl
@[simp] theorem Thread.setReg_kept (th : Thread) (n : Nat) (x : Word) : (th.setReg n x).kept = th.kept := rfl
@[simp] theorem Thread.setReg_chased (th : Thread) (n : Nat) (x : Word) : (th.setReg n x).chased = th.chased := rfl

@[simp] theorem Thread.setReg2_p (th : Thread) (n : Nat) (d : DWord) : (th.setReg2 n d).p = th.p := rfl
@[simp] theorem Thread.setReg2_oc (th : Thread) (n : Nat) (d : DWord) : (th.setReg2 n d).oc = th.oc := rfl
@[simp] theorem Thread.setReg2_pc (th : Thread) (n : Nat) (d : DWord) : (th.setReg2 n d).pc = th.pc := rfl
@[simp] theorem Thread.setReg2_cond (th : Thread) (n : Nat) (d : DWord) : (th.setReg2 n d).cond = th.cond := rfl
@[simp] theorem Thread.setReg2_away (th : Thread) (n : Nat) (d : DWord) : (th.setReg2 n d).away = th.away := rfl
@[simp] theorem Thread.setReg2_halted (th : Thread) (n : Nat) (d : DWord) : (th.setReg2 n d).halted = th.halted := rfl
@[simp] theorem Thread.setReg2_squad (th : Thread) (n : Nat) (d : DWord) : (th.setReg2 n d).squad = th.squad := rfl
@[simp] theorem Thread.setReg2_rep (th : Thread) (n : Nat) (d : DWord) : (th.setReg2 n d).rep = th.rep := rfl
@[simp] theorem Thread.setReg2_repFrom (th : Thread) (n : Nat) (d : DWord) : (th.setReg2 n d).repFrom = th.repFrom := rfl
@[simp] theorem Thread.setReg2_fpmode (th : Thread) (n : Nat) (d : DWord) : (th.setReg2 n d).fpmode = th.fpmode := rfl
@[simp] theorem Thread.setReg2_fpflags (th : Thread) (n : Nat) (d : DWord) : (th.setReg2 n d).fpflags = th.fpflags := rfl
@[simp] theorem Thread.setReg2_rngctr (th : Thread) (n : Nat) (d : DWord) : (th.setReg2 n d).rngctr = th.rngctr := rfl
@[simp] theorem Thread.setReg2_tepc (th : Thread) (n : Nat) (d : DWord) : (th.setReg2 n d).tepc = th.tepc := rfl
@[simp] theorem Thread.setReg2_tcause (th : Thread) (n : Nat) (d : DWord) : (th.setReg2 n d).tcause = th.tcause := rfl
@[simp] theorem Thread.setReg2_taddr (th : Thread) (n : Nat) (d : DWord) : (th.setReg2 n d).taddr = th.taddr := rfl
@[simp] theorem Thread.setReg2_tinfo (th : Thread) (n : Nat) (d : DWord) : (th.setReg2 n d).tinfo = th.tinfo := rfl
@[simp] theorem Thread.setReg2_h (th : Thread) (n : Nat) (d : DWord) : (th.setReg2 n d).h = th.h := rfl
@[simp] theorem Thread.setReg2_cmem (th : Thread) (n : Nat) (d : DWord) : (th.setReg2 n d).cmem = th.cmem := rfl
@[simp] theorem Thread.setReg2_dtimeHi (th : Thread) (n : Nat) (d : DWord) : (th.setReg2 n d).dtimeHi = th.dtimeHi := rfl
@[simp] theorem Thread.setReg2_arrival (th : Thread) (n : Nat) (d : DWord) : (th.setReg2 n d).arrival = th.arrival := rfl
@[simp] theorem Thread.setReg2_stallTo (th : Thread) (n : Nat) (d : DWord) : (th.setReg2 n d).stallTo = th.stallTo := rfl
@[simp] theorem Thread.setReg2_waited (th : Thread) (n : Nat) (d : DWord) : (th.setReg2 n d).waited = th.waited := rfl
@[simp] theorem Thread.setReg2_waitFor (th : Thread) (n : Nat) (d : DWord) : (th.setReg2 n d).waitFor = th.waitFor := rfl
@[simp] theorem Thread.setReg2_lwct (th : Thread) (n : Nat) (d : DWord) : (th.setReg2 n d).lwct = th.lwct := rfl
@[simp] theorem Thread.setReg2_posted (th : Thread) (n : Nat) (d : DWord) : (th.setReg2 n d).posted = th.posted := rfl
@[simp] theorem Thread.setReg2_eflt (th : Thread) (n : Nat) (d : DWord) : (th.setReg2 n d).eflt = th.eflt := rfl
@[simp] theorem Thread.setReg2_issued (th : Thread) (n : Nat) (d : DWord) : (th.setReg2 n d).issued = th.issued := rfl
@[simp] theorem Thread.setReg2_bars (th : Thread) (n : Nat) (d : DWord) : (th.setReg2 n d).bars = th.bars := rfl
@[simp] theorem Thread.setReg2_reached (th : Thread) (n : Nat) (d : DWord) : (th.setReg2 n d).reached = th.reached := rfl
@[simp] theorem Thread.setReg2_answer (th : Thread) (n : Nat) (d : DWord) : (th.setReg2 n d).answer = th.answer := rfl
@[simp] theorem Thread.setReg2_outcome (th : Thread) (n : Nat) (d : DWord) : (th.setReg2 n d).outcome = th.outcome := rfl
@[simp] theorem Thread.setReg2_image (th : Thread) (n : Nat) (d : DWord) : (th.setReg2 n d).image = th.image := rfl
@[simp] theorem Thread.setReg2_base (th : Thread) (n : Nat) (d : DWord) : (th.setReg2 n d).base = th.base := rfl
@[simp] theorem Thread.setReg2_missed (th : Thread) (n : Nat) (d : DWord) : (th.setReg2 n d).missed = th.missed := rfl
@[simp] theorem Thread.setReg2_pkt (th : Thread) (n : Nat) (d : DWord) : (th.setReg2 n d).pkt = th.pkt := rfl
@[simp] theorem Thread.setReg2_kept (th : Thread) (n : Nat) (d : DWord) : (th.setReg2 n d).kept = th.kept := rfl
@[simp] theorem Thread.setReg2_chased (th : Thread) (n : Nat) (d : DWord) : (th.setReg2 n d).chased = th.chased := rfl

@[simp] theorem Thread.setCounter_v (th : Thread) (n k : Nat) : (th.setCounter n k).v = th.v := rfl
@[simp] theorem Thread.setCounter_p (th : Thread) (n k : Nat) : (th.setCounter n k).p = th.p := rfl
@[simp] theorem Thread.setCounter_pc (th : Thread) (n k : Nat) : (th.setCounter n k).pc = th.pc := rfl
@[simp] theorem Thread.setCounter_cond (th : Thread) (n k : Nat) : (th.setCounter n k).cond = th.cond := rfl
@[simp] theorem Thread.setCounter_away (th : Thread) (n k : Nat) : (th.setCounter n k).away = th.away := rfl
@[simp] theorem Thread.setCounter_halted (th : Thread) (n k : Nat) : (th.setCounter n k).halted = th.halted := rfl
@[simp] theorem Thread.setCounter_squad (th : Thread) (n k : Nat) : (th.setCounter n k).squad = th.squad := rfl
@[simp] theorem Thread.setCounter_rep (th : Thread) (n k : Nat) : (th.setCounter n k).rep = th.rep := rfl
@[simp] theorem Thread.setCounter_repFrom (th : Thread) (n k : Nat) : (th.setCounter n k).repFrom = th.repFrom := rfl
@[simp] theorem Thread.setCounter_fpmode (th : Thread) (n k : Nat) : (th.setCounter n k).fpmode = th.fpmode := rfl
@[simp] theorem Thread.setCounter_fpflags (th : Thread) (n k : Nat) : (th.setCounter n k).fpflags = th.fpflags := rfl
@[simp] theorem Thread.setCounter_rngctr (th : Thread) (n k : Nat) : (th.setCounter n k).rngctr = th.rngctr := rfl
@[simp] theorem Thread.setCounter_tepc (th : Thread) (n k : Nat) : (th.setCounter n k).tepc = th.tepc := rfl
@[simp] theorem Thread.setCounter_tcause (th : Thread) (n k : Nat) : (th.setCounter n k).tcause = th.tcause := rfl
@[simp] theorem Thread.setCounter_taddr (th : Thread) (n k : Nat) : (th.setCounter n k).taddr = th.taddr := rfl
@[simp] theorem Thread.setCounter_tinfo (th : Thread) (n k : Nat) : (th.setCounter n k).tinfo = th.tinfo := rfl
@[simp] theorem Thread.setCounter_h (th : Thread) (n k : Nat) : (th.setCounter n k).h = th.h := rfl
@[simp] theorem Thread.setCounter_cmem (th : Thread) (n k : Nat) : (th.setCounter n k).cmem = th.cmem := rfl
@[simp] theorem Thread.setCounter_dtimeHi (th : Thread) (n k : Nat) : (th.setCounter n k).dtimeHi = th.dtimeHi := rfl
@[simp] theorem Thread.setCounter_arrival (th : Thread) (n k : Nat) : (th.setCounter n k).arrival = th.arrival := rfl
@[simp] theorem Thread.setCounter_stallTo (th : Thread) (n k : Nat) : (th.setCounter n k).stallTo = th.stallTo := rfl
@[simp] theorem Thread.setCounter_waited (th : Thread) (n k : Nat) : (th.setCounter n k).waited = th.waited := rfl
@[simp] theorem Thread.setCounter_waitFor (th : Thread) (n k : Nat) : (th.setCounter n k).waitFor = th.waitFor := rfl
@[simp] theorem Thread.setCounter_lwct (th : Thread) (n k : Nat) : (th.setCounter n k).lwct = th.lwct := rfl
@[simp] theorem Thread.setCounter_posted (th : Thread) (n k : Nat) : (th.setCounter n k).posted = th.posted := rfl
@[simp] theorem Thread.setCounter_eflt (th : Thread) (n k : Nat) : (th.setCounter n k).eflt = th.eflt := rfl
@[simp] theorem Thread.setCounter_issued (th : Thread) (n k : Nat) : (th.setCounter n k).issued = th.issued := rfl
@[simp] theorem Thread.setCounter_bars (th : Thread) (n k : Nat) : (th.setCounter n k).bars = th.bars := rfl
@[simp] theorem Thread.setCounter_reached (th : Thread) (n k : Nat) : (th.setCounter n k).reached = th.reached := rfl
@[simp] theorem Thread.setCounter_answer (th : Thread) (n k : Nat) : (th.setCounter n k).answer = th.answer := rfl
@[simp] theorem Thread.setCounter_outcome (th : Thread) (n k : Nat) : (th.setCounter n k).outcome = th.outcome := rfl
@[simp] theorem Thread.setCounter_image (th : Thread) (n k : Nat) : (th.setCounter n k).image = th.image := rfl
@[simp] theorem Thread.setCounter_base (th : Thread) (n k : Nat) : (th.setCounter n k).base = th.base := rfl
@[simp] theorem Thread.setCounter_missed (th : Thread) (n k : Nat) : (th.setCounter n k).missed = th.missed := rfl
@[simp] theorem Thread.setCounter_pkt (th : Thread) (n k : Nat) : (th.setCounter n k).pkt = th.pkt := rfl
@[simp] theorem Thread.setCounter_kept (th : Thread) (n k : Nat) : (th.setCounter n k).kept = th.kept := rfl
@[simp] theorem Thread.setCounter_chased (th : Thread) (n k : Nat) : (th.setCounter n k).chased = th.chased := rfl

@[simp] theorem Thread.count_v (th : Thread) (n : Nat) : (th.count n).v = th.v := rfl
@[simp] theorem Thread.count_p (th : Thread) (n : Nat) : (th.count n).p = th.p := rfl
@[simp] theorem Thread.count_pc (th : Thread) (n : Nat) : (th.count n).pc = th.pc := rfl
@[simp] theorem Thread.count_cond (th : Thread) (n : Nat) : (th.count n).cond = th.cond := rfl
@[simp] theorem Thread.count_away (th : Thread) (n : Nat) : (th.count n).away = th.away := rfl
@[simp] theorem Thread.count_halted (th : Thread) (n : Nat) : (th.count n).halted = th.halted := rfl
@[simp] theorem Thread.count_squad (th : Thread) (n : Nat) : (th.count n).squad = th.squad := rfl
@[simp] theorem Thread.count_rep (th : Thread) (n : Nat) : (th.count n).rep = th.rep := rfl
@[simp] theorem Thread.count_repFrom (th : Thread) (n : Nat) : (th.count n).repFrom = th.repFrom := rfl
@[simp] theorem Thread.count_fpmode (th : Thread) (n : Nat) : (th.count n).fpmode = th.fpmode := rfl
@[simp] theorem Thread.count_fpflags (th : Thread) (n : Nat) : (th.count n).fpflags = th.fpflags := rfl
@[simp] theorem Thread.count_rngctr (th : Thread) (n : Nat) : (th.count n).rngctr = th.rngctr := rfl
@[simp] theorem Thread.count_tepc (th : Thread) (n : Nat) : (th.count n).tepc = th.tepc := rfl
@[simp] theorem Thread.count_tcause (th : Thread) (n : Nat) : (th.count n).tcause = th.tcause := rfl
@[simp] theorem Thread.count_taddr (th : Thread) (n : Nat) : (th.count n).taddr = th.taddr := rfl
@[simp] theorem Thread.count_tinfo (th : Thread) (n : Nat) : (th.count n).tinfo = th.tinfo := rfl
@[simp] theorem Thread.count_h (th : Thread) (n : Nat) : (th.count n).h = th.h := rfl
@[simp] theorem Thread.count_cmem (th : Thread) (n : Nat) : (th.count n).cmem = th.cmem := rfl
@[simp] theorem Thread.count_dtimeHi (th : Thread) (n : Nat) : (th.count n).dtimeHi = th.dtimeHi := rfl
@[simp] theorem Thread.count_arrival (th : Thread) (n : Nat) : (th.count n).arrival = th.arrival := rfl
@[simp] theorem Thread.count_stallTo (th : Thread) (n : Nat) : (th.count n).stallTo = th.stallTo := rfl
@[simp] theorem Thread.count_waited (th : Thread) (n : Nat) : (th.count n).waited = th.waited := rfl
@[simp] theorem Thread.count_waitFor (th : Thread) (n : Nat) : (th.count n).waitFor = th.waitFor := rfl
@[simp] theorem Thread.count_lwct (th : Thread) (n : Nat) : (th.count n).lwct = th.lwct := rfl
@[simp] theorem Thread.count_posted (th : Thread) (n : Nat) : (th.count n).posted = th.posted := rfl
@[simp] theorem Thread.count_eflt (th : Thread) (n : Nat) : (th.count n).eflt = th.eflt := rfl
@[simp] theorem Thread.count_bars (th : Thread) (n : Nat) : (th.count n).bars = th.bars := rfl
@[simp] theorem Thread.count_reached (th : Thread) (n : Nat) : (th.count n).reached = th.reached := rfl
@[simp] theorem Thread.count_answer (th : Thread) (n : Nat) : (th.count n).answer = th.answer := rfl
@[simp] theorem Thread.count_outcome (th : Thread) (n : Nat) : (th.count n).outcome = th.outcome := rfl
@[simp] theorem Thread.count_image (th : Thread) (n : Nat) : (th.count n).image = th.image := rfl
@[simp] theorem Thread.count_base (th : Thread) (n : Nat) : (th.count n).base = th.base := rfl
@[simp] theorem Thread.count_missed (th : Thread) (n : Nat) : (th.count n).missed = th.missed := rfl
@[simp] theorem Thread.count_pkt (th : Thread) (n : Nat) : (th.count n).pkt = th.pkt := rfl
@[simp] theorem Thread.count_kept (th : Thread) (n : Nat) : (th.count n).kept = th.kept := rfl
@[simp] theorem Thread.count_chased (th : Thread) (n : Nat) : (th.count n).chased = th.chased := rfl

@[simp] theorem Thread.uncount_v (th : Thread) (n : Nat) : (th.uncount n).v = th.v := rfl
@[simp] theorem Thread.uncount_p (th : Thread) (n : Nat) : (th.uncount n).p = th.p := rfl
@[simp] theorem Thread.uncount_pc (th : Thread) (n : Nat) : (th.uncount n).pc = th.pc := rfl
@[simp] theorem Thread.uncount_cond (th : Thread) (n : Nat) : (th.uncount n).cond = th.cond := rfl
@[simp] theorem Thread.uncount_away (th : Thread) (n : Nat) : (th.uncount n).away = th.away := rfl
@[simp] theorem Thread.uncount_halted (th : Thread) (n : Nat) : (th.uncount n).halted = th.halted := rfl
@[simp] theorem Thread.uncount_squad (th : Thread) (n : Nat) : (th.uncount n).squad = th.squad := rfl
@[simp] theorem Thread.uncount_rep (th : Thread) (n : Nat) : (th.uncount n).rep = th.rep := rfl
@[simp] theorem Thread.uncount_repFrom (th : Thread) (n : Nat) : (th.uncount n).repFrom = th.repFrom := rfl
@[simp] theorem Thread.uncount_fpmode (th : Thread) (n : Nat) : (th.uncount n).fpmode = th.fpmode := rfl
@[simp] theorem Thread.uncount_fpflags (th : Thread) (n : Nat) : (th.uncount n).fpflags = th.fpflags := rfl
@[simp] theorem Thread.uncount_rngctr (th : Thread) (n : Nat) : (th.uncount n).rngctr = th.rngctr := rfl
@[simp] theorem Thread.uncount_tepc (th : Thread) (n : Nat) : (th.uncount n).tepc = th.tepc := rfl
@[simp] theorem Thread.uncount_tcause (th : Thread) (n : Nat) : (th.uncount n).tcause = th.tcause := rfl
@[simp] theorem Thread.uncount_taddr (th : Thread) (n : Nat) : (th.uncount n).taddr = th.taddr := rfl
@[simp] theorem Thread.uncount_tinfo (th : Thread) (n : Nat) : (th.uncount n).tinfo = th.tinfo := rfl
@[simp] theorem Thread.uncount_h (th : Thread) (n : Nat) : (th.uncount n).h = th.h := rfl
@[simp] theorem Thread.uncount_cmem (th : Thread) (n : Nat) : (th.uncount n).cmem = th.cmem := rfl
@[simp] theorem Thread.uncount_dtimeHi (th : Thread) (n : Nat) : (th.uncount n).dtimeHi = th.dtimeHi := rfl
@[simp] theorem Thread.uncount_arrival (th : Thread) (n : Nat) : (th.uncount n).arrival = th.arrival := rfl
@[simp] theorem Thread.uncount_stallTo (th : Thread) (n : Nat) : (th.uncount n).stallTo = th.stallTo := rfl
@[simp] theorem Thread.uncount_waited (th : Thread) (n : Nat) : (th.uncount n).waited = th.waited := rfl
@[simp] theorem Thread.uncount_waitFor (th : Thread) (n : Nat) : (th.uncount n).waitFor = th.waitFor := rfl
@[simp] theorem Thread.uncount_lwct (th : Thread) (n : Nat) : (th.uncount n).lwct = th.lwct := rfl
@[simp] theorem Thread.uncount_posted (th : Thread) (n : Nat) : (th.uncount n).posted = th.posted := rfl
@[simp] theorem Thread.uncount_eflt (th : Thread) (n : Nat) : (th.uncount n).eflt = th.eflt := rfl
@[simp] theorem Thread.uncount_issued (th : Thread) (n : Nat) : (th.uncount n).issued = th.issued := rfl
@[simp] theorem Thread.uncount_bars (th : Thread) (n : Nat) : (th.uncount n).bars = th.bars := rfl
@[simp] theorem Thread.uncount_reached (th : Thread) (n : Nat) : (th.uncount n).reached = th.reached := rfl
@[simp] theorem Thread.uncount_answer (th : Thread) (n : Nat) : (th.uncount n).answer = th.answer := rfl
@[simp] theorem Thread.uncount_outcome (th : Thread) (n : Nat) : (th.uncount n).outcome = th.outcome := rfl
@[simp] theorem Thread.uncount_image (th : Thread) (n : Nat) : (th.uncount n).image = th.image := rfl
@[simp] theorem Thread.uncount_base (th : Thread) (n : Nat) : (th.uncount n).base = th.base := rfl
@[simp] theorem Thread.uncount_missed (th : Thread) (n : Nat) : (th.uncount n).missed = th.missed := rfl
@[simp] theorem Thread.uncount_pkt (th : Thread) (n : Nat) : (th.uncount n).pkt = th.pkt := rfl
@[simp] theorem Thread.uncount_kept (th : Thread) (n : Nat) : (th.uncount n).kept = th.kept := rfl
@[simp] theorem Thread.uncount_chased (th : Thread) (n : Nat) : (th.uncount n).chased = th.chased := rfl

@[simp] theorem Thread.noteWct_v (th : Thread) (w : Nat) : (th.noteWct w).v = th.v := rfl
@[simp] theorem Thread.noteWct_p (th : Thread) (w : Nat) : (th.noteWct w).p = th.p := rfl
@[simp] theorem Thread.noteWct_oc (th : Thread) (w : Nat) : (th.noteWct w).oc = th.oc := rfl
@[simp] theorem Thread.noteWct_pc (th : Thread) (w : Nat) : (th.noteWct w).pc = th.pc := rfl
@[simp] theorem Thread.noteWct_cond (th : Thread) (w : Nat) : (th.noteWct w).cond = th.cond := rfl
@[simp] theorem Thread.noteWct_away (th : Thread) (w : Nat) : (th.noteWct w).away = th.away := rfl
@[simp] theorem Thread.noteWct_halted (th : Thread) (w : Nat) : (th.noteWct w).halted = th.halted := rfl
@[simp] theorem Thread.noteWct_squad (th : Thread) (w : Nat) : (th.noteWct w).squad = th.squad := rfl
@[simp] theorem Thread.noteWct_rep (th : Thread) (w : Nat) : (th.noteWct w).rep = th.rep := rfl
@[simp] theorem Thread.noteWct_repFrom (th : Thread) (w : Nat) : (th.noteWct w).repFrom = th.repFrom := rfl
@[simp] theorem Thread.noteWct_fpmode (th : Thread) (w : Nat) : (th.noteWct w).fpmode = th.fpmode := rfl
@[simp] theorem Thread.noteWct_fpflags (th : Thread) (w : Nat) : (th.noteWct w).fpflags = th.fpflags := rfl
@[simp] theorem Thread.noteWct_rngctr (th : Thread) (w : Nat) : (th.noteWct w).rngctr = th.rngctr := rfl
@[simp] theorem Thread.noteWct_tepc (th : Thread) (w : Nat) : (th.noteWct w).tepc = th.tepc := rfl
@[simp] theorem Thread.noteWct_tcause (th : Thread) (w : Nat) : (th.noteWct w).tcause = th.tcause := rfl
@[simp] theorem Thread.noteWct_taddr (th : Thread) (w : Nat) : (th.noteWct w).taddr = th.taddr := rfl
@[simp] theorem Thread.noteWct_tinfo (th : Thread) (w : Nat) : (th.noteWct w).tinfo = th.tinfo := rfl
@[simp] theorem Thread.noteWct_h (th : Thread) (w : Nat) : (th.noteWct w).h = th.h := rfl
@[simp] theorem Thread.noteWct_cmem (th : Thread) (w : Nat) : (th.noteWct w).cmem = th.cmem := rfl
@[simp] theorem Thread.noteWct_dtimeHi (th : Thread) (w : Nat) : (th.noteWct w).dtimeHi = th.dtimeHi := rfl
@[simp] theorem Thread.noteWct_arrival (th : Thread) (w : Nat) : (th.noteWct w).arrival = th.arrival := rfl
@[simp] theorem Thread.noteWct_stallTo (th : Thread) (w : Nat) : (th.noteWct w).stallTo = th.stallTo := rfl
@[simp] theorem Thread.noteWct_waited (th : Thread) (w : Nat) : (th.noteWct w).waited = th.waited := rfl
@[simp] theorem Thread.noteWct_waitFor (th : Thread) (w : Nat) : (th.noteWct w).waitFor = th.waitFor := rfl
@[simp] theorem Thread.noteWct_posted (th : Thread) (w : Nat) : (th.noteWct w).posted = th.posted := rfl
@[simp] theorem Thread.noteWct_eflt (th : Thread) (w : Nat) : (th.noteWct w).eflt = th.eflt := rfl
@[simp] theorem Thread.noteWct_issued (th : Thread) (w : Nat) : (th.noteWct w).issued = th.issued := rfl
@[simp] theorem Thread.noteWct_bars (th : Thread) (w : Nat) : (th.noteWct w).bars = th.bars := rfl
@[simp] theorem Thread.noteWct_reached (th : Thread) (w : Nat) : (th.noteWct w).reached = th.reached := rfl
@[simp] theorem Thread.noteWct_answer (th : Thread) (w : Nat) : (th.noteWct w).answer = th.answer := rfl
@[simp] theorem Thread.noteWct_outcome (th : Thread) (w : Nat) : (th.noteWct w).outcome = th.outcome := rfl
@[simp] theorem Thread.noteWct_image (th : Thread) (w : Nat) : (th.noteWct w).image = th.image := rfl
@[simp] theorem Thread.noteWct_base (th : Thread) (w : Nat) : (th.noteWct w).base = th.base := rfl
@[simp] theorem Thread.noteWct_missed (th : Thread) (w : Nat) : (th.noteWct w).missed = th.missed := rfl
@[simp] theorem Thread.noteWct_pkt (th : Thread) (w : Nat) : (th.noteWct w).pkt = th.pkt := rfl
@[simp] theorem Thread.noteWct_kept (th : Thread) (w : Nat) : (th.noteWct w).kept = th.kept := rfl
@[simp] theorem Thread.noteWct_chased (th : Thread) (w : Nat) : (th.noteWct w).chased = th.chased := rfl

@[simp] theorem Thread.clear_v (th : Thread) : (th.clear).v = th.v := rfl
@[simp] theorem Thread.clear_p (th : Thread) : (th.clear).p = th.p := rfl
@[simp] theorem Thread.clear_oc (th : Thread) : (th.clear).oc = th.oc := rfl
@[simp] theorem Thread.clear_pc (th : Thread) : (th.clear).pc = th.pc := rfl
@[simp] theorem Thread.clear_cond (th : Thread) : (th.clear).cond = th.cond := rfl
@[simp] theorem Thread.clear_away (th : Thread) : (th.clear).away = th.away := rfl
@[simp] theorem Thread.clear_halted (th : Thread) : (th.clear).halted = th.halted := rfl
@[simp] theorem Thread.clear_squad (th : Thread) : (th.clear).squad = th.squad := rfl
@[simp] theorem Thread.clear_rep (th : Thread) : (th.clear).rep = th.rep := rfl
@[simp] theorem Thread.clear_fpmode (th : Thread) : (th.clear).fpmode = th.fpmode := rfl
@[simp] theorem Thread.clear_fpflags (th : Thread) : (th.clear).fpflags = th.fpflags := rfl
@[simp] theorem Thread.clear_rngctr (th : Thread) : (th.clear).rngctr = th.rngctr := rfl
@[simp] theorem Thread.clear_tepc (th : Thread) : (th.clear).tepc = th.tepc := rfl
@[simp] theorem Thread.clear_tcause (th : Thread) : (th.clear).tcause = th.tcause := rfl
@[simp] theorem Thread.clear_taddr (th : Thread) : (th.clear).taddr = th.taddr := rfl
@[simp] theorem Thread.clear_tinfo (th : Thread) : (th.clear).tinfo = th.tinfo := rfl
@[simp] theorem Thread.clear_h (th : Thread) : (th.clear).h = th.h := rfl
@[simp] theorem Thread.clear_cmem (th : Thread) : (th.clear).cmem = th.cmem := rfl
@[simp] theorem Thread.clear_dtimeHi (th : Thread) : (th.clear).dtimeHi = th.dtimeHi := rfl
@[simp] theorem Thread.clear_stallTo (th : Thread) : (th.clear).stallTo = th.stallTo := rfl
@[simp] theorem Thread.clear_lwct (th : Thread) : (th.clear).lwct = th.lwct := rfl
@[simp] theorem Thread.clear_posted (th : Thread) : (th.clear).posted = th.posted := rfl
@[simp] theorem Thread.clear_eflt (th : Thread) : (th.clear).eflt = th.eflt := rfl
@[simp] theorem Thread.clear_issued (th : Thread) : (th.clear).issued = th.issued := rfl
@[simp] theorem Thread.clear_bars (th : Thread) : (th.clear).bars = th.bars := rfl
@[simp] theorem Thread.clear_reached (th : Thread) : (th.clear).reached = th.reached := rfl
@[simp] theorem Thread.clear_image (th : Thread) : (th.clear).image = th.image := rfl
@[simp] theorem Thread.clear_base (th : Thread) : (th.clear).base = th.base := rfl
@[simp] theorem Thread.clear_missed (th : Thread) : (th.clear).missed = th.missed := rfl
@[simp] theorem Thread.clear_pkt (th : Thread) : (th.clear).pkt = th.pkt := rfl

@[simp] theorem Thread.jump_v (th : Thread) (pc : Nat) : (th.jump pc).v = th.v := rfl
@[simp] theorem Thread.jump_p (th : Thread) (pc : Nat) : (th.jump pc).p = th.p := rfl
@[simp] theorem Thread.jump_oc (th : Thread) (pc : Nat) : (th.jump pc).oc = th.oc := rfl
@[simp] theorem Thread.jump_cond (th : Thread) (pc : Nat) : (th.jump pc).cond = th.cond := rfl
@[simp] theorem Thread.jump_away (th : Thread) (pc : Nat) : (th.jump pc).away = th.away := rfl
@[simp] theorem Thread.jump_halted (th : Thread) (pc : Nat) : (th.jump pc).halted = th.halted := rfl
@[simp] theorem Thread.jump_squad (th : Thread) (pc : Nat) : (th.jump pc).squad = th.squad := rfl
@[simp] theorem Thread.jump_fpmode (th : Thread) (pc : Nat) : (th.jump pc).fpmode = th.fpmode := rfl
@[simp] theorem Thread.jump_fpflags (th : Thread) (pc : Nat) : (th.jump pc).fpflags = th.fpflags := rfl
@[simp] theorem Thread.jump_rngctr (th : Thread) (pc : Nat) : (th.jump pc).rngctr = th.rngctr := rfl
@[simp] theorem Thread.jump_tepc (th : Thread) (pc : Nat) : (th.jump pc).tepc = th.tepc := rfl
@[simp] theorem Thread.jump_tcause (th : Thread) (pc : Nat) : (th.jump pc).tcause = th.tcause := rfl
@[simp] theorem Thread.jump_taddr (th : Thread) (pc : Nat) : (th.jump pc).taddr = th.taddr := rfl
@[simp] theorem Thread.jump_tinfo (th : Thread) (pc : Nat) : (th.jump pc).tinfo = th.tinfo := rfl
@[simp] theorem Thread.jump_h (th : Thread) (pc : Nat) : (th.jump pc).h = th.h := rfl
@[simp] theorem Thread.jump_cmem (th : Thread) (pc : Nat) : (th.jump pc).cmem = th.cmem := rfl
@[simp] theorem Thread.jump_dtimeHi (th : Thread) (pc : Nat) : (th.jump pc).dtimeHi = th.dtimeHi := rfl
@[simp] theorem Thread.jump_stallTo (th : Thread) (pc : Nat) : (th.jump pc).stallTo = th.stallTo := rfl
@[simp] theorem Thread.jump_lwct (th : Thread) (pc : Nat) : (th.jump pc).lwct = th.lwct := rfl
@[simp] theorem Thread.jump_posted (th : Thread) (pc : Nat) : (th.jump pc).posted = th.posted := rfl
@[simp] theorem Thread.jump_eflt (th : Thread) (pc : Nat) : (th.jump pc).eflt = th.eflt := rfl
@[simp] theorem Thread.jump_issued (th : Thread) (pc : Nat) : (th.jump pc).issued = th.issued := rfl
@[simp] theorem Thread.jump_bars (th : Thread) (pc : Nat) : (th.jump pc).bars = th.bars := rfl
@[simp] theorem Thread.jump_reached (th : Thread) (pc : Nat) : (th.jump pc).reached = th.reached := rfl
@[simp] theorem Thread.jump_image (th : Thread) (pc : Nat) : (th.jump pc).image = th.image := rfl
@[simp] theorem Thread.jump_missed (th : Thread) (pc : Nat) : (th.jump pc).missed = th.missed := rfl

@[simp] theorem Thread.stopAt_v (th : Thread) : (th.stopAt).v = th.v := rfl
@[simp] theorem Thread.stopAt_p (th : Thread) : (th.stopAt).p = th.p := rfl
@[simp] theorem Thread.stopAt_oc (th : Thread) : (th.stopAt).oc = th.oc := rfl
@[simp] theorem Thread.stopAt_pc (th : Thread) : (th.stopAt).pc = th.pc := rfl
@[simp] theorem Thread.stopAt_cond (th : Thread) : (th.stopAt).cond = th.cond := rfl
@[simp] theorem Thread.stopAt_away (th : Thread) : (th.stopAt).away = th.away := rfl
@[simp] theorem Thread.stopAt_halted (th : Thread) : (th.stopAt).halted = th.halted := rfl
@[simp] theorem Thread.stopAt_squad (th : Thread) : (th.stopAt).squad = th.squad := rfl
@[simp] theorem Thread.stopAt_rep (th : Thread) : (th.stopAt).rep = th.rep := rfl
@[simp] theorem Thread.stopAt_repFrom (th : Thread) : (th.stopAt).repFrom = th.repFrom := rfl
@[simp] theorem Thread.stopAt_fpmode (th : Thread) : (th.stopAt).fpmode = th.fpmode := rfl
@[simp] theorem Thread.stopAt_fpflags (th : Thread) : (th.stopAt).fpflags = th.fpflags := rfl
@[simp] theorem Thread.stopAt_rngctr (th : Thread) : (th.stopAt).rngctr = th.rngctr := rfl
@[simp] theorem Thread.stopAt_tepc (th : Thread) : (th.stopAt).tepc = th.tepc := rfl
@[simp] theorem Thread.stopAt_tcause (th : Thread) : (th.stopAt).tcause = th.tcause := rfl
@[simp] theorem Thread.stopAt_taddr (th : Thread) : (th.stopAt).taddr = th.taddr := rfl
@[simp] theorem Thread.stopAt_tinfo (th : Thread) : (th.stopAt).tinfo = th.tinfo := rfl
@[simp] theorem Thread.stopAt_h (th : Thread) : (th.stopAt).h = th.h := rfl
@[simp] theorem Thread.stopAt_cmem (th : Thread) : (th.stopAt).cmem = th.cmem := rfl
@[simp] theorem Thread.stopAt_dtimeHi (th : Thread) : (th.stopAt).dtimeHi = th.dtimeHi := rfl
@[simp] theorem Thread.stopAt_arrival (th : Thread) : (th.stopAt).arrival = th.arrival := rfl
@[simp] theorem Thread.stopAt_stallTo (th : Thread) : (th.stopAt).stallTo = th.stallTo := rfl
@[simp] theorem Thread.stopAt_waited (th : Thread) : (th.stopAt).waited = th.waited := rfl
@[simp] theorem Thread.stopAt_waitFor (th : Thread) : (th.stopAt).waitFor = th.waitFor := rfl
@[simp] theorem Thread.stopAt_lwct (th : Thread) : (th.stopAt).lwct = th.lwct := rfl
@[simp] theorem Thread.stopAt_posted (th : Thread) : (th.stopAt).posted = th.posted := rfl
@[simp] theorem Thread.stopAt_eflt (th : Thread) : (th.stopAt).eflt = th.eflt := rfl
@[simp] theorem Thread.stopAt_issued (th : Thread) : (th.stopAt).issued = th.issued := rfl
@[simp] theorem Thread.stopAt_bars (th : Thread) : (th.stopAt).bars = th.bars := rfl
@[simp] theorem Thread.stopAt_reached (th : Thread) : (th.stopAt).reached = th.reached := rfl
@[simp] theorem Thread.stopAt_answer (th : Thread) : (th.stopAt).answer = th.answer := rfl
@[simp] theorem Thread.stopAt_outcome (th : Thread) : (th.stopAt).outcome = th.outcome := rfl
@[simp] theorem Thread.stopAt_image (th : Thread) : (th.stopAt).image = th.image := rfl
@[simp] theorem Thread.stopAt_missed (th : Thread) : (th.stopAt).missed = th.missed := rfl
@[simp] theorem Thread.stopAt_pkt (th : Thread) : (th.stopAt).pkt = th.pkt := rfl
@[simp] theorem Thread.stopAt_chased (th : Thread) : (th.stopAt).chased = th.chased := rfl

@[simp] theorem Thread.arrive_v (th : Thread) : (th.arrive).v = th.v := rfl
@[simp] theorem Thread.arrive_p (th : Thread) : (th.arrive).p = th.p := rfl
@[simp] theorem Thread.arrive_oc (th : Thread) : (th.arrive).oc = th.oc := rfl
@[simp] theorem Thread.arrive_pc (th : Thread) : (th.arrive).pc = th.pc := rfl
@[simp] theorem Thread.arrive_cond (th : Thread) : (th.arrive).cond = th.cond := rfl
@[simp] theorem Thread.arrive_away (th : Thread) : (th.arrive).away = th.away := rfl
@[simp] theorem Thread.arrive_halted (th : Thread) : (th.arrive).halted = th.halted := rfl
@[simp] theorem Thread.arrive_squad (th : Thread) : (th.arrive).squad = th.squad := rfl
@[simp] theorem Thread.arrive_rep (th : Thread) : (th.arrive).rep = th.rep := rfl
@[simp] theorem Thread.arrive_repFrom (th : Thread) : (th.arrive).repFrom = th.repFrom := rfl
@[simp] theorem Thread.arrive_fpmode (th : Thread) : (th.arrive).fpmode = th.fpmode := rfl
@[simp] theorem Thread.arrive_fpflags (th : Thread) : (th.arrive).fpflags = th.fpflags := rfl
@[simp] theorem Thread.arrive_rngctr (th : Thread) : (th.arrive).rngctr = th.rngctr := rfl
@[simp] theorem Thread.arrive_tepc (th : Thread) : (th.arrive).tepc = th.tepc := rfl
@[simp] theorem Thread.arrive_tcause (th : Thread) : (th.arrive).tcause = th.tcause := rfl
@[simp] theorem Thread.arrive_taddr (th : Thread) : (th.arrive).taddr = th.taddr := rfl
@[simp] theorem Thread.arrive_tinfo (th : Thread) : (th.arrive).tinfo = th.tinfo := rfl
@[simp] theorem Thread.arrive_h (th : Thread) : (th.arrive).h = th.h := rfl
@[simp] theorem Thread.arrive_cmem (th : Thread) : (th.arrive).cmem = th.cmem := rfl
@[simp] theorem Thread.arrive_dtimeHi (th : Thread) : (th.arrive).dtimeHi = th.dtimeHi := rfl
@[simp] theorem Thread.arrive_arrival (th : Thread) : (th.arrive).arrival = th.arrival := rfl
@[simp] theorem Thread.arrive_stallTo (th : Thread) : (th.arrive).stallTo = th.stallTo := rfl
@[simp] theorem Thread.arrive_waited (th : Thread) : (th.arrive).waited = th.waited := rfl
@[simp] theorem Thread.arrive_waitFor (th : Thread) : (th.arrive).waitFor = th.waitFor := rfl
@[simp] theorem Thread.arrive_lwct (th : Thread) : (th.arrive).lwct = th.lwct := rfl
@[simp] theorem Thread.arrive_posted (th : Thread) : (th.arrive).posted = th.posted := rfl
@[simp] theorem Thread.arrive_eflt (th : Thread) : (th.arrive).eflt = th.eflt := rfl
@[simp] theorem Thread.arrive_issued (th : Thread) : (th.arrive).issued = th.issued := rfl
@[simp] theorem Thread.arrive_bars (th : Thread) : (th.arrive).bars = th.bars := rfl
@[simp] theorem Thread.arrive_answer (th : Thread) : (th.arrive).answer = th.answer := rfl
@[simp] theorem Thread.arrive_outcome (th : Thread) : (th.arrive).outcome = th.outcome := rfl
@[simp] theorem Thread.arrive_image (th : Thread) : (th.arrive).image = th.image := rfl
@[simp] theorem Thread.arrive_base (th : Thread) : (th.arrive).base = th.base := rfl
@[simp] theorem Thread.arrive_missed (th : Thread) : (th.arrive).missed = th.missed := rfl
@[simp] theorem Thread.arrive_pkt (th : Thread) : (th.arrive).pkt = th.pkt := rfl
@[simp] theorem Thread.arrive_kept (th : Thread) : (th.arrive).kept = th.kept := rfl
@[simp] theorem Thread.arrive_chased (th : Thread) : (th.arrive).chased = th.chased := rfl

@[simp] theorem Thread.hold_v (th : Thread) (w : Wait) : (th.hold w).v = th.v := rfl
@[simp] theorem Thread.hold_p (th : Thread) (w : Wait) : (th.hold w).p = th.p := rfl
@[simp] theorem Thread.hold_oc (th : Thread) (w : Wait) : (th.hold w).oc = th.oc := rfl
@[simp] theorem Thread.hold_pc (th : Thread) (w : Wait) : (th.hold w).pc = th.pc := rfl
@[simp] theorem Thread.hold_away (th : Thread) (w : Wait) : (th.hold w).away = th.away := rfl
@[simp] theorem Thread.hold_halted (th : Thread) (w : Wait) : (th.hold w).halted = th.halted := rfl
@[simp] theorem Thread.hold_squad (th : Thread) (w : Wait) : (th.hold w).squad = th.squad := rfl
@[simp] theorem Thread.hold_rep (th : Thread) (w : Wait) : (th.hold w).rep = th.rep := rfl
@[simp] theorem Thread.hold_repFrom (th : Thread) (w : Wait) : (th.hold w).repFrom = th.repFrom := rfl
@[simp] theorem Thread.hold_fpmode (th : Thread) (w : Wait) : (th.hold w).fpmode = th.fpmode := rfl
@[simp] theorem Thread.hold_fpflags (th : Thread) (w : Wait) : (th.hold w).fpflags = th.fpflags := rfl
@[simp] theorem Thread.hold_rngctr (th : Thread) (w : Wait) : (th.hold w).rngctr = th.rngctr := rfl
@[simp] theorem Thread.hold_tepc (th : Thread) (w : Wait) : (th.hold w).tepc = th.tepc := rfl
@[simp] theorem Thread.hold_tcause (th : Thread) (w : Wait) : (th.hold w).tcause = th.tcause := rfl
@[simp] theorem Thread.hold_taddr (th : Thread) (w : Wait) : (th.hold w).taddr = th.taddr := rfl
@[simp] theorem Thread.hold_tinfo (th : Thread) (w : Wait) : (th.hold w).tinfo = th.tinfo := rfl
@[simp] theorem Thread.hold_h (th : Thread) (w : Wait) : (th.hold w).h = th.h := rfl
@[simp] theorem Thread.hold_cmem (th : Thread) (w : Wait) : (th.hold w).cmem = th.cmem := rfl
@[simp] theorem Thread.hold_dtimeHi (th : Thread) (w : Wait) : (th.hold w).dtimeHi = th.dtimeHi := rfl
@[simp] theorem Thread.hold_arrival (th : Thread) (w : Wait) : (th.hold w).arrival = th.arrival := rfl
@[simp] theorem Thread.hold_stallTo (th : Thread) (w : Wait) : (th.hold w).stallTo = th.stallTo := rfl
@[simp] theorem Thread.hold_lwct (th : Thread) (w : Wait) : (th.hold w).lwct = th.lwct := rfl
@[simp] theorem Thread.hold_posted (th : Thread) (w : Wait) : (th.hold w).posted = th.posted := rfl
@[simp] theorem Thread.hold_eflt (th : Thread) (w : Wait) : (th.hold w).eflt = th.eflt := rfl
@[simp] theorem Thread.hold_issued (th : Thread) (w : Wait) : (th.hold w).issued = th.issued := rfl
@[simp] theorem Thread.hold_bars (th : Thread) (w : Wait) : (th.hold w).bars = th.bars := rfl
@[simp] theorem Thread.hold_reached (th : Thread) (w : Wait) : (th.hold w).reached = th.reached := rfl
@[simp] theorem Thread.hold_answer (th : Thread) (w : Wait) : (th.hold w).answer = th.answer := rfl
@[simp] theorem Thread.hold_outcome (th : Thread) (w : Wait) : (th.hold w).outcome = th.outcome := rfl
@[simp] theorem Thread.hold_image (th : Thread) (w : Wait) : (th.hold w).image = th.image := rfl
@[simp] theorem Thread.hold_base (th : Thread) (w : Wait) : (th.hold w).base = th.base := rfl
@[simp] theorem Thread.hold_missed (th : Thread) (w : Wait) : (th.hold w).missed = th.missed := rfl
@[simp] theorem Thread.hold_pkt (th : Thread) (w : Wait) : (th.hold w).pkt = th.pkt := rfl
@[simp] theorem Thread.hold_kept (th : Thread) (w : Wait) : (th.hold w).kept = th.kept := rfl
@[simp] theorem Thread.hold_chased (th : Thread) (w : Wait) : (th.hold w).chased = th.chased := rfl

@[simp] theorem Thread.enterTrap_v (th : Thread) (v : DWord) (c e x : Nat) (i : Word) : (th.enterTrap v c e x i).v = th.v := rfl
@[simp] theorem Thread.enterTrap_p (th : Thread) (v : DWord) (c e x : Nat) (i : Word) : (th.enterTrap v c e x i).p = th.p := rfl
@[simp] theorem Thread.enterTrap_oc (th : Thread) (v : DWord) (c e x : Nat) (i : Word) : (th.enterTrap v c e x i).oc = th.oc := rfl
@[simp] theorem Thread.enterTrap_away (th : Thread) (v : DWord) (c e x : Nat) (i : Word) : (th.enterTrap v c e x i).away = th.away := rfl
@[simp] theorem Thread.enterTrap_halted (th : Thread) (v : DWord) (c e x : Nat) (i : Word) : (th.enterTrap v c e x i).halted = th.halted := rfl
@[simp] theorem Thread.enterTrap_squad (th : Thread) (v : DWord) (c e x : Nat) (i : Word) : (th.enterTrap v c e x i).squad = th.squad := rfl
@[simp] theorem Thread.enterTrap_fpmode (th : Thread) (v : DWord) (c e x : Nat) (i : Word) : (th.enterTrap v c e x i).fpmode = th.fpmode := rfl
@[simp] theorem Thread.enterTrap_fpflags (th : Thread) (v : DWord) (c e x : Nat) (i : Word) : (th.enterTrap v c e x i).fpflags = th.fpflags := rfl
@[simp] theorem Thread.enterTrap_rngctr (th : Thread) (v : DWord) (c e x : Nat) (i : Word) : (th.enterTrap v c e x i).rngctr = th.rngctr := rfl
@[simp] theorem Thread.enterTrap_cmem (th : Thread) (v : DWord) (c e x : Nat) (i : Word) : (th.enterTrap v c e x i).cmem = th.cmem := rfl
@[simp] theorem Thread.enterTrap_dtimeHi (th : Thread) (v : DWord) (c e x : Nat) (i : Word) : (th.enterTrap v c e x i).dtimeHi = th.dtimeHi := rfl
@[simp] theorem Thread.enterTrap_lwct (th : Thread) (v : DWord) (c e x : Nat) (i : Word) : (th.enterTrap v c e x i).lwct = th.lwct := rfl
@[simp] theorem Thread.enterTrap_posted (th : Thread) (v : DWord) (c e x : Nat) (i : Word) : (th.enterTrap v c e x i).posted = th.posted := rfl
@[simp] theorem Thread.enterTrap_eflt (th : Thread) (v : DWord) (c e x : Nat) (i : Word) : (th.enterTrap v c e x i).eflt = th.eflt := rfl
@[simp] theorem Thread.enterTrap_issued (th : Thread) (v : DWord) (c e x : Nat) (i : Word) : (th.enterTrap v c e x i).issued = th.issued := rfl
@[simp] theorem Thread.enterTrap_bars (th : Thread) (v : DWord) (c e x : Nat) (i : Word) : (th.enterTrap v c e x i).bars = th.bars := rfl
@[simp] theorem Thread.enterTrap_reached (th : Thread) (v : DWord) (c e x : Nat) (i : Word) : (th.enterTrap v c e x i).reached = th.reached := rfl
@[simp] theorem Thread.enterTrap_image (th : Thread) (v : DWord) (c e x : Nat) (i : Word) : (th.enterTrap v c e x i).image = th.image := rfl
@[simp] theorem Thread.enterTrap_missed (th : Thread) (v : DWord) (c e x : Nat) (i : Word) : (th.enterTrap v c e x i).missed = th.missed := rfl

@[simp] theorem Thread.leaveTrap_v (th : Thread) : (th.leaveTrap).v = th.v := rfl
@[simp] theorem Thread.leaveTrap_p (th : Thread) : (th.leaveTrap).p = th.p := rfl
@[simp] theorem Thread.leaveTrap_oc (th : Thread) : (th.leaveTrap).oc = th.oc := rfl
@[simp] theorem Thread.leaveTrap_cond (th : Thread) : (th.leaveTrap).cond = th.cond := rfl
@[simp] theorem Thread.leaveTrap_away (th : Thread) : (th.leaveTrap).away = th.away := rfl
@[simp] theorem Thread.leaveTrap_halted (th : Thread) : (th.leaveTrap).halted = th.halted := rfl
@[simp] theorem Thread.leaveTrap_squad (th : Thread) : (th.leaveTrap).squad = th.squad := rfl
@[simp] theorem Thread.leaveTrap_fpmode (th : Thread) : (th.leaveTrap).fpmode = th.fpmode := rfl
@[simp] theorem Thread.leaveTrap_fpflags (th : Thread) : (th.leaveTrap).fpflags = th.fpflags := rfl
@[simp] theorem Thread.leaveTrap_rngctr (th : Thread) : (th.leaveTrap).rngctr = th.rngctr := rfl
@[simp] theorem Thread.leaveTrap_tepc (th : Thread) : (th.leaveTrap).tepc = th.tepc := rfl
@[simp] theorem Thread.leaveTrap_tcause (th : Thread) : (th.leaveTrap).tcause = th.tcause := rfl
@[simp] theorem Thread.leaveTrap_taddr (th : Thread) : (th.leaveTrap).taddr = th.taddr := rfl
@[simp] theorem Thread.leaveTrap_tinfo (th : Thread) : (th.leaveTrap).tinfo = th.tinfo := rfl
@[simp] theorem Thread.leaveTrap_cmem (th : Thread) : (th.leaveTrap).cmem = th.cmem := rfl
@[simp] theorem Thread.leaveTrap_dtimeHi (th : Thread) : (th.leaveTrap).dtimeHi = th.dtimeHi := rfl
@[simp] theorem Thread.leaveTrap_stallTo (th : Thread) : (th.leaveTrap).stallTo = th.stallTo := rfl
@[simp] theorem Thread.leaveTrap_lwct (th : Thread) : (th.leaveTrap).lwct = th.lwct := rfl
@[simp] theorem Thread.leaveTrap_posted (th : Thread) : (th.leaveTrap).posted = th.posted := rfl
@[simp] theorem Thread.leaveTrap_eflt (th : Thread) : (th.leaveTrap).eflt = th.eflt := rfl
@[simp] theorem Thread.leaveTrap_issued (th : Thread) : (th.leaveTrap).issued = th.issued := rfl
@[simp] theorem Thread.leaveTrap_bars (th : Thread) : (th.leaveTrap).bars = th.bars := rfl
@[simp] theorem Thread.leaveTrap_reached (th : Thread) : (th.leaveTrap).reached = th.reached := rfl
@[simp] theorem Thread.leaveTrap_image (th : Thread) : (th.leaveTrap).image = th.image := rfl
@[simp] theorem Thread.leaveTrap_missed (th : Thread) : (th.leaveTrap).missed = th.missed := rfl

@[simp] theorem Thread.flag_v (th : Thread) (f : FFlags) : (th.flag f).v = th.v := rfl
@[simp] theorem Thread.flag_p (th : Thread) (f : FFlags) : (th.flag f).p = th.p := rfl
@[simp] theorem Thread.flag_oc (th : Thread) (f : FFlags) : (th.flag f).oc = th.oc := rfl
@[simp] theorem Thread.flag_pc (th : Thread) (f : FFlags) : (th.flag f).pc = th.pc := rfl
@[simp] theorem Thread.flag_cond (th : Thread) (f : FFlags) : (th.flag f).cond = th.cond := rfl
@[simp] theorem Thread.flag_away (th : Thread) (f : FFlags) : (th.flag f).away = th.away := rfl
@[simp] theorem Thread.flag_halted (th : Thread) (f : FFlags) : (th.flag f).halted = th.halted := rfl
@[simp] theorem Thread.flag_squad (th : Thread) (f : FFlags) : (th.flag f).squad = th.squad := rfl
@[simp] theorem Thread.flag_rep (th : Thread) (f : FFlags) : (th.flag f).rep = th.rep := rfl
@[simp] theorem Thread.flag_repFrom (th : Thread) (f : FFlags) : (th.flag f).repFrom = th.repFrom := rfl
@[simp] theorem Thread.flag_fpmode (th : Thread) (f : FFlags) : (th.flag f).fpmode = th.fpmode := rfl
@[simp] theorem Thread.flag_rngctr (th : Thread) (f : FFlags) : (th.flag f).rngctr = th.rngctr := rfl
@[simp] theorem Thread.flag_tepc (th : Thread) (f : FFlags) : (th.flag f).tepc = th.tepc := rfl
@[simp] theorem Thread.flag_tcause (th : Thread) (f : FFlags) : (th.flag f).tcause = th.tcause := rfl
@[simp] theorem Thread.flag_taddr (th : Thread) (f : FFlags) : (th.flag f).taddr = th.taddr := rfl
@[simp] theorem Thread.flag_tinfo (th : Thread) (f : FFlags) : (th.flag f).tinfo = th.tinfo := rfl
@[simp] theorem Thread.flag_h (th : Thread) (f : FFlags) : (th.flag f).h = th.h := rfl
@[simp] theorem Thread.flag_cmem (th : Thread) (f : FFlags) : (th.flag f).cmem = th.cmem := rfl
@[simp] theorem Thread.flag_dtimeHi (th : Thread) (f : FFlags) : (th.flag f).dtimeHi = th.dtimeHi := rfl
@[simp] theorem Thread.flag_arrival (th : Thread) (f : FFlags) : (th.flag f).arrival = th.arrival := rfl
@[simp] theorem Thread.flag_stallTo (th : Thread) (f : FFlags) : (th.flag f).stallTo = th.stallTo := rfl
@[simp] theorem Thread.flag_waited (th : Thread) (f : FFlags) : (th.flag f).waited = th.waited := rfl
@[simp] theorem Thread.flag_waitFor (th : Thread) (f : FFlags) : (th.flag f).waitFor = th.waitFor := rfl
@[simp] theorem Thread.flag_lwct (th : Thread) (f : FFlags) : (th.flag f).lwct = th.lwct := rfl
@[simp] theorem Thread.flag_posted (th : Thread) (f : FFlags) : (th.flag f).posted = th.posted := rfl
@[simp] theorem Thread.flag_eflt (th : Thread) (f : FFlags) : (th.flag f).eflt = th.eflt := rfl
@[simp] theorem Thread.flag_issued (th : Thread) (f : FFlags) : (th.flag f).issued = th.issued := rfl
@[simp] theorem Thread.flag_bars (th : Thread) (f : FFlags) : (th.flag f).bars = th.bars := rfl
@[simp] theorem Thread.flag_reached (th : Thread) (f : FFlags) : (th.flag f).reached = th.reached := rfl
@[simp] theorem Thread.flag_answer (th : Thread) (f : FFlags) : (th.flag f).answer = th.answer := rfl
@[simp] theorem Thread.flag_outcome (th : Thread) (f : FFlags) : (th.flag f).outcome = th.outcome := rfl
@[simp] theorem Thread.flag_image (th : Thread) (f : FFlags) : (th.flag f).image = th.image := rfl
@[simp] theorem Thread.flag_base (th : Thread) (f : FFlags) : (th.flag f).base = th.base := rfl
@[simp] theorem Thread.flag_missed (th : Thread) (f : FFlags) : (th.flag f).missed = th.missed := rfl
@[simp] theorem Thread.flag_pkt (th : Thread) (f : FFlags) : (th.flag f).pkt = th.pkt := rfl
@[simp] theorem Thread.flag_kept (th : Thread) (f : FFlags) : (th.flag f).kept = th.kept := rfl
@[simp] theorem Thread.flag_chased (th : Thread) (f : FFlags) : (th.flag f).chased = th.chased := rfl

/-! ## Updates of a task -/

@[simp] theorem Task.seen_rcd (tk : Task) (th : Thread) : (tk.seen th).rcd = tk.rcd := rfl
@[simp] theorem Task.seen_ctx (tk : Task) (th : Thread) : (tk.seen th).ctx = tk.ctx := rfl
@[simp] theorem Task.seen_launch (tk : Task) (th : Thread) : (tk.seen th).launch = tk.launch := rfl
@[simp] theorem Task.seen_phase (tk : Task) (th : Thread) : (tk.seen th).phase = tk.phase := rfl
@[simp] theorem Task.seen_cluster (tk : Task) (th : Thread) : (tk.seen th).cluster = tk.cluster := rfl
@[simp] theorem Task.seen_queued (tk : Task) (th : Thread) : (tk.seen th).queued = tk.queued := rfl
@[simp] theorem Task.seen_passed (tk : Task) (th : Thread) : (tk.seen th).passed = tk.passed := rfl
@[simp] theorem Task.seen_holdTo (tk : Task) (th : Thread) : (tk.seen th).holdTo = tk.holdTo := rfl
@[simp] theorem Task.seen_eligible (tk : Task) (th : Thread) : (tk.seen th).eligible = tk.eligible := rfl
@[simp] theorem Task.seen_core (tk : Task) (th : Thread) : (tk.seen th).core = tk.core := rfl
@[simp] theorem Task.seen_irrevocable (tk : Task) (th : Thread) : (tk.seen th).irrevocable = tk.irrevocable := rfl
@[simp] theorem Task.seen_commitT (tk : Task) (th : Thread) : (tk.seen th).commitT = tk.commitT := rfl
@[simp] theorem Task.seen_dtimeHi (tk : Task) (th : Thread) : (tk.seen th).dtimeHi = tk.dtimeHi := rfl
@[simp] theorem Task.seen_chunks (tk : Task) (th : Thread) : (tk.seen th).chunks = tk.chunks := rfl
@[simp] theorem Task.seen_tiles (tk : Task) (th : Thread) : (tk.seen th).tiles = tk.tiles := rfl
@[simp] theorem Task.seen_pages (tk : Task) (th : Thread) : (tk.seen th).pages = tk.pages := rfl
@[simp] theorem Task.seen_spots (tk : Task) (th : Thread) : (tk.seen th).spots = tk.spots := rfl
@[simp] theorem Task.seen_ebPages (tk : Task) (th : Thread) : (tk.seen th).ebPages = tk.ebPages := rfl
@[simp] theorem Task.seen_spad (tk : Task) (th : Thread) : (tk.seen th).spad = tk.spad := rfl
@[simp] theorem Task.seen_ebuf (tk : Task) (th : Thread) : (tk.seen th).ebuf = tk.ebuf := rfl
@[simp] theorem Task.seen_parts (tk : Task) (th : Thread) : (tk.seen th).parts = tk.parts := rfl
@[simp] theorem Task.seen_cat (tk : Task) (th : Thread) : (tk.seen th).cat = tk.cat := rfl
@[simp] theorem Task.seen_charge (tk : Task) (th : Thread) : (tk.seen th).charge = tk.charge := rfl
@[simp] theorem Task.seen_reach (tk : Task) (th : Thread) : (tk.seen th).reach = tk.reach := rfl
@[simp] theorem Task.seen_wants (tk : Task) (th : Thread) : (tk.seen th).wants = tk.wants := rfl
@[simp] theorem Task.seen_offers (tk : Task) (th : Thread) : (tk.seen th).offers = tk.offers := rfl
@[simp] theorem Task.seen_stop (tk : Task) (th : Thread) : (tk.seen th).stop = tk.stop := rfl
@[simp] theorem Task.seen_stopping (tk : Task) (th : Thread) : (tk.seen th).stopping = tk.stopping := rfl
@[simp] theorem Task.seen_matFault (tk : Task) (th : Thread) : (tk.seen th).matFault = tk.matFault := rfl
@[simp] theorem Task.seen_ended (tk : Task) (th : Thread) : (tk.seen th).ended = tk.ended := rfl
@[simp] theorem Task.seen_threads (tk : Task) (th : Thread) : (tk.seen th).threads = tk.threads := rfl

@[simp] theorem Task.setS_rcd (tk : Task) (n : Nat) (x : Word) : (tk.setS n x).rcd = tk.rcd := rfl
@[simp] theorem Task.setS_ctx (tk : Task) (n : Nat) (x : Word) : (tk.setS n x).ctx = tk.ctx := rfl
@[simp] theorem Task.setS_launch (tk : Task) (n : Nat) (x : Word) : (tk.setS n x).launch = tk.launch := rfl
@[simp] theorem Task.setS_phase (tk : Task) (n : Nat) (x : Word) : (tk.setS n x).phase = tk.phase := rfl
@[simp] theorem Task.setS_cluster (tk : Task) (n : Nat) (x : Word) : (tk.setS n x).cluster = tk.cluster := rfl
@[simp] theorem Task.setS_queued (tk : Task) (n : Nat) (x : Word) : (tk.setS n x).queued = tk.queued := rfl
@[simp] theorem Task.setS_passed (tk : Task) (n : Nat) (x : Word) : (tk.setS n x).passed = tk.passed := rfl
@[simp] theorem Task.setS_holdTo (tk : Task) (n : Nat) (x : Word) : (tk.setS n x).holdTo = tk.holdTo := rfl
@[simp] theorem Task.setS_eligible (tk : Task) (n : Nat) (x : Word) : (tk.setS n x).eligible = tk.eligible := rfl
@[simp] theorem Task.setS_core (tk : Task) (n : Nat) (x : Word) : (tk.setS n x).core = tk.core := rfl
@[simp] theorem Task.setS_irrevocable (tk : Task) (n : Nat) (x : Word) : (tk.setS n x).irrevocable = tk.irrevocable := rfl
@[simp] theorem Task.setS_commitT (tk : Task) (n : Nat) (x : Word) : (tk.setS n x).commitT = tk.commitT := rfl
@[simp] theorem Task.setS_bnd (tk : Task) (n : Nat) (x : Word) : (tk.setS n x).bnd = tk.bnd := rfl
@[simp] theorem Task.setS_bsel (tk : Task) (n : Nat) (x : Word) : (tk.setS n x).bsel = tk.bsel := rfl
@[simp] theorem Task.setS_rngkey (tk : Task) (n : Nat) (x : Word) : (tk.setS n x).rngkey = tk.rngkey := rfl
@[simp] theorem Task.setS_dtimeHi (tk : Task) (n : Nat) (x : Word) : (tk.setS n x).dtimeHi = tk.dtimeHi := rfl
@[simp] theorem Task.setS_chunks (tk : Task) (n : Nat) (x : Word) : (tk.setS n x).chunks = tk.chunks := rfl
@[simp] theorem Task.setS_tiles (tk : Task) (n : Nat) (x : Word) : (tk.setS n x).tiles = tk.tiles := rfl
@[simp] theorem Task.setS_pages (tk : Task) (n : Nat) (x : Word) : (tk.setS n x).pages = tk.pages := rfl
@[simp] theorem Task.setS_spots (tk : Task) (n : Nat) (x : Word) : (tk.setS n x).spots = tk.spots := rfl
@[simp] theorem Task.setS_ebPages (tk : Task) (n : Nat) (x : Word) : (tk.setS n x).ebPages = tk.ebPages := rfl
@[simp] theorem Task.setS_spad (tk : Task) (n : Nat) (x : Word) : (tk.setS n x).spad = tk.spad := rfl
@[simp] theorem Task.setS_ebuf (tk : Task) (n : Nat) (x : Word) : (tk.setS n x).ebuf = tk.ebuf := rfl
@[simp] theorem Task.setS_parts (tk : Task) (n : Nat) (x : Word) : (tk.setS n x).parts = tk.parts := rfl
@[simp] theorem Task.setS_cat (tk : Task) (n : Nat) (x : Word) : (tk.setS n x).cat = tk.cat := rfl
@[simp] theorem Task.setS_charge (tk : Task) (n : Nat) (x : Word) : (tk.setS n x).charge = tk.charge := rfl
@[simp] theorem Task.setS_reach (tk : Task) (n : Nat) (x : Word) : (tk.setS n x).reach = tk.reach := rfl
@[simp] theorem Task.setS_wants (tk : Task) (n : Nat) (x : Word) : (tk.setS n x).wants = tk.wants := rfl
@[simp] theorem Task.setS_offers (tk : Task) (n : Nat) (x : Word) : (tk.setS n x).offers = tk.offers := rfl
@[simp] theorem Task.setS_stop (tk : Task) (n : Nat) (x : Word) : (tk.setS n x).stop = tk.stop := rfl
@[simp] theorem Task.setS_stopping (tk : Task) (n : Nat) (x : Word) : (tk.setS n x).stopping = tk.stopping := rfl
@[simp] theorem Task.setS_matFault (tk : Task) (n : Nat) (x : Word) : (tk.setS n x).matFault = tk.matFault := rfl
@[simp] theorem Task.setS_ended (tk : Task) (n : Nat) (x : Word) : (tk.setS n x).ended = tk.ended := rfl
@[simp] theorem Task.setS_threads (tk : Task) (n : Nat) (x : Word) : (tk.setS n x).threads = tk.threads := rfl

@[simp] theorem Task.spadWrite_rcd (tk : Task) (bs : KMap Byte) : (tk.spadWrite bs).rcd = tk.rcd := rfl
@[simp] theorem Task.spadWrite_ctx (tk : Task) (bs : KMap Byte) : (tk.spadWrite bs).ctx = tk.ctx := rfl
@[simp] theorem Task.spadWrite_launch (tk : Task) (bs : KMap Byte) : (tk.spadWrite bs).launch = tk.launch := rfl
@[simp] theorem Task.spadWrite_phase (tk : Task) (bs : KMap Byte) : (tk.spadWrite bs).phase = tk.phase := rfl
@[simp] theorem Task.spadWrite_cluster (tk : Task) (bs : KMap Byte) : (tk.spadWrite bs).cluster = tk.cluster := rfl
@[simp] theorem Task.spadWrite_queued (tk : Task) (bs : KMap Byte) : (tk.spadWrite bs).queued = tk.queued := rfl
@[simp] theorem Task.spadWrite_passed (tk : Task) (bs : KMap Byte) : (tk.spadWrite bs).passed = tk.passed := rfl
@[simp] theorem Task.spadWrite_holdTo (tk : Task) (bs : KMap Byte) : (tk.spadWrite bs).holdTo = tk.holdTo := rfl
@[simp] theorem Task.spadWrite_eligible (tk : Task) (bs : KMap Byte) : (tk.spadWrite bs).eligible = tk.eligible := rfl
@[simp] theorem Task.spadWrite_core (tk : Task) (bs : KMap Byte) : (tk.spadWrite bs).core = tk.core := rfl
@[simp] theorem Task.spadWrite_irrevocable (tk : Task) (bs : KMap Byte) : (tk.spadWrite bs).irrevocable = tk.irrevocable := rfl
@[simp] theorem Task.spadWrite_commitT (tk : Task) (bs : KMap Byte) : (tk.spadWrite bs).commitT = tk.commitT := rfl
@[simp] theorem Task.spadWrite_bnd (tk : Task) (bs : KMap Byte) : (tk.spadWrite bs).bnd = tk.bnd := rfl
@[simp] theorem Task.spadWrite_bsel (tk : Task) (bs : KMap Byte) : (tk.spadWrite bs).bsel = tk.bsel := rfl
@[simp] theorem Task.spadWrite_s (tk : Task) (bs : KMap Byte) : (tk.spadWrite bs).s = tk.s := rfl
@[simp] theorem Task.spadWrite_rngkey (tk : Task) (bs : KMap Byte) : (tk.spadWrite bs).rngkey = tk.rngkey := rfl
@[simp] theorem Task.spadWrite_dtimeHi (tk : Task) (bs : KMap Byte) : (tk.spadWrite bs).dtimeHi = tk.dtimeHi := rfl
@[simp] theorem Task.spadWrite_chunks (tk : Task) (bs : KMap Byte) : (tk.spadWrite bs).chunks = tk.chunks := rfl
@[simp] theorem Task.spadWrite_tiles (tk : Task) (bs : KMap Byte) : (tk.spadWrite bs).tiles = tk.tiles := rfl
@[simp] theorem Task.spadWrite_pages (tk : Task) (bs : KMap Byte) : (tk.spadWrite bs).pages = tk.pages := rfl
@[simp] theorem Task.spadWrite_spots (tk : Task) (bs : KMap Byte) : (tk.spadWrite bs).spots = tk.spots := rfl
@[simp] theorem Task.spadWrite_ebPages (tk : Task) (bs : KMap Byte) : (tk.spadWrite bs).ebPages = tk.ebPages := rfl
@[simp] theorem Task.spadWrite_ebuf (tk : Task) (bs : KMap Byte) : (tk.spadWrite bs).ebuf = tk.ebuf := rfl
@[simp] theorem Task.spadWrite_parts (tk : Task) (bs : KMap Byte) : (tk.spadWrite bs).parts = tk.parts := rfl
@[simp] theorem Task.spadWrite_cat (tk : Task) (bs : KMap Byte) : (tk.spadWrite bs).cat = tk.cat := rfl
@[simp] theorem Task.spadWrite_charge (tk : Task) (bs : KMap Byte) : (tk.spadWrite bs).charge = tk.charge := rfl
@[simp] theorem Task.spadWrite_reach (tk : Task) (bs : KMap Byte) : (tk.spadWrite bs).reach = tk.reach := rfl
@[simp] theorem Task.spadWrite_wants (tk : Task) (bs : KMap Byte) : (tk.spadWrite bs).wants = tk.wants := rfl
@[simp] theorem Task.spadWrite_offers (tk : Task) (bs : KMap Byte) : (tk.spadWrite bs).offers = tk.offers := rfl
@[simp] theorem Task.spadWrite_stop (tk : Task) (bs : KMap Byte) : (tk.spadWrite bs).stop = tk.stop := rfl
@[simp] theorem Task.spadWrite_stopping (tk : Task) (bs : KMap Byte) : (tk.spadWrite bs).stopping = tk.stopping := rfl
@[simp] theorem Task.spadWrite_matFault (tk : Task) (bs : KMap Byte) : (tk.spadWrite bs).matFault = tk.matFault := rfl
@[simp] theorem Task.spadWrite_ended (tk : Task) (bs : KMap Byte) : (tk.spadWrite bs).ended = tk.ended := rfl
@[simp] theorem Task.spadWrite_threads (tk : Task) (bs : KMap Byte) : (tk.spadWrite bs).threads = tk.threads := rfl

@[simp] theorem Task.buffer_rcd (tk : Task) (g va : Nat) (bs : KMap Byte) : (tk.buffer g va bs).rcd = tk.rcd := rfl
@[simp] theorem Task.buffer_ctx (tk : Task) (g va : Nat) (bs : KMap Byte) : (tk.buffer g va bs).ctx = tk.ctx := rfl
@[simp] theorem Task.buffer_launch (tk : Task) (g va : Nat) (bs : KMap Byte) : (tk.buffer g va bs).launch = tk.launch := rfl
@[simp] theorem Task.buffer_phase (tk : Task) (g va : Nat) (bs : KMap Byte) : (tk.buffer g va bs).phase = tk.phase := rfl
@[simp] theorem Task.buffer_cluster (tk : Task) (g va : Nat) (bs : KMap Byte) : (tk.buffer g va bs).cluster = tk.cluster := rfl
@[simp] theorem Task.buffer_queued (tk : Task) (g va : Nat) (bs : KMap Byte) : (tk.buffer g va bs).queued = tk.queued := rfl
@[simp] theorem Task.buffer_passed (tk : Task) (g va : Nat) (bs : KMap Byte) : (tk.buffer g va bs).passed = tk.passed := rfl
@[simp] theorem Task.buffer_holdTo (tk : Task) (g va : Nat) (bs : KMap Byte) : (tk.buffer g va bs).holdTo = tk.holdTo := rfl
@[simp] theorem Task.buffer_eligible (tk : Task) (g va : Nat) (bs : KMap Byte) : (tk.buffer g va bs).eligible = tk.eligible := rfl
@[simp] theorem Task.buffer_core (tk : Task) (g va : Nat) (bs : KMap Byte) : (tk.buffer g va bs).core = tk.core := rfl
@[simp] theorem Task.buffer_irrevocable (tk : Task) (g va : Nat) (bs : KMap Byte) : (tk.buffer g va bs).irrevocable = tk.irrevocable := rfl
@[simp] theorem Task.buffer_commitT (tk : Task) (g va : Nat) (bs : KMap Byte) : (tk.buffer g va bs).commitT = tk.commitT := rfl
@[simp] theorem Task.buffer_bnd (tk : Task) (g va : Nat) (bs : KMap Byte) : (tk.buffer g va bs).bnd = tk.bnd := rfl
@[simp] theorem Task.buffer_bsel (tk : Task) (g va : Nat) (bs : KMap Byte) : (tk.buffer g va bs).bsel = tk.bsel := rfl
@[simp] theorem Task.buffer_s (tk : Task) (g va : Nat) (bs : KMap Byte) : (tk.buffer g va bs).s = tk.s := rfl
@[simp] theorem Task.buffer_rngkey (tk : Task) (g va : Nat) (bs : KMap Byte) : (tk.buffer g va bs).rngkey = tk.rngkey := rfl
@[simp] theorem Task.buffer_dtimeHi (tk : Task) (g va : Nat) (bs : KMap Byte) : (tk.buffer g va bs).dtimeHi = tk.dtimeHi := rfl
@[simp] theorem Task.buffer_chunks (tk : Task) (g va : Nat) (bs : KMap Byte) : (tk.buffer g va bs).chunks = tk.chunks := rfl
@[simp] theorem Task.buffer_tiles (tk : Task) (g va : Nat) (bs : KMap Byte) : (tk.buffer g va bs).tiles = tk.tiles := rfl
@[simp] theorem Task.buffer_pages (tk : Task) (g va : Nat) (bs : KMap Byte) : (tk.buffer g va bs).pages = tk.pages := rfl
@[simp] theorem Task.buffer_spots (tk : Task) (g va : Nat) (bs : KMap Byte) : (tk.buffer g va bs).spots = tk.spots := rfl
@[simp] theorem Task.buffer_ebPages (tk : Task) (g va : Nat) (bs : KMap Byte) : (tk.buffer g va bs).ebPages = tk.ebPages := rfl
@[simp] theorem Task.buffer_spad (tk : Task) (g va : Nat) (bs : KMap Byte) : (tk.buffer g va bs).spad = tk.spad := rfl
@[simp] theorem Task.buffer_parts (tk : Task) (g va : Nat) (bs : KMap Byte) : (tk.buffer g va bs).parts = tk.parts := rfl
@[simp] theorem Task.buffer_cat (tk : Task) (g va : Nat) (bs : KMap Byte) : (tk.buffer g va bs).cat = tk.cat := rfl
@[simp] theorem Task.buffer_charge (tk : Task) (g va : Nat) (bs : KMap Byte) : (tk.buffer g va bs).charge = tk.charge := rfl
@[simp] theorem Task.buffer_reach (tk : Task) (g va : Nat) (bs : KMap Byte) : (tk.buffer g va bs).reach = tk.reach := rfl
@[simp] theorem Task.buffer_wants (tk : Task) (g va : Nat) (bs : KMap Byte) : (tk.buffer g va bs).wants = tk.wants := rfl
@[simp] theorem Task.buffer_offers (tk : Task) (g va : Nat) (bs : KMap Byte) : (tk.buffer g va bs).offers = tk.offers := rfl
@[simp] theorem Task.buffer_stop (tk : Task) (g va : Nat) (bs : KMap Byte) : (tk.buffer g va bs).stop = tk.stop := rfl
@[simp] theorem Task.buffer_stopping (tk : Task) (g va : Nat) (bs : KMap Byte) : (tk.buffer g va bs).stopping = tk.stopping := rfl
@[simp] theorem Task.buffer_matFault (tk : Task) (g va : Nat) (bs : KMap Byte) : (tk.buffer g va bs).matFault = tk.matFault := rfl
@[simp] theorem Task.buffer_ended (tk : Task) (g va : Nat) (bs : KMap Byte) : (tk.buffer g va bs).ended = tk.ended := rfl
@[simp] theorem Task.buffer_threads (tk : Task) (g va : Nat) (bs : KMap Byte) : (tk.buffer g va bs).threads = tk.threads := rfl

@[simp] theorem Task.mapThreads_rcd (tk : Task) (f : Nat → Thread → Thread) : (tk.mapThreads f).rcd = tk.rcd := rfl
@[simp] theorem Task.mapThreads_ctx (tk : Task) (f : Nat → Thread → Thread) : (tk.mapThreads f).ctx = tk.ctx := rfl
@[simp] theorem Task.mapThreads_launch (tk : Task) (f : Nat → Thread → Thread) : (tk.mapThreads f).launch = tk.launch := rfl
@[simp] theorem Task.mapThreads_phase (tk : Task) (f : Nat → Thread → Thread) : (tk.mapThreads f).phase = tk.phase := rfl
@[simp] theorem Task.mapThreads_cluster (tk : Task) (f : Nat → Thread → Thread) : (tk.mapThreads f).cluster = tk.cluster := rfl
@[simp] theorem Task.mapThreads_queued (tk : Task) (f : Nat → Thread → Thread) : (tk.mapThreads f).queued = tk.queued := rfl
@[simp] theorem Task.mapThreads_passed (tk : Task) (f : Nat → Thread → Thread) : (tk.mapThreads f).passed = tk.passed := rfl
@[simp] theorem Task.mapThreads_holdTo (tk : Task) (f : Nat → Thread → Thread) : (tk.mapThreads f).holdTo = tk.holdTo := rfl
@[simp] theorem Task.mapThreads_eligible (tk : Task) (f : Nat → Thread → Thread) : (tk.mapThreads f).eligible = tk.eligible := rfl
@[simp] theorem Task.mapThreads_core (tk : Task) (f : Nat → Thread → Thread) : (tk.mapThreads f).core = tk.core := rfl
@[simp] theorem Task.mapThreads_irrevocable (tk : Task) (f : Nat → Thread → Thread) : (tk.mapThreads f).irrevocable = tk.irrevocable := rfl
@[simp] theorem Task.mapThreads_commitT (tk : Task) (f : Nat → Thread → Thread) : (tk.mapThreads f).commitT = tk.commitT := rfl
@[simp] theorem Task.mapThreads_bnd (tk : Task) (f : Nat → Thread → Thread) : (tk.mapThreads f).bnd = tk.bnd := rfl
@[simp] theorem Task.mapThreads_bsel (tk : Task) (f : Nat → Thread → Thread) : (tk.mapThreads f).bsel = tk.bsel := rfl
@[simp] theorem Task.mapThreads_s (tk : Task) (f : Nat → Thread → Thread) : (tk.mapThreads f).s = tk.s := rfl
@[simp] theorem Task.mapThreads_rngkey (tk : Task) (f : Nat → Thread → Thread) : (tk.mapThreads f).rngkey = tk.rngkey := rfl
@[simp] theorem Task.mapThreads_dtimeHi (tk : Task) (f : Nat → Thread → Thread) : (tk.mapThreads f).dtimeHi = tk.dtimeHi := rfl
@[simp] theorem Task.mapThreads_chunks (tk : Task) (f : Nat → Thread → Thread) : (tk.mapThreads f).chunks = tk.chunks := rfl
@[simp] theorem Task.mapThreads_tiles (tk : Task) (f : Nat → Thread → Thread) : (tk.mapThreads f).tiles = tk.tiles := rfl
@[simp] theorem Task.mapThreads_pages (tk : Task) (f : Nat → Thread → Thread) : (tk.mapThreads f).pages = tk.pages := rfl
@[simp] theorem Task.mapThreads_spots (tk : Task) (f : Nat → Thread → Thread) : (tk.mapThreads f).spots = tk.spots := rfl
@[simp] theorem Task.mapThreads_ebPages (tk : Task) (f : Nat → Thread → Thread) : (tk.mapThreads f).ebPages = tk.ebPages := rfl
@[simp] theorem Task.mapThreads_spad (tk : Task) (f : Nat → Thread → Thread) : (tk.mapThreads f).spad = tk.spad := rfl
@[simp] theorem Task.mapThreads_ebuf (tk : Task) (f : Nat → Thread → Thread) : (tk.mapThreads f).ebuf = tk.ebuf := rfl
@[simp] theorem Task.mapThreads_parts (tk : Task) (f : Nat → Thread → Thread) : (tk.mapThreads f).parts = tk.parts := rfl
@[simp] theorem Task.mapThreads_cat (tk : Task) (f : Nat → Thread → Thread) : (tk.mapThreads f).cat = tk.cat := rfl
@[simp] theorem Task.mapThreads_charge (tk : Task) (f : Nat → Thread → Thread) : (tk.mapThreads f).charge = tk.charge := rfl
@[simp] theorem Task.mapThreads_reach (tk : Task) (f : Nat → Thread → Thread) : (tk.mapThreads f).reach = tk.reach := rfl
@[simp] theorem Task.mapThreads_wants (tk : Task) (f : Nat → Thread → Thread) : (tk.mapThreads f).wants = tk.wants := rfl
@[simp] theorem Task.mapThreads_offers (tk : Task) (f : Nat → Thread → Thread) : (tk.mapThreads f).offers = tk.offers := rfl
@[simp] theorem Task.mapThreads_stop (tk : Task) (f : Nat → Thread → Thread) : (tk.mapThreads f).stop = tk.stop := rfl
@[simp] theorem Task.mapThreads_stopping (tk : Task) (f : Nat → Thread → Thread) : (tk.mapThreads f).stopping = tk.stopping := rfl
@[simp] theorem Task.mapThreads_matFault (tk : Task) (f : Nat → Thread → Thread) : (tk.mapThreads f).matFault = tk.matFault := rfl
@[simp] theorem Task.mapThreads_ended (tk : Task) (f : Nat → Thread → Thread) : (tk.mapThreads f).ended = tk.ended := rfl

@[simp] theorem Thread.unmark_v (th : Thread) : (th.unmark).v = th.v := rfl
@[simp] theorem Thread.unmark_p (th : Thread) : (th.unmark).p = th.p := rfl
@[simp] theorem Thread.unmark_oc (th : Thread) : (th.unmark).oc = th.oc := rfl
@[simp] theorem Thread.unmark_pc (th : Thread) : (th.unmark).pc = th.pc := rfl
@[simp] theorem Thread.unmark_cond (th : Thread) : (th.unmark).cond = th.cond := rfl
@[simp] theorem Thread.unmark_away (th : Thread) : (th.unmark).away = th.away := rfl
@[simp] theorem Thread.unmark_halted (th : Thread) : (th.unmark).halted = th.halted := rfl
@[simp] theorem Thread.unmark_squad (th : Thread) : (th.unmark).squad = th.squad := rfl
@[simp] theorem Thread.unmark_rep (th : Thread) : (th.unmark).rep = th.rep := rfl
@[simp] theorem Thread.unmark_repFrom (th : Thread) : (th.unmark).repFrom = th.repFrom := rfl
@[simp] theorem Thread.unmark_fpmode (th : Thread) : (th.unmark).fpmode = th.fpmode := rfl
@[simp] theorem Thread.unmark_fpflags (th : Thread) : (th.unmark).fpflags = th.fpflags := rfl
@[simp] theorem Thread.unmark_rngctr (th : Thread) : (th.unmark).rngctr = th.rngctr := rfl
@[simp] theorem Thread.unmark_tepc (th : Thread) : (th.unmark).tepc = th.tepc := rfl
@[simp] theorem Thread.unmark_tcause (th : Thread) : (th.unmark).tcause = th.tcause := rfl
@[simp] theorem Thread.unmark_taddr (th : Thread) : (th.unmark).taddr = th.taddr := rfl
@[simp] theorem Thread.unmark_tinfo (th : Thread) : (th.unmark).tinfo = th.tinfo := rfl
@[simp] theorem Thread.unmark_h (th : Thread) : (th.unmark).h = th.h := rfl
@[simp] theorem Thread.unmark_cmem (th : Thread) : (th.unmark).cmem = th.cmem := rfl
@[simp] theorem Thread.unmark_dtimeHi (th : Thread) : (th.unmark).dtimeHi = th.dtimeHi := rfl
@[simp] theorem Thread.unmark_arrival (th : Thread) : (th.unmark).arrival = th.arrival := rfl
@[simp] theorem Thread.unmark_stallTo (th : Thread) : (th.unmark).stallTo = th.stallTo := rfl
@[simp] theorem Thread.unmark_waited (th : Thread) : (th.unmark).waited = th.waited := rfl
@[simp] theorem Thread.unmark_waitFor (th : Thread) : (th.unmark).waitFor = th.waitFor := rfl
@[simp] theorem Thread.unmark_lwct (th : Thread) : (th.unmark).lwct = th.lwct := rfl
@[simp] theorem Thread.unmark_posted (th : Thread) : (th.unmark).posted = th.posted := rfl
@[simp] theorem Thread.unmark_eflt (th : Thread) : (th.unmark).eflt = th.eflt := rfl
@[simp] theorem Thread.unmark_issued (th : Thread) : (th.unmark).issued = th.issued := rfl
@[simp] theorem Thread.unmark_bars (th : Thread) : (th.unmark).bars = th.bars := rfl
@[simp] theorem Thread.unmark_reached (th : Thread) : (th.unmark).reached = th.reached := rfl
@[simp] theorem Thread.unmark_answer (th : Thread) : (th.unmark).answer = th.answer := rfl
@[simp] theorem Thread.unmark_outcome (th : Thread) : (th.unmark).outcome = th.outcome := rfl
@[simp] theorem Thread.unmark_image (th : Thread) : (th.unmark).image = th.image := rfl
@[simp] theorem Thread.unmark_missed (th : Thread) : (th.unmark).missed = th.missed := rfl
@[simp] theorem Thread.unmark_pkt (th : Thread) : (th.unmark).pkt = th.pkt := rfl
@[simp] theorem Thread.unmark_kept (th : Thread) : (th.unmark).kept = th.kept := rfl
@[simp] theorem Thread.unmark_chased (th : Thread) : (th.unmark).chased = th.chased := rfl

/-! ## Updates by cases -/

@[simp] theorem Thread.next_v (th : Thread) : th.next.v = th.v := by
  unfold Thread.next; split <;> (try split) <;> rfl
@[simp] theorem Thread.next_p (th : Thread) : th.next.p = th.p := by
  unfold Thread.next; split <;> (try split) <;> rfl
@[simp] theorem Thread.next_oc (th : Thread) : th.next.oc = th.oc := by
  unfold Thread.next; split <;> (try split) <;> rfl
@[simp] theorem Thread.next_cond (th : Thread) : th.next.cond = th.cond := by
  unfold Thread.next; split <;> (try split) <;> rfl
@[simp] theorem Thread.next_away (th : Thread) : th.next.away = th.away := by
  unfold Thread.next; split <;> (try split) <;> rfl
@[simp] theorem Thread.next_halted (th : Thread) : th.next.halted = th.halted := by
  unfold Thread.next; split <;> (try split) <;> rfl
@[simp] theorem Thread.next_squad (th : Thread) : th.next.squad = th.squad := by
  unfold Thread.next; split <;> (try split) <;> rfl
@[simp] theorem Thread.next_fpmode (th : Thread) : th.next.fpmode = th.fpmode := by
  unfold Thread.next; split <;> (try split) <;> rfl
@[simp] theorem Thread.next_fpflags (th : Thread) : th.next.fpflags = th.fpflags := by
  unfold Thread.next; split <;> (try split) <;> rfl
@[simp] theorem Thread.next_rngctr (th : Thread) : th.next.rngctr = th.rngctr := by
  unfold Thread.next; split <;> (try split) <;> rfl
@[simp] theorem Thread.next_tepc (th : Thread) : th.next.tepc = th.tepc := by
  unfold Thread.next; split <;> (try split) <;> rfl
@[simp] theorem Thread.next_tcause (th : Thread) : th.next.tcause = th.tcause := by
  unfold Thread.next; split <;> (try split) <;> rfl
@[simp] theorem Thread.next_taddr (th : Thread) : th.next.taddr = th.taddr := by
  unfold Thread.next; split <;> (try split) <;> rfl
@[simp] theorem Thread.next_tinfo (th : Thread) : th.next.tinfo = th.tinfo := by
  unfold Thread.next; split <;> (try split) <;> rfl
@[simp] theorem Thread.next_h (th : Thread) : th.next.h = th.h := by
  unfold Thread.next; split <;> (try split) <;> rfl
@[simp] theorem Thread.next_cmem (th : Thread) : th.next.cmem = th.cmem := by
  unfold Thread.next; split <;> (try split) <;> rfl
@[simp] theorem Thread.next_dtimeHi (th : Thread) : th.next.dtimeHi = th.dtimeHi := by
  unfold Thread.next; split <;> (try split) <;> rfl
@[simp] theorem Thread.next_stallTo (th : Thread) : th.next.stallTo = th.stallTo := by
  unfold Thread.next; split <;> (try split) <;> rfl
@[simp] theorem Thread.next_lwct (th : Thread) : th.next.lwct = th.lwct := by
  unfold Thread.next; split <;> (try split) <;> rfl
@[simp] theorem Thread.next_posted (th : Thread) : th.next.posted = th.posted := by
  unfold Thread.next; split <;> (try split) <;> rfl
@[simp] theorem Thread.next_eflt (th : Thread) : th.next.eflt = th.eflt := by
  unfold Thread.next; split <;> (try split) <;> rfl
@[simp] theorem Thread.next_issued (th : Thread) : th.next.issued = th.issued := by
  unfold Thread.next; split <;> (try split) <;> rfl
@[simp] theorem Thread.next_bars (th : Thread) : th.next.bars = th.bars := by
  unfold Thread.next; split <;> (try split) <;> rfl
@[simp] theorem Thread.next_reached (th : Thread) : th.next.reached = th.reached := by
  unfold Thread.next; split <;> (try split) <;> rfl
@[simp] theorem Thread.next_image (th : Thread) : th.next.image = th.image := by
  unfold Thread.next; split <;> (try split) <;> rfl
@[simp] theorem Thread.next_missed (th : Thread) : th.next.missed = th.missed := by
  unfold Thread.next; split <;> (try split) <;> rfl
@[simp] theorem Thread.next_pkt (th : Thread) : th.next.pkt = th.pkt := by
  unfold Thread.next; split <;> (try split) <;> rfl
@[simp] theorem Thread.setPred_v (th : Thread) (i : Nat) (b : Bool) : (th.setPred i b).v = th.v := by
  unfold Thread.setPred; split <;> rfl
@[simp] theorem Thread.setPred_oc (th : Thread) (i : Nat) (b : Bool) : (th.setPred i b).oc = th.oc := by
  unfold Thread.setPred; split <;> rfl
@[simp] theorem Thread.setPred_pc (th : Thread) (i : Nat) (b : Bool) : (th.setPred i b).pc = th.pc := by
  unfold Thread.setPred; split <;> rfl
@[simp] theorem Thread.setPred_cond (th : Thread) (i : Nat) (b : Bool) : (th.setPred i b).cond = th.cond := by
  unfold Thread.setPred; split <;> rfl
@[simp] theorem Thread.setPred_away (th : Thread) (i : Nat) (b : Bool) : (th.setPred i b).away = th.away := by
  unfold Thread.setPred; split <;> rfl
@[simp] theorem Thread.setPred_halted (th : Thread) (i : Nat) (b : Bool) : (th.setPred i b).halted = th.halted := by
  unfold Thread.setPred; split <;> rfl
@[simp] theorem Thread.setPred_squad (th : Thread) (i : Nat) (b : Bool) : (th.setPred i b).squad = th.squad := by
  unfold Thread.setPred; split <;> rfl
@[simp] theorem Thread.setPred_rep (th : Thread) (i : Nat) (b : Bool) : (th.setPred i b).rep = th.rep := by
  unfold Thread.setPred; split <;> rfl
@[simp] theorem Thread.setPred_repFrom (th : Thread) (i : Nat) (b : Bool) : (th.setPred i b).repFrom = th.repFrom := by
  unfold Thread.setPred; split <;> rfl
@[simp] theorem Thread.setPred_fpmode (th : Thread) (i : Nat) (b : Bool) : (th.setPred i b).fpmode = th.fpmode := by
  unfold Thread.setPred; split <;> rfl
@[simp] theorem Thread.setPred_fpflags (th : Thread) (i : Nat) (b : Bool) : (th.setPred i b).fpflags = th.fpflags := by
  unfold Thread.setPred; split <;> rfl
@[simp] theorem Thread.setPred_rngctr (th : Thread) (i : Nat) (b : Bool) : (th.setPred i b).rngctr = th.rngctr := by
  unfold Thread.setPred; split <;> rfl
@[simp] theorem Thread.setPred_tepc (th : Thread) (i : Nat) (b : Bool) : (th.setPred i b).tepc = th.tepc := by
  unfold Thread.setPred; split <;> rfl
@[simp] theorem Thread.setPred_tcause (th : Thread) (i : Nat) (b : Bool) : (th.setPred i b).tcause = th.tcause := by
  unfold Thread.setPred; split <;> rfl
@[simp] theorem Thread.setPred_taddr (th : Thread) (i : Nat) (b : Bool) : (th.setPred i b).taddr = th.taddr := by
  unfold Thread.setPred; split <;> rfl
@[simp] theorem Thread.setPred_tinfo (th : Thread) (i : Nat) (b : Bool) : (th.setPred i b).tinfo = th.tinfo := by
  unfold Thread.setPred; split <;> rfl
@[simp] theorem Thread.setPred_h (th : Thread) (i : Nat) (b : Bool) : (th.setPred i b).h = th.h := by
  unfold Thread.setPred; split <;> rfl
@[simp] theorem Thread.setPred_cmem (th : Thread) (i : Nat) (b : Bool) : (th.setPred i b).cmem = th.cmem := by
  unfold Thread.setPred; split <;> rfl
@[simp] theorem Thread.setPred_dtimeHi (th : Thread) (i : Nat) (b : Bool) : (th.setPred i b).dtimeHi = th.dtimeHi := by
  unfold Thread.setPred; split <;> rfl
@[simp] theorem Thread.setPred_arrival (th : Thread) (i : Nat) (b : Bool) : (th.setPred i b).arrival = th.arrival := by
  unfold Thread.setPred; split <;> rfl
@[simp] theorem Thread.setPred_stallTo (th : Thread) (i : Nat) (b : Bool) : (th.setPred i b).stallTo = th.stallTo := by
  unfold Thread.setPred; split <;> rfl
@[simp] theorem Thread.setPred_waited (th : Thread) (i : Nat) (b : Bool) : (th.setPred i b).waited = th.waited := by
  unfold Thread.setPred; split <;> rfl
@[simp] theorem Thread.setPred_waitFor (th : Thread) (i : Nat) (b : Bool) : (th.setPred i b).waitFor = th.waitFor := by
  unfold Thread.setPred; split <;> rfl
@[simp] theorem Thread.setPred_lwct (th : Thread) (i : Nat) (b : Bool) : (th.setPred i b).lwct = th.lwct := by
  unfold Thread.setPred; split <;> rfl
@[simp] theorem Thread.setPred_posted (th : Thread) (i : Nat) (b : Bool) : (th.setPred i b).posted = th.posted := by
  unfold Thread.setPred; split <;> rfl
@[simp] theorem Thread.setPred_eflt (th : Thread) (i : Nat) (b : Bool) : (th.setPred i b).eflt = th.eflt := by
  unfold Thread.setPred; split <;> rfl
@[simp] theorem Thread.setPred_issued (th : Thread) (i : Nat) (b : Bool) : (th.setPred i b).issued = th.issued := by
  unfold Thread.setPred; split <;> rfl
@[simp] theorem Thread.setPred_bars (th : Thread) (i : Nat) (b : Bool) : (th.setPred i b).bars = th.bars := by
  unfold Thread.setPred; split <;> rfl
@[simp] theorem Thread.setPred_reached (th : Thread) (i : Nat) (b : Bool) : (th.setPred i b).reached = th.reached := by
  unfold Thread.setPred; split <;> rfl
@[simp] theorem Thread.setPred_answer (th : Thread) (i : Nat) (b : Bool) : (th.setPred i b).answer = th.answer := by
  unfold Thread.setPred; split <;> rfl
@[simp] theorem Thread.setPred_outcome (th : Thread) (i : Nat) (b : Bool) : (th.setPred i b).outcome = th.outcome := by
  unfold Thread.setPred; split <;> rfl
@[simp] theorem Thread.setPred_image (th : Thread) (i : Nat) (b : Bool) : (th.setPred i b).image = th.image := by
  unfold Thread.setPred; split <;> rfl
@[simp] theorem Thread.setPred_base (th : Thread) (i : Nat) (b : Bool) : (th.setPred i b).base = th.base := by
  unfold Thread.setPred; split <;> rfl
@[simp] theorem Thread.setPred_missed (th : Thread) (i : Nat) (b : Bool) : (th.setPred i b).missed = th.missed := by
  unfold Thread.setPred; split <;> rfl
@[simp] theorem Thread.setPred_pkt (th : Thread) (i : Nat) (b : Bool) : (th.setPred i b).pkt = th.pkt := by
  unfold Thread.setPred; split <;> rfl
@[simp] theorem Thread.setPred_kept (th : Thread) (i : Nat) (b : Bool) : (th.setPred i b).kept = th.kept := by
  unfold Thread.setPred; split <;> rfl
@[simp] theorem Thread.setPred_chased (th : Thread) (i : Nat) (b : Bool) : (th.setPred i b).chased = th.chased := by
  unfold Thread.setPred; split <;> rfl
@[simp] theorem Thread.setRegs_p (th : Thread) (n : Nat) (xs : List Word) : (th.setRegs n xs).p = th.p := by
  induction xs generalizing th n with
  | nil => rfl
  | cons x xs ih => simp [Thread.setRegs, ih]
@[simp] theorem Thread.setRegs_oc (th : Thread) (n : Nat) (xs : List Word) : (th.setRegs n xs).oc = th.oc := by
  induction xs generalizing th n with
  | nil => rfl
  | cons x xs ih => simp [Thread.setRegs, ih]
@[simp] theorem Thread.setRegs_pc (th : Thread) (n : Nat) (xs : List Word) : (th.setRegs n xs).pc = th.pc := by
  induction xs generalizing th n with
  | nil => rfl
  | cons x xs ih => simp [Thread.setRegs, ih]
@[simp] theorem Thread.setRegs_cond (th : Thread) (n : Nat) (xs : List Word) : (th.setRegs n xs).cond = th.cond := by
  induction xs generalizing th n with
  | nil => rfl
  | cons x xs ih => simp [Thread.setRegs, ih]
@[simp] theorem Thread.setRegs_away (th : Thread) (n : Nat) (xs : List Word) : (th.setRegs n xs).away = th.away := by
  induction xs generalizing th n with
  | nil => rfl
  | cons x xs ih => simp [Thread.setRegs, ih]
@[simp] theorem Thread.setRegs_halted (th : Thread) (n : Nat) (xs : List Word) : (th.setRegs n xs).halted = th.halted := by
  induction xs generalizing th n with
  | nil => rfl
  | cons x xs ih => simp [Thread.setRegs, ih]
@[simp] theorem Thread.setRegs_squad (th : Thread) (n : Nat) (xs : List Word) : (th.setRegs n xs).squad = th.squad := by
  induction xs generalizing th n with
  | nil => rfl
  | cons x xs ih => simp [Thread.setRegs, ih]
@[simp] theorem Thread.setRegs_rep (th : Thread) (n : Nat) (xs : List Word) : (th.setRegs n xs).rep = th.rep := by
  induction xs generalizing th n with
  | nil => rfl
  | cons x xs ih => simp [Thread.setRegs, ih]
@[simp] theorem Thread.setRegs_repFrom (th : Thread) (n : Nat) (xs : List Word) : (th.setRegs n xs).repFrom = th.repFrom := by
  induction xs generalizing th n with
  | nil => rfl
  | cons x xs ih => simp [Thread.setRegs, ih]
@[simp] theorem Thread.setRegs_fpmode (th : Thread) (n : Nat) (xs : List Word) : (th.setRegs n xs).fpmode = th.fpmode := by
  induction xs generalizing th n with
  | nil => rfl
  | cons x xs ih => simp [Thread.setRegs, ih]
@[simp] theorem Thread.setRegs_fpflags (th : Thread) (n : Nat) (xs : List Word) : (th.setRegs n xs).fpflags = th.fpflags := by
  induction xs generalizing th n with
  | nil => rfl
  | cons x xs ih => simp [Thread.setRegs, ih]
@[simp] theorem Thread.setRegs_rngctr (th : Thread) (n : Nat) (xs : List Word) : (th.setRegs n xs).rngctr = th.rngctr := by
  induction xs generalizing th n with
  | nil => rfl
  | cons x xs ih => simp [Thread.setRegs, ih]
@[simp] theorem Thread.setRegs_tepc (th : Thread) (n : Nat) (xs : List Word) : (th.setRegs n xs).tepc = th.tepc := by
  induction xs generalizing th n with
  | nil => rfl
  | cons x xs ih => simp [Thread.setRegs, ih]
@[simp] theorem Thread.setRegs_tcause (th : Thread) (n : Nat) (xs : List Word) : (th.setRegs n xs).tcause = th.tcause := by
  induction xs generalizing th n with
  | nil => rfl
  | cons x xs ih => simp [Thread.setRegs, ih]
@[simp] theorem Thread.setRegs_taddr (th : Thread) (n : Nat) (xs : List Word) : (th.setRegs n xs).taddr = th.taddr := by
  induction xs generalizing th n with
  | nil => rfl
  | cons x xs ih => simp [Thread.setRegs, ih]
@[simp] theorem Thread.setRegs_tinfo (th : Thread) (n : Nat) (xs : List Word) : (th.setRegs n xs).tinfo = th.tinfo := by
  induction xs generalizing th n with
  | nil => rfl
  | cons x xs ih => simp [Thread.setRegs, ih]
@[simp] theorem Thread.setRegs_h (th : Thread) (n : Nat) (xs : List Word) : (th.setRegs n xs).h = th.h := by
  induction xs generalizing th n with
  | nil => rfl
  | cons x xs ih => simp [Thread.setRegs, ih]
@[simp] theorem Thread.setRegs_cmem (th : Thread) (n : Nat) (xs : List Word) : (th.setRegs n xs).cmem = th.cmem := by
  induction xs generalizing th n with
  | nil => rfl
  | cons x xs ih => simp [Thread.setRegs, ih]
@[simp] theorem Thread.setRegs_dtimeHi (th : Thread) (n : Nat) (xs : List Word) : (th.setRegs n xs).dtimeHi = th.dtimeHi := by
  induction xs generalizing th n with
  | nil => rfl
  | cons x xs ih => simp [Thread.setRegs, ih]
@[simp] theorem Thread.setRegs_arrival (th : Thread) (n : Nat) (xs : List Word) : (th.setRegs n xs).arrival = th.arrival := by
  induction xs generalizing th n with
  | nil => rfl
  | cons x xs ih => simp [Thread.setRegs, ih]
@[simp] theorem Thread.setRegs_stallTo (th : Thread) (n : Nat) (xs : List Word) : (th.setRegs n xs).stallTo = th.stallTo := by
  induction xs generalizing th n with
  | nil => rfl
  | cons x xs ih => simp [Thread.setRegs, ih]
@[simp] theorem Thread.setRegs_waited (th : Thread) (n : Nat) (xs : List Word) : (th.setRegs n xs).waited = th.waited := by
  induction xs generalizing th n with
  | nil => rfl
  | cons x xs ih => simp [Thread.setRegs, ih]
@[simp] theorem Thread.setRegs_waitFor (th : Thread) (n : Nat) (xs : List Word) : (th.setRegs n xs).waitFor = th.waitFor := by
  induction xs generalizing th n with
  | nil => rfl
  | cons x xs ih => simp [Thread.setRegs, ih]
@[simp] theorem Thread.setRegs_lwct (th : Thread) (n : Nat) (xs : List Word) : (th.setRegs n xs).lwct = th.lwct := by
  induction xs generalizing th n with
  | nil => rfl
  | cons x xs ih => simp [Thread.setRegs, ih]
@[simp] theorem Thread.setRegs_posted (th : Thread) (n : Nat) (xs : List Word) : (th.setRegs n xs).posted = th.posted := by
  induction xs generalizing th n with
  | nil => rfl
  | cons x xs ih => simp [Thread.setRegs, ih]
@[simp] theorem Thread.setRegs_eflt (th : Thread) (n : Nat) (xs : List Word) : (th.setRegs n xs).eflt = th.eflt := by
  induction xs generalizing th n with
  | nil => rfl
  | cons x xs ih => simp [Thread.setRegs, ih]
@[simp] theorem Thread.setRegs_issued (th : Thread) (n : Nat) (xs : List Word) : (th.setRegs n xs).issued = th.issued := by
  induction xs generalizing th n with
  | nil => rfl
  | cons x xs ih => simp [Thread.setRegs, ih]
@[simp] theorem Thread.setRegs_bars (th : Thread) (n : Nat) (xs : List Word) : (th.setRegs n xs).bars = th.bars := by
  induction xs generalizing th n with
  | nil => rfl
  | cons x xs ih => simp [Thread.setRegs, ih]
@[simp] theorem Thread.setRegs_reached (th : Thread) (n : Nat) (xs : List Word) : (th.setRegs n xs).reached = th.reached := by
  induction xs generalizing th n with
  | nil => rfl
  | cons x xs ih => simp [Thread.setRegs, ih]
@[simp] theorem Thread.setRegs_answer (th : Thread) (n : Nat) (xs : List Word) : (th.setRegs n xs).answer = th.answer := by
  induction xs generalizing th n with
  | nil => rfl
  | cons x xs ih => simp [Thread.setRegs, ih]
@[simp] theorem Thread.setRegs_outcome (th : Thread) (n : Nat) (xs : List Word) : (th.setRegs n xs).outcome = th.outcome := by
  induction xs generalizing th n with
  | nil => rfl
  | cons x xs ih => simp [Thread.setRegs, ih]
@[simp] theorem Thread.setRegs_image (th : Thread) (n : Nat) (xs : List Word) : (th.setRegs n xs).image = th.image := by
  induction xs generalizing th n with
  | nil => rfl
  | cons x xs ih => simp [Thread.setRegs, ih]
@[simp] theorem Thread.setRegs_base (th : Thread) (n : Nat) (xs : List Word) : (th.setRegs n xs).base = th.base := by
  induction xs generalizing th n with
  | nil => rfl
  | cons x xs ih => simp [Thread.setRegs, ih]
@[simp] theorem Thread.setRegs_missed (th : Thread) (n : Nat) (xs : List Word) : (th.setRegs n xs).missed = th.missed := by
  induction xs generalizing th n with
  | nil => rfl
  | cons x xs ih => simp [Thread.setRegs, ih]
@[simp] theorem Thread.setRegs_pkt (th : Thread) (n : Nat) (xs : List Word) : (th.setRegs n xs).pkt = th.pkt := by
  induction xs generalizing th n with
  | nil => rfl
  | cons x xs ih => simp [Thread.setRegs, ih]
@[simp] theorem Thread.setRegs_kept (th : Thread) (n : Nat) (xs : List Word) : (th.setRegs n xs).kept = th.kept := by
  induction xs generalizing th n with
  | nil => rfl
  | cons x xs ih => simp [Thread.setRegs, ih]
@[simp] theorem Thread.setRegs_chased (th : Thread) (n : Nat) (xs : List Word) : (th.setRegs n xs).chased = th.chased := by
  induction xs generalizing th n with
  | nil => rfl
  | cons x xs ih => simp [Thread.setRegs, ih]
@[simp] theorem Task.halt_rcd (tk : Task) (x : Stop) : (tk.halt x).rcd = tk.rcd := by
  unfold Task.halt; split <;> (try split) <;> rfl
@[simp] theorem Task.halt_ctx (tk : Task) (x : Stop) : (tk.halt x).ctx = tk.ctx := by
  unfold Task.halt; split <;> (try split) <;> rfl
@[simp] theorem Task.halt_launch (tk : Task) (x : Stop) : (tk.halt x).launch = tk.launch := by
  unfold Task.halt; split <;> (try split) <;> rfl
@[simp] theorem Task.halt_phase (tk : Task) (x : Stop) : (tk.halt x).phase = tk.phase := by
  unfold Task.halt; split <;> (try split) <;> rfl
@[simp] theorem Task.halt_cluster (tk : Task) (x : Stop) : (tk.halt x).cluster = tk.cluster := by
  unfold Task.halt; split <;> (try split) <;> rfl
@[simp] theorem Task.halt_queued (tk : Task) (x : Stop) : (tk.halt x).queued = tk.queued := by
  unfold Task.halt; split <;> (try split) <;> rfl
@[simp] theorem Task.halt_passed (tk : Task) (x : Stop) : (tk.halt x).passed = tk.passed := by
  unfold Task.halt; split <;> (try split) <;> rfl
@[simp] theorem Task.halt_holdTo (tk : Task) (x : Stop) : (tk.halt x).holdTo = tk.holdTo := by
  unfold Task.halt; split <;> (try split) <;> rfl
@[simp] theorem Task.halt_eligible (tk : Task) (x : Stop) : (tk.halt x).eligible = tk.eligible := by
  unfold Task.halt; split <;> (try split) <;> rfl
@[simp] theorem Task.halt_core (tk : Task) (x : Stop) : (tk.halt x).core = tk.core := by
  unfold Task.halt; split <;> (try split) <;> rfl
@[simp] theorem Task.halt_irrevocable (tk : Task) (x : Stop) : (tk.halt x).irrevocable = tk.irrevocable := by
  unfold Task.halt; split <;> (try split) <;> rfl
@[simp] theorem Task.halt_commitT (tk : Task) (x : Stop) : (tk.halt x).commitT = tk.commitT := by
  unfold Task.halt; split <;> (try split) <;> rfl
@[simp] theorem Task.halt_bnd (tk : Task) (x : Stop) : (tk.halt x).bnd = tk.bnd := by
  unfold Task.halt; split <;> (try split) <;> rfl
@[simp] theorem Task.halt_bsel (tk : Task) (x : Stop) : (tk.halt x).bsel = tk.bsel := by
  unfold Task.halt; split <;> (try split) <;> rfl
@[simp] theorem Task.halt_s (tk : Task) (x : Stop) : (tk.halt x).s = tk.s := by
  unfold Task.halt; split <;> (try split) <;> rfl
@[simp] theorem Task.halt_rngkey (tk : Task) (x : Stop) : (tk.halt x).rngkey = tk.rngkey := by
  unfold Task.halt; split <;> (try split) <;> rfl
@[simp] theorem Task.halt_dtimeHi (tk : Task) (x : Stop) : (tk.halt x).dtimeHi = tk.dtimeHi := by
  unfold Task.halt; split <;> (try split) <;> rfl
@[simp] theorem Task.halt_chunks (tk : Task) (x : Stop) : (tk.halt x).chunks = tk.chunks := by
  unfold Task.halt; split <;> (try split) <;> rfl
@[simp] theorem Task.halt_tiles (tk : Task) (x : Stop) : (tk.halt x).tiles = tk.tiles := by
  unfold Task.halt; split <;> (try split) <;> rfl
@[simp] theorem Task.halt_pages (tk : Task) (x : Stop) : (tk.halt x).pages = tk.pages := by
  unfold Task.halt; split <;> (try split) <;> rfl
@[simp] theorem Task.halt_spots (tk : Task) (x : Stop) : (tk.halt x).spots = tk.spots := by
  unfold Task.halt; split <;> (try split) <;> rfl
@[simp] theorem Task.halt_ebPages (tk : Task) (x : Stop) : (tk.halt x).ebPages = tk.ebPages := by
  unfold Task.halt; split <;> (try split) <;> rfl
@[simp] theorem Task.halt_spad (tk : Task) (x : Stop) : (tk.halt x).spad = tk.spad := by
  unfold Task.halt; split <;> (try split) <;> rfl
@[simp] theorem Task.halt_ebuf (tk : Task) (x : Stop) : (tk.halt x).ebuf = tk.ebuf := by
  unfold Task.halt; split <;> (try split) <;> rfl
@[simp] theorem Task.halt_parts (tk : Task) (x : Stop) : (tk.halt x).parts = tk.parts := by
  unfold Task.halt; split <;> (try split) <;> rfl
@[simp] theorem Task.halt_cat (tk : Task) (x : Stop) : (tk.halt x).cat = tk.cat := by
  unfold Task.halt; split <;> (try split) <;> rfl
@[simp] theorem Task.halt_charge (tk : Task) (x : Stop) : (tk.halt x).charge = tk.charge := by
  unfold Task.halt; split <;> (try split) <;> rfl
@[simp] theorem Task.halt_reach (tk : Task) (x : Stop) : (tk.halt x).reach = tk.reach := by
  unfold Task.halt; split <;> (try split) <;> rfl
@[simp] theorem Task.halt_wants (tk : Task) (x : Stop) : (tk.halt x).wants = tk.wants := by
  unfold Task.halt; split <;> (try split) <;> rfl
@[simp] theorem Task.halt_offers (tk : Task) (x : Stop) : (tk.halt x).offers = tk.offers := by
  unfold Task.halt; split <;> (try split) <;> rfl
@[simp] theorem Task.halt_stopping (tk : Task) (x : Stop) : (tk.halt x).stopping = tk.stopping := by
  unfold Task.halt; split <;> (try split) <;> rfl
@[simp] theorem Task.halt_matFault (tk : Task) (x : Stop) : (tk.halt x).matFault = tk.matFault := by
  unfold Task.halt; split <;> (try split) <;> rfl
@[simp] theorem Task.halt_ended (tk : Task) (x : Stop) : (tk.halt x).ended = tk.ended := by
  unfold Task.halt; split <;> (try split) <;> rfl
@[simp] theorem Task.halt_threads (tk : Task) (x : Stop) : (tk.halt x).threads = tk.threads := by
  unfold Task.halt; split <;> (try split) <;> rfl
@[simp] theorem Task.haltLane_rcd (tk : Task) (ls : List Nat) (x : Stop) : (tk.haltLane ls x).rcd = tk.rcd := by
  unfold Task.haltLane; split
  · rfl
  · exact Task.halt_rcd tk x
@[simp] theorem Task.haltLane_ctx (tk : Task) (ls : List Nat) (x : Stop) : (tk.haltLane ls x).ctx = tk.ctx := by
  unfold Task.haltLane; split
  · rfl
  · exact Task.halt_ctx tk x
@[simp] theorem Task.haltLane_launch (tk : Task) (ls : List Nat) (x : Stop) : (tk.haltLane ls x).launch = tk.launch := by
  unfold Task.haltLane; split
  · rfl
  · exact Task.halt_launch tk x
@[simp] theorem Task.haltLane_phase (tk : Task) (ls : List Nat) (x : Stop) : (tk.haltLane ls x).phase = tk.phase := by
  unfold Task.haltLane; split
  · rfl
  · exact Task.halt_phase tk x
@[simp] theorem Task.haltLane_cluster (tk : Task) (ls : List Nat) (x : Stop) : (tk.haltLane ls x).cluster = tk.cluster := by
  unfold Task.haltLane; split
  · rfl
  · exact Task.halt_cluster tk x
@[simp] theorem Task.haltLane_queued (tk : Task) (ls : List Nat) (x : Stop) : (tk.haltLane ls x).queued = tk.queued := by
  unfold Task.haltLane; split
  · rfl
  · exact Task.halt_queued tk x
@[simp] theorem Task.haltLane_passed (tk : Task) (ls : List Nat) (x : Stop) : (tk.haltLane ls x).passed = tk.passed := by
  unfold Task.haltLane; split
  · rfl
  · exact Task.halt_passed tk x
@[simp] theorem Task.haltLane_holdTo (tk : Task) (ls : List Nat) (x : Stop) : (tk.haltLane ls x).holdTo = tk.holdTo := by
  unfold Task.haltLane; split
  · rfl
  · exact Task.halt_holdTo tk x
@[simp] theorem Task.haltLane_eligible (tk : Task) (ls : List Nat) (x : Stop) : (tk.haltLane ls x).eligible = tk.eligible := by
  unfold Task.haltLane; split
  · rfl
  · exact Task.halt_eligible tk x
@[simp] theorem Task.haltLane_core (tk : Task) (ls : List Nat) (x : Stop) : (tk.haltLane ls x).core = tk.core := by
  unfold Task.haltLane; split
  · rfl
  · exact Task.halt_core tk x
@[simp] theorem Task.haltLane_irrevocable (tk : Task) (ls : List Nat) (x : Stop) : (tk.haltLane ls x).irrevocable = tk.irrevocable := by
  unfold Task.haltLane; split
  · rfl
  · exact Task.halt_irrevocable tk x
@[simp] theorem Task.haltLane_commitT (tk : Task) (ls : List Nat) (x : Stop) : (tk.haltLane ls x).commitT = tk.commitT := by
  unfold Task.haltLane; split
  · rfl
  · exact Task.halt_commitT tk x
@[simp] theorem Task.haltLane_bnd (tk : Task) (ls : List Nat) (x : Stop) : (tk.haltLane ls x).bnd = tk.bnd := by
  unfold Task.haltLane; split
  · rfl
  · exact Task.halt_bnd tk x
@[simp] theorem Task.haltLane_bsel (tk : Task) (ls : List Nat) (x : Stop) : (tk.haltLane ls x).bsel = tk.bsel := by
  unfold Task.haltLane; split
  · rfl
  · exact Task.halt_bsel tk x
@[simp] theorem Task.haltLane_s (tk : Task) (ls : List Nat) (x : Stop) : (tk.haltLane ls x).s = tk.s := by
  unfold Task.haltLane; split
  · rfl
  · exact Task.halt_s tk x
@[simp] theorem Task.haltLane_rngkey (tk : Task) (ls : List Nat) (x : Stop) : (tk.haltLane ls x).rngkey = tk.rngkey := by
  unfold Task.haltLane; split
  · rfl
  · exact Task.halt_rngkey tk x
@[simp] theorem Task.haltLane_dtimeHi (tk : Task) (ls : List Nat) (x : Stop) : (tk.haltLane ls x).dtimeHi = tk.dtimeHi := by
  unfold Task.haltLane; split
  · rfl
  · exact Task.halt_dtimeHi tk x
@[simp] theorem Task.haltLane_chunks (tk : Task) (ls : List Nat) (x : Stop) : (tk.haltLane ls x).chunks = tk.chunks := by
  unfold Task.haltLane; split
  · rfl
  · exact Task.halt_chunks tk x
@[simp] theorem Task.haltLane_tiles (tk : Task) (ls : List Nat) (x : Stop) : (tk.haltLane ls x).tiles = tk.tiles := by
  unfold Task.haltLane; split
  · rfl
  · exact Task.halt_tiles tk x
@[simp] theorem Task.haltLane_pages (tk : Task) (ls : List Nat) (x : Stop) : (tk.haltLane ls x).pages = tk.pages := by
  unfold Task.haltLane; split
  · rfl
  · exact Task.halt_pages tk x
@[simp] theorem Task.haltLane_spots (tk : Task) (ls : List Nat) (x : Stop) : (tk.haltLane ls x).spots = tk.spots := by
  unfold Task.haltLane; split
  · rfl
  · exact Task.halt_spots tk x
@[simp] theorem Task.haltLane_ebPages (tk : Task) (ls : List Nat) (x : Stop) : (tk.haltLane ls x).ebPages = tk.ebPages := by
  unfold Task.haltLane; split
  · rfl
  · exact Task.halt_ebPages tk x
@[simp] theorem Task.haltLane_spad (tk : Task) (ls : List Nat) (x : Stop) : (tk.haltLane ls x).spad = tk.spad := by
  unfold Task.haltLane; split
  · rfl
  · exact Task.halt_spad tk x
@[simp] theorem Task.haltLane_ebuf (tk : Task) (ls : List Nat) (x : Stop) : (tk.haltLane ls x).ebuf = tk.ebuf := by
  unfold Task.haltLane; split
  · rfl
  · exact Task.halt_ebuf tk x
@[simp] theorem Task.haltLane_parts (tk : Task) (ls : List Nat) (x : Stop) : (tk.haltLane ls x).parts = tk.parts := by
  unfold Task.haltLane; split
  · rfl
  · exact Task.halt_parts tk x
@[simp] theorem Task.haltLane_cat (tk : Task) (ls : List Nat) (x : Stop) : (tk.haltLane ls x).cat = tk.cat := by
  unfold Task.haltLane; split
  · rfl
  · exact Task.halt_cat tk x
@[simp] theorem Task.haltLane_charge (tk : Task) (ls : List Nat) (x : Stop) : (tk.haltLane ls x).charge = tk.charge := by
  unfold Task.haltLane; split
  · rfl
  · exact Task.halt_charge tk x
@[simp] theorem Task.haltLane_reach (tk : Task) (ls : List Nat) (x : Stop) : (tk.haltLane ls x).reach = tk.reach := by
  unfold Task.haltLane; split
  · rfl
  · exact Task.halt_reach tk x
@[simp] theorem Task.haltLane_wants (tk : Task) (ls : List Nat) (x : Stop) : (tk.haltLane ls x).wants = tk.wants := by
  unfold Task.haltLane; split
  · rfl
  · exact Task.halt_wants tk x
@[simp] theorem Task.haltLane_offers (tk : Task) (ls : List Nat) (x : Stop) : (tk.haltLane ls x).offers = tk.offers := by
  unfold Task.haltLane; split
  · rfl
  · exact Task.halt_offers tk x
@[simp] theorem Task.haltLane_stopping (tk : Task) (ls : List Nat) (x : Stop) : (tk.haltLane ls x).stopping = tk.stopping := by
  unfold Task.haltLane; split
  · rfl
  · exact Task.halt_stopping tk x
@[simp] theorem Task.haltLane_matFault (tk : Task) (ls : List Nat) (x : Stop) : (tk.haltLane ls x).matFault = tk.matFault := by
  unfold Task.haltLane; split
  · rfl
  · exact Task.halt_matFault tk x
@[simp] theorem Task.haltLane_ended (tk : Task) (ls : List Nat) (x : Stop) : (tk.haltLane ls x).ended = tk.ended := by
  unfold Task.haltLane; split
  · rfl
  · exact Task.halt_ended tk x
@[simp] theorem Task.haltLane_threads (tk : Task) (ls : List Nat) (x : Stop) : (tk.haltLane ls x).threads = tk.threads := by
  unfold Task.haltLane; split
  · rfl
  · exact Task.halt_threads tk x
@[simp] theorem State.raiseAt_dtime (s : State) (a t c e x : Nat) (i : Word) : (s.raiseAt a t c e x i).dtime = s.dtime := by
  unfold State.raiseAt; split <;> (try split) <;> rfl
@[simp] theorem State.raiseAt_mem (s : State) (a t c e x : Nat) (i : Word) : (s.raiseAt a t c e x i).mem = s.mem := by
  unfold State.raiseAt; split <;> (try split) <;> rfl
@[simp] theorem State.raiseAt_homes (s : State) (a t c e x : Nat) (i : Word) : (s.raiseAt a t c e x i).homes = s.homes := by
  unfold State.raiseAt; split <;> (try split) <;> rfl
@[simp] theorem State.raiseAt_writes (s : State) (a t c e x : Nat) (i : Word) : (s.raiseAt a t c e x i).writes = s.writes := by
  unfold State.raiseAt; split <;> (try split) <;> rfl
@[simp] theorem State.raiseAt_poison (s : State) (a t c e x : Nat) (i : Word) : (s.raiseAt a t c e x i).poison = s.poison := by
  unfold State.raiseAt; split <;> (try split) <;> rfl
@[simp] theorem State.raiseAt_hostLines (s : State) (a t c e x : Nat) (i : Word) : (s.raiseAt a t c e x i).hostLines = s.hostLines := by
  unfold State.raiseAt; split <;> (try split) <;> rfl
@[simp] theorem State.raiseAt_cores (s : State) (a t c e x : Nat) (i : Word) : (s.raiseAt a t c e x i).cores = s.cores := by
  unfold State.raiseAt; split <;> (try split) <;> rfl
@[simp] theorem State.raiseAt_clusters (s : State) (a t c e x : Nat) (i : Word) : (s.raiseAt a t c e x i).clusters = s.clusters := by
  unfold State.raiseAt; split <;> (try split) <;> rfl
@[simp] theorem State.raiseAt_ctxs (s : State) (a t c e x : Nat) (i : Word) : (s.raiseAt a t c e x i).ctxs = s.ctxs := by
  unfold State.raiseAt; split <;> (try split) <;> rfl
@[simp] theorem State.raiseAt_launches (s : State) (a t c e x : Nat) (i : Word) : (s.raiseAt a t c e x i).launches = s.launches := by
  unfold State.raiseAt; split <;> (try split) <;> rfl
@[simp] theorem State.raiseAt_locks (s : State) (a t c e x : Nat) (i : Word) : (s.raiseAt a t c e x i).locks = s.locks := by
  unfold State.raiseAt; split <;> (try split) <;> rfl
@[simp] theorem State.raiseAt_engs (s : State) (a t c e x : Nat) (i : Word) : (s.raiseAt a t c e x i).engs = s.engs := by
  unfold State.raiseAt; split <;> (try split) <;> rfl
@[simp] theorem State.raiseAt_outs (s : State) (a t c e x : Nat) (i : Word) : (s.raiseAt a t c e x i).outs = s.outs := by
  unfold State.raiseAt; split <;> (try split) <;> rfl
@[simp] theorem State.raiseAt_replay (s : State) (a t c e x : Nat) (i : Word) : (s.raiseAt a t c e x i).replay = s.replay := by
  unfold State.raiseAt; split <;> (try split) <;> rfl
@[simp] theorem State.raiseAt_ports (s : State) (a t c e x : Nat) (i : Word) : (s.raiseAt a t c e x i).ports = s.ports := by
  unfold State.raiseAt; split <;> (try split) <;> rfl
@[simp] theorem State.raiseAt_regs (s : State) (a t c e x : Nat) (i : Word) : (s.raiseAt a t c e x i).regs = s.regs := by
  unfold State.raiseAt; split <;> (try split) <;> rfl
@[simp] theorem State.raiseAt_accn (s : State) (a t c e x : Nat) (i : Word) : (s.raiseAt a t c e x i).accn = s.accn := by
  unfold State.raiseAt; split <;> (try split) <;> rfl
@[simp] theorem State.raiseAt_nextId (s : State) (a t c e x : Nat) (i : Word) : (s.raiseAt a t c e x i).nextId = s.nextId := by
  unfold State.raiseAt; split <;> (try split) <;> rfl
@[simp] theorem State.raiseAt_epoch (s : State) (a t c e x : Nat) (i : Word) : (s.raiseAt a t c e x i).epoch = s.epoch := by
  unfold State.raiseAt; split <;> (try split) <;> rfl
@[simp] theorem State.raiseAt_turn (s : State) (a t c e x : Nat) (i : Word) : (s.raiseAt a t c e x i).turn = s.turn := by
  unfold State.raiseAt; split <;> (try split) <;> rfl
@[simp] theorem State.raiseAt_free (s : State) (a t c e x : Nat) (i : Word) : (s.raiseAt a t c e x i).free = s.free := by
  unfold State.raiseAt; split <;> (try split) <;> rfl
@[simp] theorem State.raiseAt_still (s : State) (a t c e x : Nat) (i : Word) : (s.raiseAt a t c e x i).still = s.still := by
  unfold State.raiseAt; split <;> (try split) <;> rfl
@[simp] theorem State.raiseAt_asked (s : State) (a t c e x : Nat) (i : Word) : (s.raiseAt a t c e x i).asked = s.asked := by
  unfold State.raiseAt; split <;> (try split) <;> rfl
@[simp] theorem State.raiseAt_issue (s : State) (a t c e x : Nat) (i : Word) : (s.raiseAt a t c e x i).issue = s.issue := by
  unfold State.raiseAt; split <;> (try split) <;> rfl
@[simp] theorem State.raiseAt_agenda (s : State) (a t c e x : Nat) (i : Word) : (s.raiseAt a t c e x i).agenda = s.agenda := by
  unfold State.raiseAt; split <;> (try split) <;> rfl
@[simp] theorem State.raiseAt_sent (s : State) (a t c e x : Nat) (i : Word) : (s.raiseAt a t c e x i).sent = s.sent := by
  unfold State.raiseAt; split <;> (try split) <;> rfl
@[simp] theorem State.raiseAt_hole (s : State) (a t c e x : Nat) (i : Word) : (s.raiseAt a t c e x i).hole = s.hole := by
  unfold State.raiseAt; split <;> (try split) <;> rfl
@[simp] theorem State.raise_dtime (s : State) (a t c x : Nat) (i : Word) : (s.raise a t c x i).dtime = s.dtime := by
  unfold State.raise; split <;> simp
@[simp] theorem State.raise_mem (s : State) (a t c x : Nat) (i : Word) : (s.raise a t c x i).mem = s.mem := by
  unfold State.raise; split <;> simp
@[simp] theorem State.raise_homes (s : State) (a t c x : Nat) (i : Word) : (s.raise a t c x i).homes = s.homes := by
  unfold State.raise; split <;> simp
@[simp] theorem State.raise_writes (s : State) (a t c x : Nat) (i : Word) : (s.raise a t c x i).writes = s.writes := by
  unfold State.raise; split <;> simp
@[simp] theorem State.raise_poison (s : State) (a t c x : Nat) (i : Word) : (s.raise a t c x i).poison = s.poison := by
  unfold State.raise; split <;> simp
@[simp] theorem State.raise_hostLines (s : State) (a t c x : Nat) (i : Word) : (s.raise a t c x i).hostLines = s.hostLines := by
  unfold State.raise; split <;> simp
@[simp] theorem State.raise_cores (s : State) (a t c x : Nat) (i : Word) : (s.raise a t c x i).cores = s.cores := by
  unfold State.raise; split <;> simp
@[simp] theorem State.raise_clusters (s : State) (a t c x : Nat) (i : Word) : (s.raise a t c x i).clusters = s.clusters := by
  unfold State.raise; split <;> simp
@[simp] theorem State.raise_ctxs (s : State) (a t c x : Nat) (i : Word) : (s.raise a t c x i).ctxs = s.ctxs := by
  unfold State.raise; split <;> simp
@[simp] theorem State.raise_launches (s : State) (a t c x : Nat) (i : Word) : (s.raise a t c x i).launches = s.launches := by
  unfold State.raise; split <;> simp
@[simp] theorem State.raise_locks (s : State) (a t c x : Nat) (i : Word) : (s.raise a t c x i).locks = s.locks := by
  unfold State.raise; split <;> simp
@[simp] theorem State.raise_engs (s : State) (a t c x : Nat) (i : Word) : (s.raise a t c x i).engs = s.engs := by
  unfold State.raise; split <;> simp
@[simp] theorem State.raise_outs (s : State) (a t c x : Nat) (i : Word) : (s.raise a t c x i).outs = s.outs := by
  unfold State.raise; split <;> simp
@[simp] theorem State.raise_replay (s : State) (a t c x : Nat) (i : Word) : (s.raise a t c x i).replay = s.replay := by
  unfold State.raise; split <;> simp
@[simp] theorem State.raise_ports (s : State) (a t c x : Nat) (i : Word) : (s.raise a t c x i).ports = s.ports := by
  unfold State.raise; split <;> simp
@[simp] theorem State.raise_regs (s : State) (a t c x : Nat) (i : Word) : (s.raise a t c x i).regs = s.regs := by
  unfold State.raise; split <;> simp
@[simp] theorem State.raise_accn (s : State) (a t c x : Nat) (i : Word) : (s.raise a t c x i).accn = s.accn := by
  unfold State.raise; split <;> simp
@[simp] theorem State.raise_nextId (s : State) (a t c x : Nat) (i : Word) : (s.raise a t c x i).nextId = s.nextId := by
  unfold State.raise; split <;> simp
@[simp] theorem State.raise_epoch (s : State) (a t c x : Nat) (i : Word) : (s.raise a t c x i).epoch = s.epoch := by
  unfold State.raise; split <;> simp
@[simp] theorem State.raise_turn (s : State) (a t c x : Nat) (i : Word) : (s.raise a t c x i).turn = s.turn := by
  unfold State.raise; split <;> simp
@[simp] theorem State.raise_free (s : State) (a t c x : Nat) (i : Word) : (s.raise a t c x i).free = s.free := by
  unfold State.raise; split <;> simp
@[simp] theorem State.raise_still (s : State) (a t c x : Nat) (i : Word) : (s.raise a t c x i).still = s.still := by
  unfold State.raise; split <;> simp
@[simp] theorem State.raise_asked (s : State) (a t c x : Nat) (i : Word) : (s.raise a t c x i).asked = s.asked := by
  unfold State.raise; split <;> simp
@[simp] theorem State.raise_issue (s : State) (a t c x : Nat) (i : Word) : (s.raise a t c x i).issue = s.issue := by
  unfold State.raise; split <;> simp
@[simp] theorem State.raise_agenda (s : State) (a t c x : Nat) (i : Word) : (s.raise a t c x i).agenda = s.agenda := by
  unfold State.raise; split <;> simp
@[simp] theorem State.raise_sent (s : State) (a t c x : Nat) (i : Word) : (s.raise a t c x i).sent = s.sent := by
  unfold State.raise; split <;> simp
@[simp] theorem State.raise_hole (s : State) (a t c x : Nat) (i : Word) : (s.raise a t c x i).hole = s.hole := by
  unfold State.raise; split <;> simp

/-! ## Reads after writes -/

@[simp] theorem Thread.setReg_reg_self (th : Thread) (n : Nat) (x : Word) (h : n < 64) : (th.setReg n x).reg n = x := by
  simp [Thread.reg, Thread.setReg, Vector.getD, h]

theorem Thread.setReg_reg_ne (th : Thread) {n m : Nat} (x : Word) (h : m ≠ n) : (th.setReg n x).reg m = th.reg m := by
  simp only [Thread.reg, Thread.setReg, Vector.getD]
  by_cases hm : m < 64 <;> simp [hm, Ne.symm h]

@[simp] theorem Thread.next_reg (th : Thread) (n : Nat) : th.next.reg n = th.reg n := by simp [Thread.reg]
@[simp] theorem Thread.next_pred (th : Thread) (n : Nat) : th.next.pred n = th.pred n := by simp [Thread.pred]
@[simp] theorem Thread.next_counter (th : Thread) (n : Nat) : th.next.counter n = th.counter n := by simp [Thread.counter]
@[simp] theorem Thread.setPred_reg (th : Thread) (i n : Nat) (b : Bool) : (th.setPred i b).reg n = th.reg n := by
  simp [Thread.reg]
@[simp] theorem Thread.setPred_zero (th : Thread) (b : Bool) : th.setPred 0 b = th := rfl
@[simp] theorem Thread.pred_zero (th : Thread) : th.pred 0 = true := rfl

@[simp] theorem Task.setS_sreg_self (tk : Task) (n : Nat) (x : Word) (h : n < 160) : (tk.setS n x).sreg n = x := by
  simp [Task.sreg, Task.setS, Vector.getD, h]
theorem Task.setS_sreg_ne (tk : Task) {n m : Nat} (x : Word) (h : m ≠ n) : (tk.setS n x).sreg m = tk.sreg m := by
  simp only [Task.sreg, Task.setS, Vector.getD]
  by_cases hm : m < 160 <;> simp [hm, Ne.symm h]

/-! ## Tasks and threads after an update -/

theorem State.task?_updTask (s : State) (a b : Nat) (f : Task → Task) :
    (s.updTask a f).task? b = if b = a then (s.task? a).map f else s.task? b := by
  simp [State.task?, State.updTask, KMap.get?_upd]
@[simp] theorem State.task?_updTask_self (s : State) (a : Nat) (f : Task → Task) :
    (s.updTask a f).task? a = (s.task? a).map f := by simp [State.task?_updTask]

theorem State.thread?_putThread (s : State) (a t b u : Nat) (th : Thread) :
    (s.putThread a t th).thread? b u =
      if b = a ∧ u = t then (s.task? a).map fun _ => th else s.thread? b u := by
  simp only [State.thread?, State.putThread, State.task?_updTask]
  by_cases h : b = a
  · subst h
    cases s.task? b <;> simp [KMap.get?_put]
  · simp [h]

theorem State.thread?_updThread (s : State) (a t b u : Nat) (f : Thread → Thread) :
    (s.updThread a t f).thread? b u = if b = a ∧ u = t then (s.thread? a t).map f else s.thread? b u := by
  simp only [State.thread?, State.updThread, State.task?_updTask]
  by_cases h : b = a
  · subst h
    cases s.task? b
    · simp
    · by_cases hu : u = t <;> simp [KMap.get?_upd, hu]
  · simp [h]

end Sys2Proof.Machine
end

