-- ==== Sys2Proof/Laws/Run.lean ====
section
/-!
SUPPORT. What the two ways of running a word do: a word that acts in each thread (R68), and a scalar word (R69).
-/

namespace Sys2Proof.Machine

/-! ## Nothing but threads -/

theorem OnlyThreads.refl (s : State) : OnlyThreads s s := ⟨fun _ => rfl, rfl, fun _ => rfl⟩

theorem OnlyThreads.trans {s s' s'' : State} (h : OnlyThreads s s') (h' : OnlyThreads s' s'') : OnlyThreads s s'' := by
  refine ⟨fun a => (h'.shells a).trans (h.shells a), ?_, fun k => (h'.bytes k).trans (h.bytes k)⟩
  have h1 := h.rest
  have h2 := congrArg (fun x : State => { x with tasks := s.tasks }) h'.rest
  exact h2.trans h1

theorem OnlyThreads.field {α : Type} {s s' : State} (h : OnlyThreads s s') (f : State → α)
    (hf : ∀ s ts, f { s with tasks := ts } = f s) : f s' = f s := by
  have := hf s' s.tasks
  rw [h.rest] at this
  exact this.symm

theorem OnlyThreads.issue {s s' : State} (h : OnlyThreads s s') : s'.issue = s.issue := h.field State.issue fun _ _ => rfl

theorem OnlyThreads.awaits {s s' : State} (h : OnlyThreads s s') (a t n : Nat) : s'.awaits a t n = s.awaits a t n :=
  h.field (fun s => s.awaits a t n) fun _ _ => rfl

theorem OnlyThreads.task {s s' : State} (h : OnlyThreads s s') {a : Nat} {tk : Task} (ht : s.task? a = some tk) :
    ∃ tk', s'.task? a = some tk' ∧ tk'.shell = tk.shell := by
  have := h.shells a
  rw [ht] at this
  cases hs : s'.task? a with
  | none => simp [hs] at this
  | some tk' => exact ⟨tk', rfl, by simpa [hs] using this⟩

theorem OnlyThreads.putThread (s : State) (a t : Nat) (th : Thread) : OnlyThreads s (s.putThread a t th) := by
  refine ⟨fun b => ?_, rfl, fun _ => rfl⟩
  simp only [State.putThread, State.task?_updTask]
  split
  · subst_vars; cases s.task? b <;> rfl
  · rfl

theorem OnlyThreads.updThread (s : State) (a t : Nat) (f : Thread → Thread) : OnlyThreads s (s.updThread a t f) := by
  refine ⟨fun b => ?_, rfl, fun _ => rfl⟩
  simp only [State.updThread, State.task?_updTask]
  split
  · subst_vars; cases s.task? b <;> rfl
  · rfl

theorem Task.holdsReg_shell {tk tk' : Task} (h : tk.shell = tk'.shell) (n : Nat) : tk.holdsReg n = tk'.holdsReg n := by
  have : tk.shell.chunks = tk'.shell.chunks := congrArg Task.chunks h
  have : tk.chunks = tk'.chunks := this
  simp [Task.holdsReg, this]

theorem Task.sreg_shell {tk tk' : Task} (h : tk.shell = tk'.shell) (n : Nat) : tk.sreg n = tk'.sreg n := by
  have : tk.shell.s = tk'.shell.s := congrArg Task.s h
  have : tk.s = tk'.s := this
  simp [Task.sreg, this]

/-- What a thread's word sees of a task does not depend on the task's threads. -/
theorem Task.seen_shell {tk tk' : Task} (h : tk.shell = tk'.shell) (th : Thread) : (tk.seen th).shell = (tk'.seen th).shell := by
  have := congrArg (fun x : Task => x.seen th) h
  simpa [Task.seen, Task.shell] using this

@[simp] theorem Task.seen_holdsReg (tk : Task) (th : Thread) (n : Nat) : (tk.seen th).holdsReg n = tk.holdsReg n := rfl

theorem State.thread?_of {s : State} {a t : Nat} {tk : Task} (h : s.task? a = some tk) :
    s.thread? a t = KMap.get? t tk.threads := by simp [State.thread?, h]

theorem State.task_of_thread {s : State} {a t : Nat} {th : Thread} (h : s.thread? a t = some th) :
    ∃ tk, s.task? a = some tk ∧ KMap.get? t tk.threads = some th := by
  unfold State.thread? at h
  cases ht : s.task? a with
  | none => simp [ht] at h
  | some tk => exact ⟨tk, rfl, by simpa [ht] using h⟩

theorem State.mem_carried {s : State} {t : Nat} :
    t ∈ s.carried ↔ t ∈ s.issue.lanes ∧ ∃ th, s.thread? s.issue.accn t = some th ∧ s.issue.carries th = true := by
  simp only [State.carried, List.mem_filter]
  constructor
  · rintro ⟨h, hc⟩
    cases ht : s.thread? s.issue.accn t with
    | none => simp [ht] at hc
    | some th => exact ⟨h, th, rfl, by simpa [ht] using hc⟩
  · rintro ⟨h, th, ht, hc⟩
    exact ⟨h, by simp [ht, hc]⟩

/-! ## A word that acts in each thread -/

/-- One lane of a word: nothing happens to a thread that is not carried; the others get `f` or move past. -/
theorem State.lane_spec {s s1 : State} {g : BitVec 3} {regs : List Nat} {act : State → Nat → Task → Thread → State}
    {f : Nat → Task → Thread → Thread} {t : Nat}
    (hact : ∀ s1 t tk0 tk th, OnlyThreads s s1 → t ∈ s.carried → s.task? s.issue.accn = some tk0 →
      KMap.get? t tk0.threads = some th → s1.task? s.issue.accn = some tk → tk.shell = tk0.shell →
      s1.thread? s.issue.accn t = some th → th.pred g.toNat = true →
      act s1 t (tk.seen th) th = s1.putThread s.issue.accn t (f t (tk0.seen th) th))
    (hs : OnlyThreads s s1) (hth : s1.thread? s.issue.accn t = s.thread? s.issue.accn t)
    (hclear : t ∈ s.carried → s.clearIn g regs t = true) (hl : t ∈ s.issue.lanes) :
    OnlyThreads s (State.lane g.toNat regs act s1 t) ∧
      (∀ b u, ¬ (b = s.issue.accn ∧ u = t) → (State.lane g.toNat regs act s1 t).thread? b u = s1.thread? b u) ∧
      (t ∉ s.carried → (State.lane g.toNat regs act s1 t).thread? s.issue.accn t = s.thread? s.issue.accn t) ∧
      (t ∈ s.carried → ∀ tk th, s.task? s.issue.accn = some tk → KMap.get? t tk.threads = some th →
        (State.lane g.toNat regs act s1 t).thread? s.issue.accn t =
          some (if th.pred g.toNat then f t (tk.seen th) th else th.next)) := by
  have hi : s1.issue = s.issue := hs.issue
  cases hk : s.task? s.issue.accn with
  | none =>
    have h1 : s1.task? s.issue.accn = none := by
      have := hs.shells s.issue.accn
      rw [hk] at this
      cases h : s1.task? s.issue.accn <;> simp_all
    have hlane : State.lane g.toNat regs act s1 t = s1 := by unfold State.lane; rw [hi, h1]
    rw [hlane]
    refine ⟨hs, fun _ _ _ => rfl, fun _ => hth, fun _ tk _ h _ => by cases h⟩
  | some tk =>
    obtain ⟨tk1, h1, hsh⟩ := hs.task hk
    have ht1 : KMap.get? t tk1.threads = KMap.get? t tk.threads := by
      rw [← State.thread?_of h1, hth, State.thread?_of hk]
    cases hg : KMap.get? t tk.threads with
    | none =>
      have hlane : State.lane g.toNat regs act s1 t = s1 := by
        unfold State.lane; simp only [hi, h1, ht1, hg]
      rw [hlane]
      refine ⟨hs, fun _ _ _ => rfl, fun _ => hth, fun _ tk' th h h' => ?_⟩
      cases h; rw [hg] at h'; cases h'
    | some th =>
      have hsthr : s.thread? s.issue.accn t = some th := by rw [State.thread?_of hk, hg]
      by_cases hc : s.issue.carries th = true
      · have hmem : t ∈ s.carried := State.mem_carried.2 ⟨hl, th, hsthr, hc⟩
        have hcl := hclear hmem
        unfold State.clearIn at hcl
        rw [hk, hsthr] at hcl
        have key : State.lane g.toNat regs act s1 t =
            s1.putThread s.issue.accn t (if th.pred g.toNat then f t (tk.seen th) th else th.next) := by
          unfold State.lane
          simp only [hi, h1, ht1, hg, hc, Bool.not_true, Bool.false_eq_true, if_false]
          by_cases hp : th.pred g.toNat = true
          · simp only [hp, Bool.not_true, Bool.false_eq_true, if_false, if_true]
            simp only [hp, Bool.not_true, Bool.false_or, List.all_eq_true, Bool.and_eq_true, Bool.not_eq_true'] at hcl
            have hA : (regs.any fun n => !tk1.holdsReg n) = false := by
              rw [List.any_eq_false]
              intro n hn
              rw [Task.holdsReg_shell hsh, (hcl n hn).1]
              simp
            have hB : (regs.any (s1.awaits s.issue.accn t)) = false := by
              rw [List.any_eq_false]
              intro n hn
              rw [hs.awaits, (hcl n hn).2]
              simp
            rw [hA, hB]
            simp only [Bool.false_eq_true, if_false]
            rw [hact s1 t tk tk1 th hs hmem hk hg h1 hsh (by rw [hth, hsthr]) hp]
          · simp [hp]
        rw [key]
        refine ⟨hs.trans (OnlyThreads.putThread ..), fun b u hbu => ?_, fun h => absurd hmem h, fun _ tk' th' h h' => ?_⟩
        · rw [State.thread?_putThread]; simp [hbu]
        · cases h; rw [hg] at h'; cases h'
          rw [State.thread?_putThread]; simp [h1]
      · have hlane : State.lane g.toNat regs act s1 t = s1 := by
          unfold State.lane; simp only [hi, h1, ht1, hg]; simp [hc]
        rw [hlane]
        refine ⟨hs, fun _ _ _ => rfl, fun _ => hth, fun hm => ?_⟩
        obtain ⟨_, th', h', hc'⟩ := State.mem_carried.1 hm
        rw [hsthr] at h'; cases h'
        exact absurd hc' hc

/-- A word that acts in each thread does just that (R68). -/
theorem State.perLane_spec {s : State} {g : BitVec 3} {regs : List Nat} {act : State → Nat → Task → Thread → State}
    {f : Nat → Task → Thread → Thread} (hc : Clear s g regs)
    (hact : ∀ s1 t tk0 tk th, OnlyThreads s s1 → t ∈ s.carried → s.task? s.issue.accn = some tk0 →
      KMap.get? t tk0.threads = some th → s1.task? s.issue.accn = some tk → tk.shell = tk0.shell →
      s1.thread? s.issue.accn t = some th → th.pred g.toNat = true →
      act s1 t (tk.seen th) th = s1.putThread s.issue.accn t (f t (tk0.seen th) th)) :
    PerThread s (s.perLane g.toNat regs act) g f := by
  have main : ∀ (ls done : List Nat) (s1 : State), (∀ t ∈ ls, t ∈ s.issue.lanes) → ls.Nodup → (∀ t ∈ ls, t ∉ done) →
      OnlyThreads s s1 → (∀ b u, ¬ (b = s.issue.accn ∧ u ∈ done) → s1.thread? b u = s.thread? b u) →
      (∀ t ∈ done, t ∉ s.carried → s1.thread? s.issue.accn t = s.thread? s.issue.accn t) →
      (∀ t ∈ done, t ∈ s.carried → ∀ tk th, s.task? s.issue.accn = some tk → KMap.get? t tk.threads = some th →
        s1.thread? s.issue.accn t = some (if th.pred g.toNat then f t (tk.seen th) th else th.next)) →
      let s2 := ls.foldl (State.lane g.toNat regs act) s1
      OnlyThreads s s2 ∧ (∀ b u, ¬ (b = s.issue.accn ∧ (u ∈ done ∨ u ∈ ls)) → s2.thread? b u = s.thread? b u) ∧
      (∀ t, t ∈ done ∨ t ∈ ls → t ∉ s.carried → s2.thread? s.issue.accn t = s.thread? s.issue.accn t) ∧
      (∀ t, t ∈ done ∨ t ∈ ls → t ∈ s.carried → ∀ tk th, s.task? s.issue.accn = some tk →
        KMap.get? t tk.threads = some th →
          s2.thread? s.issue.accn t = some (if th.pred g.toNat then f t (tk.seen th) th else th.next)) := by
    intro ls
    induction ls with
    | nil =>
      intro done s1 _ _ _ h1 h2 h3 h4
      refine ⟨h1, fun b u hbu => h2 b u fun h => hbu ⟨h.1, .inl h.2⟩, fun t ht => h3 t (by simpa using ht),
        fun t ht => h4 t (by simpa using ht)⟩
    | cons t ls ih =>
      intro done s1 hl hnd hdis h1 h2 h3 h4
      have hnd' := List.nodup_cons.1 hnd
      have htd : t ∉ done := hdis t List.mem_cons_self
      have hl' : t ∈ s.issue.lanes := hl t List.mem_cons_self
      obtain ⟨a1, a2, a3, a4⟩ := State.lane_spec (g := g) (regs := regs) (act := act) (f := f) (t := t) hact h1
        (h2 _ _ fun h => htd h.2) (fun h => hc.2 t h) hl'
      have := ih (t :: done) (State.lane g.toNat regs act s1 t) (fun u hu => hl u (List.mem_cons_of_mem _ hu)) hnd'.2
        (fun u hu hm => by
          rcases List.mem_cons.1 hm with rfl | hm
          · exact hnd'.1 hu
          · exact hdis u (List.mem_cons_of_mem _ hu) hm)
        a1
        (fun b u hbu => by
          rw [a2 b u fun h => hbu ⟨h.1, h.2 ▸ List.mem_cons_self⟩]
          exact h2 b u fun h => hbu ⟨h.1, List.mem_cons_of_mem _ h.2⟩)
        (fun u hu hnc => by
          by_cases hut : u = t
          · subst hut; exact a3 hnc
          · rw [a2 _ _ fun h => hut h.2]
            exact h3 u (by simpa [hut] using hu) hnc)
        (fun u hu hcu tk th ht hg => by
          by_cases hut : u = t
          · subst hut; exact a4 hcu tk th ht hg
          · rw [a2 _ _ fun h => hut h.2]
            exact h4 u (by simpa [hut] using hu) hcu tk th ht hg)
      have hor : ∀ u, (u ∈ t :: done ∨ u ∈ ls) ↔ (u ∈ done ∨ u ∈ t :: ls) := by
        intro u; simp only [List.mem_cons, or_assoc, or_left_comm]
      simpa only [List.foldl_cons, hor] using this
  have := main s.issue.lanes [] s (fun _ h => h) hc.1 (fun _ _ h => by cases h) (OnlyThreads.refl s) (fun _ _ _ => rfl)
    (fun _ h => by cases h) (fun _ h => by cases h)
  refine ⟨fun t ht tk th hk hg => ?_, fun a t h => ?_, this.1⟩
  · exact this.2.2.2 t (.inr (State.mem_carried.1 ht).1) ht tk th hk hg
  · by_cases hl : a = s.issue.accn ∧ t ∈ s.issue.lanes
    · obtain ⟨rfl, hl⟩ := hl
      exact this.2.2.1 t (.inr hl) (h rfl)
    · exact this.2.1 a t fun h' => hl ⟨h'.1, by simpa using h'.2⟩

/-- A register word (R68). -/
theorem regWord_does {s : State} {g : BitVec 3} {regs : List Nat} {f : Task → Thread → Thread} (hc : Clear s g regs)
    (hf : ∀ tk tk' th, tk.shell = tk'.shell → f tk th = f tk' th) :
    ∃ s', regWord g regs f s = .next s' ∧ PerThread s s' g fun _ tk th => (f tk th).next :=
  ⟨_, rfl, State.perLane_spec hc fun s1 t tk0 tk th h _ _ _ _ hsh _ _ => by rw [h.issue, hf _ _ th (Task.seen_shell hsh th)]⟩

/-! ## An issue of one thread -/

theorem OnlyThread.putThread {s : State} {a t : Nat} {tk : Task} (h : s.task? a = some tk) (th : Thread) :
    OnlyThread s (s.putThread a t th) a t th := by
  refine ⟨?_, fun b u hbu => ?_, OnlyThreads.putThread ..⟩
  · rw [State.thread?_putThread]; simp [h]
  · rw [State.thread?_putThread]; simp [hbu]

theorem OnlyThread.updThread {s : State} {a t : Nat} {th : Thread} (h : s.thread? a t = some th) (f : Thread → Thread) :
    OnlyThread s (s.updThread a t f) a t (f th) := by
  refine ⟨?_, fun b u hbu => ?_, OnlyThreads.updThread ..⟩
  · rw [State.thread?_updThread]; simp [h]
  · rw [State.thread?_updThread]; simp [hbu]

theorem Alone.task {s : State} {g : BitVec 3} {regs : List Nat} {t : Nat} {tk : Task} {th : Thread}
    (h : Alone s g regs t tk th) : ∃ live, s.task? s.issue.accn = some live ∧ tk = live.seen th := by
  obtain ⟨live, h1, h2⟩ := Option.map_eq_some_iff.1 h.2.1
  exact ⟨live, h1, h2.symm⟩

theorem Alone.thread {s : State} {g : BitVec 3} {regs : List Nat} {t : Nat} {tk : Task} {th : Thread}
    (h : Alone s g regs t tk th) : s.thread? s.issue.accn t = some th := by
  obtain ⟨live, hk, rfl⟩ := h.task
  rw [State.thread?_of hk]; exact h.2.2.1

theorem State.lane_alone {s : State} {g : BitVec 3} {regs : List Nat} {act : State → Nat → Task → Thread → State} {t : Nat}
    {tk : Task} {th : Thread} (h : Alone s g regs t tk th) : State.lane g.toNat regs act s t = act s t tk th := by
  obtain ⟨live, hk, rfl⟩ := h.task
  obtain ⟨_, _, hg, hc, hp, hr⟩ := h
  have hA : (regs.any fun n => !live.holdsReg n) = false := by
    rw [List.any_eq_false]
    intro n hn
    rw [← Task.seen_holdsReg live th, (hr n hn).1]; simp
  have hB : (regs.any (s.awaits s.issue.accn t)) = false := by
    rw [List.any_eq_false]
    intro n hn
    rw [(hr n hn).2]; simp
  unfold State.lane
  simp only [hk, Task.seen_threads] at hg ⊢
  simp only [hg, hc, hp, hA, hB, Bool.not_true, Bool.false_eq_true, if_false]

/-- A word that acts in each thread, in an issue of one thread. -/
theorem State.perLane_alone {s : State} {g : BitVec 3} {regs : List Nat} {act : State → Nat → Task → Thread → State} {t : Nat}
    {tk : Task} {th : Thread} (h : Alone s g regs t tk th) : s.perLane g.toNat regs act = act s t tk th := by
  unfold State.perLane
  rw [h.1, List.foldl_cons, List.foldl_nil, State.lane_alone h]

/-- A lane of a word that enters the irrevocable state, in an issue of one thread, once the entry goes on. -/
theorem State.laneIn_alone {s s1 : State} {g : BitVec 3} {regs : List Nat} {entry : State → Nat → Task → Thread → Ready}
    {act : State → Nat → Task → Thread → State} {t : Nat} {tk tk1 : Task} {th th1 : Thread} (h : Alone s g regs t tk th)
    (hw : ∀ live, s.task? s.issue.accn = some live → (s.isDet live && live.lowerWaits t th) = false)
    (he : entry s t tk th = .go s1) (hk : s1.task? s.issue.accn = some tk1) (ht : s1.thread? s.issue.accn t = some th1) :
    State.laneIn g.toNat regs entry act s t = act s1 t (tk1.seen th1) th1 := by
  obtain ⟨live, hl, rfl⟩ := h.task
  obtain ⟨_, _, hg, hc, hp, hr⟩ := h
  have hA : (regs.any fun n => !live.holdsReg n) = false := by
    rw [List.any_eq_false]
    intro n hn
    rw [← Task.seen_holdsReg live th, (hr n hn).1]; simp
  have hB : (regs.any (s.awaits s.issue.accn t)) = false := by
    rw [List.any_eq_false]
    intro n hn
    rw [(hr n hn).2]; simp
  unfold State.laneIn
  simp only [hl, Task.seen_threads] at hg ⊢
  simp only [hg, hc, hp, hA, hB, hw live hl, he, hk, ht, Bool.not_true, Bool.or_false, Bool.false_eq_true, if_false]

/-! ## Scalar words -/

theorem KMap.get?_foldl_upd_of_not_mem {α : Type} (f : α → α) (ts : List Nat) (m : KMap α) (u : Nat) (h : u ∉ ts) :
    KMap.get? u (ts.foldl (fun m t => KMap.upd t f m) m) = KMap.get? u m := by
  induction ts generalizing m with
  | nil => rfl
  | cons t ts ih =>
    rw [List.foldl_cons, ih _ fun hm => h (List.mem_cons_of_mem _ hm)]
    have hne : u ≠ t := fun e => h (e ▸ List.mem_cons_self)
    exact KMap.get?_upd_ne hne f m

theorem KMap.get?_foldl_upd_of_mem {α : Type} (f : α → α) (ts : List Nat) (m : KMap α) (u : Nat) (h : u ∈ ts)
    (hn : ts.Nodup) : KMap.get? u (ts.foldl (fun m t => KMap.upd t f m) m) = (KMap.get? u m).map f := by
  induction ts generalizing m with
  | nil => cases h
  | cons t ts ih =>
    have hn' := List.nodup_cons.1 hn
    rw [List.foldl_cons]
    rcases List.mem_cons.1 h with rfl | h
    · rw [KMap.get?_foldl_upd_of_not_mem f ts _ u hn'.1, KMap.get?_upd_self]
    · rw [ih _ h hn'.2, KMap.get?_upd_ne fun e : u = t => hn'.1 (e ▸ h)]

theorem State.pass_thread (s : State) (ts : List Nat) (a t : Nat) (hn : ts.Nodup) :
    (s.pass ts).thread? a t =
      if a = s.issue.accn ∧ t ∈ ts then (s.thread? a t).map Thread.next else s.thread? a t := by
  unfold State.pass State.thread?
  rw [State.task?_updTask]
  by_cases ha : a = s.issue.accn
  · subst ha
    simp only [if_true, true_and]
    cases s.task? s.issue.accn with
    | none => simp
    | some tk =>
      simp only [Option.map_some, Option.bind_some]
      split
      · exact KMap.get?_foldl_upd_of_mem _ _ _ _ ‹_› hn
      · exact KMap.get?_foldl_upd_of_not_mem _ _ _ _ ‹_›
  · simp [ha]

theorem State.carried_nodup {s : State} (h : s.issue.lanes.Nodup) : s.carried.Nodup := h.filter _

/-- A scalar word is carried out once for the issue (R69). -/
theorem scalarWord_does {s : State} {f : Task → Task → Task} (hn : s.issue.lanes.Nodup) (hc : s.carried ≠ [])
    (hf : ∀ own tk, (f own tk).threads = tk.threads) : ∃ s', scalarWord f s = .next s' ∧ OncePerIssue s s' f := by
  have he : scalarWord f s = .next ((s.updTask s.issue.accn fun tk => f (s.reader tk) tk).pass s.carried) := by
    unfold scalarWord State.reader
    split
    · rename_i h; exact absurd h hc
    · rename_i h; simp only [h]
  refine ⟨_, he, ?_⟩
  have hcn := State.carried_nodup hn
  have hthr : ∀ a t, (s.updTask s.issue.accn fun tk => f (s.reader tk) tk).thread? a t = s.thread? a t := by
    intro a t
    unfold State.thread?
    rw [State.task?_updTask]
    split
    · subst_vars
      cases s.task? s.issue.accn with
      | none => rfl
      | some tk => simp [hf]
    · rfl
  refine ⟨fun tk h => ?_, fun t ht => ?_, fun a t h => ?_, fun a ha => ?_, rfl, fun _ => rfl⟩
  · simp [State.pass, h, Task.shell]
  · rw [State.pass_thread _ _ _ _ hcn, hthr]; simp [ht]
  · rw [State.pass_thread _ _ _ _ hcn, hthr]
    split
    · rename_i h'; exact absurd h'.2 (h h'.1)
    · rfl
  · simp [State.pass, State.task?_updTask, ha]

end Sys2Proof.Machine
end

