-- ==== Sys2Proof/Tests/Slice0.lean ====
section
/-!
SUPPORT. Tests: words of the encoding tables, ill-formed terms, one step of a few instructions, and for each statement with
hypotheses a state and operands that meet them.
-/

namespace Sys2Proof.Tests

set_option Elab.async false

open Sys2Proof Sys2Proof.Machine

/-! ## Small states -/

/-- A thread at the test word with the listed registers. -/
def thr (r : List (Nat × Word)) : Thread := r.foldl (fun th p => th.setReg p.1 p.2) (Thread.start loadAddr 0 0)

/-- The task of the test word with the listed scalar registers. -/
def tsk (x : List (Nat × Word)) : Task := x.foldl (fun tk p => tk.setS p.1 p.2) loadTask

/-- The words of a record slot: base, extent, a stride of 4 bytes, word 6. -/
def recordAt (k base extent : Nat) (w6 : Word) : List (Nat × Word) :=
  [(8 * k, BitVec.ofNat 32 base), (8 * k + 1, BitVec.ofNat 32 (base / 4294967296)), (8 * k + 2, BitVec.ofNat 32 extent),
    (8 * k + 3, 4), (8 * k + 6, w6)]

/-- The task with one thread. -/
def own (tk : Task) (th : Thread) : Task := { tk with threads := [(0, th)] }

/-- The module in service with one task of one thread, which stands alone at the test word. -/
def one (tk : Task) (th : Thread) : State :=
  { State.reset with
    regs := { Regs.reset with level := 2 }
    tasks := [(1, own tk th)], ctxs := [(0, { loadCtx with tvec := 0x60000 })]
    launches := [(0, ⟨0, false, false, false, 1, 0, none, [], false⟩)]
    cores := [(0, { Core.empty with squads := [(0, ⟨1, 0, true⟩)], nextSquad := 1 })], accn := 2
    issue := ⟨1, [0], dword loadAddr, false⟩ }

/-- Memory that lists the tables of R367 for one page of 1 GiB from 0, the peer and window entries of peer 1 at 0x6000 and
0x7000, word 1 (2) and word 3 (99) of a list at 0x30100, 8 at 0x3FFE4, and `more` after 0x3010C. -/
def pagesOf (more : Memory) : Memory :=
  [(0x1000, 1), (0x1001, 0x20), (0x2000, 1), (0x2001, 0x30), (0x3000, 0x1F), (0x6000, 28), (0x6006, 1), (0x6007, 0x80),
    (0x7009, 0x10), (0x700F, 0xF0), (0x30104, 2), (0x3010C, 99)] ++ more ++ [(0x3FFE4, 8)]

/-- The same with that memory, and peer 1 behind window 0. -/
def mapped (tk : Task) (th : Thread) : State :=
  { one tk th with mem := pagesOf [], ctxs := [(0, { loadCtx with tvec := 0x60000, peert := 0x6000 })] }

/-- Where one thread stands alone at the test word. -/
theorem alone_in (s : State) (tk : Task) (th : Thread) (g : BitVec 3) (regs : List Nat)
    (hi : s.issue = ⟨1, [0], dword loadAddr, false⟩) (ht : s.tasks = [(1, own tk th)])
    (h : (s.issue.carries th && th.pred g.toNat && regs.all fun n => tk.holdsReg n && !s.awaits 1 0 n) = true)
    (hk : th.kept = none := by rfl) (hb : th.base = none := by rfl) :
    Alone s g regs 0 (own tk th) th := by
  simp only [Bool.and_eq_true, List.all_eq_true, Bool.not_eq_true'] at h
  have hs : (own tk th).seen th = own tk th := by simp [Task.seen, Thread.scalars, own, hk, hb]
  refine ⟨by rw [hi], by rw [State.task?, ht, hi]; exact congrArg some hs, rfl, h.1.1, h.1.2, fun n hn => ⟨(h.2 n hn).1, ?_⟩⟩
  rw [hi]
  exact (h.2 n hn).2

/-- What a next state has in register `n` of the one thread. -/
def regOf (n : Nat) : Out → Option Word
  | .next s => (s.thread? 1 0).map fun th => th.reg n
  | _ => none

/-- What a next state has in scalar register `n` of the task. -/
def sregOf (n : Nat) : Out → Option Word
  | .next s => (s.task? 1).map fun tk => tk.sreg n
  | _ => none

/-- The one thread of a next state. -/
def threadOf : Out → Option Thread
  | .next s => s.thread? 1 0
  | _ => none

/-- The instruction that a step picks. -/
def picks (w : Nat) : Option Instr := (State.pick (State.reset.withFetchWord 32 w)).1

/-! ## Ill-formed terms and words -/

theorem test_reserved_codes :
    Instr.formOk (.icmp ⟨false, 0, 0, 0, 0, 0, 6⟩) = false ∧ Instr.formOk (.icmp ⟨false, 0, 0, 0, 0, 0, 5⟩) = true ∧
    Instr.formOk (.fcmp ⟨false, 0, 0, 0, 0, 0, 5⟩) = false ∧ Instr.formOk (.fadd ⟨false, 0, 0, 0, 0, false, 5⟩) = false ∧
    Instr.formOk (.fadd ⟨false, 0, 0, 0, 0, false, 4⟩) = true ∧ Instr.formOk (.fsqrt ⟨false, 0, 0, 0, 5⟩) = false ∧
    Instr.formOk (.fcvt ⟨false, 0, 0, 0, 29, 0⟩) = false ∧ Instr.formOk (.bcast ⟨false, 0, 0, 0, 0, 3⟩) = false ∧
    Instr.formOk (.rng ⟨false, 0, 0, 3⟩) = false ∧ Instr.formOk (.atom ⟨false, 0, 0, 0, 0, 0, 7⟩) = false ∧
    Instr.formOk (.red ⟨false, 0, 0, 0, 0, 0, 6⟩) = false ∧ Instr.formOk (.mfill ⟨false, 0, 0, 0, 3⟩) = false := by decide

theorem test_guards :
    Instr.guardOk (.sysrd ⟨false, 1, 0, 1, true, false⟩) = false ∧ Instr.guardOk (.sysrd ⟨false, 0, 0, 1, true, false⟩) = true ∧
    Instr.guardOk (.syswr ⟨false, 1, 0x0B, 0, true, false⟩) = false := by decide

theorem test_operands :
    Instr.operandOk (.ret 0 1) = false ∧ Instr.operandOk (.ret 0 62) = true ∧
    Instr.operandOk (.sysrd ⟨false, 0, 0, 0x13, false, false⟩) = false ∧
    Instr.operandOk (.sysrd ⟨false, 0, 0, 0x00, true, false⟩) = false ∧
    Instr.operandOk (.syswr ⟨false, 0, 0x07, 0, false, false⟩) = false ∧
    Instr.operandOk (.syswr ⟨true, 0, 0x08, 0, false, false⟩) = false ∧
    Instr.operandOk (.syswr ⟨false, 0, 0x08, 0, false, true⟩) = false ∧
    Instr.operandOk (.syswr ⟨false, 0, 0x0B, 0, false, false⟩) = false ∧
    Instr.operandOk (.icmp ⟨false, 0, 1, 1, 0, 0, 0⟩) = false ∧ Instr.operandOk (.icmp ⟨false, 0, 0, 0, 0, 0, 0⟩) = true ∧
    Instr.operandOk (.pand ⟨false, 0, 8, 0, 0⟩) = false ∧ Instr.operandOk (.sadd ⟨false, 160, 0, 0⟩) = false ∧
    Instr.operandOk (.sadd ⟨false, 159, 160, 0⟩) = false ∧ Instr.operandOk (.sadd ⟨false, 159, 159, 192⟩) = true ∧
    Instr.operandOk (.fcvt ⟨false, 0, 1, 0, 2, 0⟩) = false ∧ Instr.operandOk (.fcvt ⟨false, 0, 0, 1, 4, 0⟩) = false ∧
    Instr.operandOk (.bcast ⟨false, 0, 0, 0, 63, 2⟩) = false ∧ Instr.operandOk (.rng ⟨false, 0, 1, 2⟩) = false ∧
    Instr.operandOk (.cas2 ⟨false, 0, 2, 0, 0, 0⟩) = false ∧ Instr.operandOk (.mcas ⟨false, 0, 8, 2, 0, 0⟩) = false ∧
    Instr.operandOk (.enq ⟨false, 0, 0, 0, 20, 0⟩) = false ∧ Instr.operandOk (.enq ⟨false, 0, 0, 0, 19, 0⟩) = true ∧
    Instr.operandOk (.tsave 41 false) = false ∧ Instr.operandOk (.tsave 56 true) = true := by decide

theorem test_decode_refuses :
    (decode 0x00000007).toOption = none ∧ (decode 0x82000000).toOption = none ∧ (decode 0x00400000).toOption = none ∧
    (decode 0x78290003).toOption = none ∧ decodeTableWord 32 0x08420C20 = (decode 0x08420C20).toOption := by decide

/-! ## A step fetches and runs the word that is placed -/

theorem test_step_picks_iadd : picks 0x08410820 = some (.iadd ⟨false, 1, 1, 2, 2, false⟩) := by decide +kernel

theorem test_step_picks_smovi : (picks 0x25000001) = (decode 0x25000001).toOption := by decide +kernel

theorem test_step_picks_chain : picks 0x061E0000 = some (.rep ⟨3, 6, 0, 0, 0⟩) := by decide +kernel

/-! ## Words of the encoding tables -/

theorem test_decode_control1 :
    (decode 0x80000000).toOption = none ∧ (decode 0).toOption = some (.nop false) ∧
    (decode 0x00C00001).toOption = some (.exit 3) ∧
    (decode 0x00C04002).toOption = some (.ret 3 16) ∧
    (decode 0x80C00183).toOption = some (.brk true 3 24) ∧
    (decode 0x80281C34).toOption = some (.sysrd ⟨true, 0, 40, 7, true, true⟩) ∧
    (decode 0x00CE4035).toOption = some (.syswr ⟨false, 3, 14, 16, true, true⟩) ∧
    (decode 0x00C04006).toOption = some (.brx 3 16) ∧
    (decode 0x02EA5A5A).toOption = some (.bra 3 0x2a5a5a) ∧
    (decode 0x04EA5A5A).toOption = some (.call 3 0x2a5a5a) ∧
    (decode 0x072D6C00).toOption = some (.rep ⟨37, 5, 1, 2, 3⟩) := by decide

theorem test_decode_vector1 :
    (decode 0x88E84188).toOption = some (.iadd ⟨true, 3, 40, 16, 24, true⟩) ∧
    (decode 0x88E84189).toOption = some (.isub ⟨true, 3, 40, 16, 24, true⟩) ∧
    (decode 0x88E8418A).toOption = some (.imul ⟨true, 3, 40, 16, 24, true⟩) ∧
    (decode 0x88E8418B).toOption = some (.imulhS32 ⟨true, 3, 40, 16, 24, true⟩) ∧
    (decode 0x88E8418C).toOption = some (.imulhN32 ⟨true, 3, 40, 16, 24, true⟩) ∧
    (decode 0x88E8418D).toOption = some (.imad ⟨true, 3, 40, 16, 24, true⟩) ∧
    (decode 0x88E8418E).toOption = some (.lea ⟨true, 3, 40, 16, 24, true⟩) ∧
    (decode 0x8AE84189).toOption = some (.imin ⟨true, 3, 40, 16, 24, true, true⟩) ∧
    (decode 0x8AE8418B).toOption = some (.imax ⟨true, 3, 40, 16, 24, true, true⟩) ∧
    (decode 0x8AE84004).toOption = some (.iabs ⟨true, 3, 40, 16⟩) ∧
    (decode 0x8AE84005).toOption = some (.ineg ⟨true, 3, 40, 16⟩) ∧
    (decode 0x8AE84006).toOption = some (.mov ⟨true, 3, 40, 16⟩) ∧
    (decode 0x8CE842A5).toOption = some (.iaddImm ⟨true, 3, 40, 16, 0x2a5⟩) ∧
    (decode 0x8EE842A5).toOption = some (.andImm ⟨true, 3, 40, 16, 0x2a5⟩) := by decide

theorem test_decode_vector2 :
    (decode 0x90E842A5).toOption = some (.orImm ⟨true, 3, 40, 16, 0x2a5⟩) ∧
    (decode 0x92E842A5).toOption = some (.xorImm ⟨true, 3, 40, 16, 0x2a5⟩) ∧
    (decode 0x94E84013).toOption = some (.shlImm ⟨true, 3, 40, 16, 19⟩) ∧
    (decode 0x94E84113).toOption = some (.shrImm ⟨true, 3, 40, 16, 19⟩) ∧
    (decode 0x94E84213).toOption = some (.sarImm ⟨true, 3, 40, 16, 19⟩) ∧
    (decode 0x94E84313).toOption = some (.rotlImm ⟨true, 3, 40, 16, 19⟩) ∧
    (decode 0x96E802A5).toOption = some (.movi ⟨true, 3, 40, 0x2a5⟩) ∧
    (decode 0x98E84188).toOption = some (.and ⟨true, 3, 40, 16, 24, true⟩) ∧
    (decode 0x98E84189).toOption = some (.or ⟨true, 3, 40, 16, 24, true⟩) ∧
    (decode 0x98E8418A).toOption = some (.xor ⟨true, 3, 40, 16, 24, true⟩) ∧
    (decode 0x98E8418B).toOption = some (.andn ⟨true, 3, 40, 16, 24, true⟩) ∧
    (decode 0x98E84004).toOption = some (.not ⟨true, 3, 40, 16⟩) ∧
    (decode 0x98E84005).toOption = some (.popc ⟨true, 3, 40, 16⟩) ∧
    (decode 0x98E84006).toOption = some (.clz ⟨true, 3, 40, 16⟩) := by decide

theorem test_decode_vector3 :
    (decode 0x98E84007).toOption = some (.brev ⟨true, 3, 40, 16⟩) ∧
    (decode 0x9AE84188).toOption = some (.shl ⟨true, 3, 40, 16, 24, true⟩) ∧
    (decode 0x9AE84189).toOption = some (.shr ⟨true, 3, 40, 16, 24, true⟩) ∧
    (decode 0x9AE8418A).toOption = some (.sar ⟨true, 3, 40, 16, 24, true⟩) ∧
    (decode 0x9AE8418B).toOption = some (.rotl ⟨true, 3, 40, 16, 24, true⟩) ∧
    (decode 0x9AE8418D).toOption = some (.bfx ⟨true, 3, 40, 16, 24, true, true⟩) ∧
    (decode 0x9AE8418E).toOption = some (.bfi ⟨true, 3, 40, 16, 24, true⟩) ∧
    (decode 0x9CDD4184).toOption = some (.icmp ⟨true, 3, 3, 5, 16, 24, 4⟩) ∧
    (decode 0x9EE8418E).toOption = some (.sel ⟨true, 3, 40, 16, 24, true, 6⟩) ∧
    (decode 0xA0C51870).toOption = some (.pand ⟨true, 3, 5, 6, 7⟩) ∧
    (decode 0xA0C51871).toOption = some (.por ⟨true, 3, 5, 6, 7⟩) ∧
    (decode 0xA0C51872).toOption = some (.pxor ⟨true, 3, 5, 6, 7⟩) ∧
    (decode 0xA0C51803).toOption = some (.pnot ⟨true, 3, 5, 6⟩) ∧
    (decode 0xA0C51804).toOption = some (.pmov ⟨true, 3, 5, 6⟩) := by decide

theorem test_decode_scalar1 :
    (decode 0xA32D90C2).toOption = some (.sadd ⟨true, 150, 200, 97⟩) ∧
    (decode 0xA32D90C3).toOption = some (.ssub ⟨true, 150, 200, 97⟩) ∧
    (decode 0xA52D90C2).toOption = some (.smul ⟨true, 150, 200, 97⟩) ∧
    (decode 0xA52D90C3).toOption = some (.scmp ⟨true, 150, 200, 97⟩) ∧
    (decode 0xA72D90C2).toOption = some (.smin ⟨true, 150, 200, 97⟩) ∧
    (decode 0xA72D90C3).toOption = some (.smax ⟨true, 150, 200, 97⟩) ∧
    (decode 0xA92D90C2).toOption = some (.sand ⟨true, 150, 200, 97⟩) ∧
    (decode 0xA92D90C3).toOption = some (.sor ⟨true, 150, 200, 97⟩) ∧
    (decode 0xAB2D90C2).toOption = some (.sxor ⟨true, 150, 200, 97⟩) ∧
    (decode 0xAB2D90C3).toOption = some (.sshl ⟨true, 150, 200, 97⟩) ∧
    (decode 0xAD2D90C2).toOption = some (.sshr ⟨true, 150, 200, 97⟩) ∧
    (decode 0xAD2D90C3).toOption = some (.ssar ⟨true, 150, 200, 97⟩) ∧
    (decode 0xAF2D5A5A).toOption = some (.smovi ⟨true, 150, 0x15a5a⟩) ∧
    (decode 0xB12D5A5A).toOption = some (.smovh ⟨true, 150, 0x15a5a⟩) := by decide

theorem test_decode_float1 :
    (decode 0xB2E8418C).toOption = some (.fadd ⟨true, 3, 40, 16, 24, true, 4⟩) ∧
    (decode 0xB4E8418C).toOption = some (.fsub ⟨true, 3, 40, 16, 24, true, 4⟩) ∧
    (decode 0xB6E8418C).toOption = some (.fmul ⟨true, 3, 40, 16, 24, true, 4⟩) ∧
    (decode 0xB8E8418C).toOption = some (.ffma ⟨true, 3, 40, 16, 24, true, 4⟩) ∧
    (decode 0xBAE8418C).toOption = some (.fdiv ⟨true, 3, 40, 16, 24, true, 4⟩) ∧
    (decode 0xBCE84188).toOption = some (.fmin ⟨true, 3, 40, 16, 24, true⟩) ∧
    (decode 0xBCE84189).toOption = some (.fmax ⟨true, 3, 40, 16, 24, true⟩) ∧
    (decode 0xBEE84004).toOption = some (.fsqrt ⟨true, 3, 40, 16, 4⟩) ∧
    (decode 0xBEE84014).toOption = some (.frcp ⟨true, 3, 40, 16, 4⟩) ∧
    (decode 0xBEE84024).toOption = some (.frsq ⟨true, 3, 40, 16, 4⟩) ∧
    (decode 0xBEE84034).toOption = some (.frnd ⟨true, 3, 40, 16, 4⟩) ∧
    (decode 0xC0DD4184).toOption = some (.fcmp ⟨true, 3, 3, 5, 16, 24, 4⟩) ∧
    (decode 0xC2E84134).toOption = some (.fcvt ⟨true, 3, 40, 16, 19, 4⟩) ∧
    (decode 0xC4E84188).toOption = some (.badd2 ⟨true, 3, 40, 16, 24, true⟩) := by decide

theorem test_decode_float2 :
    (decode 0xC4E84189).toOption = some (.bmul2 ⟨true, 3, 40, 16, 24, true⟩) ∧
    (decode 0xC4E8418A).toOption = some (.bfma2 ⟨true, 3, 40, 16, 24, true⟩) ∧
    (decode 0xC6E84000).toOption = some (.fex2 ⟨true, 3, 40, 16⟩) ∧
    (decode 0xC6E84010).toOption = some (.flg2 ⟨true, 3, 40, 16⟩) ∧
    (decode 0xC6E84020).toOption = some (.fsin ⟨true, 3, 40, 16⟩) ∧
    (decode 0xC6E84030).toOption = some (.fcos ⟨true, 3, 40, 16⟩) := by decide

theorem test_decode_lanes1 :
    (decode 0xC8E84181).toOption = some (.perm ⟨true, 3, 40, 16, 24, 1⟩) ∧
    (decode 0xCAE84181).toOption = some (.bcast ⟨true, 3, 40, 16, 24, 1⟩) ∧
    (decode 0xCAE80185).toOption = some (.laneq ⟨true, 3, 40, 24, 1⟩) ∧
    (decode 0xCAE81989).toOption = some (.vote ⟨true, 3, 40, 6, 24, 1⟩) ∧
    (decode 0xCAE8000D).toOption = some (.rng ⟨true, 3, 40, 1⟩) ∧
    (decode 0xCCE84186).toOption = some (.lred ⟨true, 3, 40, 16, 24, 6⟩) ∧
    (decode 0xCCE8418E).toOption = some (.lscan ⟨true, 3, 40, 16, 24, 6⟩) := by decide

theorem test_decode_memory1 :
    (decode 0xCEE881B6).toOption = some (.ld ⟨true, 3, 40, 32, 13, 2, true, 2⟩) ∧
    (decode 0xD0E881B6).toOption = some (.st ⟨true, 3, 40, 32, 13, 2, true, 2⟩) ∧
    (decode 0xD2E881B4).toOption = some (.lds ⟨true, 3, 40, 32, 13, 2, true⟩) ∧
    (decode 0xD4E881B4).toOption = some (.sts ⟨true, 3, 40, 32, 13, 2, true⟩) ∧
    (decode 0xD6E881B6).toOption = some (.ldp ⟨true, 3, 40, 32, 13, 2, true, 2⟩) ∧
    (decode 0xD8E881B6).toOption = some (.stp ⟨true, 3, 40, 32, 13, 2, true, 2⟩) ∧
    (decode 0xDAE881B5).toOption = some (.atom ⟨true, 3, 40, 32, 13, 2, 5⟩) ∧
    (decode 0xDCE881B6).toOption = some (.cas ⟨true, 3, 40, 32, 13, 2, 6⟩) ∧
    (decode 0xDEE881B0).toOption = some (.cas2 ⟨true, 3, 40, 32, 13, 2⟩) ∧
    (decode 0xDEE881B1).toOption = some (.mcas ⟨true, 3, 40, 32, 13, 2⟩) ∧
    (decode 0xE0E881B5).toOption = some (.red ⟨true, 3, 40, 32, 13, 2, 5⟩) ∧
    (decode 0xE2E881B1).toOption = some (.ldsum ⟨true, 3, 40, 32, 13, 2, true⟩) ∧
    (decode 0xE4E881B0).toOption = some (.enq ⟨true, 3, 40, 32, 13, 2⟩) ∧
    (decode 0xE4E881B1).toOption = some (.chase ⟨true, 3, 40, 32, 13, 2⟩) := by decide

theorem test_decode_memory2 :
    (decode 0xE6E881B0).toOption = some (.cpy ⟨true, 3, 40, 32, 13, 2⟩) ∧
    (decode 0xE6E881B1).toOption = some (.gath ⟨true, 3, 40, 32, 13, 2⟩) ∧
    (decode 0xE6E881B2).toOption = some (.scat ⟨true, 3, 40, 32, 13, 2⟩) ∧
    (decode 0xE6E90043).toOption = some (.waitc ⟨true, 3, 41, 2⟩) ∧
    (decode 0xE8C50000).toOption = some (.fence ⟨true, 3, 5⟩) ∧
    (decode 0xE8C081A1).toOption = some (.flush ⟨true, 3, 32, 13⟩) ∧
    (decode 0xE8C081A2).toOption = some (.invl ⟨true, 3, 32, 13⟩) ∧
    (decode 0xE8C181A3).toOption = some (.pf ⟨true, 3, true, 32, 13⟩) ∧
    (decode 0xE8E881AC).toOption = some (.waitln ⟨true, 3, 40, 32, 13, true⟩) := by decide

theorem test_decode_matrix1 :
    (decode 0xEB2D72E4).toOption = some (.mma ⟨true, 9, 6, 11, 37, 50⟩) ∧
    (decode 0xED2D6064).toOption = some (.mxp ⟨true, 9, 6, 11, 50⟩) ∧
    (decode 0xED2D72E5).toOption = some (.mrp ⟨true, 9, 6, 11, 37, 50⟩) ∧
    (decode 0xEF2D6064).toOption = some (.mrr ⟨true, 9, 6, 11, 50⟩) ∧
    (decode 0xEF2D6065).toOption = some (.madd ⟨true, 9, 6, 11, 50⟩) ∧
    (decode 0xF12D72E4).toOption = some (.mld ⟨true, 9, 6, 11, 37, 50⟩) ∧
    (decode 0xF12D72E5).toOption = some (.mst ⟨true, 9, 6, 11, 37, 50⟩) ∧
    (decode 0xF2094180).toOption = some (.mbind ⟨true, 9, 16, 24⟩) ∧
    (decode 0xF2062ED1).toOption = some (.mfill ⟨true, 6, 11, 2, 13⟩) ∧
    (decode 0xF20B4002).toOption = some (.optab ⟨true, 11, 16⟩) ∧
    (decode 0xF20D4183).toOption = some (.cbld ⟨true, 13, 16, 24⟩) ∧
    (decode 0xF20D4004).toOption = some (.scld ⟨true, 13, 16⟩) ∧
    (decode 0xF2281815).toOption = some (.mqry ⟨true, 40, 6, true⟩) := by decide

theorem test_decode_tasks1 :
    (decode 0x74284180).toOption = some (.spawn ⟨40, 16, 24⟩) ∧
    (decode 0x74000001).toOption = some (.reform) ∧
    (decode 0x74000002).toOption = some (.yield) ∧
    (decode 0x74050183).toOption = some (.bar ⟨5, 24⟩) ∧
    (decode 0x74000184).toOption = some (.bara 24) ∧
    (decode 0x74050185).toOption = some (.barw ⟨5, 24⟩) ∧
    (decode 0x74284006).toOption = some (.waitev ⟨40, 16⟩) ∧
    (decode 0x74284187).toOption = some (.bound ⟨40, 16, 24⟩) ∧
    (decode 0x74284188).toOption = some (.incset ⟨40, 16, 24⟩) ∧
    (decode 0x74280189).toOption = some (.incget ⟨40, 24⟩) ∧
    (decode 0x7428400A).toOption = some (.xacq ⟨40, 16⟩) ∧
    (decode 0x7428400B).toOption = some (.xrel ⟨40, 16⟩) ∧
    (decode 0x7400000C).toOption = some (.commit) := by decide

theorem test_decode_curator1 :
    (decode 0x76284180).toOption = some (.lkreq ⟨40, 16, 24⟩) ∧
    (decode 0x76284181).toOption = some (.lktry ⟨40, 16, 24⟩) ∧
    (decode 0x76284182).toOption = some (.lkupg ⟨40, 16, 24⟩) ∧
    (decode 0x76284183).toOption = some (.lkrel ⟨40, 16, 24⟩) ∧
    (decode 0x76280004).toOption = some (.lkrela 40) ∧
    (decode 0x76284185).toOption = some (.lkqry ⟨40, 16, 24⟩) ∧
    (decode 0x76284186).toOption = some (.cmtx ⟨40, 16, 24⟩) := by decide

theorem test_decode_traps1 :
    (decode 0x78000180).toOption = some (.trap 24) ∧
    (decode 0x78000001).toOption = some (.eret) ∧
    (decode 0x78010182).toOption = some (.abort true 24) ∧
    (decode 0x78280013).toOption = some (.tsave 40 true) := by decide

/-! ## One step on a small state

The values are worked out by hand from the rules named. -/

theorem test_integer :
    regOf 1 (exec (.iadd ⟨false, 0, 1, 2, 3, false⟩) (one (tsk []) (thr [(2, 0xFFFFFFFF), (3, 1)]))) = some 0 ∧
    regOf 1 (exec (.isub ⟨false, 0, 1, 2, 3, true⟩) (one (tsk [(3, 1)]) (thr [(2, 0)]))) = some 0xFFFFFFFF ∧
    regOf 1 (exec (.imulhS32 ⟨false, 0, 1, 2, 2, false⟩) (one (tsk []) (thr [(2, 0x80000000)]))) = some 0x40000000 ∧
    regOf 1 (exec (.imulhN32 ⟨false, 0, 1, 2, 2, false⟩) (one (tsk []) (thr [(2, 0xFFFFFFFF)]))) = some 0xFFFFFFFE ∧
    regOf 1 (exec (.imad ⟨false, 0, 1, 2, 3, false⟩) (one (tsk []) (thr [(1, 5), (2, 3), (3, 4)]))) = some 17 ∧
    regOf 1 (exec (.lea ⟨false, 0, 1, 2, 3, false⟩) (one (tsk []) (thr [(2, 100), (3, 3)]))) = some 112 ∧
    regOf 1 (exec (.imin ⟨false, 0, 1, 2, 3, false, true⟩) (one (tsk []) (thr [(2, 0xFFFFFFFF), (3, 1)]))) = some 1 ∧
    regOf 1 (exec (.imin ⟨false, 0, 1, 2, 3, false, false⟩) (one (tsk []) (thr [(2, 0xFFFFFFFF), (3, 1)]))) =
      some 0xFFFFFFFF := by decide +kernel

theorem test_immediate :
    regOf 1 (exec (.iaddImm ⟨false, 0, 1, 2, 0x3FF⟩) (one (tsk []) (thr [(2, 5)]))) = some 4 ∧
    regOf 1 (exec (.xorImm ⟨false, 0, 1, 2, 0x200⟩) (one (tsk []) (thr [(2, 0)]))) = some 0xFFFFFE00 ∧
    regOf 1 (exec (.sarImm ⟨false, 0, 1, 2, 31⟩) (one (tsk []) (thr [(2, 0x80000000)]))) = some 0xFFFFFFFF ∧
    regOf 1 (exec (.movi ⟨false, 0, 1, 0x1FF⟩) (one (tsk []) (thr []))) = some 511 := by decide +kernel

theorem test_logic_and_shift :
    regOf 1 (exec (.andn ⟨false, 0, 1, 2, 3, false⟩) (one (tsk []) (thr [(2, 0xFF), (3, 0x0F)]))) = some 0xF0 ∧
    regOf 1 (exec (.popc ⟨false, 0, 1, 2⟩) (one (tsk []) (thr [(2, 0xF0F0)]))) = some 8 ∧
    regOf 1 (exec (.clz ⟨false, 0, 1, 2⟩) (one (tsk []) (thr [(2, 0)]))) = some 32 ∧
    regOf 1 (exec (.clz ⟨false, 0, 1, 2⟩) (one (tsk []) (thr [(2, 1)]))) = some 31 ∧
    regOf 1 (exec (.brev ⟨false, 0, 1, 2⟩) (one (tsk []) (thr [(2, 1)]))) = some 0x80000000 ∧
    regOf 1 (exec (.shl ⟨false, 0, 1, 2, 3, false⟩) (one (tsk []) (thr [(2, 1), (3, 32)]))) = some 0 ∧
    regOf 1 (exec (.sar ⟨false, 0, 1, 2, 3, false⟩) (one (tsk []) (thr [(2, 0x80000000), (3, 40)]))) = some 0xFFFFFFFF ∧
    regOf 1 (exec (.rotl ⟨false, 0, 1, 2, 3, false⟩) (one (tsk []) (thr [(2, 0x80000000), (3, 33)]))) = some 1 := by decide +kernel

/-- R75: position 28 and width 8 are cut at bit 31; position 4 and width 4. -/
theorem test_fields :
    regOf 1 (exec (.bfx ⟨false, 0, 1, 2, 3, false, false⟩) (one (tsk []) (thr [(2, 0xA0000000), (3, 252)]))) = some 0xA ∧
    regOf 1 (exec (.bfx ⟨false, 0, 1, 2, 3, false, true⟩) (one (tsk []) (thr [(2, 0xA0000000), (3, 252)]))) = some 0xFFFFFFFA ∧
    regOf 1 (exec (.bfi ⟨false, 0, 1, 2, 3, false⟩) (one (tsk []) (thr [(1, 0xFFFFFFFF), (3, 100)]))) = some 0xFFFFFF0F := by
  decide +kernel

theorem test_predicates :
    ((threadOf (exec (.icmp ⟨false, 0, 2, 1, 3, 4, 2⟩) (one (tsk []) (thr [(3, 0xFFFFFFFF), (4, 1)])))).map Thread.p) = some 3 ∧
    ((threadOf (exec (.icmp ⟨false, 0, 2, 1, 3, 4, 4⟩) (one (tsk []) (thr [(3, 0xFFFFFFFF), (4, 1)])))).map Thread.p) = some 5 ∧
    ((threadOf (exec (.pnot ⟨false, 0, 0, 0⟩) (one (tsk []) (thr [])))).map Thread.p) = some 1 ∧
    regOf 1 (exec (.sel ⟨false, 0, 1, 2, 3, false, 1⟩) (one (tsk []) (thr [(2, 7), (3, 9)]))) = some 9 := by decide +kernel

theorem test_scalar :
    sregOf 1 (exec (.ssub ⟨false, 1, 192, 193⟩) (one (tsk []) (thr []))) = some 0xFFFFFFFF ∧
    sregOf 1 (exec (.scmp ⟨false, 1, 2, 193⟩) (one (tsk [(2, 0x80000000)]) (thr []))) = some 0xFFFFFFFF ∧
    sregOf 1 (exec (.smovi ⟨false, 1, 0x1FFFF⟩) (one (tsk []) (thr []))) = some 0xFFFFFFFF ∧
    sregOf 1 (exec (.smovh ⟨false, 1, 1⟩) (one (tsk [(1, 0xFFFFFFFF)]) (thr []))) = some 0x0000FFFF := by decide +kernel

/-- R183, R198, R199: a tie goes to the even neighbour and is inexact; one over zero raises divide-by-zero. -/
theorem test_float :
    regOf 1 (exec (.fadd ⟨false, 0, 1, 2, 3, false, 0⟩) (one (tsk []) (thr [(2, 0x3F800000), (3, 0x33800000)]))) =
      some 0x3F800000 ∧
    ((threadOf (exec (.fadd ⟨false, 0, 1, 2, 3, false, 4⟩) (one (tsk []) (thr [(2, 0x3F800000), (3, 0x33800000)])))).map
      fun th => (th.reg 1, th.fpflags)) = some (0x3F800001, 16) ∧
    ((threadOf (exec (.fdiv ⟨false, 0, 1, 2, 3, false, 0⟩) (one (tsk []) (thr [(2, 0x3F800000), (3, 0x80000000)])))).map
      fun th => (th.reg 1, th.fpflags)) = some (0xFF800000, 2) ∧
    regOf 1 (exec (.fmin ⟨false, 0, 1, 2, 3, false⟩) (one (tsk []) (thr [(2, 0), (3, 0x80000000)]))) = some 0x80000000 ∧
    regOf 1 (exec (.badd2 ⟨false, 0, 1, 2, 2, false⟩) (one (tsk []) (thr [(2, 0x3F803F80)]))) = some 0x40004000 := by decide +kernel

/-- R203, its worked example: −2.5 to S32 in RD and to FA40; R189: a NaN to N32. -/
theorem test_conversion :
    ((threadOf (exec (.fcvt ⟨false, 0, 2, 4, 6, 3⟩) (one (tsk []) (thr [(4, 0xC0200000)])))).map
      fun th => (th.reg 2, th.fpflags)) = some (0xFFFFFFFD, 16) ∧
    ((threadOf (exec (.fcvt ⟨false, 0, 6, 4, 2, 0⟩) (one (tsk []) (thr [(4, 0xC0200000)])))).map
      fun th => (th.reg 6, th.reg 7, th.fpflags)) = some (0x10000000, 0xC0, 0) ∧
    ((threadOf (exec (.fcvt ⟨false, 0, 1, 2, 7, 0⟩) (one (tsk []) (thr [(2, 0x7FC00000)])))).map
      fun th => (th.reg 1, th.fpflags)) = some (0, 1) := by decide +kernel

/-- R219, with the draws of counters 1 and 2 under key 0 worked out outside Lean. -/
theorem test_draw :
    ((threadOf (exec (.rng ⟨false, 0, 2, 2⟩) (one (tsk []) { thr [] with rngctr := 1 }))).map
      fun th => (th.reg 2, th.reg 3, th.rngctr)) = some (0xa40bdc19, 0x99e72cff, 3) := by decide +kernel

theorem test_special :
    regOf 1 (exec (.sysrd ⟨false, 0, 1, 3, false, false⟩) (one (tsk []) (thr []))) = some 1 ∧
    sregOf 1 (exec (.sysrd ⟨false, 0, 1, 1, true, false⟩) (one (tsk []) (thr []))) = some 1 ∧
    ((threadOf (exec (.syswr ⟨false, 0, 0x08, 2, false, false⟩) (one (tsk []) (thr [(2, 7)])))).map Thread.fpmode) = some 7 ∧
    ((threadOf (exec (.syswr ⟨false, 0, 0x08, 2, false, false⟩) (one (tsk []) (thr [(2, 8)])))).map
      fun th => (th.fpmode, th.tcause)) = some (0, 4) := by decide +kernel

/-- R81, R82: one packet back; the word after the packet of a call; an address that is no packet's. -/
theorem test_transfer :
    ((threadOf (exec (.bra 0 (-1)) (one (tsk []) (thr [])))).map Thread.pc) = some 0x2FFF4 ∧
    ((threadOf (exec (.call 0 2) (one (tsk []) (thr [])))).map fun th => (th.pc, th.reg 30)) = some (0x30018, 0x3000C) ∧
    ((threadOf (exec (.ret 0 2) (one (tsk []) (thr [(2, 0x30001)])))).map fun th => (th.pc, th.tcause, th.taddr)) =
      some (0x60000, 1, 0x30001) := by decide +kernel

theorem test_traps :
    ((threadOf (exec (.trap 5) (one (tsk []) (thr [])))).map fun th => (th.pc, th.tcause, th.tepc, th.tinfo, th.h)) =
      some (0x60000, 0x12, 0x30004, 5, true) ∧
    ((threadOf (exec .eret (one (tsk []) { thr [] with h := true, tepc := 0x40004 }))).map fun th => (th.pc, th.h)) =
      some (0x40004, false) ∧
    ((threadOf (exec .eret (one (tsk []) (thr [])))).map fun th => (th.pc, th.tcause)) = some (0x60000, 1) ∧
    ((threadOf (exec (.exit 0) (one (tsk []) (thr [])))).map Thread.cond) = some .exited ∧
    ((threadOf (exec (.brk false 0 7) (one (tsk []) (thr [])))).map fun th => (th.halted, th.tcause, th.tinfo)) =
      some (true, 0x11, 7) := by decide +kernel

/-- A scratchpad record of 16 N32 elements at offset 0 in slot 1, one page held. -/
def spadTask : Task :=
  { tsk (recordAt 1 0 16 73) with pages := 1, spad := [(4, 0x78), (5, 0x56), (6, 0x34), (7, 0x12)] }

theorem test_scratchpad :
    regOf 1 (exec (.lds ⟨false, 0, 1, 2, 1, 0, false⟩) (one spadTask (thr [(2, 1)]))) = some 0x12345678 ∧
    ((threadOf (exec (.lds ⟨false, 0, 1, 2, 1, 0, false⟩) (one spadTask (thr [(2, 16)])))).map
      fun th => (th.pc, th.tcause, th.taddr)) = some (0x60000, 7, 16) := by decide +kernel

theorem test_atomic :
    regOf 1 (exec (.cas ⟨false, 0, 2, 4, 1, 0, 1⟩) (one spadTask (thr [(2, 0x12345678), (3, 9), (4, 1)]))) = some 0 ∧
    ((threadOf (exec (.cas ⟨false, 0, 2, 4, 1, 0, 1⟩) (one spadTask (thr [(2, 0x12345678), (3, 9), (4, 1)])))).map
      fun th => (th.reg 2, th.pred 1)) = some (0x12345678, true) ∧
    (match exec (.atom ⟨false, 0, 2, 4, 1, 0, 0⟩) (one spadTask (thr [(2, 0x11), (4, 1)])) with
      | .next s => (s.task? 1).map fun tk => (tk.spadByte 4, tk.spadByte 5)
      | _ => none) = some (0x89, 0x56) := by decide +kernel

/-! ## The hypotheses of the statements are met

For each statement with hypotheses, a state and operands that meet them; where it has several clauses, for each of them. -/

/-- The state of most of what follows. -/
def plain : State := one (tsk []) (thr [])
/-- The same with a second thread at the word, whose guard P1 fails where that of thread 0 holds. -/
def two : State :=
  { one (tsk []) (thr []) with
    tasks := [(1, { tsk [] with threads := [(0, (thr []).setPred 1 true), (1, thr [])] })], issue := ⟨1, [0, 1], dword loadAddr, false⟩ }

theorem test_hyps_IntegerWords :
    Clear plain 0 (binRegs 31 0 31 false) ∧ Clear plain 0 (binRegs 31 0 63 true) ∧ Clear two 1 [0, 31] := by decide +kernel

theorem test_hyps_ImmediateWords : Clear plain 0 [31, 0] ∧ Clear two 1 [31, 0] ∧ Clear plain 0 [0] := by decide +kernel

theorem test_hyps_LogicWords :
    Clear two 1 (binRegs 31 0 63 true) ∧ Clear plain 0 [31, 0] ∧
    (fMaj 0x18000000 = 0x0C ∧ fX 0x18000000 % 8 = 0) ∧ fX 0x18000009 % 8 = 1 ∧ fX 0x18000002 % 8 = 2 ∧ fX 0x18000003 % 8 = 3 ∧
    (fMaj 0x1800000C = 0x0C ∧ 4 ≤ fX 0x1800000C % 8 ∧ 8 ≤ fX 0x1800000C) ∧
    (fMaj 0x18000014 = 0x0C ∧ 4 ≤ fX 0x18000014 % 8 ∧ fB 0x18000014 ≠ 0) ∧
    (fMaj 0x18000004 = 0x0C ∧ fB 0x18000004 = 0 ∧ fX 0x18000004 = 4) ∧ fX 0x18000005 = 5 ∧ fX 0x18000006 = 6 ∧
    (fX 0x18000007 = 7 ∧ fMaj 0x18000007 = 0x0C ∧ fB 0x18000007 = 0) := by decide +kernel

theorem test_hyps_ShiftWords : Clear two 1 (binRegs 31 0 31 false) := by decide +kernel

theorem test_hyps_FieldWords :
    Clear two 1 (binRegs 31 0 31 false) ∧ (fMaj 0x1A000004 = 0x0D ∧ fX 0x1A000004 % 8 = 4) ∧ fX 0x1A00000D % 8 = 5 ∧
    (fMaj 0x1A00000E = 0x0D ∧ fX 0x1A00000E % 8 = 6) := by decide +kernel

theorem test_hyps_PredicateWords :
    ((5 : BitVec 3).toNat ≤ 5 ∧ Clear two 1 [0, 31]) ∧ Clear two 1 (binRegs 31 0 31 false) ∧ Clear two 1 [] := by decide +kernel

theorem test_hyps_ScalarWords : plain.issue.lanes.Nodup ∧ plain.carried ≠ [] := by decide +kernel

theorem test_hyps_RegisterFrame :
    ((31 : Nat) ≠ (0 : BitVec 6).toNat) ∧ (thr []).rep = none := by decide +kernel

theorem test_hyps_ChunkNotHeld :
    two.task? two.issue.accn = some { tsk [] with threads := [(0, (thr []).setPred 1 true), (1, thr [])] } ∧
    (two.issue.lanes.Nodup ∧ two.tvec (tsk []) ≠ 0 ∧
      (∀ t ∈ two.carried, ((two.thread? 1 t).map fun th => th.h) = some false) ∧ 32 + 8 * (tsk []).chunks ≤ (32 : BitVec 6).toNat ∧
      32 + 8 * (tsk []).chunks ≤ (63 : BitVec 6).toNat ∧ (4 : BitVec 3).toNat ≤ 4) :=
  ⟨rfl, by decide +kernel⟩

theorem test_hyps_FloatWords :
    ((4 : BitVec 3).toNat ≤ 4 ∧ Clear two 1 (binRegs 31 0 31 false)) ∧ ((0 : BitVec 3).toNat ≤ 4 ∧ Clear two 1 [31, 0]) := by
  decide +kernel

theorem test_hyps_FloatSpecials :
    f32.isNan 0x7F800001 = true ∧ f32.isSig 0x7F800001 = true ∧ f32.isNan 0xFFFFFFFF = true ∧ (0x7F7FFFFF : Nat) < 0x7F800000 ∧
    (⟨2, false⟩ : FMode).flush = false := by decide +kernel

/-- Zero and infinity, −1 times infinity, an infinite addend; 1.5, which FRND makes 2. -/
theorem test_hyps_FloatSpecials_infinite :
    (f32.read ⟨0, false⟩ 0 = .fin false 0 (-149) ∧ f32.read ⟨0, false⟩ 0x7F800000 = .inf false ∧
      f32.read ⟨0, false⟩ 0xFF800000 = .inf true ∧ f32.read ⟨0, false⟩ 0xBF800000 = .fin true 8388608 (-23) ∧
      mulVal (.inf false) (.fin true 8388608 (-23)) = .inf true ∧ (8388608 : Nat) ≠ 0) ∧
    f32.read ⟨0, false⟩ 0x3FC00000 = .fin false 12582912 (-23) ∧
    RoundsTo 0 false ((12582912 : Nat) * (2 : ℝ) ^ (-23 : Int)) 2 := by
  refine ⟨by decide +kernel, by decide +kernel, ?_⟩
  simp only [RoundsTo, NearestTo]
  norm_num [abs_of_neg]

theorem test_hyps_FloatSpecials_division :
    (0 < (0x00800000 : Nat) ∧ (0x00800000 : Nat) < 0x7F800000 ∧ (0x00800000 : Nat) ≤ 0x00800000) ∧
    (0 < (1 : Nat) ∧ (1 : Nat) < 0x7F800000 ∧ (⟨0, false⟩ : FMode).flush = false) ∧
    f32.isNan 0x7F800001 = true ∧ f32.isNan 0x7FC00000 = true := by decide +kernel

theorem test_hyps_MinMaxWords :
    Clear two 1 (binRegs 31 0 31 false) ∧ (fMaj 0x3C000008 = 0x1E ∧ fX 0x3C000008 % 8 = 0) ∧ fX 0x3C000001 % 8 = 1 ∧
    (fMaj 0x3C000002 = 0x1E ∧ 2 ≤ fX 0x3C000002 % 8) := by decide +kernel

theorem test_hyps_FloatCompare :
    ((4 : BitVec 3).toNat ≤ 4 ∧ Clear two 1 [0, 31]) ∧ (fMaj 0x40000005 = 0x20 ∧ 5 ≤ fX 0x40000005) ∧
    (fMaj 0x40090004 = 0x20 ∧ fX 0x40090004 ≤ 4 ∧ (0x40090004 : Word).toNat / 65536 % 8 = (0x40090004 : Word).toNat / 524288 % 8 ∧
      (0x40090004 : Word).toNat / 65536 % 8 ≠ 0) ∧
    (fMaj 0x400A0000 = 0x20 ∧ (0x400A0000 : Word).toNat / 65536 % 8 ≠ (0x400A0000 : Word).toNat / 524288 % 8) ∧
    (fMaj 0x40000000 = 0x20 ∧ (0x40000000 : Word).toNat / 65536 % 8 = 0) := by decide +kernel

theorem test_hyps_ConversionWord :
    ((27 : BitVec 6).toNat ≤ 28 ∧ (4 : BitVec 3).toNat ≤ 4 ∧ Clear two 1 (cvtRegs 27 30 30)) ∧
    ((28 : BitVec 6).toNat ≤ 28 ∧ Clear two 1 (cvtRegs 28 30 31)) ∧
    (fMaj 0x420001D0 = 0x21 ∧ fX 0x420001D0 ≤ 4 ∧ 29 ≤ (fB 0x420001D0).toNat) ∧
    (fMaj 0x42010020 = 0x21 ∧ (fB 0x42010020).toNat = 2 ∧ (fD 0x42010020).toNat % 2 = 1) ∧
    (fMaj 0x420201C4 = 0x21 ∧ fX 0x420201C4 ≤ 4 ∧ (fB 0x420201C4).toNat = 28 ∧ (fD 0x420201C4).toNat % 2 = 0) := by decide +kernel

theorem test_hyps_IntegerConversion :
    (-2147483648 : Int) ≤ 0 ∧ (0 : Int) ≤ 2147483647 ∧ (0 : Int) ≤ 0 ∧ (0 : Int) ≤ 4294967295 := by decide

theorem test_hyps_RoundingModes :
    (3 : Nat) ≤ 3 ∧ 8 % 2 ^ 3 = 0 ∧ 9 % 2 ^ 3 ≠ 0 ∧ 2 * (9 % 2 ^ 3) < 2 ^ 3 ∧ 2 ^ 3 < 2 * (13 % 2 ^ 3) ∧ 2 * (12 % 2 ^ 3) = 2 ^ 3 := by
  decide

/-- 1, which is read as 2^23 · 2^(−23), and 0. -/
theorem test_hyps_FloatRounding :
    f32.read ⟨0, true⟩ 0x3F800000 = .fin false 8388608 (-23) ∧ f32.read ⟨2, true⟩ 1 = .fin false 0 (-149) ∧
    (let x : ℝ := 8388608 * (2 : ℝ) ^ (-23 : Int);
      x = 1 ∧ x + x ≠ 0 ∧ x - x = 0 ∧ x * x ≠ 0 ∧ x * x + x ≠ 0 ∧ (0 : ℝ) * x = 0 ∧ x * x + -x = 0 ∧ 0 < x) := by
  refine ⟨by decide +kernel, by decide +kernel, ?_⟩
  norm_num

/-- The cases of `Rounds` for F32: 1; the overflow 2^128; 2^(−127), which is tiny. -/
theorem test_hyps_Rounds :
    ((2 : ℝ) ^ (0 : Int) ≤ |1| ∧ |(1 : ℝ)| < (2 : ℝ) ^ (0 + 1 : Int) ∧
      RoundsTo 0 false (|1| / (2 : ℝ) ^ (0 - 23 : Int)) 8388608) ∧
    ((2 ^ 24 - 1 : ℝ) * (2 : ℝ) ^ (104 : Int) < 8388608 * (2 : ℝ) ^ (128 - 23 : Int) ∧
      RoundsTo 1 false ((2 : ℝ) ^ (128 : Int) / (2 : ℝ) ^ (128 - 23 : Int)) 8388608) ∧
    (8388608 * (2 : ℝ) ^ (-127 - 23 : Int) < (2 : ℝ) ^ (-126 : Int) ∧
      RoundsTo 2 true ((2 : ℝ) ^ (-127 : Int) / (2 : ℝ) ^ (-127 - 23 : Int)) 8388608 ∧
      RoundsTo 2 true ((2 : ℝ) ^ (-127 : Int) / (2 : ℝ) ^ (-126 - 23 : Int)) 4194304) := by
  simp only [RoundsTo, NearestTo]
  norm_num

/-- 1, −1, 128, −151, 2^(−17), and ±0. -/
theorem test_hyps_SpecialFunctions :
    f32.read ⟨0, false⟩ 0x3F800000 = .fin false 8388608 (-23) ∧ f32.read ⟨0, false⟩ 0xBF800000 = .fin true 8388608 (-23) ∧
    f32.read ⟨0, false⟩ 0x43000000 = .fin false 8388608 (-16) ∧ f32.read ⟨0, false⟩ 0xC3170000 = .fin true 9895936 (-16) ∧
    f32.read ⟨0, false⟩ 0x37000000 = .fin false 8388608 (-40) ∧ f32.read ⟨0, false⟩ 0x80000000 = .fin true 0 (-149) ∧
    f32.read ⟨0, false⟩ 0x7F800001 = .nan true ∧ f32.read ⟨0, false⟩ 0xFF800000 = .inf true ∧
    (128 ≤ (8388608 : ℝ) * (2 : ℝ) ^ (-16 : Int) ∧ -(9895936 : ℝ) * (2 : ℝ) ^ (-16 : Int) < -150 ∧
      |(8388608 : ℝ) * (2 : ℝ) ^ (-40 : Int)| < 1 / 65536) ∧
    (let x : ℝ := 8388608 * (2 : ℝ) ^ (-23 : Int);
      -150 ≤ x ∧ x < 128 ∧ NearestTo (x * 2 ^ 24) 16777216 ∧ x = (8388608 : Nat) * (2 : ℝ) ^ ((0 : Int) - 23) ∧
      1 / 65536 ≤ |x| ∧ NearestTo (x * 2 ^ 32) 4294967296) := by
  refine ⟨?_, ?_, ?_, ?_, ?_, ?_, ?_, ?_, by norm_num, ?_⟩
  case refine_9 =>
    simp only [NearestTo]
    norm_num
  all_goals decide +kernel

theorem test_hyps_PairWords : Clear two 1 (binRegs 31 0 31 false) := by decide +kernel

theorem test_hyps_SpecialRegisters :
    ((0x12 : BitVec 6).toNat ≤ 0x12 ∧ Clear two 1 [31]) ∧
    ((0x12 : BitVec 6).toNat ≤ 0x12 ∧ sysThreadOwned 0x12 = false ∧ two.issue.lanes.Nodup ∧ two.carried ≠ []) := by decide +kernel

/-- The largest value that each register takes, and the least that it refuses (R28). -/
theorem test_hyps_SpecialRegisters_written :
    (Alone (one (tsk []) (thr [(2, 8)])) 0 [2] 0 (own (tsk []) (thr [(2, 8)])) (thr [(2, 8)]) ∧
      Alone (one (tsk []) (thr [(2, 32)])) 0 [2] 0 (own (tsk []) (thr [(2, 32)])) (thr [(2, 32)])) ∧
    ((thr [(2, 8)]).rep = none ∧ 8 ≤ ((thr [(2, 8)]).reg 2).toNat ∧ 32 ≤ ((thr [(2, 32)]).reg 2).toNat ∧
      plain.tvec (tsk []) ≠ 0 ∧ (thr [(2, 8)]).h = false) ∧
    (sysWritable 0x08 = true ∧ Clear two 1 [2] ∧ ¬ 8 ≤ (7 : Word).toNat ∧ ¬ 32 ≤ (31 : Word).toNat) ∧
    (sysWritable 0x11 = true ∧ sysWide 0x10 = true ∧ Clear two 1 []) ∧
    (∀ t ∈ plain.carried, ((plain.thread? 1 t).map fun th => th.reg 2) = some 0) ∧
    (plain.issue.lanes.Nodup ∧ plain.carried ≠ []) :=
  ⟨⟨alone_in _ _ _ _ _ rfl rfl (by decide +kernel), alone_in _ _ _ _ _ rfl rfl (by decide +kernel)⟩, by decide +kernel⟩

theorem test_hyps_RandomDraw : (2 : BitVec 2) ≠ 3 ∧ Clear two 1 [30, 31] ∧ (0 : BitVec 2) ≠ 3 ∧ Clear two 1 [31] := by decide +kernel

/-- V2 and V3 hold a packet address, and the address after it. -/
theorem test_hyps_JumpWords :
    (two.issue.lanes.Nodup ∧ Clear two 1 [30, 31]) ∧
    Alone (one (tsk []) (thr [(2, 13)])) 0 [2, 3] 0 (own (tsk []) (thr [(2, 13)])) (thr [(2, 13)]) ∧
    ((thr [(2, 13)]).rep = none ∧ (((thr [(2, 13)]).reg 2).toNat + ((thr [(2, 13)]).reg 3).toNat % 33554432 * 4294967296) % 12 ≠ 0 ∧
      plain.tvec (tsk []) ≠ 0 ∧ (thr [(2, 13)]).h = false) ∧
    (Clear (one (tsk []) (thr [(2, 12)])) 0 [2, 3] ∧
      ∀ t ∈ (one (tsk []) (thr [(2, 12)])).carried, t = 0 ∧
        (((thr [(2, 12)]).reg 2).toNat + ((thr [(2, 12)]).reg 3).toNat % 33554432 * 4294967296) % 12 = 0) :=
  ⟨by decide +kernel, alone_in _ _ _ _ _ rfl rfl (by decide +kernel), by decide +kernel⟩

theorem test_hyps_Repeats :
    two.issue.lanes.Nodup ∧ ({ thr [] with rep := some ⟨1, 0, 0, 0, 0⟩ } : Thread).rep = some ⟨1, 0, 0, 0, 0⟩ ∧ (0 : Nat) < 1 ∧
    ({ thr [] with rep := some ⟨1, 0, 0, 0, 1⟩ } : Thread).rep = some ⟨1, 0, 0, 0, 1⟩ ∧ (1 : Nat) ≤ 1 := by decide +kernel

theorem test_hyps_EndingWords :
    (Alone plain 0 [] 0 (own (tsk []) (thr [])) (thr []) ∧
      Alone (one { tsk [] with irrevocable := true } (thr [])) 0 [] 0 (own { tsk [] with irrevocable := true } (thr [])) (thr [])) ∧
    (∀ n, (thr []).eflt.getD n none = none) ∧
    (thr []).posted = none ∧ plain.unacked 1 0 = false ∧ plain.meetings 1 (plain.present 0) = plain ∧ (plain.cluster (clusterOf (tsk []).core)).cvs = [] ∧
    (tsk []).stop = none ∧ plain.immune (tsk []) = false ∧
    (one { tsk [] with irrevocable := true } (thr [])).immune { tsk [] with irrevocable := true } = true ∧
    plain.tvec (tsk []) ≠ 0 ∧ (thr []).h = false ∧ (thr []).rep = none :=
  ⟨⟨alone_in _ _ _ _ _ rfl rfl (by decide +kernel), alone_in _ _ _ _ _ rfl rfl (by decide +kernel)⟩, fun n => by
    show (Vector.replicate 4 none).getD n none = none
    simp only [Vector.getD, Array.getD_eq_getD_getElem?, Vector.toArray_replicate, Array.getElem?_replicate]
    split <;> rfl, by decide +kernel⟩

theorem test_hyps_CauseTaken :
    plain.task? 1 = some (own (tsk []) (thr [])) ∧ plain.thread? 1 0 = some (thr []) ∧ plain.tvec (own (tsk []) (thr [])) ≠ 0 ∧
    (thr []).h = false := ⟨rfl, rfl, by decide +kernel⟩

/-- A thread in a handler; a context without a vector; a task that has no stop, and one that has. -/
theorem test_hyps_CauseTaken_ends :
    let h := { thr [] with h := true }
    let st : Stop := ⟨.cancel, none, 0, 0, 0, 0, false⟩
    let s := { plain with ctxs := [(0, loadCtx)] }
    ((one (tsk []) h).task? 1 = some (own (tsk []) h) ∧ (one (tsk []) h).thread? 1 0 = some h ∧ h.h = true ∧
      (tsk []).stop = none) ∧
    (s.task? 1 = some (own (tsk []) (thr [])) ∧ s.thread? 1 0 = some (thr []) ∧ s.tvec (tsk []) = 0) ∧
    ((one { tsk [] with stop := some st } h).task? 1 = some (own { tsk [] with stop := some st } h) ∧
      st.yields plain.issue.lanes ⟨.program 1, some 0, 0, 0, 0, 0, true⟩ = false ∧
      (⟨.program 4, some 1, 0, 0, 0, 0, true⟩ : Stop).yields two.issue.lanes ⟨.program 1, some 0, 0, 0, 0, 0, true⟩ = true) :=
  ⟨⟨rfl, rfl, rfl, rfl⟩, ⟨rfl, rfl, by decide +kernel⟩, rfl, by decide +kernel⟩

theorem test_hyps_TrapWords :
    two.issue.lanes.Nodup ∧ ∀ t ∈ two.carried,
      ((two.task? 1).map fun tk => decide (two.tvec tk ≠ 0)) = some true ∧
      ((two.thread? 1 t).map fun th => (th.h, th.rep)) = some (false, none) := by decide +kernel

theorem test_hyps_ReturnAndSave :
    Alone plain 0 [] 0 (own (tsk []) (thr [])) (thr []) ∧
    ((thr []).rep = none ∧ (thr []).h = false ∧ plain.tvec (tsk []) ≠ 0) ∧
    (Alone (one (tsk []) { thr [] with h := true, tepc := 0x30001 }) 0 [] 0 (own (tsk []) { thr [] with h := true, tepc := 0x30001 })
        { thr [] with h := true, tepc := 0x30001 } ∧
      Alone (one (tsk []) { thr [] with h := true, tepc := 0x200000000000000 }) 0 [] 0
        (own (tsk []) { thr [] with h := true, tepc := 0x200000000000000 }) { thr [] with h := true, tepc := 0x200000000000000 }) ∧
    ((tsk []).stop = none ∧ (0x30001 : BitVec 64).toNat % 4 ≠ 0 ∧ 144115188075855872 ≤ (0x200000000000000 : BitVec 64).toNat ∧
      (thr []).answer = none) ∧
    (let s := one (tsk []) { thr [] with h := true, tepc := 0x1FFFFFFFFFFFFFC };
      s.issue.lanes.Nodup ∧ ∀ t ∈ s.carried, ((s.thread? 1 t).map fun th =>
        (th.h, decide (th.tepc.toNat % 4 = 0), decide (th.tepc.toNat < 144115188075855872))) = some (true, true, true)) ∧
    ((24 : BitVec 6).toNat % 8 = 0 ∧ Clear plain 0 ((List.range 6).map ((24 : BitVec 6).toNat + ·))) :=
  ⟨alone_in _ _ _ _ _ rfl rfl (by decide +kernel), by decide +kernel, ⟨alone_in _ _ _ _ _ rfl rfl (by decide +kernel), alone_in _ _ _ _ _ rfl rfl (by decide +kernel)⟩, by decide +kernel⟩

/-! ### Loads and stores -/

/-- A task with records of 16 words in slots 1 to 4: scratchpad, private, global with zero fill, global; in slot 5 remote,
in slot 6 scratchpad with clamping, and in slot 7 global over two pages. One page is held and four private words. -/
def memTask : Task :=
  { tsk (recordAt 1 0 16 73 ++ recordAt 2 0 16 137 ++ recordAt 3 (loadAddr + 0x100) 16 41 ++ recordAt 4 (loadAddr + 0x100) 16 9 ++
      recordAt 5 (2 ^ 56) 16 201 ++ recordAt 6 0 16 89 ++ recordAt 7 0x3FFE0 16 9) with
    pages := 1, ebPages := 1, rcd := { loadRec with rreq := 0x40000 } }

/-- The state of the memory words: V2 holds the offset. -/
def memAt (o : Word) : State := mapped memTask (thr [(2, o)])
/-- Its task and its thread. -/
def memOwn (o : Word) : Task := own memTask (thr [(2, o)])
/-- The word of slot `k`: V1 is the data register, V2 the offset register. -/
def memP (k : BitVec 5) : MemP := ⟨false, 0, 1, 2, k, 0, false, 0⟩
/-- What a load and a store ask for. -/
def rd4 : Want := ⟨4, false, ⟨true, false, false⟩⟩
def wr4 : Want := ⟨4, false, ⟨false, true, false⟩⟩
/-- The translation of the page. -/
def page3 (k : Nat) : List (Nat × Xlate) := [(k, ⟨0x1F, 2⟩)]

/-- The fault that a check found. -/
def errOf : Except AccFault Place → Option AccFault
  | .error e => some e
  | .ok _ => none

/-- A load is answered at once. -/
def answered : Got → Bool
  | .val _ _ => true
  | _ => false

theorem answered_iff (g : Got) (h : answered g = true) : ∃ s2 bs, g = .val s2 bs := by
  cases g with
  | val s2 bs => exact ⟨s2, bs, rfl⟩
  | wait _ => cases h
  | dead _ => cases h

/-- What has to come first has been performed. -/
theorem went_iff (P : State → Prop) [DecidablePred P] (r : Ready)
    (h : (match r with
      | .go s => decide (P s)
      | _ => false) = true) : ∃ s2, r = .go s2 ∧ P s2 := by
  cases r <;> first | exact ⟨_, rfl, of_decide_eq_true h⟩ | cases h

theorem test_hyps_LoadWords :
    Alone (memAt 1) 0 [1, 2] 0 (memOwn 1) (thr [(2, 1)]) ∧ (thr [(2, 1)]).answer = none ∧
    (∃ s2 bs, (memAt 3).loadKeys 1 0 (memOwn 3) ((memOwn 3).coreOf 0) ((MemP.word (memP 2) [2]).pol (memTask.record 2))
      ([384, 385, 386, 387].map ((memOwn 3).rcd.privBase + ·)) = .val s2 bs) ∧
    (((memAt 1).place (memOwn 1) 0 1 (memTask.record 1) true 1 (memTask.record 1).address rd4).toOption = some (.spad [4, 5, 6, 7]) ∧
      (memAt 1).boardStalls (memOwn 1) true [4, 5, 6, 7] = false ∧ ordRel 0 = false) ∧
    (memAt 1).ordBefore 1 0 0 (memTask.record 1).orderScope = .go (memAt 1) ∧
    (((memAt 3).place (memOwn 3) 0 2 (memTask.record 2) true 3 (memTask.record 2).address rd4).toOption = some (.priv [384, 385, 386, 387])) ∧
    (((memAt 16).place (memOwn 16) 0 3 (memTask.record 3) true 16 (memTask.record 3).address rd4).toOption = some .dropped ∧
      (MemP.word (memP 3) [0, 3]).pair (memTask.record 3) = false ∧ (MemP.word (memP 3) [0, 3]).loadForm (memTask.record 3) = true) ∧
    ((memTask.record 1).fmt ≤ 11 ∧ (List.replicate 4 (0 : Byte)).length = (MemP.word (memP 3) [0, 3]).bytes (memTask.record 3)) :=
  ⟨alone_in _ _ _ _ _ rfl rfl (by decide +kernel), rfl, answered_iff _ (by decide +kernel), by decide +kernel, rfl, by decide +kernel⟩

/-- The state with one write that is performed by now and one that is not. -/
def written : State :=
  { memAt 1 with
    dtime := 5, writes := [⟨5, 0x30100 / 128, [(0x30104, 7)], 0, [1], 9999, false, []⟩, ⟨6, 0x30100 / 128, [(0x30104, 8)], 0, [1], 9999, false, []⟩] }

theorem test_hyps_LoadGlobal_LoadSources_HomeByte :
    Alone (memAt 15) 0 [1, 2] 0 (memOwn 15) (thr [(2, 15)]) ∧
    (∃ s2 bs, ((memAt 15).rememberAll 0 (page3 0x3013F)).loadKeys 1 0 (memOwn 15) ((memOwn 15).coreOf 0)
      ((MemP.word (memP 4) [0, 3]).pol (memTask.record 4)) [0x3013C, 0x3013D, 0x3013E, 0x3013F] = .val s2 bs) ∧
    (((memAt 15).place (memOwn 15) 0 4 (memTask.record 4) ((MemP.word (memP 4) [0, 3]).loadForm (memTask.record 4)) 15
      ((MemP.word (memP 4) [0, 3]).addr (memTask.record 4)) rd4).toOption = some (.glob 0x3013C [0x3013C, 0x3013D, 0x3013E, 0x3013F] (page3 0x3013F)) ∧
      [0x3013C, 0x3013D, 0x3013E, 0x3013F].any isReg = false ∧ ordRel 0 = false) ∧
    ((memAt 1).poisoned [0x30104] = false ∧ (memAt 1).lineParts (Machine.lineOf 0x30104) = [] ∧ (memAt 1).ownPending 0 1 [0x30104] = 0) ∧
    (∀ w ∈ written.writes, written.dtime < w.wct ∨ KMap.get? 0x30108 w.bytes = none) ∧
    (written.writes = [] ++ ⟨5, 0x30100 / 128, [(0x30104, 7)], 0, [1], 9999, false, []⟩ :: [⟨6, 0x30100 / 128, [(0x30104, 8)], 0, [1], 9999, false, []⟩] ∧
      KMap.get? 0x30104 [(0x30104, (7 : Byte))] = some 7 ∧ (5 : Nat) ≤ written.dtime ∧ written.dtime < (6 : Nat)) :=
  ⟨alone_in _ _ _ _ _ rfl rfl (by decide +kernel), answered_iff _ (by decide +kernel), by decide +kernel⟩

/-- The state of a task that stores at once: irrevocable. -/
def irr (o : Word) (an : Option RemoteRes) : State :=
  mapped { memTask with irrevocable := true } { thr [(2, o)] with answer := an }
/-- Its task. -/
def irrOwn (o : Word) (an : Option RemoteRes) : Task :=
  own { memTask with irrevocable := true } { thr [(2, o)] with answer := an }

theorem test_hyps_StoreOwn_StoreGlobal :
    Alone (memAt 1) 0 [1, 2] 0 (memOwn 1) (thr [(2, 1)]) ∧ (memAt 1).task? 1 = some (memOwn 1) ∧
    (memAt 1).isDet (memOwn 1) = false ∧
    (memAt 3).task? 1 = some (memOwn 3) ∧ (irr 1 none).task? 1 = some (irrOwn 1 none) ∧ Alone (irr 1 none) 0 [1, 2] 0 (irrOwn 1 none) (thr [(2, 1)]) ∧
    (((memAt 1).place (memOwn 1) 0 1 (memTask.record 1) ((MemU.word ⟨false, 0, 1, 2, 1, 0, false⟩).storeForm (memTask.record 1)) 1
        (memTask.record 1).address wr4).toOption = some (.spad [4, 5, 6, 7]) ∧ [4, 5, 6, 7].Nodup ∧
      (memAt 1).boardStalls (memOwn 1) false [4, 5, 6, 7] = false) ∧
    (((memAt 3).place (memOwn 3) 0 2 (memTask.record 2) ((MemP.word (memP 2) [2]).storeForm (memTask.record 2)) 3
        (memTask.record 2).address wr4).toOption = some (.priv [384, 385, 386, 387]) ∧ [384, 385, 386, 387].Nodup) ∧
    (((one { memTask with s := (tsk (recordAt 1 0 16 105)).s } (thr [(2, 16)])).place memTask 0 1
        ((tsk (recordAt 1 0 16 105)).record 1) true 16 ((tsk (recordAt 1 0 16 105)).record 1).address wr4).toOption = some .dropped) ∧
    (((memAt 1).place (memOwn 1) 0 4 (memTask.record 4) ((MemP.word (memP 4) [0, 3]).storeForm (memTask.record 4)) 1
        (memTask.record 4).address wr4).toOption = some (.glob 0x30104 [0x30104, 0x30105, 0x30106, 0x30107] (page3 0x30107)) ∧
      (memTask.record 4).space = 0 ∧ [0x30104, 0x30105, 0x30106, 0x30107].Nodup ∧
      (memAt 1).core 0 = { Core.empty with squads := [(0, ⟨1, 0, true⟩)], nextSquad := 1 }) ∧
    ((memOwn 1).buffers = true ∧ ebufLines ((memOwn 1).buffer ((memAt 1).genOf (memOwn 1)) (0x30104 / 65536)
        ([0x30104, 0x30105, 0x30106, 0x30107].zip [1, 2, 3, (4 : Byte)])).ebuf (memOwn 1).parts ≤ 32 * (memOwn 1).ebPages) ∧
    ((irrOwn 1 none).buffers = false ∧ (memTask.record 4).pol = 0 ∧ (irrOwn 1 none).commitT = none ∧ ordAcq 0 = false ∧
      ((irr 1 none).place (irrOwn 1 none) 0 4 (memTask.record 4) true 1 (memTask.record 4).address wr4).toOption = some (.glob 0x30104 [0x30104, 0x30105, 0x30106, 0x30107] (page3 0x30107))) :=
  ⟨alone_in _ _ _ _ _ rfl rfl (by decide +kernel), rfl, by decide +kernel, rfl, rfl, alone_in _ _ _ _ _ rfl rfl (by decide +kernel), by decide +kernel⟩

theorem test_hyps_RemoteAccess :
    Alone (memAt 1) 0 [1, 2] 0 (memOwn 1) (thr [(2, 1)]) ∧
    Alone (irr 1 (some (.data [7]))) 0 [1, 2] 0 (irrOwn 1 (some (.data [7]))) { thr [(2, 1)] with answer := some (.data [7]) } ∧
    Alone (irr 1 none) 0 [1, 2] 0 (irrOwn 1 none) (thr [(2, 1)]) ∧
    (((memAt 1).place (memOwn 1) 0 5 (memTask.record 5) ((MemP.word (memP 5) [0, 3]).loadForm (memTask.record 5)) 1
        (memTask.record 5).address rd4).toOption = some (.remote (2 ^ 56 + 4) 1 0 4 true) ∧ (memTask.record 5).space = 3 ∧
      (thr [(2, 1)]).answer = none ∧ (1 : Nat) ≠ (memAt 1).regs.peerid ∧ (memAt 1).trails 1 0 1 0 4 4 = false) ∧
    (((irr 1 none).place (irrOwn 1 none) 0 5 (memTask.record 5) ((MemP.word (memP 5) [0, 3]).storeForm (memTask.record 5)) 1
        (memTask.record 5).address wr4).toOption = some (.remote (2 ^ 56 + 4) 1 0 4 true) ∧ (irrOwn 1 none).irrevocable = true ∧
      (irrOwn 1 none).commitT = none ∧ (irr 1 none).postWaits 1 0 ⟨2 ^ 56 + 4, 1, 0, 4⟩ 4 false = false) :=
  ⟨alone_in _ _ _ _ _ rfl rfl (by decide +kernel), alone_in _ _ _ _ _ rfl rfl (by decide +kernel), alone_in _ _ _ _ _ rfl rfl (by decide +kernel), by decide +kernel⟩

/-- The last element in bounds and the first past them; the last byte of the page and the first past it; the last private
word and the first past the limit. -/
theorem test_hyps_AccessChecks :
    ((memTask.record 1).ok = true ∧ (memTask.record 1).extent = 16 ∧ (memTask.record 1).bmode = 0 ∧ (memTask.record 3).bmode = 2 ∧
      (memTask.record 6).bmode = 1 ∧ (memTask.record 6).extent = 16 ∧ (memTask.record 6).ok = true) ∧
    ((tsk (recordAt 1 0 16 (73 + 0x2000))).record 1).ok = false ∧
    ((tsk (recordAt 1 1 16 73)).record 1).address 15 % 4 ≠ 0 ∧
    (((tsk (recordAt 1 4092 2 73)).record 1).address 0 + 4 ≤ 4096 * memTask.pages ∧
      4096 * memTask.pages < ((tsk (recordAt 1 4092 2 73)).record 1).address 1 + 4) ∧
    ((memTask.record 2).address 3 + 4 ≤ 4 * memTask.privLim ∧ 4 * memTask.privLim < (memTask.record 2).address 4 + 4 ∧
      (4 : Nat) < (memTask.record 2).extent) := by decide +kernel

/-- The same with two more pages of 1 GiB, that of the registers and one without W, and context 3. -/
def maps : State :=
  { memAt 1 with mem := pagesOf [(0x3008, 0x1F), (0x300C, 0x3E), (0x3010, 0x17)], ctxs := [(0, loadCtx), (3, loadCtx)] }

theorem test_hyps_AccessChecks_translation :
    (maps.ctx? 3 = some loadCtx ∧ maps.lookup loadCtx (2 ^ 55) = .missing) ∧
    (maps.lookup loadCtx 0x40000000 = .page ⟨0x3E0000001F, 2⟩ ∧ (⟨0x3E0000001F, 2⟩ : Xlate).guarded maps.regs = true ∧ 3 ≠ 0) ∧
    (maps.lookup loadCtx 0x80000000 = .page ⟨0x17, 2⟩ ∧ (⟨0x17, 2⟩ : Xlate).guarded maps.regs = false ∧
      (0x17 : BitVec 64).getLsbD 3 = false) ∧
    (maps.lookup loadCtx 0x30104 = .page ⟨0x1F, 2⟩ ∧ (0x1F : BitVec 64).getLsbD 3 = true ∧
      loadCtx.isRevoked ⟨0x1F, 2⟩ 0x30104 = false) ∧
    (maps.copied [Machine.lineOf 0x1000] = none ∧ BitVec.ofNat 64 (maps.homeNat 0x1000 8) = 0x2001 ∧
      BitVec.ofNat 64 (maps.homeNat 0x3000 8) = 0x1F ∧ BitVec.ofNat 64 (maps.homeNat 0x3018 8) = 0) ∧
    (∀ i < 4, maps.translate 3 (2 ^ 55 + i) ⟨true, false, false⟩ = .error 0x0009) ∧
    (∀ i < 4, maps.translate 3 (0x30104 + i) ⟨true, false, false⟩ = .ok ⟨0x1F, 2⟩) := by decide +kernel

theorem test_hyps_AccessFault :
    Alone (memAt 16) 0 [1, 2] 0 (memOwn 16) (thr [(2, 16)]) ∧
    (errOf ((memAt 16).place (memOwn 16) 0 4 (memTask.record 4) ((MemP.word (memP 4) [0, 3]).loadForm (memTask.record 4)) 16
      (memTask.record 4).address rd4) = some ⟨0x0007, 16, 0⟩ ∧ (memAt 16).tvec (memOwn 16) ≠ 0 ∧ recallLine 0x0007 = none ∧
      (thr [(2, 16)]).answer = none ∧ (thr [(2, 16)]).h = false ∧ (thr [(2, 16)]).rep = none) ∧
    (errOf ((memAt 16).place (memOwn 16) 0 4 (memTask.record 4) ((MemP.word (memP 4) [0, 3]).storeForm (memTask.record 4)) 16
      (memTask.record 4).address wr4) = some ⟨0x0007, 16, 0⟩ ∧ (memAt 16).isDet (memOwn 16) = false) ∧
    (MemP.word (memP 4) [0, 3]).entry (memAt 16) 0 (memOwn 16) (thr [(2, 16)]) = .go (memAt 16) :=
  ⟨alone_in _ _ _ _ _ rfl rfl (by decide +kernel), by decide +kernel, by decide +kernel, by unfold MemWord.entry; exact if_neg (by decide +kernel)⟩

/-! ### Atomics, lists, engines, lines, cross-lane words -/

/-- The state of a word of several registers. -/
def regsAt (x : Task) (r : List (Nat × Word)) : State := mapped x (thr r)

/-- A task that has an effect buffer, and one that is irrevocable. -/
def bufTask : Task := { memTask with ebPages := 1 }
def irrTask : Task := { memTask with irrevocable := true }

/-- V4 to V7 name the words 0 and 1 and two that are unused. -/
def mcasRegs : List (Nat × Word) := [(4, 0), (5, 1), (6, 0xFFFFFFFF), (7, 0xFFFFFFFF)]

theorem test_hyps_AtomWords :
    ((memAt 0).task? 1 = some (memOwn 0) ∧ (thr [(2, 0)]).answer = none ∧ (memAt 0).isDet (memOwn 0) = false ∧
      (memOwn 0).lowerWaits 0 (thr [(2, 0)]) = false) ∧
    Alone (memAt 0) 0 [0, 1, 2] 0 (memOwn 0) (thr [(2, 0)]) ∧ Alone (memAt 14) 0 [4, 5, 6, 7, 2] 0 (memOwn 14) (thr [(2, 14)]) ∧
    Alone (regsAt memTask mcasRegs) 0 ((List.range 8).map (8 + ·) ++ (List.range 4).map (4 + ·)) 0 (own memTask (thr mcasRegs))
      (thr mcasRegs) ∧
    ((memTask.record 1).space = 1 ∧ atomFmt (memTask.record 1).fmt = true ∧ fmtBits (memTask.record 1).fmt = 32 ∧
      ((memAt 0).drew.place (memOwn 0) 0 1 (memTask.record 1) true 0 (memTask.record 1).address
        ⟨4, true, atomRights (memTask.record 1)⟩).toOption = some (.spad [0, 1, 2, 3]) ∧
      ((memAt 0).drew.place (memOwn 0) 0 1 (memTask.record 1) true 0 (memTask.record 1).address wr4).toOption =
        some (.spad [0, 1, 2, 3]) ∧ ordRel 0 = false ∧ (memAt 0).drew.boardStalls (memOwn 0) false [0, 1, 2, 3] = false) ∧
    (((memAt 14).drew.place (memOwn 14) 0 1 (memTask.record 1) true 14 (memTask.record 1).address
        ⟨8, true, atomRights (memTask.record 1)⟩).toOption = some (.spad [56, 57, 58, 59, 60, 61, 62, 63])) ∧
    (mcasUsed (thr mcasRegs) 4 = [(0, 0), (1, 1)] ∧ [(0 : Nat), 4].Nodup ∧
      (∀ u ∈ [((0 : Nat), (0 : Nat)), (1, 1)], (memTask.record 1).bounded u.2 = .at u.2 ∧ (memTask.record 1).used u.2 = u.2) ∧
      ((regsAt memTask mcasRegs).drew.mcasPlaces (own memTask (thr mcasRegs)) 0 (memTask.record 1) [0, 1]).toOption =
        some ([0, 4].map fun x => .spad [x, x + 1, x + 2, x + 3]) ∧
      (regsAt memTask mcasRegs).drew.boardStalls (own memTask (thr mcasRegs)) false [0, 1, 2, 3, 4, 5, 6, 7] = false) :=
  ⟨⟨rfl, rfl, by decide +kernel⟩, alone_in _ _ _ _ _ rfl rfl (by decide +kernel), alone_in _ _ _ _ _ rfl rfl (by decide +kernel), alone_in _ _ _ _ _ rfl rfl (by decide +kernel),
    by decide +kernel⟩

/-- A task of a deterministic launch, irrevocable, whose slot 4 holds F32. -/
def detTask : Task := { tsk (recordAt 4 (loadAddr + 0x100) 16 fmtF32) with irrevocable := true }
def detAt : State := { regsAt detTask [(2, 1)] with launches := [(0, ⟨0, true, false, false, 1, 0, none, [], false⟩)] }

/-- Word 1 of the list at 0x30100. -/
def word1 : Place := .glob 0x30104 [0x30104, 0x30105, 0x30106, 0x30107] (page3 0x30107)

theorem test_hyps_AtomHome_RedGlobal :
    ((irr 1 none).task? 1 = some (irrOwn 1 none) ∧ detAt.task? 1 = some (own detTask (thr [(2, 1)])) ∧
      (own detTask (thr [(2, 1)])).lowerWaits 0 (thr [(2, 1)]) = false ∧ (thr [(2, 1)]).answer = none) ∧
    Alone (irr 1 none) 0 [1, 2] 0 (irrOwn 1 none) (thr [(2, 1)]) ∧
    Alone (regsAt bufTask [(2, 1)]) 0 [1, 2] 0 (own bufTask (thr [(2, 1)])) (thr [(2, 1)]) ∧
    ((memTask.record 4).space = 0 ∧ atomFmt (memTask.record 4).fmt = true ∧ (irr 1 none).isDet (irrOwn 1 none) = false ∧
      (irrOwn 1 none).irrevocable = true ∧ (irrOwn 1 none).commitT = none ∧
      ((irr 1 none).drew.place (irrOwn 1 none) 0 4 (memTask.record 4) true 1 (memTask.record 4).address wr4).toOption = some word1 ∧
      (irr 1 none).poisoned (wordStarts [0x30104, 0x30105, 0x30106, 0x30107]) = false ∧
      (wordStarts [0x30104, 0x30105, 0x30106, 0x30107]).any isReg = false ∧
      ((irr 1 none).core 0).parts = [] ∧ ((irr 1 none).l1 0 (Machine.lineOf 0x30104)).dirty = []) ∧
    (0x30104 % 4 = 0 ∧ (irr 1 none).lineParts (Machine.lineOf 0x30104) = [] ∧ (irr 1 none).writes = []) ∧
    (((regsAt bufTask [(2, 1)]).drew.place (own bufTask (thr [(2, 1)])) 0 4 (memTask.record 4) true 1 (memTask.record 4).address
        wr4).toOption = some word1 ∧ (own bufTask (thr [(2, 1)])).buffers = true ∧
      ebufLines bufTask.ebuf (foldInto bufTask.parts ⟨0x30104, 0, 9, 0, 1, 0, 0, 3⟩) ≤ 32 * bufTask.ebPages) ∧
    (Alone detAt 0 [1, 2] 0 (own detTask (thr [(2, 1)])) (thr [(2, 1)]) ∧ detAt.isDet (own detTask (thr [(2, 1)])) = true ∧
      (detTask.record 4).fmt = fmtF32 ∧ (detTask.record 4).space = 0 ∧
      (detAt.drew.place (own detTask (thr [(2, 1)])) 0 4 (detTask.record 4) true 1 (detTask.record 4).address wr4).toOption = some word1) ∧
    (∀ v : Word, v = 0 → (5 : Nat) < 6 ∧ (fmtN32 = fmtS32 ∨ fmtN32 = fmtN32)) ∧
    (([] : List Partial).any fun _ => true) = false :=
  ⟨⟨rfl, rfl, by decide +kernel, rfl⟩, alone_in _ _ _ _ _ rfl rfl (by decide +kernel), alone_in _ _ _ _ _ rfl rfl (by decide +kernel), by decide +kernel,
    by decide +kernel, by decide +kernel, ⟨alone_in _ _ _ _ _ rfl rfl (by decide +kernel), by decide +kernel⟩, fun _ _ => by decide, rfl⟩

/-- The registers of ENQ: the node 6 in V1, the header in V2; and of CHASE: the bound in V5, the first node in V2. -/
def enqAt (h : Word) : State := regsAt irrTask [(1, 6), (2, h)]
/-- ENQ on slot 7 once its header has been read. -/
def enqAfter : State :=
  let ls := ([0x3FFE0, 0x3FFE4, 0x3FFF8].map Machine.lineOf).eraseDups
  ((ls.foldl (fun s l => s.writeBack 0 l fun _ => true)
    ((enqAt 0).drew.rememberAll 0 (page3 0x3FFE3 ++ page3 0x3FFE7 ++ page3 0x3FFFB))).recallLines ls).1
def chaseAt (i : Word) : State := regsAt memTask [(5, 1), (2, i)]
def chaseOwn (i : Word) : Task := own memTask (thr [(5, 1), (2, i)])

theorem test_hyps_ListWords :
    Alone (memAt 1) 0 [1, 2] 0 (memOwn 1) (thr [(2, 1)]) ∧
    Alone (enqAt 0) 0 [1, 2] 0 (own irrTask (thr [(1, 6), (2, 0)])) (thr [(1, 6), (2, 0)]) ∧
    (Alone (chaseAt 0) 0 [4, 5, 2] 0 (chaseOwn 0) (thr [(5, 1), (2, 0)]) ∧
      Alone (chaseAt 1) 0 [4, 5, 2] 0 (chaseOwn 1) (thr [(5, 1), (2, 1)])) ∧
    (∀ j ∈ [1, 2, 3], ∃ s2 bs, ((chaseAt 1).rememberAll 0 (page3 (0x30103 + 4 * j))).loadKeys 1 0 (chaseOwn 1) 0 (memTask.record 4).pol
      [0x30100 + 4 * j, 0x30101 + 4 * j, 0x30102 + 4 * j, 0x30103 + 4 * j] = .val s2 bs) ∧
    (∃ s2 bs, ((chaseAt 1).rememberAll 0 (page3 0x3010F)).loadKeys 1 0 (chaseOwn 1) 0 (memTask.record 4).pol
      [0x3010C, 0x3010D, 0x3010E, 0x3010F] = .val s2 bs) ∧
    ((thr [(5, 1), (2, 1)]).chased = none ∧ (thr [(5, 1), (2, 1)]).answer = none ∧
      Alone (regsAt memTask [(5, 2), (2, 1)]) 0 [4, 5, 2] 0 (own memTask (thr [(5, 2), (2, 1)])) (thr [(5, 2), (2, 1)]) ∧
      Alone (mapped memTask { thr [(5, 2), (2, 1)] with chased := some (3, 1) }) 0 [4, 5, 2] 0
        (own memTask { thr [(5, 2), (2, 1)] with chased := some (3, 1) }) { thr [(5, 2), (2, 1)] with chased := some (3, 1) }) ∧
    ((memTask.record 5).space = 3 ∧ atomFmt (memTask.record 5).fmt = true ∧
      ((memAt 1).place (memOwn 1) 0 5 (memTask.record 5) true 1 (memTask.record 5).address ⟨4, true, ⟨true, false, false⟩⟩).toOption =
        some (.remote (2 ^ 56 + 4) 1 0 4 true) ∧ (thr [(2, 1)]).answer = none ∧ (1 : Nat) ≠ (memAt 1).regs.peerid ∧
      (memAt 1).trails 1 0 1 0 4 4 = false) ∧
    ((memTask.record 4).ok = true ∧ (memTask.record 4).space = 0 ∧ (memTask.record 4).fmt = fmtN32 ∧
      (enqAt 0).isDet irrTask = false ∧ irrTask.commitT = none ∧ [0x3FFE0, 0x3FFE4, 0x3FFF8, 0x40000].any isReg = false ∧ (memTask.record 4).extent = 16) ∧
    (((enqAt 0).drew.elemKey irrTask (memTask.record 7) ⟨false, true, false⟩ 0).toOption = some (0x3FFE0, page3 0x3FFE3) ∧
      ((enqAt 0).drew.elemKey irrTask (memTask.record 7) ⟨false, true, false⟩ 1).toOption = some (0x3FFE4, page3 0x3FFE7) ∧
      ((enqAt 0).drew.elemKey irrTask (memTask.record 7) ⟨false, true, false⟩ 6).toOption = some (0x3FFF8, page3 0x3FFFB)) ∧
    ((enqAfter.lastWord 0x3FFE4).toNat = 8 ∧ enqAfter.poisoned [0x3FFE0, 0x3FFE4, 0x3FFF8] = false ∧
      (enqAfter.elemKey irrTask (memTask.record 7) ⟨false, true, false⟩ 8).toOption = some (0x40000, page3 0x40003) ∧
      enqAfter.poisoned [0x40000] = false) ∧
    (((enqAt 4).drew.elemKey irrTask (memTask.record 4) ⟨false, true, false⟩ 5).toOption = some (0x30114, page3 0x30117) ∧
      ((enqAt 4).lastWord 0x30114).toNat = 0) ∧
    ((∀ j ∈ [1, 2, 3], ((chaseAt 1).elemKey (chaseOwn 1) (memTask.record 4) ⟨true, false, false⟩ j).toOption =
        some (0x30100 + 4 * j, page3 (0x30103 + 4 * j))) ∧ leNat [0, 0, 0, 0] = 0 ∧
      leNat [99, 0, 0, 0] = 99 ∧ (memTask.record 4).extent ≤ 99 ∧ leNat [2, 0, 0, 0] < (memTask.record 4).extent) :=
  ⟨alone_in _ _ _ _ _ rfl rfl (by decide +kernel), alone_in _ _ _ _ _ rfl rfl (by decide +kernel),
    ⟨alone_in _ _ _ _ _ rfl rfl (by decide +kernel), alone_in _ _ _ _ _ rfl rfl (by decide +kernel)⟩,
    by intro j hj; revert j; exact List.forall_mem_cons.2 ⟨answered_iff _ (by decide +kernel), List.forall_mem_cons.2 ⟨answered_iff _ (by decide +kernel), List.forall_mem_cons.2 ⟨answered_iff _ (by decide +kernel), by simp⟩⟩⟩,
    answered_iff _ (by decide +kernel), ⟨rfl, rfl, alone_in _ _ _ _ _ rfl rfl (by decide +kernel), alone_in _ _ _ _ _ rfl rfl (by decide +kernel)⟩, by decide +kernel, by decide +kernel, by decide +kernel,
    by decide +kernel, by decide +kernel, by decide +kernel⟩

/-- A copy of one word within the scratchpad: from element 1 to element 0; and one of no words, and one of a slot that is
none. -/
def cpyRegs (w : Word) : List (Nat × Word) := [(4, 1), (5, w), (2, 0)]
def cpyAt (w : Word) : State := regsAt memTask (cpyRegs w)
/-- The command that it becomes, from an element, with what is known of it. -/
def cpyOp (frm : Nat) (plan : Option (List Moving)) (written : Bool) : EngOp :=
  ⟨7, 1, 0, 0, 0, memTask.recWords 1, memTask.recWords 1, memTask.recWords 0, 0, frm, 1, 1, plan, [], written, 0, none, 0, 0⟩
def cpyDone (e : EngOp) : State := { cpyAt 0 with engs := [e] }

theorem test_hyps_EngineWords :
    (Alone (cpyAt 0x10001) 0 [4, 5, 2] 0 (own memTask (thr (cpyRegs 0x10001))) (thr (cpyRegs 0x10001)) ∧
      Alone (cpyAt 0x00001) 0 [4, 5, 2] 0 (own memTask (thr (cpyRegs 0x00001))) (thr (cpyRegs 0x00001)) ∧
      Alone (cpyAt 0x10014) 0 [4, 5, 2] 0 (own memTask (thr (cpyRegs 0x10014))) (thr (cpyRegs 0x10014))) ∧
    ((cpyAt 0).isDet memTask = false ∧ (memTask.record 1).space = 1 ∧ recallLine 7 = none ∧
      (∀ b ∈ [true, false], (cpyOp 1 none b).fault.isNone = true ∧ (cpyOp 1 none b).kind = 0 ∧ (cpyOp 1 none b).n = 1)) ∧
    ((engCheck memTask 0 1 0x10001 0 1).isNone = true ∧ (0x10001 : Word).toNat / 65536 = 1 ∧ (thr (cpyRegs 0x10001)).counter 0 < 63 ∧
      ((cpyAt 0x10001).register memTask 0 (engRanges memTask 0 (memTask.record 1) (memTask.record 1) (memTask.record 0) 0 1 1)).isSome =
        true) ∧
    ((engCheck memTask 0 1 0x00001 0 1).isNone = true ∧ (0x00001 : Word).toNat / 65536 = 0) ∧
    ((engCheck memTask 0 1 0x10014 0 1).isSome = true ∧ (cpyAt 0).tvec memTask ≠ 0 ∧ 19 < (0x10014 : Word).toNat % 32) ∧
    ((thr []).counter 3 < 63 ∧ (1 : Nat) ≠ 3) ∧
    ((∀ e ∈ [cpyOp 1 none true, cpyOp 1 none false, cpyOp 20 none false, cpyOp 1 (some [⟨0, .spad 4, 0, .spad 0⟩]) false],
        ((cpyDone e).engs.find? fun x => x.id = 7) = some e ∧ (cpyDone e).engReady (own memTask (thr (cpyRegs 0))) e = true ∧ e.cls < 4) ∧
      ((cpyDone (cpyOp 1 none false)).source (own memTask (thr (cpyRegs 0))) (cpyOp 1 none false) (Rec.ofWords (cpyOp 1 none false).src) 1 0).toOption =
        some (.spad 4) ∧
      ((cpyDone (cpyOp 1 none false)).spotOf (own memTask (thr (cpyRegs 0))) 0 (Rec.ofWords (cpyOp 1 none false).dst) 0 ⟨false, true, false⟩ true).toOption =
        some (.spad 0) ∧
      (match (cpyDone (cpyOp 20 none false)).source (own memTask (thr (cpyRegs 0))) (cpyOp 20 none false) (Rec.ofWords (cpyOp 20 none false).src) 20 0 with
        | .error (.bad c f r) => some (c, f, r)
        | _ => none) = some (7, 20, 0) ∧
      (Rec.ofWords (cpyOp 1 none false).dst).space = 1 ∧
      ebufLines memTask.ebuf memTask.parts ≤ 32 * memTask.ebPages) :=
  ⟨⟨alone_in _ _ _ _ _ rfl rfl (by decide +kernel), alone_in _ _ _ _ _ rfl rfl (by decide +kernel),
    alone_in _ _ _ _ _ rfl rfl (by decide +kernel)⟩, by decide +kernel⟩

/-- A thread with two operations of class 0 outstanding, and one with an engine fault that is due. -/
def busyThread : Thread := { thr [(2, 1)] with oc := #v[2, 0, 0, 0], issued := #v[2, 0, 0, 0] }
def faultThread : Thread := { busyThread with oc := #v[1, 0, 0, 0], eflt := #v[some ⟨0x0007, 0, 4, 1⟩, none, none, none] }

theorem test_hyps_LineWords :
    (Alone (one memTask busyThread) 0 [] 0 (own memTask busyThread) busyThread ∧
      Alone (one memTask faultThread) 0 [] 0 (own memTask faultThread) faultThread ∧
      Alone (memAt 1) 0 [1, 2] 0 (memOwn 1) (thr [(2, 1)])) ∧
    (memAt 1).meetings 1 ((memAt 1).present 0) = memAt 1 ∧
    (∃ s2, (memAt 1).release 1 0 4 = .go s2 ∧ s2.task? 1 = some (memOwn 1)) ∧
    (∃ s2 bs, ((memAt 1).rememberAll 0 (page3 0x30107)).loadKeys 1 0 (memOwn 1) 0 (memTask.record 4).pol
      [0x30104, 0x30105, 0x30106, 0x30107] = .val s2 bs) ∧
    ((one memTask busyThread).issue.lanes.Nodup ∧ busyThread.base.isNone = true ∧ busyThread.dueFault 0 2 = none ∧
      busyThread.counter 0 ≤ 2 ∧ (1 : Nat) < busyThread.counter 0 ∧ faultThread.dueFault 0 1 = some ⟨0x0007, 0, 4, 1⟩ ∧ faultThread.counter 0 ≤ 1 ∧ faultThread.baseCounter 0 ≤ 1 ∧ busyThread.baseCounter 0 = 2 ∧
      (one memTask faultThread).tvec memTask ≠ 0 ∧ faultThread.h = false ∧ faultThread.rep = none) ∧
    ((thr [(2, 1)]).posted = none ∧ (memOwn 1).narrow 2 = true ∧ (memOwn 1).narrow 4 = false ∧
      (memAt 1).sendHome 1 0 2 (memOwn 1) = memAt 1 ∧ (memAt 1).sendHome 1 0 0 (memOwn 1) = memAt 1 ∧
      (thr [(2, 1)]).lwct.getD 2 0 = 0) ∧
    (∀ k ∈ word1.keys (memOwn 1), (memAt 1).lineParts (Machine.lineOf k) = [] ∧ isReg k = false) ∧
    (((memAt 1).linePlace (memOwn 1) 0 2 1).toOption = some (.priv [128, 129, 130, 131]) ∧ recallLine 7 = none ∧
      isReg ((memOwn 1).rcd.privBase + 128) = false ∧ errOf ((memAt 1).linePlace (memOwn 1) 0 1 16) = some ⟨7, 16, 0⟩) ∧
    (((memAt 1).linePlace (memOwn 1) 0 4 1).toOption = some word1 ∧
      ((memAt 1).linePlace (memOwn 1) 0 1 1).toOption = some (.spad [4, 5, 6, 7])) ∧
    ((memTask.record 4).space = 0 ∧ fmtBits (memTask.record 4).fmt = 32 ∧
      ((memAt 1).place (memOwn 1) 0 4 (memTask.record 4) true 1 (memTask.record 4).address ⟨4, true, ⟨true, false, false⟩⟩).toOption =
        some word1 ∧ [0x30104, 0x30105, 0x30106, 0x30107].any isReg = false) :=
  ⟨⟨alone_in _ _ _ _ _ rfl rfl (by decide +kernel), alone_in _ _ _ _ _ rfl rfl (by decide +kernel), alone_in _ _ _ _ _ rfl rfl (by decide +kernel)⟩,
    by decide +kernel, went_iff _ _ (by decide +kernel), answered_iff _ (by decide +kernel), by decide +kernel⟩

/-- Threads 0 and 1 at a word, their subgroup of two named by S2. -/
def laneTask : Task := { tsk [(2, 0x10000)] with threads := [(0, thr [(1, 5)]), (1, thr [(1, 6)])] }
def laneState : State := { two with tasks := [(1, laneTask)] }
/-- A present party. -/
def party (r : Nat) (g : Bool) : Party := ⟨r, r, thr [], ⟨.perm ⟨false, 0, 3, 1, 2, 0⟩, 0x10000, 0, g, [0, 1], []⟩⟩

theorem test_hyps_CrossWords :
    (laneState.task? 1 = some laneTask ∧ KMap.ascending laneTask.threads = true ∧
      laneState.issue.lanes = (List.range 2).map (fun r => 0 + r * 1)) ∧
    ((∀ p ∈ laneTask.threads, p.2.arrival.isNone = true ∧ p.2.missed = []) ∧
      (∀ t ∈ laneState.issue.lanes, laneTask.laneOk (laneTask.sreg 2) t = true ∧ laneTask.group (laneTask.sreg 2) t = ⟨2, 0, 1⟩ ∧
        ((KMap.get? t laneTask.threads).map fun th => (laneState.issue.carries th, (laneTask.seen th).sreg 2)) =
          some (true, laneTask.sreg 2) ∧ laneState.free? laneTask t [3, 1])) ∧
    ((present [party 0 true, party 1 true]).map Party.rank = [0, 1] ∧ [0, 1].Pairwise (fun x y : Nat => x < y) ∧
      (present [party 0 false, party 1 true]).map Party.rank = [1] ∧ ((6 : BitVec 3) = 6 ∨ (7 : BitVec 3) = 6)) :=
  ⟨⟨rfl, by decide +kernel, by decide +kernel⟩, by decide +kernel⟩

theorem test_cross_broadcast :
    (match exec (.bcast ⟨false, 0, 3, 1, 2, 1⟩) laneState with
      | .next s => [0, 1].map fun t => (s.thread? 1 t).map fun th => (th.reg 3, th.pc)
      | _ => []) = [some (6, 0x30004), some (6, 0x30004)] := by decide +kernel


theorem test_hyps_AtomsAtHome_existing :
    let p : Partial := ⟨0x30104, 0, 9, 0, 1, 0, 0, 3⟩
    (([p].any fun q => q.key = p.key ∧ q.op = p.op ∧ q.fmt = p.fmt ∧ q.accn = p.accn ∧ q.tid = p.tid) = true) ∧
    (foldInto [p] { p with value := 5 }) = [{ p with value := 5 }] := by decide +kernel
/-! ### Matrix words -/

/-- A catalogue entry: threads 0 to `n - 1` of task index 0. -/
def cohort (n : Nat) : BitVec 128 := BitVec.ofNat 128 (2 ^ 127 + 2 ^ 96 + n * 2 ^ 64)
/-- A task that holds tiles 0 and 1, with the cohort of `n` threads; S4 to S6 are a descriptor whose source tile is 1, S10 a
legal operator entry, S12 to S14 the release of a register. -/
def matTask (n : Nat) : Task :=
  { tsk ([(4, 0x40000), (6, 32), (10, 0x80000000), (12, 0x80000000)] ++ recordAt 3 0 32 65 ++ [(29, 8)]) with
    tiles := [(0, 0), (1, 1)], cat := [cohort n], pages := 1 }
/-- Its binding. -/
def bind (n : Nat) : Binding := (matTask n).newBinding 0x40000 0 32
/-- The state of the matrix words: MXP, MRR and MADD sign register 0 with the format word V1. -/
def matState (n : Nat) (ths : KMap Thread) (cvs : KMap Binding) (rs : List Request) : State :=
  { one (tsk []) (thr []) with
    tasks := [(1, { matTask n with threads := ths })]
    ctxs := [(0, { loadCtx with tvec := 0x60000, optab := Vector.replicate 16 0x80000000 })]
    clusters := [(0, { Cluster.empty with cvs := cvs, table := rs })] }
def signer : List (Nat × Thread) := [(0, thr [])]
/-- The request that one signature makes, `p` passes done. -/
def mrrAt (p : Nat) : Request :=
  { id := 0, accn := 1, cv := 0, maj := 0x37, x := 0, tl := 0, stile := some 1, entry := 0x80000000, fw := 0
    rows := [(0, 0xFFFFFFFF)], signers := [0], held := [], recA := (bind 1).recA, recB := (bind 1).recB, scA := none
    scB := none, kstart := 0, klen := 32, formed := 0, pass := p, filled := [], exc := none, early := [], stopped := false, wct := 0
    admitted := true, hold := 0 }

theorem test_hyps_MatrixSigning :
    (matState 1 signer [(0, bind 1)] []).issue = ⟨1, [0], dword loadAddr, false⟩ ∧
    (Alone (matState 1 signer [(0, bind 1)] []) 0 [1] 0 { matTask 1 with threads := signer } (thr []) ∧
      KMap.get? 0 ((matState 1 signer [(0, bind 1)] []).cluster 0).cvs = some (bind 1) ∧ (bind 1).sigs = []) ∧
    (Alone (matState 2 (signer ++ [(1, thr [])]) [(0, bind 2)] []) 0 [1] 0 { matTask 2 with threads := signer ++ [(1, thr [])] } (thr []) ∧
      KMap.get? 0 ((matState 2 (signer ++ [(1, thr [])]) [(0, bind 2)] []).cluster 0).cvs = some (bind 2)) ∧
    ((bind 1).accn = 1 ∧ (bind 1).bound = true ∧ entryHas (cohort 1) 0 0 = true ∧ (KMap.get? 0 (matTask 1).tiles).isSome = true ∧
      (thr []).counter 1 < 63 ∧ (thr []).arrival.isNone = true ∧ (thr []).missed = [] ∧ entryCount (cohort 1) = 1 ∧ readsTile 0x37 = true ∧
      (KMap.get? ((bind 1).w0.toNat / 262144 % 16) (matTask 1).tiles).isSome = true) ∧
    (1 ∈ (matTask 2).members (bind 2) ∧ (thr []).live = true ∧ (bind 2).sigs.any (fun p => p.2.tid == 1) = false) ∧
    ((((matState 1 signer [(0, bind 1)] []).ctx? 0).map fun c => c.optab.getD 0 0) = some 0x80000000 ∧
      (matState 1 signer [(0, bind 1)] []).formatStep { matTask 1 with threads := [(0, ((thr []).count 1).hold .signing)] } (bind 1)
        ⟨0, 0xFFFFFFFF, 0, 0x37, 0, 0, 0, false⟩ 0x80000000 = none ∧
      (matState 1 signer [(0, bind 1)] []).operandCopies { matTask 1 with threads := [(0, ((thr []).count 1).hold .signing)] }
        (mrrAt 0) 0 (mrrAt 0).passes = [] ∧
      (matState 1 signer [(0, bind 1)] []).operandFault { matTask 1 with threads := [(0, ((thr []).count 1).hold .signing)] }
        (mrrAt 0) 0 (mrrAt 0).passes = none) := by
  refine ⟨rfl, ?_, ?_, ?_⟩ <;> decide +kernel

theorem test_hyps_MatrixPasses :
    (matState 1 signer [] [mrrAt 0]).task? 1 = some { matTask 1 with threads := signer } ∧
    ((matState 1 signer [] [mrrAt 0]).nextPass 0 = some (mrrAt 0) ∧ enExc (mrrAt 0).entry ≠ 2 ∧
      (matState 1 signer [] [mrrAt 0]).unformed 0 = [] ∧
      openLines ((matState 1 signer [] [mrrAt 0]).opnds { matTask 1 with threads := signer } (mrrAt 0) 0) = [] ∧
      passLines ((matState 1 signer [] [mrrAt 0]).opnds { matTask 1 with threads := signer } (mrrAt 0) 0) = [] ∧
      (KMap.get? (mrrAt 0).tl (matTask 1).tiles).isSome = true) ∧
    (((matState 1 signer [] []).nextPass 0).isNone = true ∧ (matState 1 signer [] []).unformed 0 = []) ∧
    (∀ r ∈ [mrrAt 4, { mrrAt 4 with held := [0] }, { mrrAt 0 with exc := some 5, held := [0] }],
      ((matState 1 signer [] [r]).cluster 0).table.find? (fun x => x.id = 0) = some r ∧
        (matState 1 signer [] [r]).retireReady 0 r = true) ∧
    (((matState 1 signer [] []).tileOf { matTask 1 with threads := signer } 0).cells.isEmpty = true ∧
      ((matState 1 signer [] []).tileOf { matTask 1 with threads := signer } 1).cells.isEmpty = true ∧
      (matState 1 signer [] []).tvec { matTask 1 with threads := signer } ≠ 0 ∧ (thr []).h = false ∧ (thr []).rep.isNone = true) :=
  ⟨rfl, by decide +kernel⟩

/-- Under EXC trap a NaN in a row that MRR sums is an exception in cell 0. -/
theorem test_hyps_MatrixPasses_trap :
    let e : Word := 0x80020000
    let row := (List.range 32).map fun n => oneSr e (some (cellRead (enAcc e) (if n = 0 then fa40.nan else 0)))
    let rs := [{ mrrAt 0 with entry := e }]
    (matState 1 signer [] rs).nextPass 0 = some { mrrAt 0 with entry := e } ∧ enExc e = 2 ∧
    (intoCell e (some 0) (treeSum e 7 row)).kind.isSome = true := by decide +kernel

/-- The entries of the pairs, and values in the cases of their operators. -/
theorem test_hyps_EngineArithmetic :
    (∀ pr ∈ [0, 1, 2, 3, 4, 6, 7], ∀ e, e = BitVec.ofNat 32 (2147483648 + pr) →
      enLegal e = true ∧ enPair e = pr ∧ enAcc e = 0 ∧ isZero pr 0 accOne = false) ∧
    (∀ pr ∈ [0, 6, 7], ∀ e, e = BitVec.ofNat 32 (2147483648 + 2048 + fmtS8 * 136 + pr) →
      enLegal e = true ∧ enPair e = pr ∧ enAcc e = 1 ∧ isZero pr 1 1 = false) ∧
    (∀ e, e = BitVec.ofNat 32 (2147483648 + 4096 + fmtB1 * 136 + 5) →
      enLegal e = true ∧ enPair e = 5 ∧ enAcc e = 2 ∧ isZero 5 2 1 = false) ∧
    (accOne < 2 ^ 40 ∧ fa40.isNan accOne = false ∧ fa40.isNan accNan = true ∧ accNan < 2 ^ 40 ∧ 0x8000000000 < accNegInf ∧
      accNegInf < 2 ^ 40 ∧ fa40.isNan (fa40.mul FMode.rn accOne accOne).1 = false ∧
      fa40.isNan (fa40.mul FMode.rn accInf 0).1 = true ∧ fa40.isNan (fa40.add FMode.rn accInf accNegInf).1 = true ∧
      fa40.isNan (fa40.add FMode.rn accOne accOne).1 = false) ∧
    (fa40.isNan (fa40.roundVal FMode.rn (mulVal (intVal 1) (fa40.value accNan))).1 = true ∧
      fa40.isNan (fa40.roundVal FMode.rn (mulVal (intVal 3) (fa40.value accOne))).1 = false ∧
      (fa40.value (fa40.roundVal FMode.rn (mulVal (intVal 3) (fa40.value accOne))).1).int? = some 3 ∧
      fa40.isNan (fa40.roundVal FMode.rn (mulVal (intVal 3) (fa40.value accNegInf))).1 = false ∧
      fa40.value (fa40.roundVal FMode.rn (mulVal (intVal 3) (fa40.value accNegInf))).1 = .inf true) ∧
    [SVal.empty, SVal.empty].length = 2 ^ 1 := by
  refine ⟨?_, ?_, ?_, by decide +kernel, by decide +kernel, rfl⟩
  · intro pr hp e he; subst he; revert pr; decide +kernel
  · intro pr hp e he; subst he; revert pr; decide +kernel
  · intro e he; subst he; decide +kernel

/-- MLD of padded rows alone, and MST of rows that are all padding. -/
def ldAt : Request := { mrrAt 0 with maj := 0x38 }
def stAt : Request := { mrrAt 0 with maj := 0x38, x := 1 }

theorem test_hyps_MatrixPasses_moves :
    (matState 1 signer [] [ldAt]).nextPass 0 = some ldAt ∧
    passLines ((matState 1 signer [] [ldAt]).opnds { matTask 1 with threads := signer } ldAt 0) = [] ∧
    openLines ((matState 1 signer [] [ldAt]).opnds { matTask 1 with threads := signer } ldAt 0) = [] ∧
    openLines ((matState 1 signer [] [stAt]).opnds { matTask 1 with threads := signer } stAt 0) = [] ∧
    (matState 1 signer [] [stAt]).nextPass 0 = some stAt ∧
    (matState 1 signer [] [stAt]).storeFull { matTask 1 with threads := signer } stAt = false ∧
    ({ matTask 1 with threads := signer } : Task).buffers = true ∧ (Rec.ofWords stAt.recB).space = 0 := by
  refine ⟨?_, ?_, ?_, ?_, ?_, ?_, ?_, ?_⟩ <;> decide +kernel

/-- With an older task that holds register 1, in the eyes of an irrevocable one. -/
def rivalState : State :=
  { matState 1 signer [] [] with
    tasks := [(0, { loadTask with rcd := { loadRec with accn := 0 } }), (1, { matTask 1 with threads := signer, irrevocable := true })]
    clusters := [(0, { Cluster.empty with cvs := [(1, { bind 1 with accn := 0 })] })] }

theorem test_hyps_MatrixTaskWords :
    ((matState 1 signer [] []).task? 1 = some { matTask 1 with threads := signer } ∧ (matTask 1).rcd.accn = 1 ∧
      (matState 1 signer [] []).issue.lanes.Nodup ∧ (matState 1 signer [] []).carried = [0]) ∧
    (descOk ((matTask 1).sreg 4) ((matTask 1).sreg 5) ((matTask 1).sreg 6) = true ∧ ((matTask 1).sreg 4).toNat < 2147483648 ∧
      (matTask 1).ownCohort (cohort 1) = true ∧ (matTask 1).wants.isEmpty = true ∧
      (matState 1 signer [] []).fits { matTask 1 with threads := signer } 4 0 = true) ∧
    ((KMap.get? 0 ((matState 1 signer [(0, bind 1)] []).cluster 0).cvs) = some (bind 1) ∧ (bind 1).w0 = (matTask 1).sreg 4) ∧
    (rivalState.fits { matTask 1 with threads := signer, irrevocable := true } 4 1 = false ∧
      rivalState.decide { matTask 1 with threads := signer, irrevocable := true } 4 1 = .blocked ∧
      ((KMap.get? 1 (rivalState.cluster 0).cvs).map Binding.accn) = some 0) ∧
    ((matTask 1).sreg 12 = 0x80000000 ∧ (matTask 1).sreg 13 = 0 ∧ (matTask 1).sreg 14 = 0 ∧ (bind 1).sigs.isEmpty = true) ∧
    (enValid 0 = false ∧ enLegal ((matTask 1).sreg 10) = true ∧ (matState 1 signer [] []).regs.level ≠ 1) ∧
    (KMap.get? 0 (matTask 1).tiles = some 0 ∧ KMap.get? 1 (matTask 1).tiles = some 1 ∧
      (matState 1 signer [] []).tileBusy { matTask 1 with threads := signer } 0 = false) ∧
    (((matTask 1).sreg 0).toNat < 256 ∧ ((matTask 1).record 3).ok = true ∧ ((matTask 1).record 3).fmt = fmtBF16 ∧
      ((matTask 1).record 3).space = 1 ∧ ((matState 1 signer [] []).bookRoom 0 0).isSome = true ∧ bf16.isNan 0 = false) ∧
    (let w := (matTask 1).recWords 3;
      scaleOk (some w) = true ∧ (Rec.ofWords w).bmode = 0 ∧ (Rec.ofWords w).address ((Rec.ofWords w).used 0) % 2 = 0 ∧
      (match (matState 1 signer [] []).opnd { matTask 1 with threads := signer } (Rec.ofWords w) 1 0 readOnly with
        | .spad _ _ => true
        | _ => false) = true ∧
      (KMap.get? (scaleKey (matTask 1).launch (Rec.ofWords w) ((Rec.ofWords w).address ((Rec.ofWords w).used 0)))
        ((matState 1 signer [] []).cluster 0).scales).isNone = true ∧
      (matState 1 signer [] []).cluster 0 = { Cluster.empty with cvs := [], table := [] } ∧ (Rec.ofWords w).used 0 < (Rec.ofWords w).extent) ∧
    20 ≤ (20 : BitVec 6).toNat := by
  refine ⟨⟨?_, ?_, ?_⟩, ?_⟩ <;> decide +kernel

/-- R262: the sixteen elements of a scratchpad record that nothing has written. -/
theorem test_codebook_read :
    State.readBook 1 0 3 { matTask 1 with threads := signer } 0 16 (matState 1 signer [] []) =
      .vals (matState 1 signer [] []) (List.replicate 16 0) := by decide +kernel

/-- R265: MQRY of a tile that one request names. -/
theorem test_mqry :
    sregOf 1 (exec (.mqry ⟨false, 1, 1, false⟩) (matState 1 signer [] [mrrAt 0])) = some 256 := by decide +kernel

/-! ### Task words, locks, barriers, records -/

/-- The context of these words: incumbent 3 is set up. -/
def incCtx : Ctx := { loadCtx with tvec := 0x60000, inccfg := 8, incs := [(3, ⟨10, 10, []⟩)] }
/-- A task state with chosen task fields and contexts. -/
def taskState (tk : Task) : State :=
  { one tk (thr []) with ctxs := [(0, incCtx), (1, loadCtx)] }

/-- A task word is carried out. -/
def actDone (p : State → Nat → Bool) : Act → Bool
  | .done s v => p s v
  | _ => false

theorem actDone_iff (p : State → Nat → Bool) (x : Act) (h : actDone p x = true) : ∃ s v, x = .done s v ∧ p s v = true := by
  cases x with
  | done s v => exact ⟨s, v, rfl, h⟩
  | wait _ _ => cases h
  | later _ => cases h
  | fault _ _ _ => cases h

/-- BOUND: S2 selects incumbent 3, S3 as a non-strict bound. XREL: S11 names one page, S12 tile 0, S13 no class. XACQ: S4 asks for one chunk, S5 for five, S6 for one page of effect buffer. CMTX: S8 is the
default matrix, S10 names context 1. -/
def wordTask : Task :=
  tsk [(2, 0x23), (3, 0x33), (11, 0x102), (12, 0x10001), (13, 4), (4, 0x100), (5, 0x500), (6, 0x103), (7, 0x6403), (8, 0x0B271FFF), (9, 0x01012503), (10, 1)]

/-- An irrevocable task beside an older one that holds 60 of 124 pages of effect buffer; S7 asks for 100. -/
def beside : Task := { wordTask with irrevocable := true }
def besideOlder : State :=
  { taskState beside with
    tasks := [(0, { loadTask with rcd := { loadRec with accn := 0 }, ebPages := 60 }), (1, own beside (thr []))] }

theorem test_hyps_TaskWords :
    Reaches (taskState wordTask) 0 (own wordTask (thr [])) (thr []) ∧
    Reaches (taskState { wordTask with irrevocable := true }) 0 (own { wordTask with irrevocable := true } (thr [])) (thr []) ∧
    Reaches (taskState { wordTask with bsel := 0x23 }) 0 (own { wordTask with bsel := 0x23 } (thr [])) (thr []) ∧
    (Reaches besideOlder 0 (own beside (thr [])) (thr []) ∧ beside.neverFits 3 100 = false ∧
      besideOlder.fits (own beside (thr [])) 3 100 = false ∧ besideOlder.decide (own beside (thr [])) 3 100 = .blocked) ∧
    (∃ s1 v, releaseRes 4 (taskState { wordTask with chunks := 1 }) (own { wordTask with chunks := 1 } (thr [])) 0 = .done s1 v ∧
      decide (v = 1 ∧ (s1.task? 1).map Task.chunks = some 0 ∧ s1.thread? 1 0 = some (thr [])) = true) ∧
    (taskState wordTask).release 1 0 4 = .go (taskState wordTask) ∧
    ((taskState wordTask).ctx? 0 = some incCtx ∧ (wordTask.sreg 2).toNat < 64 ∧ incCtx.inccfg.getLsbD 3 = true ∧
      wordTask.bsel.getLsbD 5 = false ∧ (0x23 : BitVec 6).getLsbD 5 = true ∧ (wordTask.sreg 2).toNat % 16 = (0x23 : BitVec 6).toNat % 16 ∧
      (wordTask.sreg 2).getLsbD 4 = (0x23 : BitVec 6).getLsbD 4 ∧ (wordTask.sreg 3).getLsbD 4 = true ∧
      (wordTask.sreg 3).toNat % 16 = (0x23 : BitVec 6).toNat % 16 ∧ (wordTask.sreg 0).getLsbD 5 = false) ∧
    (wordTask.neverFits 0 5 = true ∧ wordTask.neverFits 0 1 = false ∧ (taskState wordTask).fits (own wordTask (thr [])) 0 1 = true ∧
      (taskState wordTask).fits (own wordTask (thr [])) 3 1 = true ∧ ((taskState wordTask).grant 1 0 1).issue = (taskState wordTask).issue ∧
      wordTask.wants.isEmpty = true) ∧
    ((taskState wordTask).isDet wordTask = false ∧ (taskState wordTask).dominatedNow wordTask = false ∧
      (taskState wordTask).hasTurn wordTask = true ∧ wordTask.commitT = none ∧ wordTask.ebuf.isEmpty = true) ∧
    (matrixOk (pair (wordTask.sreg 8) (wordTask.sreg 9)) = true ∧ ((taskState wordTask).ctx? 1).isSome = true ∧
      wordTask.ctx = 0 ∧ (taskState wordTask).locks.isEmpty = true) ∧
    (({ wordTask with ctx := 1 }).ctx ≠ 0 ∧
      ({ taskState { wordTask with ctx := 1 } with ctxs := [(1, incCtx)] } : State).tvec { wordTask with ctx := 1 } ≠ 0) :=
  ⟨by decide +kernel, by decide +kernel, by decide +kernel, by decide +kernel, actDone_iff _ _ (by decide +kernel),
    by decide +kernel, by decide +kernel⟩

/-- The task of the task words with a tile, a page and a page of effect buffer, on a cluster with the table `rs` and a core with the
scoreboard `es`. -/
def tiledTask : Task := { wordTask with tiles := [(0, 0)], pages := 1, spots := [(0, 0)], ebPages := 1, chunks := 1 }
def tiledState (rs : List Request) (es : List RangeEntry) : State :=
  { taskState tiledTask with
    clusters := [(0, { Cluster.empty with table := rs })]
    cores := [(0, { Core.empty with squads := [(0, ⟨1, 0, true⟩)], nextSquad := 1, board := es })] }

theorem test_hyps_TaskWords_release :
    (∀ r ∈ [12, 11, 6], ∃ s1 v, releaseRes r (tiledState [] []) (own tiledTask (thr [])) 0 = .done s1 v ∧
      decide (v = 1 ∧ s1.thread? 1 0 = some (thr []) ∧ (s1.task? 1).isSome = true) = true) ∧
    Reaches (tiledState [] []) 0 (own tiledTask (thr [])) (thr []) ∧
    Reaches (tiledState [mrrAt 0] [⟨1, 0, 4096, false, 0⟩]) 0 (own tiledTask (thr [])) (thr []) ∧
    (mrrAt 0).accn = tiledTask.rcd.accn ∧ (mrrAt 0).tl = 0 ∧ (KMap.get? 0 tiledTask.tiles).isSome = true ∧
    (tiledTask.sreg 13).toNat % 16 = 4 ∧ (tiledState [] []).tvec tiledTask ≠ 0 ∧
    (tiledState [] []).reachGroup (own tiledTask (thr [])) (thr []) 0 = [] :=
  ⟨fun r hr => actDone_iff _ _ (by revert r; decide +kernel), by decide +kernel⟩

theorem test_hyps_CommitTime :
    (let tk := { bufTask with ebuf := [(0x30104, ⟨7, 0, 3⟩)] }
     let s := mapped tk (thr [])
     s.task? 1 = some (own tk (thr [])) ∧ (∀ p ∈ tk.ebuf, s.lineParts (Machine.lineOf p.1) = []) ∧ tk.ebuf ≠ []) ∧
    (let tk := { irrTask with commitT := some 5, parts := [⟨0x30104, 0, 9, 7, 1, 0, 0, 3⟩] }
     let s := { mapped tk (thr []) with dtime := 5 }
     s.task? 1 = some (own tk (thr [])) ∧ tk.irrevocable = true ∧ tk.commitT = some 5 ∧ s.dtime ≤ 5 ∧
      5 < ({ s with dtime := 6 } : State).dtime) ∧
    (let w : HomeWrite := ⟨9, 3, [], 0, [1], 4, true, [0]⟩
     let s := { State.reset with writes := [w] }
     w ∈ s.writes ∧ w.line = 3 ∧ s.dtime < w.wct ∧ (s.home 3).lease ≤ w.bound) :=
  ⟨⟨rfl, by decide +kernel⟩, ⟨rfl, rfl, rfl, by decide +kernel⟩, by decide +kernel⟩

/-- The lock words: S4 asks for the tensor of slot 1 in X, S5 in IX, S6 names it for a release, S7 asks for its tile 0 in S, S3 for
the tensor in S. -/
def lockTask : Task := tsk ([(4, 0x206), (5, 0x202), (6, 0x200), (7, 0x283), (3, 0x203)] ++ recordAt 1 0 16 9)
/-- The tensor's name. -/
def lockNm : LockName := ⟨0, 0, 0, 0, 0⟩
/-- The tile's. -/
def tileNm : LockName := ⟨0, 0, 1, 0, 0⟩
def lockState (tk : Task) (es : List LockEntry) : State := { one tk (thr []) with locks := es }

/-- The holds of the clauses: an older task in X, for which the task waits; none; the task itself in X; an older task in X; the task itself in S; in X with its release pending. -/
def lockCases : List (List LockEntry) :=
  [[⟨lockNm.key, 0, 6, false, none⟩, ⟨lockNm.key, 1, 0, false, some ⟨6, false, [0]⟩⟩], [], [⟨lockNm.key, 1, 6, false, none⟩], [⟨lockNm.key, 0, 6, false, none⟩], [⟨lockNm.key, 1, 3, false, none⟩], [⟨lockNm.key, 1, 6, true, none⟩]]

theorem test_hyps_LockWords :
    (∀ es ∈ lockCases, Alone (lockState lockTask es) 0 [0, 1] 0 (own lockTask (thr [])) (thr []) ∧
      (lockState lockTask es).meetings 1 (lockState lockTask es).carried = lockState lockTask es ∧
      (lockState lockTask es).lowerAwaits [0, 1] (own lockTask (thr [])) 0 (thr []) = false) ∧
    (lockCases.map fun es => (lockState lockTask es).inWait 1 0) = [true, false, false, false, false, false] ∧
    (lockTask.rcd.accn = 1 ∧ lockTask.stop = none ∧ (thr []).outcome = none ∧ lockTask.isBuf = true ∧ lockTask.buffers = true) ∧
    (∀ es ∈ lockCases, ((lockState lockTask es).lockName (own lockTask (thr [])) false 4 0).toOption = some lockNm ∧
      ((lockState lockTask es).lockName (own lockTask (thr [])) false 3 0).toOption = some lockNm ∧
      ((lockState lockTask es).lockName (own lockTask (thr [])) false 7 0).toOption = some tileNm ∧
      ((lockState lockTask es).lockName (own lockTask (thr [])) true 6 0).toOption = some lockNm) ∧
    ((lockState lockTask []).intended tileNm 1 3 = false ∧ (lockState lockTask []).coveredAbove tileNm 1 3 = false ∧
      (lockState lockTask []).tvec (own lockTask (thr [])) ≠ 0 ∧ (thr []).h = false ∧ (thr []).rep = none) ∧
    (let s := lockState lockTask [⟨lockNm.key, 1, 3, false, none⟩];
      s.coveredAbove tileNm 1 3 = true ∧ s.lockOf tileNm.key 1 = none ∧ s.intended lockNm 1 3 = true ∧ s.intended lockNm 1 6 = true ∧
      s.coveredAbove lockNm 1 6 = false) ∧
    (let s := lockState lockTask [⟨lockNm.key, 1, 6, false, none⟩];
      s.lockOf lockNm.key 1 = some ⟨lockNm.key, 1, 6, false, none⟩ ∧ s.descendantHeld lockNm 1 = false ∧ covers 6 6 = true) ∧
    ((lockState lockTask []).lockOf lockNm.key 1 = none ∧ (lockState lockTask []).intended lockNm 1 6 = true ∧
      (lockState lockTask []).coveredAbove lockNm 1 6 = false ∧ lockNm.level ≠ 2 ∧
      (lockState lockTask []).homeUsed lockNm.key < homeEntries (lockHome lockNm.key) ∧
      (lockState lockTask []).rivals lockNm.key 1 6 = []) ∧
    (let s := lockState lockTask [⟨lockNm.key, 0, 6, false, none⟩];
      s.rivals lockNm.key 1 6 = [⟨0, true⟩] ∧ s.immuneAt 1 = false ∧ s.lockOf lockNm.key 1 = none ∧
      s.homeUsed lockNm.key < homeEntries (lockHome lockNm.key)) ∧
    (let s := lockState lockTask [⟨lockNm.key, 1, 3, false, none⟩];
      s.lockOf lockNm.key 1 = some ⟨lockNm.key, 1, 3, false, none⟩ ∧ covers 3 6 = false ∧ covers 3 3 = true ∧
      s.intended lockNm 1 (joinMode 3 2) = true ∧ joinMode 3 2 ≠ 3 ∧ joinMode 3 1 = 3 ∧ s.upRivals lockNm.key 1 (joinMode 3 2) = [] ∧
      s.descendantHeld lockNm 1 = false ∧ defers 3 = false ∧ s.relGroup (own lockTask (thr [])) ⟨0, 1, 6⟩ lockNm.key 0 = []) ∧
    (defers 6 = true) ∧
    (lockState lockTask [⟨lockNm.key, 1, 3, false, none⟩]).release 1 0 4 = .go (lockState lockTask [⟨lockNm.key, 1, 3, false, none⟩]) ∧
    (lockState lockTask [⟨lockNm.key, 1, 6, true, none⟩]).lockOf lockNm.key 1 = some ⟨lockNm.key, 1, 6, true, none⟩ :=
  by refine ⟨?_, ?_, ?_, ?_, ?_, ?_, ?_, ?_, ?_, ?_, ?_, ?_, ?_⟩ <;> decide +kernel

/-- A request that the home has no entry for, one of an immune task against an older holder, and one that wounds a younger holder. -/
theorem test_hyps_LockWords_full_blocked :
    (let s := lockState lockTask (List.replicate 2731 ⟨lockNm.key, 0, 0, false, none⟩);
      homeEntries (lockHome lockNm.key) ≤ s.homeUsed lockNm.key ∧ s.lockOf lockNm.key 1 = none) ∧
    (let tk := { lockTask with irrevocable := true };
      let s := lockState tk [⟨lockNm.key, 0, 6, false, none⟩];
      Alone s 0 [0, 1] 0 (own tk (thr [])) (thr []) ∧ s.immuneAt 1 = true ∧ s.rivals lockNm.key 1 6 = [⟨0, true⟩]) ∧
    (let s := { lockState lockTask [⟨lockNm.key, 2, 6, false, none⟩] with tasks := [(1, own lockTask (thr [])), (2, loadTask)] };
      s.rivals lockNm.key 1 6 = [⟨2, true⟩] ∧ s.immuneAt 1 = false ∧ s.immuneAt 2 = false ∧ (s.task? 2).isSome = true) := by
  refine ⟨?_, ?_, ?_⟩ <;> decide +kernel

/-- The task holds 256 lines of its tile, besides `es`; S20 asks for the line of element 0 in S. -/
def linesHeld (es : List LockEntry) : State :=
  lockState (lockTask.setS 20 0x303) (⟨lockNm.key, 1, 1, false, none⟩ :: ⟨tileNm.key, 1, 1, false, none⟩ :: es ++
    (List.range 256).map fun i => ⟨LockName.key ⟨0, 0, 2, 0, i + 1⟩, 1, 3, false, none⟩)
/-- The line of element 0. -/
def lineNm : LockName := ⟨0, 0, 2, 0, 0⟩

theorem test_hyps_LockWords_lines :
    (∀ p ∈ [([], true), ([⟨tileNm.key, 0, 6, false, none⟩], false)],
      let s := linesHeld p.1
      (s.lockName (own (lockTask.setS 20 0x303) (thr [])) false 20 0).toOption = some lineNm ∧ s.lockOf lineNm.key 1 = none ∧
      s.intended lineNm 1 3 = true ∧ s.coveredAbove lineNm 1 3 = false ∧ s.intended tileNm 1 3 = true ∧
      (s.locks.filter fun e => e.accn = 1 ∧ e.mode ≠ 0 ∧ (nameOf e.name).level = 2 ∧ (nameOf e.name).below tileNm = true).length = 256 ∧
      (s.locks.all fun e => e.name ≠ tileNm.key || e.accn == 1 || e.mode == 0 || compat (s.matrixOf 0) 3 e.mode) = p.2 ∧
      ∀ e ∈ s.locks, e.lineOf 1 tileNm = true → e.wait = none) ∧ joinMode 1 3 = 3 ∧ joinMode 3 3 = 3 := by
  decide +kernel

/-- A thread joins a wait of its task: a request of the same mode, an upgrade to the mode awaited with a release pending. -/
theorem test_hyps_LockWords_join :
    (let e : LockEntry := ⟨lockNm.key, 1, 0, false, some ⟨6, false, [5]⟩⟩;
      let s := lockState lockTask [e];
      Alone s 0 [0, 1] 0 (own lockTask (thr [])) (thr []) ∧ s.inWait 1 0 = false ∧ s.lockOf lockNm.key 1 = some e ∧
      s.coveredAbove lockNm 1 6 = false ∧ s.intended lockNm 1 6 = true) ∧
    (let e : LockEntry := ⟨lockNm.key, 1, 3, true, some ⟨6, true, [5]⟩⟩;
      let s := lockState lockTask [e];
      Alone s 0 [0, 1] 0 (own lockTask (thr [])) (thr []) ∧ s.inWait 1 0 = false ∧ s.lockOf lockNm.key 1 = some e ∧
      s.intended lockNm 1 (joinMode 3 6) = true ∧ s.coveredAbove lockNm 1 6 = false) := by
  refine ⟨?_, ?_⟩ <;> decide +kernel

/-- R346, R348: the name is free, and is granted. -/
theorem test_lkreq :
    (match exec (.lkreq ⟨0, 1, 4⟩) (lockState lockTask []) with
      | .next s => some ((s.thread? 1 0).map (fun th => th.reg 0), s.locks)
      | _ => none) = some (some 0, [⟨0, 1, 6, false, none⟩]) := by decide +kernel

/-- A barrier word for the whole task in S4, an event's address in V2. -/
def barTask : Task := tsk [(4, 0x100)]
/-- A thread that has arrived once. -/
def arrivedThread (done : Bool) : Thread :=
  { thr [(2, 0x30110)] with bars := [⟨0, true, 1, true, 0, done, true⟩], outcome := some 0 }

theorem test_hyps_BarrierWords :
    (∀ th ∈ [thr [(2, 0x30110)], arrivedThread true, arrivedThread false],
      Alone (mapped barTask th) 0 [1, 2, 3] 0 (own barTask th) th ∧
      (mapped barTask th).meetings 1 (mapped barTask th).carried = mapped barTask th) ∧
    (barTask.barOk (barTask.sreg 4) 0 = true ∧ ((thr []).bar true 0).unwaited = false ∧
      barTask.barScope (barTask.sreg 4) = 1 ∧ (mapped barTask (thr [])).release 1 0 1 = .go (mapped barTask (thr []))) ∧
    (∃ s2 bs, ((mapped barTask (thr [])).rememberAll 0 (page3 0x3011F)).loadKeys 1 0 (own barTask (thr [])) 0 0
      ((List.range 16).map (0x30110 + ·)) = .val s2 bs) ∧
    (((arrivedThread true).bar true 0).unwaited = true ∧ ((arrivedThread true).bar true 0).done = true ∧
      ((arrivedThread false).bar true 0).done = false ∧ (arrivedThread true).outcome.isSome = true ∧ (thr []).outcome = none) ∧
    (((thr [(2, 0x30110)]).addr2 2 < 72057594037927936 ∧ (thr [(2, 0x30110)]).addr2 2 % 16 = 0) ∧
      ((mapped barTask (thr [])).keysOf 0 ⟨true, false, false⟩ 0x30110 16).toOption =
        some ((List.range 16).map (0x30110 + ·), page3 0x3011F) ∧ ((List.range 16).map (0x30110 + ·)).any isReg = false) ∧
    (((mapped barTask (thr [])).cohort (own barTask (thr [])) true 0).all ((mapped barTask (thr [])).hasArrived true 0 1) = false ∧
      ((mapped barTask (arrivedThread false)).cohort (own barTask (thr [])) true 0).all
        ((mapped barTask (arrivedThread false)).hasArrived true 0 1) = true ∧
      (⟨1, 0, 0⟩ : Member) ∈ (mapped barTask (arrivedThread false)).cohort (own barTask (thr [])) true 0 ∧
      (mapped barTask (arrivedThread false)).isArriver true 0 1 ⟨1, 0, 0⟩ = true ∧
      (mapped barTask (arrivedThread false)).cohort (own barTask (thr [])) true 0 = [⟨1, 0, 0⟩]) := by
  refine ⟨by decide +kernel, ⟨by decide +kernel, by decide +kernel, by decide +kernel, by decide +kernel⟩, answered_iff _ (by decide +kernel), by decide +kernel,
    by decide +kernel, by decide +kernel⟩

/-- Tables as in `mapped`, and `m` at a record's address 0x30200. -/
def spawnState (m : Memory) : State :=
  { one { tsk [(4, 1), (2, 3)] with irrevocable := true } (thr [(2, 0x30200)]) with
    mem := [(0x1000, 1), (0x1001, 0x20), (0x2000, 1), (0x2001, 0x30), (0x3000, 0x1F)] ++ m
    ctxs := [(0, { incCtx with ptroot := 0x1000 })] }
/-- A record of one thread with an event at 0x30300. -/
def goodRecord : Memory := [(0x30202, 3), (0x30228, 1), (0x30241, 3), (0x30242, 3)]
/-- Its task. -/
def spawnTask : Task := own { tsk [(4, 1), (2, 3)] with irrevocable := true } (thr [(2, 0x30200)])
/-- What the checks of SPAWN answer for a record that is legal, and whether the launches are as they were. -/
def spawnAnswer (s : State) : Option ((Nat × Nat) × Bool) :=
  match State.spawnRecords 1 0 spawnTask 1 s 0x30200 with
  | .got s2 bss =>
    if (s2.recordBad ⟨0, false, false, 1, 0⟩ bss).isSome then none
    else (match State.spawnCats 1 0 spawnTask 0 bss s2 with
    | (s3, some cats) => some (s3.spawnCheck ⟨0, false, false, 1, 0⟩ bss cats, decide (s2.launches = s.launches))
    | _ => none)
  | _ => none

theorem test_hyps_SpawnWords :
    (∀ m ∈ [[], goodRecord], Alone (spawnState m) 0 [0, 1, 2, 3] 0 spawnTask (thr [(2, 0x30200)]) ∧ (spawnState m).ctx? 0 = some { incCtx with ptroot := 0x1000 }) ∧
    (∃ s1, (spawnState goodRecord).release 1 0 4 = .go s1 ∧ spawnAnswer s1 = some ((0, 0), true)) ∧
    (∃ s1, (spawnState goodRecord).release 1 0 4 = .go s1 ∧ spawnAnswer { s1 with accn := 2 ^ 48 } = some ((7, 0), true)) ∧
    (∃ s1, (spawnState []).release 1 0 4 = .go s1 ∧ (match State.spawnRecords 1 0 spawnTask 1 s1 0x30200 with
      | .got s2 bss => some (s2.recordBad ⟨0, false, false, 1, 0⟩ bss, decide (s2.launches = s1.launches))
      | _ => none) = some (some 0, true)) ∧
    ((spawnTask.sreg 2).toNat < 16 ∧ incCtx.inccfg.getLsbD 3 = true ∧ KMap.get? 3 incCtx.incs = some ⟨10, 10, []⟩ ∧
      (spawnState []).isDet spawnTask = false) ∧
    (0 < (spawnTask.sreg 4).toNat ∧ (spawnTask.sreg 4).toNat < 65536 ∧ spawnTask.stop = none ∧ (spawnState []).follows 0 = false ∧ spawnTask.irrevocable = true ∧
      spawnTask.commitT = none ∧ 0x30200 % 128 = 0) ∧
    (({ spawnState [] with launches := [(0, ⟨0, true, false, false, 1, 0, none, [], false⟩)] } : State).isDet spawnTask = true) :=
  ⟨by decide +kernel, went_iff _ _ (by decide +kernel), went_iff _ _ (by decide +kernel), went_iff _ _ (by decide +kernel),
    by decide +kernel⟩

/-- Its launch is deterministic. -/
def detSpawn : State := { spawnState [] with launches := [(0, ⟨0, true, false, false, 1, 0, none, [], false⟩)] }

/-- Words of SPAWN: none, one of a reserved bit, children elsewhere, a launch. -/
theorem test_hyps_SpawnWords_words :
    (Alone detSpawn 0 [0, 1, 2, 3] 0 spawnTask (thr [(2, 0x30200)]) ∧ detSpawn.isDet spawnTask = true ∧
      detSpawn.task? 1 = some spawnTask ∧ spawnTask.lowerWaits 0 (thr [(2, 0x30200)]) = false ∧ (detSpawn.ctx? 0).isSome = true) ∧
    (Alone (spawnState []) 0 [0, 2, 3] 0 spawnTask (thr [(2, 0x30200)]) ∧ (spawnState []).follows 0 = false ∧ spawnTask.stop = none ∧
      (spawnState []).tvec spawnTask ≠ 0) ∧
    (spawnTask.ctx = 0 ∧ (0x400001 : Word).getLsbD 22 = true ∧ (0x400001 : Word).toNat < 8388608 ∧ 0x400001 % 65536 = 1 ∧
      8388608 ≤ (0x800001 : Word).toNat ∧ 0x10001 / 65536 % 64 ≠ 0 ∧ (0x10001 : Word).getLsbD 22 = false) := by
  refine ⟨?_, ?_, ?_⟩ <;> decide +kernel

/-- A record of one thread with an event, and other bytes at the listed places. -/
def recBytes (m : List (Nat × Byte)) : List Byte :=
  (List.range 128).map fun i => KMap.getD i 0 (m ++ [(2, 3), (0x28, 1), (0x41, 3), (0x42, 3)])
/-- A catalogue whose entry has a stride of 0. -/
def badCat : List (BitVec 128) := [BitVec.ofNat 128 (2 ^ 127)]
/-- Children, or a launch in context 0. -/
def spawnOf (launch : Bool) : SpawnFor := ⟨0, launch, false, 1, 0⟩

/-- RECORD fails at the second record, or as a whole without its context; CATALOGUE; LAUNCH by other flags; FIT by five pages in each
of seven slices; QUEUE at 4096 records; and nothing fails. -/
theorem test_hyps_SpawnWords_checks :
    State.reset.recordBad ⟨5, false, false, 1, 0⟩ [recBytes []] = some 0 ∧
    (spawnState []).recordBad (spawnOf false) [recBytes [], recBytes [(0, 1)]] = some 1 ∧
    (spawnState []).spawnCheck (spawnOf false) [recBytes []] [some badCat] = (5, 0) ∧
    (spawnState []).spawnCheck (spawnOf true) [recBytes [], recBytes [(0x20, 32)]] [some [], some []] = (6, 1) ∧
    (spawnState []).spawnCheck (spawnOf false) [recBytes [(0x2C, 0x80), (0x2D, 0x3F)]] [some []] = (3, 0) ∧
    ({ spawnState [] with tasks := List.replicate 4096 (7, { loadTask with phase := .queued }) }).spawnCheck
      (spawnOf false) [recBytes []] [some []] = (1, 0) ∧
    (spawnState []).spawnCheck (spawnOf true) [recBytes [(0x20, 16)]] [some []] = (0, 0) := by
  refine ⟨?_, ?_, ?_, ?_, ?_, ?_, ?_⟩ <;> decide +kernel

/-- R306, R324: a lower value is offered at the home of a minimum. -/
theorem test_incset :
    ((threadOf (exec (.incset ⟨0, 6, 2⟩) { spawnState [] with
      tasks := [(1, own (tsk [(2, 3)]) (thr [(6, 7)]))] })).map fun th => (th.reg 0, th.reg 1)) = some (7, 0) := by decide +kernel

/-! ### Events -/

/-- A state with chosen registers, a descriptor of a context at 0x80000, context 0 and one thread. -/
def evState (r : Regs) (tk : Task) (th : Thread) : State :=
  { one tk th with mem := [(0x8001C, 1), (0x8001D, 0x10)], regs := r }
/-- Full service. -/
def fullRegs : Regs := { Regs.reset with level := 2 }
/-- A stopped thread, and one whose image stands in the save reserve. -/
def stoppedThread : Thread := { thr [] with halted := true }
def imagedThread : Thread :=
  { stoppedThread with
    image := some ⟨0x90000, dword loadAddr, 0, 0, 0, 0, Vector.replicate 4 0, Vector.replicate 64 0, Vector.replicate 7 0, none,
      Vector.replicate 4 none⟩ }
/-- A request of peer 1 to read, and an outstanding request of the thread. -/
def farRead : RemoteReq := ⟨1, 5, 0, 4, .load 4⟩
def outReq (posted : Bool) : OutReq := ⟨{ farRead with tag := 9 }, 1, 1, 0, 2 ^ 56, 4, posted, false, none, none, 0, 0, 0, none, 0, false, 0⟩

/-- The same with an update-only copy of the line of `k`. -/
def copyAt (s : State) (k : Nat) : State :=
  { s with cores := [(0, { Core.empty with parts := [⟨k, 0, 9, 7, 1, 0, 0, 3⟩] })] }

theorem test_hyps_SupervisorEvents :
    (let s := { evState fullRegs (tsk []) (thr []) with ctxs := [] };
      s.ctx? 5 = none ∧ (s.readCtx 0x80000).isSome = true ∧ s.copied (linesOf 0x80000 256) = none ∧
      (copyAt s 0x800FC).copied (linesOf 0x80000 256) = some (Machine.lineOf 0x800FC)) ∧
    (let s := evState fullRegs (tsk []) (thr []);
      s.regs.serves = true ∧ s.roeCopies { loadCtx with tvec := 0x60000 } 0 3 = none ∧ s.pageCopies 0 3 = none ∧
      (copyAt s 0x1000).pageCopies 0 3 = some (Machine.lineOf 0x1000) ∧
      (s.ctx? 0).isSome = true ∧ s.readCtx 0 = none ∧ s.copied (linesOf 0 256) = none ∧ (s.tasks.any fun p => p.2.ctx = 0) = true ∧
      s.ctx? 0 = some { loadCtx with tvec := 0x60000 } ∧ loadCtx.gen = 0 ∧ s.inFlight 0 1 = false ∧
      ({ s with outs := [(9, outReq false)] } : State).inFlight 0 1 = true ∧ s.underOld 0 0 = false ∧ s.linked = true ∧
      s.dtime ≤ 1 ∧ 1 < ({ s with dtime := 2 } : State).dtime) ∧
    (let s := { evState fullRegs (tsk []) (thr []) with ctxs := [(0, loadCtx), (3, loadCtx)] };
      (s.tasks.any fun p => p.2.ctx = 3) = false ∧ (s.ctx? 3).isSome = true) ∧
    (let r := { fullRegs with shdsts := BitVec.ofNat 64 (9223372036854775808 + (1022 + 1)) };
      r.shdsts = BitVec.ofNat 64 (9223372036854775808 + (1022 + 1)) ∧ 1022 < 1024 ∧ 1022 + 1 < 1024) ∧
    (let s := evState fullRegs (tsk []) stoppedThread;
      s.task? 1 = some (own (tsk []) stoppedThread) ∧ (own (tsk []) stoppedThread).ctx = 0 ∧
      (own (tsk []) stoppedThread).threads = [(0, stoppedThread)] ∧ stoppedThread.halted = true ∧ stoppedThread.image = none) ∧
    (let s := evState fullRegs (tsk []) imagedThread;
      s.task? 1 = some (own (tsk []) imagedThread) ∧ imagedThread.halted = true ∧ imagedThread.image.isSome = true) :=
  ⟨by decide +kernel, by decide +kernel, by decide +kernel, by decide +kernel, ⟨rfl, rfl, rfl, rfl, rfl⟩, rfl, rfl, rfl⟩

/-- R399: DEBUG_RESUME lets a stopped thread go on. -/
theorem test_debugResume :
    ((threadOf (exec (.debugResume 0 1) (evState fullRegs (tsk []) stoppedThread))).map Thread.halted) = some false := by
  decide +kernel

theorem test_hyps_HostEvents :
    (let s := evState fullRegs (tsk []) (thr []);
      s.regs.serves = true ∧ s.regs.hostUp = true ∧ 0x17F + 1 ≤ s.usable ∧ ([7] : List Byte) ≠ [] ∧ 0x17F % 128 + 1 ≤ 128 ∧
      s.lineParts (0x17F / 128) = [] ∧ 0x17E + 4 ≤ s.usable ∧ (∀ l ∈ linesOf 0x17E 4, s.lineParts l = []) ∧
      (∀ w ∈ s.writes, w.line ∉ linesOf 0x17E 4) ∧
      (let p := { s with writes := [⟨9, 3, [(384, 1)], 576, [], 9, false, []⟩] }; ∃ w ∈ p.writes, w.line ∈ linesOf 0x17E 4) ∧
      25 ≤ s.regs.clk ∧ s.lineParts (562949953421312 + 5) = [] ∧ s.regs.level ≠ 0 ∧ s.regs.level ≠ 3 ∧ 0x3E00001000 ≤ 0x3E00001007 ∧
      0x3E00001007 + 1 ≤ 0x3E00001008) ∧
    (let s := State.reset;
      s.regs.level = 0 ∧
      (State.readCtx { s with mem := memWriteAll s.mem ((([(0x8001C, 1), (0x8001D, 0x10)] : KMap Byte)).filter fun p => p.1 < 68719476736) }
        0x80000).isSome = true) ∧
    (let s := { State.reset with regs := { Regs.reset with level := 1, train := true, stest := true }, ctxs := [(0, loadCtx)] };
      s.regs.level = 1 ∧ s.regs.train = true ∧ s.regs.stest = true ∧ s.ctxs.all (fun p => p.1 = 0) = true) := by
  refine ⟨by decide +kernel, by decide +kernel, by decide +kernel⟩

/-- R416: a step of 25 MHz, and none below 625 MHz. -/
theorem test_throttle :
    (match exec .thermalThrottle (evState { fullRegs with clk := 50 } (tsk []) (thr [])) with
      | .next s => some s.regs.clk
      | _ => none) = some 49 ∧
    (match exec .thermalThrottle (evState fullRegs (tsk []) (thr [])) with
      | .next s => some s.regs.clk
      | _ => none) = some 25 := by decide +kernel

/-! ### The fabric -/

/-- Export 0 of peer 1: 4 KiB at 0x30100, to read and to write; a loop-back is not meant, this module is peer 0. -/
def farState (kept : KMap Replay) (outs : KMap OutReq) (dtime : Nat) : State :=
  { one (tsk []) (thr []) with
    mem := [(0x1000, 1), (0x1001, 0x20), (0x2000, 1), (0x2001, 0x30), (0x3000, 0x1F), (0x8401, 1), (0x8402, 3), (0x8409, 0x10),
      (0x840F, 0xE0), (0x30104, 2)]
    ctxs := [(0, { loadCtx with ptroot := 0x1000, inccfg := 0x00080008, incdir := 0x00070000, incs := [(3, ⟨10, 10, []⟩)] })]
    regs := { fullRegs with exptb := 0x8000000000008000 }, replay := kept, outs := outs, dtime := dtime }

/-- A request was performed, its result is data, and a condition holds of the state. -/
def servedData (p : State → Bool) : Served → Bool
  | .done s (.data _) _ _ => p s
  | _ => false

theorem servedData_iff (p : State → Bool) (x : Served) (h : servedData p x = true) :
    ∃ s ws w roe, x = .done s (.data ws) w roe ∧ p s = true := by
  cases x with
  | again _ => cases h
  | done s res w roe =>
    cases res with
    | data ws => exact ⟨s, ws, w, roe, rfl, h⟩
    | poisoned _ => cases h
    | unknown => cases h
    | bounds _ => cases h
    | misaligned _ => cases h
    | outside _ => cases h

/-- Requests of peer 1: an addition, a posted store. -/
def farAdd : RemoteReq := ⟨1, 5, 0, 4, .atom 0 0 1⟩
def farStore : RemoteReq := ⟨1, 5, 0, 4, .store [9]⟩
/-- A result of peer 1's request that is kept, which was performed at tick 6. -/
def keptAt (res : Option RemoteRes) (owed : Bool) : KMap Replay := [(replayKey 1 5, ⟨res, 6, owed⟩)]

theorem test_hyps_FabricEvents :
    (let s := farState [] [] 0;
      s.regs.serves = true ∧ s.linked = true ∧ opRepeatable farRead.op = true ∧ opRepeatable farAdd.op = false ∧
      farRead.src ≠ s.regs.peerid ∧ KMap.get? (replayKey 1 5) s.replay = none) ∧
    (∃ s2 ws w roe, (farState [] [] 0).serve farRead = .done s2 (.data ws) w roe ∧
      (farRead.src != s2.regs.peerid && s2.regs.serves && s2.linked) = true) ∧
    (∃ s2 ws w roe, (farState [] [] 0).serve farAdd = .done s2 (.data ws) w roe ∧ true = true) ∧
    (∃ s2 ws w roe, (farState [] [] 0).serve farStore = .done s2 (.data ws) w roe ∧ true = true) ∧
    (∀ res owed, KMap.get? (replayKey 1 5) (farState (keptAt res owed) [] 7).replay = some ⟨res, 6, owed⟩) ∧
    (6 < (farState (keptAt (some (.data [2])) true) [] 5126).dtime ∧ 6 + 5120 ≤ (farState (keptAt (some (.data [2])) false) [] 5126).dtime ∧
      (farState (keptAt (some (.data [2])) false) [] 5125).dtime < 6 + 5120) ∧
    (let s := farState [] [(9, outReq false)] 10240;
      KMap.get? 9 s.outs = some (outReq false) ∧ s.outs.filter (fun p => p.2.req.tag == 9) = [(9, outReq false)] ∧
        (outReq false).part = 0 ∧ (outReq false).posted = false ∧ (outReq false).eng = none ∧ (outReq false).async = none ∧ s.thread? 1 0 = some (thr []) ∧ (outReq false).sent + 10240 ≤ s.dtime ∧
      (outReq false).sent + 1250 * ((outReq false).resends + 1) ≤ s.dtime ∧ (outReq false).peer ≠ s.regs.peerid) ∧
    (let s := farState [] [(9, outReq true)] 10240;
      KMap.get? 9 s.outs = some (outReq true) ∧ s.outs.filter (fun p => p.2.req.tag == 9) = [(9, outReq true)] ∧ s.thread? 1 0 = some (thr []) ∧ (thr []).posted = none ∧
      (outReq true).sent + 10240 ≤ s.dtime) ∧
    (let s := farState [] [(9, outReq false), (10, { outReq false with tid := 1 })] 10239;
      s.outs.filter (fun p => p.2.req.tag == 9) = s.outs ∧ (s.outs.map Prod.fst).Nodup ∧
      (s.outs.map fun p => (p.2.accn, p.2.tid)).Nodup ∧ ∀ p ∈ s.outs, s.dtime < p.2.sent + 10240) ∧
    (((farState [] [] 0).ctx? 0).map fun c => (KMap.get? 3 c.incs, c.federated 3, c.fgrp, c.isMax 3)) =
      some (some ⟨10, 10, []⟩, true, 7, false) ∧
    ((∃ x ∈ (farState [] [] 0).ctxs, x.2.federated 3 = true ∧ x.2.fgrp = 7) ∧
      (∀ x ∈ (farState [] [] 0).ctxs, x.2.federated 3 = true → x.2.fgrp = 7 → x.2.isMax 3 ≠ true) ∧
      ({ farState [] [] 0 with regs := { fullRegs with level := 3 } } : State).regs.serves = false) := by
  refine ⟨by decide +kernel, servedData_iff _ _ (by decide +kernel), servedData_iff (fun _ => true) _ (by decide +kernel),
    servedData_iff (fun _ => true) _ (by decide +kernel), fun _ _ => rfl, by decide +kernel, ?_, ?_, by decide +kernel, ?_, ?_⟩
  · decide +kernel
  · decide +kernel
  · decide +kernel
  · decide +kernel

/-- R151: a repeated atomic is answered from its kept result. -/
theorem test_kept_result :
    (match exec (.remoteRequestArrival farAdd) (farState (keptAt (some (.data [2])) true) [] 7) with
      | .next s => some s.sent
      | _ => none) = some [.response 1 5 (.data [2]) false] := by decide +kernel
/-! ### Waits, queues, ends, memory -/

/-- A context of weight 1 with a watchdog of 1,024 ticks, a minimum in incumbent 3, and task 0 of it cancelled. -/
def evCtx : Ctx := { loadCtx with tvec := 0x60000, watchdog := 10, inccfg := 8, incs := [(3, ⟨10, 10, []⟩)], cancelled := [(0, 0)] }
/-- The state of these events. -/
def evAt (tk : Task) (dtime : Nat) : State :=
  { one (tsk []) (thr []) with tasks := [(1, tk)], ctxs := [(0, evCtx)], mem := pagesOf [], dtime := dtime }
/-- One thread that waits. -/
def waiting (w : Wait) (n : Nat) : Thread := { thr [] with cond := .held w, waited := n }
/-- A task that waits for a chunk, and one that waits for a page of effect buffer. -/
def wantTask (cls : Nat) : Task := own { tsk [] with wants := [⟨cls, 1, loadAddr, 0⟩] } (waiting .resource 0)
/-- A task that waits for 100 pages of effect buffer, of which a younger one holds 60. -/
def wantMuch : Task := own { tsk [] with wants := [⟨3, 100, loadAddr, 0⟩] } (waiting .resource 0)
/-- The same in an irrevocable task, and an older one that holds 60. -/
def wantFirm : Task := { wantMuch with irrevocable := true }
def oldTask : Task := { own (tsk []) (thr []) with rcd := { loadRec with accn := 0 }, ebPages := 60 }
def youngTask : Task := { own (tsk []) (thr []) with rcd := { loadRec with accn := 2 }, ebPages := 60 }
/-- A thread whose barrier is complete. -/
def doneThread : Thread := { thr [] with bars := [⟨0, true, 1, true, 0, true, true⟩], cond := .held .barrier }
/-- A thread in the drawer of the test word. -/
def filedThread : Thread := { thr [] with cond := .filed 0 }

theorem test_hyps_WaitEvents :
    (∀ n, n = 1023 ∨ n = 1024 →
      let s := evAt (own (tsk []) (waiting .line n)) 0;
      s.task? 1 = some (own (tsk []) (waiting .line n)) ∧ s.thread? 1 0 = some (waiting .line n) ∧
      s.watchReady (own (tsk []) (waiting .line n)) (waiting .line n) = decide (n = 1024) ∧
      s.tvec (own (tsk []) (waiting .line n)) ≠ 0 ∧ (waiting .line n).h = false ∧ (waiting .line n).rep = none) ∧
    ((evAt (own (tsk []) filedThread) 0).drawReady 0 1 filedThread.pc.toNat = true) ∧
    (∀ cls ∈ [0, 1, 2, 3, 4], (evAt (wantTask cls) 0).grantable (wantTask cls) = some ⟨cls, 1, loadAddr, 0⟩) ∧
    (let s := { evAt (own (tsk []) (waiting .lock 0)) 0 with locks := [⟨7, 1, 0, false, some ⟨6, false, [0]⟩⟩] };
      s.lockWaiters 7 = [⟨7, 1, 0, false, some ⟨6, false, [0]⟩⟩] ∧ s.lockFits ⟨7, 1, 0, false, some ⟨6, false, [0]⟩⟩ = true ∧
      (⟨7, 1, 0, false, some ⟨6, false, [0]⟩⟩ : LockEntry).wants ≠ 0 ∧ s.tileFull (nameOf 7) 1 = false ∧ s.thread? 1 0 = some (waiting .lock 0)) ∧
    (({ evAt (wantMuch) 0 with tasks := [(1, wantMuch), (2, youngTask)] } : State).grantable wantMuch = none ∧
      ({ evAt (wantMuch) 0 with tasks := [(1, wantMuch), (2, youngTask)] } : State).redecides wantMuch =
        some (⟨3, 100, loadAddr, 0⟩, .wait [2])) ∧
    (({ evAt wantFirm 0 with tasks := [(0, oldTask), (1, wantFirm)] } : State).grantable wantFirm = none ∧
      ({ evAt wantFirm 0 with tasks := [(0, oldTask), (1, wantFirm)] } : State).redecides wantFirm = some (⟨3, 100, loadAddr, 0⟩, .blocked)) ∧
    ((evAt (own (tsk []) doneThread) 0).thread? 1 0 = some doneThread ∧ doneThread.barDone ((256 : Nat) == 256) (256 % 256) = true) ∧
    ((waiting .line 0).cond = .held .line ∧ (waiting .event 0).cond = .held .event) := by
  refine ⟨fun n h => ?_, ?_, ?_, ?_, ?_, ?_, ?_, ⟨rfl, rfl⟩⟩
  · rcases h with h | h <;> subst h <;> exact ⟨rfl, rfl, by decide +kernel, by decide +kernel, rfl, rfl⟩
  all_goals decide +kernel

/-- R304: the watchdog raises its cause. -/
theorem test_watchdog :
    ((threadOf (exec (.watchdog 1 0) (evAt (own (tsk []) (waiting .line 1024)) 0))).map fun th => (th.tcause, th.h)) =
      some (0x0013, true) := by decide +kernel

/-- A record in the queue of cluster 0, which depends on the event at `dep`. -/
def queuedTask (dep : Nat) (ok : Bool) : Task :=
  { Task.fresh { loadRec with depev := dep, paccn := 5 } 0 0 0 0 [] with eligible := ok }
/-- The same under task 0, which has been cancelled. -/
def orphan : Task := { queuedTask 0 true with rcd := { loadRec with paccn := 0 } }

theorem test_hyps_QueueEvents :
    (let s := evAt (queuedTask 0x30110 false) 0;
      s.task? 1 = some (queuedTask 0x30110 false) ∧ (queuedTask 0x30110 false).phase = .queued ∧
      (queuedTask 0x30110 false).eligible = false ∧ (queuedTask 0x30110 false).rcd.depev < 72057594037927936 ∧
      (s.keysOf 0 ⟨true, false, false⟩ 0x30110 16).toOption = some ((List.range 16).map (0x30110 + ·), page3 0x3011F) ∧
      s.poisoned ((List.range 16).map (0x30110 + ·)) = false ∧
      s.copied ((((List.range 16).map (0x30110 + ·)).map Machine.lineOf).eraseDups) = none ∧
      ({ s with poison := [0x602] } : State).poisoned ((List.range 16).map (0x30110 + ·)) = true) ∧
    ((queuedTask 72057594037927920 false).rcd.depev < 72057594037927936 ∧
      (match (evAt (queuedTask 72057594037927920 false) 0).keysOf 0 ⟨true, false, false⟩ 72057594037927920 16 with
        | .error e => some (recallLine e.1)
        | .ok _ => none) = some none) ∧
    (let s := evAt (queuedTask 0 true) 0;
      s.firstPlaced 0 (s.placeOrder 0) = some ([], 1, [(1, 0)]) ∧ s.queueDominated (queuedTask 0 true) = false ∧
      s.firstPlaced 1 (s.placeOrder 1) = none ∧ s.reserveReady 0 1 = false) ∧
    ((evAt { queuedTask 0 true with passed := some 0 } 4096).reserveReady 0 1 = true) ∧
    (let s := evAt (queuedTask 0 true) 0;
      (∀ c ∈ s.cores, c.2.parts = []) ∧ s.scanHit (queuedTask 0 true) = false ∧ s.maySteal 1 0 = true ∧ s.maySteal 0 0 = false ∧
      ((s.victim 1 0).bind fun k => (s.stealOrder k 0).head?) = some 1) ∧
    (let s := evAt orphan 0;
      s.firstPlaced 0 (s.placeOrder 0) = some ([], 1, [(1, 0)]) ∧ s.tasks = [(1, orphan)] ∧
      orphan.phase = .queued ∧ orphan.cluster = 0 ∧ s.scanHit orphan = true ∧ s.isCoop orphan = false) ∧
    ((evAt orphan 4095).dtime < 4096 * ((evAt orphan 4095).epoch + 1)) ∧
    (4096 * ((evAt orphan 4096).epoch + 1) ≤ (evAt orphan 4096).dtime ∧ (KMap.keys (evAt orphan 4096).cores).Nodup ∧
      KMap.get? 0 (evAt orphan 4096).cores = some { Core.empty with squads := [(0, ⟨1, 0, true⟩)], nextSquad := 1 }) :=
  by refine ⟨?_, ?_, ?_, ?_, ?_, ?_, ?_, ?_⟩ <;> decide +kernel

/-- A record of task 0, which has been cancelled, goes with it, and one that fits starts at the word of its ENTRY. -/
theorem test_scan_and_start :
    (match exec (.queueScan 0) (evAt orphan 0) with
      | .next s => some (s.task? 1)
      | _ => none) = some none ∧
    ((threadOf (exec (.taskPlacement 0) (evAt (queuedTask 0 true) 0))).map Thread.pc) = some (dword loadAddr) := by decide +kernel

/-- A stop that waits for its event. -/
def stopOf' (k : StopKind) : Stop := ⟨k, none, 0, 0, 0, 0, false⟩
/-- A task that is told to stop. -/
def toldTask (k : StopKind) (irr : Bool) : Task := { own (tsk []) (thr []) with stop := some (stopOf' k), irrevocable := irr }
/-- A task whose threads have exited. -/
def endingTask (irr : Bool) : Task := { own (tsk []) { thr [] with cond := .exited } with phase := .ending, irrevocable := irr }
/-- A task that has ended. -/
def endedTask : Task := { tsk [] with phase := .waitTurn, ended := some (0, 0), threads := [] }
/-- The task of context 1, with its thread on its core or away. -/
def farTask (away : Bool) : Task := own { tsk [] with ctx := 1 } { thr [] with away := away }

/-- A task with a thread that stands within a chain. -/
def chainTask : Task :=
  own (tsk []) { thr [] with
    pc := dword (loadAddr + 4), base := some ⟨0, 0, Vector.replicate 4 0, false, 0, (tsk []).s, 0, 0, 0⟩
    pkt := some ⟨loadAddr, [0x88410820, 0x08410820, 0]⟩ }

theorem test_hyps_TaskEnds :
    (∀ k, k = .cancel ∨ k = .wound → ∀ irr,
      let s := evAt (toldTask k irr) 0;
      s.task? 1 = some (toldTask k irr) ∧ (toldTask k irr).stop = some (stopOf' k) ∧ s.immune (toldTask k irr) = irr ∧
      s.isCoop (toldTask k irr) = false ∧ s.midGroup 1 (toldTask k irr) = false ∧ (toldTask k irr).rcd.rlcnt < 65535) ∧
    (let s := evAt (endedTask) 0;
      s.task? 1 = some endedTask ∧ s.commitReady 1 endedTask = true ∧ endedTask.ended.isSome = true ∧ s.eventCopies endedTask = none) ∧
    (let s := evAt chainTask 0;
      s.task? 1 = some chainTask ∧ chainTask.ended = none ∧ s.midGroup 1 chainTask = true) ∧
    (∀ irr, let s := evAt (endingTask irr) 0;
      s.task? 1 = some (endingTask irr) ∧ s.commitReady 1 (endingTask irr) = true ∧ (endingTask irr).ended = none ∧
      (endingTask irr).commitT = none ∧ ((endingTask irr).irrevocable = true ∨
        (s.dominatedNow (endingTask irr) = false ∧ (endingTask irr).ebuf = [] ∧ (endingTask irr).parts = []))) ∧
    ((evAt (toldTask .cancel false) 0).commitReady 1 (toldTask .cancel false) = false) ∧
    (let x : Launch := ⟨0, true, false, false, 2, 0, none, [], false⟩;
      let s := { evAt endedTask 0 with launches := [(0, x)] };
      let s' := { evAt endedTask 0 with launches := [(0, { x with turn := 1 })] };
      s.launch? 0 = some x ∧ s.turnReady 0 x = true ∧ s.taskOf 0 x.turn = some (1, endedTask) ∧
      s'.turnReady 0 { x with turn := 1 } = true ∧ s'.taskOf 0 1 = none ∧
      s'.turnReady 0 { x with turn := 2 } = false) ∧
    (let s := { evAt (farTask false) 0 with regs := { fullRegs with saves := 1 } };
      KMap.get? 0 (s.core 0).squads = some ⟨1, 0, true⟩ ∧ s.task? 1 = some (farTask false) ∧ s.evictReady 0 0 = true ∧
      s.evictWaits 1 ((farTask false).squadThreads 0 0) = false ∧
      ({ s with outs := [(9, { outReq false with req := farAdd })] } : State).evictReady 0 0 = true ∧
      ({ s with outs := [(9, { outReq false with req := farAdd })] } : State).evictWaits 1 ((farTask false).squadThreads 0 0) = true ∧ (farTask false).coreOf 0 = 0 ∧ s.restoreReady 0 0 = false) ∧
    ((evAt (farTask false) 0).evictReady 0 0 = false ∧ (evAt (farTask true) 0).restoreReady 0 0 = true) := by
  refine ⟨fun k h irr => ?_, by decide +kernel, by decide +kernel, fun irr => ?_, by decide +kernel, by decide +kernel, by decide +kernel,
    by decide +kernel⟩
  · rcases h with h | h <;> subst h <;> cases irr <;> exact ⟨rfl, rfl, by decide +kernel, by decide +kernel, by decide +kernel, by decide +kernel⟩
  · cases irr <;> exact ⟨rfl, by decide +kernel, rfl, rfl, by decide +kernel⟩

/-- R395, R397: an evicted thread is away, with the pc it had. -/
theorem test_evict :
    ((threadOf (exec (.squadEvict 0 0) { evAt (farTask false) 0 with regs := { fullRegs with saves := 1 } })).map fun th =>
      (th.away, th.pc)) = some (true, dword loadAddr) := by decide +kernel

theorem test_hyps_MemoryEvents :
    (let s := { evAt (own (tsk []) (thr [])) 5 with writes := [⟨9, 3, [(384, 1)], 0, [1], 9999, false, []⟩, ⟨5, 2, [(256, 7), (257, 8)], 0, [1], 9999, false, []⟩] };
      s.nextWrite = some ⟨5, 2, [(256, 7), (257, 8)], 0, [1], 9999, false, []⟩ ∧ (KMap.keys ([(256, 7), (257, 8)] : KMap Byte)).Nodup ∧
      ({ s with dtime := 4 } : State).nextWrite = none) ∧
    (let s := { evAt (own (tsk []) (thr [])) 0 with cores := [(0, { Core.empty with l1 := [(2, ⟨[(1, ⟨9, [(1, 0)], 0⟩)], none⟩)] })] };
      s.lineParts 2 = [] ∧ (s.l1 0 2).dirty ≠ [] ∧ (s.l1 0 3).dirty = [] ∧ s.lineParts 3 = []) ∧
    ((evAt (own (tsk []) (thr [])) 0).ctx? 0 = some evCtx ∧ KMap.get? 3 evCtx.incs = some ⟨10, 10, []⟩) ∧
    ((own (tsk []) (thr [])).resident = true ∧ (queuedTask 0 true).resident = false) ∧
    ((farState [] [] 0).regs.serves = true ∧ farRead.src ≠ (farState [] [] 0).regs.peerid ∧ (farState [] [] 0).linked = true ∧
      KMap.get? (replayKey 1 5) (farState [] [] 0).replay = none) ∧
    (let r : RemoteReq := { farAdd with src := 0 };
      let s := { farState [] [(5, { outReq false with req := r })] 0 with agenda := [.remoteRequestArrival r] };
      s.regs.serves = true ∧ r.src = s.regs.peerid ∧ s.ownRequest r false = true) :=
  ⟨by decide +kernel, by decide +kernel, ⟨rfl, rfl⟩, by decide +kernel, by decide +kernel, by decide +kernel⟩

/-! ### Steps -/

/-- Nothing is under way: the task is alone with a word of IADD, which has or has not been fetched. -/
def idleState (th : Thread) : State :=
  { mapped (tsk []) th with
    mem := pagesOf [], issue := Issue.none }

/-- The packet of the test word. -/
def addPacket : Packet := ⟨loadAddr, [0x08410820, 0, 0]⟩
/-- A thread that is in it. -/
def inPacket : Thread := { thr [] with pkt := some addPacket }

theorem test_hyps_StepRunsDecoded :
    ((State.pick (State.reset.withFetchWord 32 0x08410820)).1 = some (.iadd ⟨false, 1, 1, 2, 2, false⟩)) ∧
    (let s := idleState inPacket;
      let q : Path := ⟨0, 0, ⟨dword loadAddr, none, some addPacket⟩⟩;
      s.issue.lanes = [] ∧ s.turns = [.issue 1 q] ∧ s.task? 1 = some (own (tsk []) inPacket) ∧
      q.at'.rep = none ∧ s.together (own (tsk []) inPacket) (s.onPath (own (tsk []) inPacket) q) = [0] ∧
      enterFault (((own (tsk []) inPacket).seen inPacket).chainRegs inPacket) addPacket.ws 0 loadAddr = none ∧ (decode 0x08410820).toOption = some (.iadd ⟨false, 1, 1, 2, 2, false⟩)) ∧
    (let s := idleState (thr []);
      let q : Path := ⟨0, 0, ⟨dword loadAddr, none, none⟩⟩;
      s.turns = [.issue 1 q] ∧ q.at'.pkt = none ∧
      (match s.drew.fetch (own (tsk []) (thr [])) (q.at'.pc.toNat / 12 * 12) with
        | .got _ _ => true
        | _ => false) = true) ∧
    (let s := { idleState inPacket with issue := ⟨1, [0], dword loadAddr, true⟩ };
      s.issue.lanes = [0] ∧ s.thread? s.issue.accn 0 = some inPacket ∧ inPacket.rep = none ∧ inPacket.pkt = some addPacket ∧
      addPacket.addr = inPacket.pc.toNat / 12 * 12) ∧
    (let s := idleState (thr []);
      loadAddr + 12 ≤ 72057594037927936 ∧
      (match s.keysOf 0 ⟨false, false, true⟩ loadAddr 12 with
        | .ok (ks, _) => !s.poisoned ks && !ks.any isReg && (s.copied ((ks.map Machine.lineOf).eraseDups)).isNone
        | .error _ => false) = true) :=
  by refine ⟨?_, ?_, ?_, ?_, ?_⟩ <;> decide +kernel

theorem test_hyps_RoundTrip :
    Instr.wf (.iadd ⟨false, 1, 2, 3, 2, false⟩) = true ∧ encode (.iadd ⟨false, 1, 2, 3, 2, false⟩) = some 0x08420C20 ∧
    (decode 0x08420C20).toOption = some (.iadd ⟨false, 1, 2, 3, 2, false⟩) := by decide +kernel

theorem test_hyps_InvKept :
    (match step (State.reset.withFetchWord 32 0x08410820) with
      | .next _ => true
      | _ => false) = true := by decide +kernel

end Sys2Proof.Tests
end

section
/-!
SUPPORT. The vector words of majors 0x04 to 0x0D: how `decode` reads them (R54, R58), and what one that writes V(D) does in each
thread (R68).
-/

namespace Sys2Proof

/-! ## Decoding majors 0x04 to 0x0D -/

/-- A word is accepted as its form reads it where the form passes its three checks and no rule on the chain bit, the guard or
the ORD field applies to the word (R54). -/
theorem decode_of_decodeForm {w : Word} {i : Instr} (hf : decodeForm w = some i) (hi : i.wf = true)
    (hc : noChain w = false) (hg : noGuard w = false) (ho : ordMisused w = false) : decode w = .ok i := by
  simp only [Instr.wf, Bool.and_eq_true] at hi
  obtain ⟨⟨hform, hguard⟩, hoperand⟩ := hi
  simp [decode, hf, hform, hguard, hoperand, hc, hg, ho]

theorem decode_of_decodeForm_none {w : Word} (hf : decodeForm w = none) : decode w = .error .illegalInstruction := by
  simp [decode, hf]

section Vector
variable {w : Word} {m : Nat} (hm : fMaj w = m) (h4 : 0x04 ≤ m) (hD : m ≤ 0x0D)
include hm h4 hD

theorem decodeForm_of_vector_major : decodeForm w = decodeVector w m := by
  unfold decodeForm
  interval_cases m <;> rw [hm] <;> rfl

theorem noChain_of_vector_major : noChain w = false := by
  unfold noChain
  interval_cases m <;> rw [hm] <;> rfl

theorem noGuard_of_vector_major : noGuard w = false := by
  unfold noGuard
  interval_cases m <;> rw [hm] <;> rfl

theorem ordMisused_of_vector_major : ordMisused w = false := by
  have : fMaj w ≠ 0x34 := by omega
  simp [ordMisused, this]

theorem decode_of_decodeVector {i : Instr} (hv : decodeVector w m = some i) (hi : i.wf = true) : decode w = .ok i :=
  decode_of_decodeForm ((decodeForm_of_vector_major hm h4 hD).trans hv) hi (noChain_of_vector_major hm h4 hD)
    (noGuard_of_vector_major hm h4 hD) (ordMisused_of_vector_major hm h4 hD)

theorem decode_of_decodeVector_none (hv : decodeVector w m = none) : decode w = .error .illegalInstruction :=
  decode_of_decodeForm_none ((decodeForm_of_vector_major hm h4 hD).trans hv)

end Vector

/-- A unary word has B 0 and no scalar bit (R58). -/
theorem unaryOk_iff {w : Word} : unaryOk w = true ↔ fB w = 0 ∧ fX w < 8 := by
  simp [unaryOk, Nat.div_eq_zero_iff]

end Sys2Proof

namespace Sys2Proof.Machine

/-! ## Words that write V(D) -/

theorem bValue_shell {tk tk' : Task} (h : tk.shell = tk'.shell) (th : Thread) (sb : Bool) (b : BitVec 6) :
    bValue tk th sb b = bValue tk' th sb b := by
  simp only [bValue, Task.sreg_shell h]

/-- A register word that computes V(D) from what it sees of the task and from its thread writes V(D) in each thread, and
nothing else. -/
theorem regWord_does_writesV {i : Instr} {s : State} {g : BitVec 3} {regs : List Nat} {d : BitVec 6} {v : Task → Thread → Word}
    (hi : exec i s = regWord g regs (fun tk th => th.setReg d.toNat (v tk th)) s) (hc : Clear s g regs)
    (hv : ∀ tk tk' th, tk.shell = tk'.shell → v tk th = v tk' th) : Does i s g (writesV d v) := by
  obtain ⟨s', hn, hp⟩ := regWord_does (f := fun tk th => th.setReg d.toNat (v tk th)) hc
    fun tk tk' th h => by rw [hv tk tk' th h]
  exact ⟨s', hi.trans hn, hp⟩

/-- A three-operand word of an SB major writes V(D) in each thread, and nothing else. -/
theorem binWord_does {i : Instr} {o : Bin} {f : Word → Word → Word → Word} {v : Task → Thread → Word} {s : State}
    (hi : exec i s = binWord o f s) (hc : Clear s o.g (binRegs o.d o.a o.b o.sb))
    (hv : ∀ tk th, f (th.reg o.a.toNat) (bValue tk th o.sb o.b) (th.reg o.d.toNat) = v tk th) :
    Does i s o.g (writesV o.d v) := by
  obtain rfl : (fun tk th => f (th.reg o.a.toNat) (bValue tk th o.sb o.b) (th.reg o.d.toNat)) = v := funext₂ hv
  exact regWord_does_writesV hi hc fun tk tk' th h => by rw [bValue_shell h]

/-- A two-operand word of an SB major with a type bit writes V(D) in each thread, and nothing else. -/
theorem binUWord_does {i : Instr} {o : BinU} {f : Word → Word → Word} {v : Task → Thread → Word} {s : State}
    (hi : exec i s = binUWord o f s) (hc : Clear s o.g (binRegs o.d o.a o.b o.sb))
    (hv : ∀ tk th, f (th.reg o.a.toNat) (bValue tk th o.sb o.b) = v tk th) : Does i s o.g (writesV o.d v) :=
  binWord_does (o := ⟨o.c, o.g, o.d, o.a, o.b, o.sb⟩) (f := fun a b _ => f a b) hi hc hv

/-- A unary word writes V(D) in each thread, and nothing else. -/
theorem unWord_does {i : Instr} {o : Un} {f : Word → Word} {v : Task → Thread → Word} {s : State}
    (hi : exec i s = unWord o f s) (hc : Clear s o.g [o.d.toNat, o.a.toNat])
    (hv : ∀ tk th, f (th.reg o.a.toNat) = v tk th) : Does i s o.g (writesV o.d v) := by
  obtain rfl : (fun _ th => f (th.reg o.a.toNat)) = v := funext₂ hv
  exact regWord_does_writesV hi hc fun _ _ _ _ => rfl

end Sys2Proof.Machine
end

section
/-!
SUPPORT. The logic words of major 0x0C (R73) and the bit-field words of major 0x0D (R75): their codes, their results, and the
statements O3 and O5 about them.
-/

namespace Sys2Proof

/-! ## Codes -/

section Logic
variable {w : Word} (hm : fMaj w = 0x0C)
include hm

theorem decode_logic {i : Instr} (hv : decodeVector w 0x0C = some i) (hi : i.wf = true) : decode w = .ok i :=
  decode_of_decodeVector hm (by decide) (by decide) hv hi

/-- The four words of two operands take any B and the scalar bit. -/
theorem decode_logic_binary :
    (fX w % 8 = 0 → decode w = .ok (.and (binOf w))) ∧ (fX w % 8 = 1 → decode w = .ok (.or (binOf w))) ∧
    (fX w % 8 = 2 → decode w = .ok (.xor (binOf w))) ∧ (fX w % 8 = 3 → decode w = .ok (.andn (binOf w))) := by
  refine ⟨fun hx => ?_, fun hx => ?_, fun hx => ?_, fun hx => ?_⟩ <;>
    exact decode_logic hm (by simp only [decodeVector, hx]) rfl

/-- The four unary words. -/
theorem decode_logic_unary (hB : fB w = 0) :
    (fX w = 4 → decode w = .ok (.not (unOf w))) ∧ (fX w = 5 → decode w = .ok (.popc (unOf w))) ∧
    (fX w = 6 → decode w = .ok (.clz (unOf w))) ∧ (fX w = 7 → decode w = .ok (.brev (unOf w))) := by
  refine ⟨fun hx => ?_, fun hx => ?_, fun hx => ?_, fun hx => ?_⟩ <;>
  · have hok : unaryOk w = true := unaryOk_iff.2 ⟨hB, by omega⟩
    exact decode_logic hm (by simp [decodeVector, hx, hok, when]) rfl

theorem decode_logic_unary_reserved (hx : 4 ≤ fX w % 8) (hbad : fB w ≠ 0 ∨ 8 ≤ fX w) :
    decode w = .error .illegalInstruction := by
  have hok : unaryOk w = false := by
    rw [← Bool.not_eq_true, unaryOk_iff, not_and_or, not_lt]
    exact hbad
  have hcase : fX w % 8 = 4 ∨ fX w % 8 = 5 ∨ fX w % 8 = 6 ∨ fX w % 8 = 7 := by omega
  refine decode_of_decodeVector_none hm (by decide) (by decide) ?_
  rcases hcase with hx | hx | hx | hx <;> simp [decodeVector, hx, hok, when]

end Logic

/-- The codes of the bit-field words of major 0x0D. -/
theorem decode_field {w : Word} (hm : fMaj w = 0x0D) :
    (fX w % 8 = 4 → decode w = .ok (.bfx ⟨fC w, fG w, fD w, fA w, fB w, fSb w, false⟩)) ∧
    (fX w % 8 = 5 → decode w = .ok (.bfx ⟨fC w, fG w, fD w, fA w, fB w, fSb w, true⟩)) ∧
    (fX w % 8 = 6 → decode w = .ok (.bfi (binOf w))) := by
  refine ⟨fun hx => ?_, fun hx => ?_, fun hx => ?_⟩ <;>
    refine decode_of_decodeVector hm (by decide) (by decide) ?_ rfl
  · have hu : fX w % 2 = 0 := by omega
    simp [decodeVector, hx, binUOf, hu]
  · have hu : fX w % 2 = 1 := by omega
    simp [decodeVector, hx, binUOf, hu]
  · simp only [decodeVector, hx]

end Sys2Proof

namespace Sys2Proof.Machine

/-! ## Which form each word has -/

section Exec
variable (s : State)

theorem exec_and (o : Bin) : exec (.and o) s = binWord o (fun a b _ => a &&& b) s := rfl
theorem exec_or (o : Bin) : exec (.or o) s = binWord o (fun a b _ => a ||| b) s := rfl
theorem exec_xor (o : Bin) : exec (.xor o) s = binWord o (fun a b _ => a ^^^ b) s := rfl
theorem exec_andn (o : Bin) : exec (.andn o) s = binWord o (fun a b _ => a &&& ~~~b) s := rfl
theorem exec_not (o : Un) : exec (.not o) s = unWord o (fun a => ~~~a) s := rfl
theorem exec_popc (o : Un) : exec (.popc o) s = unWord o popcW s := rfl
theorem exec_clz (o : Un) : exec (.clz o) s = unWord o clzW s := rfl
theorem exec_brev (o : Un) : exec (.brev o) s = unWord o brevW s := rfl
theorem exec_bfx (o : BinU) : exec (.bfx o) s = binUWord o (fun a b => if o.u then bfxS a b else bfxN a b) s := rfl
theorem exec_bfi (o : Bin) : exec (.bfi o) s = binWord o bfiW s := rfl

end Exec

/-! ## Results of the logic words (R73) -/

theorem popcW_eq (a : Word) : popcW a = BitVec.ofNat 32 (((List.range 32).filter a.getLsbD).length) := by
  rw [popcW, word, List.countP_eq_length_filter]

/-- The first set bit from the top of a word that is not 0 is the one its logarithm names. -/
theorem find?_getMsbD_of_ne_zero {a : Word} (h : a ≠ 0) :
    ((List.range 32).find? fun i => a.getMsbD i) = some (31 - Nat.log2 a.toNat) := by
  have hne : a.toNat ≠ 0 := fun h0 => h (BitVec.eq_of_toNat_eq h0)
  have hlog : Nat.log2 a.toNat < 32 := (Nat.log2_lt hne).2 a.isLt
  rw [List.find?_range_eq_some]
  refine ⟨?_, List.mem_range.2 (by omega), fun j hj => ?_⟩
  · have hidx : 32 - 1 - (31 - Nat.log2 a.toNat) = Nat.log2 a.toNat := by omega
    have hlt : 31 - Nat.log2 a.toNat < 32 := by omega
    simpa [BitVec.getMsbD, hidx, hlt, BitVec.getLsbD] using Nat.testBit_log2 hne
  · have hlt : a.toNat < 2 ^ (32 - 1 - j) := (Nat.log2_lt hne).1 (by omega)
    simp [BitVec.getMsbD, BitVec.getLsbD, Nat.testBit_lt_two_pow hlt]

theorem clzW_eq (a : Word) :
    clzW a = BitVec.ofNat 32 (((List.range 32).find? fun i => a.getMsbD i).getD 32) := by
  by_cases h : a = 0
  · subst h; decide
  · rw [find?_getMsbD_of_ne_zero h, Option.getD_some, clzW, if_neg h, word]

/-! ## The field of BFX and BFI and their results (R75) -/

theorem fieldPos_eq (b : Word) : fieldPos b = b.toNat % 32 := by
  simp [fieldPos, wbits]

theorem fieldWidth_eq (b : Word) : fieldWidth b = min (b.toNat / 32 % 32 + 1) (32 - fieldPos b) := rfl

/-- The field ends within the word: it is cut at bit 31. -/
theorem fieldPos_add_fieldWidth_le (b : Word) : fieldPos b + fieldWidth b ≤ 32 := by
  rw [fieldWidth_eq, fieldPos_eq]
  omega

theorem getLsbD_fieldMask (b : Word) (i : Nat) :
    (fieldMask b).getLsbD i = (decide (fieldPos b ≤ i) && decide (i < fieldPos b + fieldWidth b)) := by
  have hle := fieldPos_add_fieldWidth_le b
  rw [fieldMask, word, BitVec.getLsbD_ofNat, Nat.testBit_mul_two_pow, Nat.testBit_two_pow_sub_one, Bool.eq_iff_iff]
  simp only [Bool.and_eq_true, decide_eq_true_eq]
  omega

/-- BFX.N32 is the field, zero-extended. -/
theorem bfxN_eq (a b : Word) : bfxN a b = (a.extractLsb' (fieldPos b) (fieldWidth b)).setWidth 32 := by
  have hbit (i : Nat) : (bfxN a b).getLsbD i = (decide (i < 32) && (a &&& fieldMask b).getLsbD (i + fieldPos b)) := by
    rw [bfxN, word, BitVec.getLsbD_ofNat, Nat.testBit_div_two_pow, BitVec.getLsbD]
  refine BitVec.eq_of_getLsbD_eq fun i hi => ?_
  rw [hbit, BitVec.getLsbD_and, getLsbD_fieldMask, BitVec.getLsbD_setWidth, BitVec.getLsbD_extractLsb',
    Nat.add_comm i]
  by_cases hw : i < fieldWidth b <;> simp [hi, hw]

/-- BFX.S32 is the field, sign-extended. -/
theorem bfxS_eq (a b : Word) : bfxS a b = (a.extractLsb' (fieldPos b) (fieldWidth b)).signExtend 32 := by
  have hw : fieldWidth b ≤ 32 := by have := fieldPos_add_fieldWidth_le b; omega
  have hN := bfxN_eq a b
  generalize hx : a.extractLsb' (fieldPos b) (fieldWidth b) = x at hN ⊢
  have hxN : (bfxN a b).toNat = x.toNat := by rw [hN, BitVec.toNat_setWidth_of_le hw]
  have hsign : (bfxN a b).toNat / 2 ^ (fieldWidth b - 1) % 2 = 1 ↔ x.msb = true := by
    rw [hxN, BitVec.msb_eq_getLsbD_last, BitVec.getLsbD, Nat.testBit_eq_decide_div_mod_eq, decide_eq_true_eq]
  apply BitVec.eq_of_toNat_eq
  rw [BitVec.toNat_signExtend, ← hN, hxN, bfxS]
  by_cases hs : x.msb = true
  · have hlt : x.toNat < 2 ^ fieldWidth b := x.isLt
    have hp : 2 ^ fieldWidth b ≤ 2 ^ 32 := Nat.pow_le_pow_right (by decide) hw
    rw [if_pos (hsign.2 hs), if_pos hs, hxN, word, BitVec.toNat_ofNat, Nat.mod_eq_of_lt (by omega)]
  · rw [if_neg (mt hsign.1 hs), if_neg hs, hxN, Nat.add_zero]

theorem word_mul_two_pow (a : Word) (n : Nat) : word (a.toNat * 2 ^ n) = a <<< n := by
  apply BitVec.eq_of_toNat_eq
  rw [word, BitVec.toNat_ofNat, BitVec.toNat_shiftLeft, Nat.shiftLeft_eq]

theorem bfiW_eq (a b d : Word) : bfiW a b d = (d &&& ~~~(fieldMask b)) ||| ((a <<< fieldPos b) &&& fieldMask b) := by
  rw [bfiW, word_mul_two_pow]

/-! ## The statements -/

/-- Settles O3: `binWord_does` and `unWord_does` run each word, `popcW_eq` and `clzW_eq` give the counts, and the codes are read off `decodeVector`. -/
theorem logicWords : Obligations.LogicWords := by
  unfold Obligations.LogicWords
  refine ⟨fun o s hc => ?binary, fun o s hc => ?unary, fun w hm => ?codes⟩
  case binary =>
    exact ⟨binWord_does (exec_and s o) hc fun _ _ => rfl, binWord_does (exec_or s o) hc fun _ _ => rfl,
      binWord_does (exec_xor s o) hc fun _ _ => rfl, binWord_does (exec_andn s o) hc fun _ _ => rfl⟩
  case unary =>
    exact ⟨unWord_does (exec_not s o) hc fun _ _ => rfl, unWord_does (exec_popc s o) hc fun _ _ => popcW_eq _,
      unWord_does (exec_clz s o) hc fun _ _ => clzW_eq _, unWord_does (exec_brev s o) hc fun _ _ => rfl⟩
  case codes =>
    obtain ⟨hand, hor, hxor, handn⟩ := decode_logic_binary hm
    exact ⟨hand, hor, hxor, handn, decode_logic_unary_reserved hm, decode_logic_unary hm⟩

/-- Settles O5: `bfxN_eq`, `bfxS_eq` and `bfiW_eq` give the three results in terms of the field, which `fieldPos_eq` and
`fieldWidth_eq` read from b. -/
theorem fieldWords : Obligations.FieldWords := by
  unfold Obligations.FieldWords
  refine ⟨fun o s hc => binUWord_does (exec_bfx s o) hc fun tk th => ?bfx,
    fun o s hc => binWord_does (exec_bfi s o) hc fun tk th => ?bfi, fun w hm => decode_field hm⟩
  case bfx => rw [bfxS_eq, bfxN_eq, fieldWidth_eq, fieldPos_eq]; rfl
  case bfi => rw [bfiW_eq, fieldMask, fieldWidth_eq, fieldPos_eq]; rfl

end Sys2Proof.Machine
end

section
/-!
SUPPORT. The float-to-integer conversion (R189): its result for each kind of operand, the range it keeps to, and the statement
O15 about it.
-/

namespace Sys2Proof.Machine

section Conversion
variable {f : FFmt} {md : FMode} {lo hi : Int} {n : Nat}

/-! ## The result for each kind of operand -/

theorem cvtToInt_of_read_nan {sig : Bool} (h : f.read ⟨md.rm, md.flush && f.sig⟩ n = .nan sig) :
    cvtToInt f md lo hi n = (0, FFlags.inv) := by
  rw [cvtToInt, h]

theorem cvtToInt_of_read_inf {neg : Bool} (h : f.read ⟨md.rm, md.flush && f.sig⟩ n = .inf neg) :
    cvtToInt f md lo hi n = (if neg then lo else hi, FFlags.inv) := by
  rw [cvtToInt, h]

theorem cvtToInt_of_read_fin {neg : Bool} {m : Nat} {e : Int}
    (h : f.read ⟨md.rm, md.flush && f.sig⟩ n = .fin neg m e) :
    cvtToInt f md lo hi n =
      let q := roundUnits md.rm neg m e 0
      let x : Int := if neg then -(q.1 : Int) else q.1
      if x < lo then (lo, FFlags.inv) else if hi < x then (hi, FFlags.inv)
      else (x, ⟨false, false, false, false, q.2⟩) := by
  rw [cvtToInt, h]

/-! ## The range -/

/-- A range that holds 0, the result of a NaN, holds every result: an infinity gives an end, and a finite value an end or an
integer between them. -/
theorem cvtToInt_mem_Icc (hlo : lo ≤ 0) (hhi : 0 ≤ hi) : (cvtToInt f md lo hi n).1 ∈ Set.Icc lo hi := by
  have hle : lo ≤ hi := hlo.trans hhi
  cases hv : f.read ⟨md.rm, md.flush && f.sig⟩ n with
  | nan sig =>
    rw [cvtToInt_of_read_nan hv]
    exact ⟨hlo, hhi⟩
  | inf neg =>
    rw [cvtToInt_of_read_inf hv]
    cases neg
    · exact Set.right_mem_Icc.2 hle
    · exact Set.left_mem_Icc.2 hle
  | fin neg m e =>
    rw [cvtToInt_of_read_fin hv]
    dsimp only
    generalize (if neg then -((roundUnits md.rm neg m e 0).1 : Int) else (roundUnits md.rm neg m e 0).1) = x
    by_cases hbelow : x < lo
    · rw [if_pos hbelow]
      exact Set.left_mem_Icc.2 hle
    · rw [if_neg hbelow]
      by_cases habove : hi < x
      · rw [if_pos habove]
        exact Set.right_mem_Icc.2 hle
      · rw [if_neg habove]
        exact ⟨not_lt.1 hbelow, not_lt.1 habove⟩

end Conversion

/-! ## The statement -/

/-- Settles O15: `cvtToInt_mem_Icc` gives the range, and one equation for each kind of operand the result and its flags. -/
theorem integerConversion : Obligations.IntegerConversion := by
  unfold Obligations.IntegerConversion
  intro f md lo hi n hlo hhi
  obtain ⟨hmin, hmax⟩ := cvtToInt_mem_Icc (f := f) (md := md) (n := n) hlo hhi
  refine ⟨hmin, hmax, ?_⟩
  cases hv : f.read ⟨md.rm, md.flush && f.sig⟩ n with
  | nan sig => exact cvtToInt_of_read_nan hv
  | inf neg => exact cvtToInt_of_read_inf hv
  | fin neg m e => exact cvtToInt_of_read_fin hv

end Sys2Proof.Machine
end

section
/-!
SUPPORT. The words of majors 0x19 to 0x26: how `decode` reads them (R54, R197).
-/

namespace Sys2Proof

/-! ## Decoding majors 0x19 to 0x26 -/

/-- Where no rule on the chain bit, the guard or the ORD field applies to a word, the three checks of its form decide, in the
order of R54. -/
theorem decode_of_unrestricted {w : Word} {i : Instr} (hf : decodeForm w = some i)
    (hc : noChain w = false) (hg : noGuard w = false) (ho : ordMisused w = false) :
    decode w = if !i.formOk then .error .illegalInstruction else if !i.guardOk then .error .guardMisuse
      else if !i.operandOk then .error .illegalOperand else .ok i := by
  simp [decode, hf, hc, hg, ho]

section Major
variable {w : Word}

theorem noChain_of_major (hlo : 0x04 ≤ fMaj w) (hhi : fMaj w < 0x3A) : noChain w = false := by
  unfold noChain
  split
  · omega
  · simp only [Bool.or_eq_false_iff, Bool.and_eq_false_iff, beq_eq_false_iff_ne, decide_eq_false_iff_not]
    omega

theorem noGuard_of_major (hlo : 0x04 ≤ fMaj w) (hhi : fMaj w < 0x39) : noGuard w = false := by
  unfold noGuard
  split
  · omega
  · simp only [Bool.and_eq_false_iff, decide_eq_false_iff_not]
    omega

theorem ordMisused_of_major (h : fMaj w ≠ 0x34) : ordMisused w = false := by
  simp [ordMisused, h]

end Major

section Float
variable {w : Word} {m : Nat} (hm : fMaj w = m) (h19 : 0x19 ≤ m) (h26 : m ≤ 0x26)
include hm h19 h26

theorem decodeForm_of_float_major : decodeForm w = decodeFloat w m := by
  unfold decodeForm
  interval_cases m <;> rw [hm] <;> rfl

theorem decode_of_decodeFloat {i : Instr} (hv : decodeFloat w m = some i) :
    decode w = if !i.formOk then .error .illegalInstruction else if !i.guardOk then .error .guardMisuse
      else if !i.operandOk then .error .illegalOperand else .ok i :=
  decode_of_unrestricted ((decodeForm_of_float_major hm h19 h26).trans hv) (noChain_of_major (by omega) (by omega))
    (noGuard_of_major (by omega) (by omega)) (ordMisused_of_major (by omega))

theorem decode_of_decodeFloat_none (hv : decodeFloat w m = none) : decode w = .error .illegalInstruction :=
  decode_of_decodeForm_none ((decodeForm_of_float_major hm h19 h26).trans hv)

end Float

end Sys2Proof
end

section
/-!
SUPPORT. Float patterns: the value of a pattern by its exponent field (R174 to R176), what flush makes of it (R185), and what the
model's reading of an F32 pattern as a number says of the word itself.
-/

namespace Sys2Proof.Machine

/-! ## A pattern of any format -/

section Pattern
variable {f : FFmt} {n : Nat}

/-- With the exponent field all ones a pattern is an infinity or a NaN. -/
theorem FFmt.value_of_exp_top (he : n / 2 ^ f.fb % 2 ^ f.eb = f.top) :
    f.value n = if n % 2 ^ f.fb = 0 then .inf (n / f.signW % 2 == 1)
      else .nan (f.sig && n % 2 ^ f.fb / 2 ^ (f.fb - 1) == 0) :=
  if_pos he

/-- With the exponent field 0 it is a zero or a subnormal. -/
theorem FFmt.value_of_exp_zero (htop : f.top ≠ 0) (he : n / 2 ^ f.fb % 2 ^ f.eb = 0) :
    f.value n = .fin (n / f.signW % 2 == 1) (n % 2 ^ f.fb) (f.emin - f.fb) :=
  (if_neg fun h => htop (h.symm.trans he)).trans (if_pos he)

/-- With any other it is a normal number. -/
theorem FFmt.value_of_exp_ne (htop : n / 2 ^ f.fb % 2 ^ f.eb ≠ f.top) (he : n / 2 ^ f.fb % 2 ^ f.eb ≠ 0) :
    f.value n = .fin (n / f.signW % 2 == 1) (n % 2 ^ f.fb + 2 ^ f.fb)
      (((n / 2 ^ f.fb % 2 ^ f.eb : Nat) : Int) - f.bias - f.fb) :=
  (if_neg htop).trans (if_neg he)

/-- A pattern whose exponent field is not all ones has a finite value. -/
theorem FFmt.value_fin_of_exp_ne_top (htop : n / 2 ^ f.fb % 2 ^ f.eb ≠ f.top) : ∃ neg m e, f.value n = .fin neg m e := by
  by_cases he : n / 2 ^ f.fb % 2 ^ f.eb = 0
  · exact ⟨_, _, _, FFmt.value_of_exp_zero (fun h => htop (he.trans h.symm)) he⟩
  · exact ⟨_, _, _, FFmt.value_of_exp_ne htop he⟩

theorem FFmt.isNan_iff : f.isNan n = true ↔ n / 2 ^ f.fb % 2 ^ f.eb = f.top ∧ n % 2 ^ f.fb ≠ 0 := by
  by_cases htop : n / 2 ^ f.fb % 2 ^ f.eb = f.top
  · by_cases hm : n % 2 ^ f.fb = 0 <;> simp [FFmt.isNan, FFmt.value_of_exp_top htop, hm, htop, FVal.isNan]
  · obtain ⟨neg, m, e, hv⟩ := FFmt.value_fin_of_exp_ne_top htop
    simp [FFmt.isNan, hv, htop, FVal.isNan]

/-- A NaN signals where its format has signalling NaNs and the first bit of its fraction is clear (R174 to R176). -/
theorem FFmt.isSig_iff :
    f.isSig n = true ↔ f.isNan n = true ∧ f.sig = true ∧ n % 2 ^ f.fb / 2 ^ (f.fb - 1) = 0 := by
  rw [FFmt.isNan_iff]
  by_cases htop : n / 2 ^ f.fb % 2 ^ f.eb = f.top
  · by_cases hm : n % 2 ^ f.fb = 0 <;> simp [FFmt.isSig, FFmt.value_of_exp_top htop, hm, htop, FVal.sig]
  · obtain ⟨neg, m, e, hv⟩ := FFmt.value_fin_of_exp_ne_top htop
    simp [FFmt.isSig, hv, htop, FVal.sig]

/-- Under flush a pattern with exponent field 0 reads as the zero of its sign; otherwise a pattern reads as it stands, a zero as
the zero that it is. -/
theorem FFmt.flushed_eq {md : FMode} (htop : f.top ≠ 0) :
    f.flushed md n =
      if n / 2 ^ f.fb % 2 ^ f.eb = 0 ∧ (md.flush = true ∨ n % 2 ^ f.fb = 0) then f.zero (n / f.signW % 2 == 1) else n := by
  have hlt : n % 2 ^ f.fb < 2 ^ f.fb := Nat.mod_lt _ (Nat.two_pow_pos _)
  by_cases he : n / 2 ^ f.fb % 2 ^ f.eb = 0
  · have hv := FFmt.value_of_exp_zero htop he
    by_cases hfl : md.flush = true
    · simp [FFmt.flushed, FFmt.read, hv, hfl, hlt, he]
    · by_cases hm : n % 2 ^ f.fb = 0 <;> simp [FFmt.flushed, FFmt.read, hv, hfl, hm, he]
  · by_cases ht : n / 2 ^ f.fb % 2 ^ f.eb = f.top
    · by_cases hm : n % 2 ^ f.fb = 0 <;> simp [FFmt.flushed, FFmt.read, FFmt.value_of_exp_top ht, hm, he]
    · simp [FFmt.flushed, FFmt.read, FFmt.value_of_exp_ne ht he, he]

end Pattern

/-! ## An F32 pattern in a word -/

namespace F32

/-- An operand as it is read under flush: a subnormal is the zero of its sign (R185). -/
def read (flush : Bool) (x : Word) : Word :=
  if flush && x.toNat % 0x80000000 < 0x00800000 then x &&& 0x80000000 else x
/-- A word is a NaN: its magnitude lies above that of the infinities. -/
abbrev IsNan (x : Word) : Prop := 0x7F800000 < x.toNat % 0x80000000
/-- A word is a signalling NaN: the first bit of the fraction is clear (R174). -/
abbrev IsSig (x : Word) : Prop := IsNan x ∧ x.getLsbD 22 = false
/-- The order of the words that are not NaNs, −0 below +0 (R200). -/
abbrev Below (x y : Word) : Prop :=
  if x.msb then (y.msb = false ∨ y.toNat ≤ x.toNat) else y.msb = false ∧ x.toNat ≤ y.toNat
/-- A number that orders the words that are not NaNs, −0 equal to +0 (R201). -/
def num (x : Word) : Int := if x.msb then -((x.toNat % 0x80000000 : Nat) : Int) else x.toNat

end F32

/-- The exponent field of an F32 pattern (R174). -/
theorem f32_exp_field (n : Nat) : n / 2 ^ f32.fb % 2 ^ f32.eb = n / 8388608 % 256 := rfl

/-- The fraction field of an F32 pattern (R174). -/
theorem f32_frac_field (n : Nat) : n % 2 ^ f32.fb = n % 8388608 := rfl

theorem f32_signW : f32.signW = 2147483648 := rfl

section Word
variable (md : FMode) (x y : Word)

theorem toNat_sign_iff : x.toNat / 2147483648 % 2 = 1 ↔ x.msb = true := by
  have hlt := x.isLt
  rw [BitVec.msb_eq_decide, decide_eq_true_eq]
  omega

theorem toNat_and_signBit : (x &&& 0x80000000).toNat = x.toNat / 2147483648 % 2 * 2147483648 := by
  rw [BitVec.toNat_and, ← Nat.toNat_testBit x.toNat 31]
  exact Nat.and_two_pow x.toNat 31

theorem f32_zero_of_word : f32.zero (x.toNat / f32.signW % 2 == 1) = (x &&& 0x80000000).toNat := by
  rw [toNat_and_signBit, FFmt.zero, FFmt.withSign, f32_signW, Nat.zero_add]
  rcases Nat.mod_two_eq_zero_or_one (x.toNat / 2147483648) with h | h <;> rw [h] <;> rfl

theorem f32_isNan_iff : f32.isNan x.toNat = true ↔ F32.IsNan x := by
  have htop : f32.top = 255 := rfl
  rw [FFmt.isNan_iff, f32_exp_field, f32_frac_field, htop, F32.IsNan]
  omega

theorem f32_isSig_iff : f32.isSig x.toNat = true ↔ F32.IsSig x := by
  have hquiet : x.toNat % 2 ^ f32.fb / 2 ^ (f32.fb - 1) = 0 ↔ x.getLsbD 22 = false := by
    have hfirst : 2 ^ (f32.fb - 1) = 4194304 := rfl
    rw [f32_frac_field, hfirst, BitVec.getLsbD, Nat.testBit_eq_decide_div_mod_eq, decide_eq_false_iff_not]
    omega
  have hsig : f32.sig = true := rfl
  rw [FFmt.isSig_iff, f32_isNan_iff, hquiet, F32.IsSig]
  simp only [hsig, true_and]

/-- A zero is the zero of its sign whether or not it is flushed. -/
theorem f32_flushed_word : f32.flushed md x.toNat = (F32.read md.flush x).toNat := by
  rw [FFmt.flushed_eq (by decide), f32_exp_field, f32_frac_field, f32_zero_of_word, F32.read]
  by_cases hsmall : x.toNat % 2147483648 < 8388608
  · have he : x.toNat / 8388608 % 256 = 0 := by omega
    by_cases hfl : md.flush = true
    · simp [he, hfl, hsmall]
    · by_cases hm : x.toNat % 8388608 = 0
      · have hself : (x &&& 0x80000000).toNat = x.toNat := by
          have := x.isLt
          rw [toNat_and_signBit]
          omega
        rw [hself, ite_self]
        simp [hfl]
      · simp [hfl, hm]
  · have he : x.toNat / 8388608 % 256 ≠ 0 := by omega
    simp [he, hsmall]

/-- The magnitude of a word without a sign is the word. -/
theorem toNat_magnitude_of_msb (h : x.msb ≠ true) : x.toNat % 2147483648 = x.toNat := by
  have hlt := x.isLt
  rw [Ne, ← toNat_sign_iff] at h
  omega

theorem f32_key_word :
    f32.key x.toNat = if x.msb then -1 - ((x.toNat % 2147483648 : Nat) : Int) else x.toNat := by
  simp only [FFmt.key, f32_signW, toNat_sign_iff]
  split
  · rfl
  · rw [toNat_magnitude_of_msb x ‹_›]

theorem f32_ord_word : f32.ord x.toNat = F32.num x := by
  simp only [FFmt.ord, F32.num, f32_signW, toNat_sign_iff]
  split
  · rfl
  · rw [toNat_magnitude_of_msb x ‹_›]

/-- The key orders negative words below the others, and by falling magnitude. -/
theorem f32_key_le_iff : f32.key x.toNat ≤ f32.key y.toNat ↔ F32.Below x y := by
  have hx := toNat_sign_iff x
  have hy := toNat_sign_iff y
  have hxlt := x.isLt
  have hylt := y.isLt
  rw [f32_key_word, f32_key_word, F32.Below]
  by_cases hxm : x.msb = true
  · have hxs := hx.2 hxm
    by_cases hym : y.msb = true
    · -- both are negative: the greater word has the greater magnitude
      have hys := hy.2 hym
      simp [hxm, hym]
      omega
    · simp [hxm, hym]
      omega
  · by_cases hym : y.msb = true
    · simp [hxm, hym]
      omega
    · simp [hxm, hym]

end Word

end Sys2Proof.Machine
end

section
/-!
SUPPORT. FMIN and FMAX (R200) and FCMP (R201): their codes, their results, and the statements O12 and O13 about them.
-/

namespace Sys2Proof

/-! ## Codes -/

/-- FMIN and FMAX; codes 2 to 7 of major 0x1E are reserved. -/
theorem decode_minmax {w : Word} (hm : fMaj w = 0x1E) :
    (fX w % 8 = 0 → decode w = .ok (.fmin (binOf w))) ∧ (fX w % 8 = 1 → decode w = .ok (.fmax (binOf w))) ∧
    (2 ≤ fX w % 8 → decode w = .error .illegalInstruction) := by
  refine ⟨fun hx => ?_, fun hx => ?_, fun hx => ?_⟩
  · exact decode_of_decodeFloat hm (by decide) (by decide) (i := .fmin (binOf w)) (by simp only [decodeFloat, hx])
  · exact decode_of_decodeFloat hm (by decide) (by decide) (i := .fmax (binOf w)) (by simp only [decodeFloat, hx])
  · refine decode_of_decodeFloat_none hm (by decide) (by decide) ?_
    have h0 : fX w % 8 ≠ 0 := by omega
    have h1 : fX w % 8 ≠ 1 := by omega
    simp only [decodeFloat]

section Compare
variable {w : Word} (hm : fMaj w = 0x20)
include hm

/-- With X[3] clear FCMP has two checks: of its comparison and of its predicate pair. -/
theorem decode_fcmp (hx : fX w < 8) :
    decode w = if 4 < fX w then .error .illegalInstruction
      else if pairOk (cmpOf w).t (cmpOf w).f then .ok (.fcmp (cmpOf w)) else .error .illegalOperand := by
  have hv : decodeFloat w 0x20 = some (.fcmp (cmpOf w)) := by
    simp [decodeFloat, when, Nat.div_eq_of_lt hx]
  have hcode : (cmpOf w).x.toNat = fX w := Nat.mod_eq_of_lt hx
  rw [decode_of_decodeFloat hm (by decide) (by decide) hv]
  simp only [Instr.formOk, Instr.guardOk, Instr.operandOk, hcode]
  by_cases h4 : fX w ≤ 4
  · by_cases hp : pairOk (cmpOf w).t (cmpOf w).f = true <;> simp [h4, hp]
  · simp [h4]

theorem decode_fcmp_reserved (hx : 8 ≤ fX w) : decode w = .error .illegalInstruction := by
  refine decode_of_decodeFloat_none hm (by decide) (by decide) ?_
  have : fX w / 8 ≠ 0 := by omega
  simp [decodeFloat, when, this]

end Compare

/-- The predicate pair of a compare passes its check where the two names differ or are both P0 (R76). -/
theorem pairOk_cmpOf_iff {w : Word} :
    pairOk (cmpOf w).t (cmpOf w).f = true ↔ w.toNat / 65536 % 8 ≠ w.toNat / 524288 % 8 ∨ w.toNat / 65536 % 8 = 0 := by
  have ht : (cmpOf w).t.toNat = w.toNat / 65536 % 8 := by simp [cmpOf, bitsOf]
  have hf : (cmpOf w).f.toNat = w.toNat / 524288 % 8 := by simp [cmpOf, bitsOf]
  simp [pairOk, ← BitVec.toNat_inj, ht, hf]

end Sys2Proof

namespace Sys2Proof.Machine

/-! ## FMIN and FMAX -/

namespace F32

/-- What FMIN and FMAX give: a NaN gives way to a number, two give the canonical NaN, and two numbers give the one picked (R200). -/
def orPick (a b pick : Word) : Word :=
  if IsNan a ∧ IsNan b then 0x7FC00000 else if IsNan a then b else if IsNan b then a else pick

end F32

/-- FMIN and FMAX of two words, with the flags of R200. -/
theorem f32_minmax_word (md : FMode) (isMax : Bool) (x y : Word) :
    let a := F32.read md.flush x
    let b := F32.read md.flush y
    f32.minmax md isMax x.toNat y.toNat =
      ((F32.orPick a b (if (if isMax then F32.Below b a else F32.Below a b) then a else b)).toNat,
        if F32.IsSig a ∨ F32.IsSig b then FFlags.inv else FFlags.none) := by
  intro a b
  have hnan : f32.nan = (0x7FC00000 : Word).toNat := rfl
  simp only [FFmt.minmax, f32_flushed_word, Bool.or_eq_true, Bool.and_eq_true, f32_isSig_iff, f32_isNan_iff, f32_key_le_iff, hnan,
    F32.orPick]
  simp only [apply_ite BitVec.toNat]
  split_ifs <;> rfl

/-- The flush bit of a word without a suffix is FPMODE[2] (R185). -/
theorem Thread.fmode_flush (th : Thread) (r : BitVec 3) : (th.fmode r).flush = th.fpmode.getLsbD 2 := by
  rw [BitVec.getLsbD, Nat.testBit_eq_decide_div_mod_eq]
  rfl

/-- A thread with other float flags. -/
def Thread.withFlags (th : Thread) (w : Word) : Thread := { th with fpflags := w }

theorem Thread.flag_invalid_if (th : Thread) (p : Prop) [Decidable p] :
    th.flag (if p then FFlags.inv else FFlags.none) = th.withFlags (th.fpflags ||| (if p then 1 else 0)) := by
  split <;> rfl

@[simp] theorem word_toNat (x : Word) : word x.toNat = x := by rw [word, BitVec.ofNat_toNat, BitVec.setWidth_eq]

/-! ## FCMP -/

namespace F32

/-- What a comparison of FCMP writes to Pt: EQ, NE, LT, LE, and UNORD (R201). -/
def cmp (x : BitVec 3) (a b : Word) : Bool :=
  let nan := decide (IsNan a) || decide (IsNan b)
  if x = 0 then !nan && decide (num a = num b)
  else if x = 1 then nan || decide (num a ≠ num b)
  else if x = 2 then !nan && decide (num a < num b)
  else if x = 3 then !nan && decide (num a ≤ num b)
  else nan

/-- A comparison of FCMP raises invalid: LT and LE for any NaN, the others for a signalling one (R201). -/
def cmpInvalid (x : BitVec 3) (a b : Word) : Bool :=
  if x = 2 ∨ x = 3 then decide (IsNan a) || decide (IsNan b)
  else (decide (IsNan a) && !a.getLsbD 22) || (decide (IsNan b) && !b.getLsbD 22)

end F32

theorem f32_isNan_word (x : Word) : f32.isNan x.toNat = decide (F32.IsNan x) := by
  rw [Bool.eq_iff_iff, f32_isNan_iff, decide_eq_true_iff]

theorem f32_isSig_word (x : Word) : f32.isSig x.toNat = (decide (F32.IsNan x) && !x.getLsbD 22) := by
  rw [Bool.eq_iff_iff, f32_isSig_iff, Bool.and_eq_true, decide_eq_true_iff, Bool.not_eq_true']

/-- A comparison of FCMP of two words, one case for each row of the table of R201. -/
theorem fcmpHolds_word {x : BitVec 3} (hx : x.toNat ≤ 4) (md : FMode) (a b : Word) :
    fcmpHolds x.toNat md a.toNat b.toNat =
      (F32.cmp x (F32.read md.flush a) (F32.read md.flush b),
        if F32.cmpInvalid x (F32.read md.flush a) (F32.read md.flush b) then FFlags.inv else FFlags.none) := by
  have hcase : x = 0 ∨ x = 1 ∨ x = 2 ∨ x = 3 ∨ x = 4 := by
    simp only [← BitVec.toNat_inj]
    show x.toNat = 0 ∨ x.toNat = 1 ∨ x.toNat = 2 ∨ x.toNat = 3 ∨ x.toNat = 4
    omega
  unfold fcmpHolds
  simp only [f32_flushed_word, f32_isNan_word, f32_isSig_word, f32_ord_word]
  rcases hcase with rfl | rfl | rfl | rfl | rfl
  · rfl
  · have hne (i j : Int) : (i != j) = decide (i ≠ j) := by
      rw [Bool.eq_iff_iff, bne_iff_ne, decide_eq_true_iff]
    simp only [hne]
    rfl
  · rfl
  · rfl
  · rfl

/-- A predicate pair is written half by half; a half that is P0 is not written (R21, R76). -/
theorem Thread.setPair_eq (th : Thread) (t f : BitVec 3) (c : Bool) :
    th.setPair t f c =
      (if f = 0 then id else fun x : Thread => x.setPred f.toNat (!c)) (if t = 0 then th else th.setPred t.toNat c) := by
  have ht : th.setPred t.toNat c = if t = 0 then th else th.setPred t.toNat c := by
    split
    · subst t; rfl
    · rfl
  rw [Thread.setPair, ← ht]
  split
  · subst f; rfl
  · rfl

theorem Thread.setPair_fpflags (th : Thread) (t f : BitVec 3) (c : Bool) : (th.setPair t f c).fpflags = th.fpflags := by
  rw [Thread.setPair, Thread.setPred_fpflags, Thread.setPred_fpflags]

/-! ## The words -/

/-- A word that takes the lesser or the greater operand does so in each thread, and nothing else. -/
theorem minmaxWord_does {i : Instr} {o : Bin} {isMax : Bool} {s : State} (hi : exec i s = minmaxWord o isMax s)
    (hc : Clear s o.g (binRegs o.d o.a o.b o.sb)) :
    Does i s o.g fun _ tk th =>
      let a := F32.read (th.fpmode.getLsbD 2) (th.reg o.a.toNat)
      let b := F32.read (th.fpmode.getLsbD 2) (bValue tk th o.sb o.b)
      ((th.setReg o.d.toNat
        (F32.orPick a b (if (if isMax then F32.Below b a else F32.Below a b) then a else b))).withFlags
          (th.fpflags ||| (if F32.IsSig a ∨ F32.IsSig b then 1 else 0))).next := by
  obtain ⟨s', hn, hp⟩ := regWord_does (f := fun tk th => th.putF o.d.toNat
    (f32.minmax (th.fmode 0) isMax (th.reg o.a.toNat).toNat (bValue tk th o.sb o.b).toNat)) hc
    fun tk tk' th h => by rw [bValue_shell h]
  refine ⟨s', hi.trans hn, ?_⟩
  simpa only [Thread.putF, f32_minmax_word, word_toNat, Thread.flag_invalid_if, Thread.fmode_flush,
    Thread.setReg_fpflags] using hp

/-- FCMP writes its predicate pair and raises its flag in each thread, and does nothing else. -/
theorem fcmp_does {o : Cmp} {s : State} (hx : o.x.toNat ≤ 4) (hc : Clear s o.g [o.a.toNat, o.b.toNat]) :
    Does (.fcmp o) s o.g fun _ _ th =>
      let a := F32.read (th.fpmode.getLsbD 2) (th.reg o.a.toNat)
      let b := F32.read (th.fpmode.getLsbD 2) (th.reg o.b.toNat)
      ((th.setPair o.t o.f (F32.cmp o.x a b)).withFlags
        (th.fpflags ||| (if F32.cmpInvalid o.x a b then 1 else 0))).next := by
  obtain ⟨s', hn, hp⟩ := regWord_does (f := fun _ th =>
    let r := fcmpHolds o.x.toNat (th.fmode 0) (th.reg o.a.toNat).toNat (th.reg o.b.toNat).toNat
    (th.setPair o.t o.f r.1).flag r.2) hc fun _ _ _ _ => rfl
  refine ⟨s', hn, ?_⟩
  simpa only [fcmpHolds_word hx, Thread.flag_invalid_if, Thread.fmode_flush, Thread.setPair_fpflags] using hp

/-! ## The statements -/

/-- Settles O12: `f32_minmax_word` says of words what `f32.minmax` gives, `minmaxWord_does` runs both words, and
`decode_minmax` reads the codes. -/
theorem minMaxWords : Obligations.MinMaxWords := by
  unfold Obligations.MinMaxWords
  refine ⟨fun o s hc => ⟨?min, ?max⟩, fun md x y => ?value, fun w hm => decode_minmax hm⟩
  case min => exact minmaxWord_does (isMax := false) rfl hc
  case max => exact minmaxWord_does (isMax := true) rfl hc
  case value => exact ⟨f32_minmax_word md false x y, f32_minmax_word md true x y⟩

/-- Settles O13: `fcmpHolds_word` goes through the table of R201, `fcmp_does` runs the word, and `decode_fcmp` reads the code. -/
theorem floatCompare : Obligations.FloatCompare := by
  unfold Obligations.FloatCompare
  refine ⟨fun o s hx hc => ?runs, fun w hm => ⟨fun hx => ?reserved, fun hx heq hne => ?clash, fun hx hpair => ?ok⟩⟩
  case runs =>
    have h := fcmp_does hx hc
    simp only [Thread.setPair_eq] at h
    exact h
  case reserved =>
    by_cases h8 : fX w < 8
    · rw [decode_fcmp hm h8, if_pos (by omega)]
    · exact decode_fcmp_reserved hm (by omega)
  case clash =>
    rw [decode_fcmp hm (by omega), if_neg (by omega), if_neg (mt pairOk_cmpOf_iff.1 (by tauto))]
  case ok =>
    rw [decode_fcmp hm (by omega), if_neg (by omega), if_pos (pairOk_cmpOf_iff.2 hpair)]
    rfl

end Sys2Proof.Machine
end
